-- ==== Sys2Proof/Word.lean ====
section
/-! DEFINITION. The widths of the block's words (00_scope.md R7, R13; 30_encoding.md R80). -/

namespace Sys2Proof

/-- A byte (R7). -/
abbrev Byte := BitVec 8

/-- A line mask: bit 0 DATA, bit 1 CLOCK, bit 2 ATN, bit 3 RESET; a set bit means asserted (R7, R13). -/
abbrev LineMask := BitVec 4

/-- The command word W: byte 0 is `cmd`, bytes 1 to 6 are `p0` to `p5`, byte k in bits 8k+7 down to 8k (R80). -/
abbrev CmdWord := BitVec 56

/-- DATA = 0x01 (R13). -/
abbrev Line.data : LineMask := 0x1#4
/-- CLOCK = 0x02 (R13). -/
abbrev Line.clock : LineMask := 0x2#4
/-- ATN = 0x04 (R13). -/
abbrev Line.atn : LineMask := 0x4#4
/-- RESET = 0x08 (R13). -/
abbrev Line.reset : LineMask := 0x8#4

end Sys2Proof
end

