-- ==== Sys2Proof/Config.lean ====
section
/-! DEFINITION. The implementation's parameters (00_scope.md R6) and the model's free values. -/

namespace Sys2Proof

/-- What a second request does while one is outstanding: the one value of OVERLAP_POLICY (R6, 44_async_handler.md R264). -/
inductive OverlapPolicy where
  | reject
deriving DecidableEq, Repr

/-- The parameters of R6, one field a row, times in nanoseconds. Rows with a default have it here; the OPEN rows
have none. -/
structure Config where
  tSettle : Nat := 500
  tAck : Nat := 2000000
  tStall : Nat := 1000000000
  tListener : Nat := 20000000000
  tResetPulse : Nat := 20000000
  nResetProbe : Nat := 2000
  tResetStep : Nat := 1000000
  tProbeSettle : Nat := 100000
  tPreByte : Nat := 50000
  tBitSetup : Nat := 70000
  tBitHold : Nat := 20000
  tByteGapW : Nat := 100000
  tPostWrite : Nat := 100000
  tEoiDetect : Nat := 400000
  tEoiAck : Nat := 70000
  tByteGapR : Nat := 50000
  tTurn : Nat := 2000000
  tS2Setup : Nat := 20000
  tS2Hold : Nat := 80000
  tPollStep : Nat := 1000
  /-- OPEN: length of the IRQ_PAUSE busy pause (D36). -/
  tIrqPause : Nat
  /-- OPEN: watchdog period (D41). -/
  tWdt : Nat
  /-- the "overshoot allowed to a delay" in the watchdog's premise (70_reset_and_hazards.md R320); no rule gives it a
  number (log 12) -/
  overAllowed : Nat
  eventLogSize : Nat := 8
  /-- OPEN: firmware version bytes of INFO (D30). -/
  fwMajor : Byte
  fwMinor : Byte
  /-- OPEN: bootloader version bytes of INFO (D30). -/
  biosMajor : Byte
  biosMinor : Byte
  hasBiosInfo : Bool := true
  caps : BitVec 16 := 0x00F7#16
  overlapPolicy : OverlapPolicy := .reject
  debugCmds : Bool := true
  /-- the I/O buffer's capacity; rules R36, R37, R62, R63 and R203 write its number, 128 (log 13) -/
  bufSize : Nat := 128
  usbChunk : Nat := 8
  /-- OPEN: which logical parallel bits sit on which sub-port; no rule reads it (D22). -/
  ppSplit : Byte
deriving DecidableEq, Repr

/-- FREE VALUE (log 12): T_IRQ_PAUSE, left OPEN by R6. -/
opaque Config.openTIrqPause : Nat
/-- FREE VALUE (log 12): T_WDT, left OPEN by R6. -/
opaque Config.openTWdt : Nat
/-- FREE VALUE (log 12): the overshoot allowed to a delay by R320's premise, which states no number. -/
opaque Config.openOverAllowed : Nat
/-- FREE VALUE (log 12): FW_MAJOR, left OPEN by R6. -/
opaque Config.openFwMajor : Byte
/-- FREE VALUE (log 12): FW_MINOR, left OPEN by R6. -/
opaque Config.openFwMinor : Byte
/-- FREE VALUE (log 12): BIOS_MAJOR, left OPEN by R6. -/
opaque Config.openBiosMajor : Byte
/-- FREE VALUE (log 12): BIOS_MINOR, left OPEN by R6. -/
opaque Config.openBiosMinor : Byte
/-- FREE VALUE (log 12): PP_SPLIT, left OPEN by R6. -/
opaque Config.openPpSplit : Byte

/-- The configuration of the block as R6 gives it: every default, and a free value for every OPEN row and for R320's
allowance. -/
def Config.asBuilt : Config :=
  { tIrqPause := Config.openTIrqPause, tWdt := Config.openTWdt, overAllowed := Config.openOverAllowed,
    fwMajor := Config.openFwMajor, fwMinor := Config.openFwMinor, biosMajor := Config.openBiosMajor, biosMinor := Config.openBiosMinor,
    ppSplit := Config.openPpSplit }

/-- What the rules need of a configuration: a poll step that takes time (else a wait never ends), at least one log
entry (else `ev.head` has no value), chunks of at least one byte, a buffer that holds a command's two bytes (R273 (g))
and whose every count fits the 8-bit `io.fill` (R37; log 13). -/
def Config.wf (c : Config) : Bool :=
  decide (0 < c.tPollStep) && decide (0 < c.eventLogSize) && decide (0 < c.usbChunk) && decide (2 ≤ c.bufSize) &&
    decide (c.bufSize ≤ 255)

/-- One sample of the parallel port's pins: the byte the peer presents, and whether the peer drives the port while
the block drives it too (10_state.md R30, 93 U6). -/
structure PortSample where
  value : Byte
  contends : Bool
deriving DecidableEq, Repr, Inhabited

/-- FREE VALUE (log 4): the peer's line drives at the k-th sample that the input script does not give (R10). -/
opaque Config.freePeerLines : Nat → LineMask
/-- FREE VALUE (log 5): the parallel port's pins at the k-th sample that the input script does not give (R10). -/
opaque Config.freePortSample : Nat → PortSample
/-- FREE VALUE (log 6): the overshoot of the k-th DELAY that the input script does not give (R126, U8). -/
opaque Config.freeOvershoot : Nat → Nat

end Sys2Proof
end

