-- ==== Sys2Proof/Syntax.lean ====
section
/-! DEFINITION. The instructions: one constructor per row of spec/opcode_table.json, with the operands of
30_encoding.md R82, and the forms in which an instruction reaches or leaves the block. -/

namespace Sys2Proof

/-- The wire mode of a request (10_state.md R39): ORIGINAL (S1), SERIAL2 (S2), PARALLEL (PP), PARALLEL2 (P2). -/
inductive Proto where
  | s1 | s2 | pp | p2
deriving DecidableEq, Repr

/-- Which way the data stage of a command word runs (R80); the block does not decode on it. -/
inductive Dir where
  | toHost | toBlock
deriving DecidableEq, Repr

/-- The instructions. Operand names are those of R82; an operand byte keeps its whole width, because range
checks are made after decoding (R95). -/
inductive Instr where
  /-- INFO (0), format F0. -/
  | info
  /-- READ (1), format FL. -/
  | read (len : BitVec 16)
  /-- WRITE (2), format FL. -/
  | write (len : BitVec 16)
  /-- TALK (3), format FDS. -/
  | talk (dev sec : Byte)
  /-- LISTEN (4), format FDS. -/
  | listen (dev sec : Byte)
  /-- UNTALK (5), format F0. -/
  | untalk
  /-- UNLISTEN (6), format F0. -/
  | unlisten
  /-- OPEN (7), format FDS. -/
  | openDev (dev sec : Byte)
  /-- CLOSE (8), format FDS. -/
  | closeDev (dev sec : Byte)
  /-- RESET (9), format F0. -/
  | reset
  /-- GET_EOI (10), format F0. -/
  | getEoi
  /-- CLEAR_EOI (11), format F0. -/
  | clearEoi
  /-- REQUEST_READ (12), format FN. -/
  | requestRead (n : Byte)
  /-- GET_RESULT (13), format F0. -/
  | getResult
  /-- PP_READ (14), format F0. -/
  | ppRead
  /-- PP_WRITE (15), format FV. -/
  | ppWrite (val : Byte)
  /-- IEC_POLL (16), format F0. -/
  | iecPoll
  /-- IEC_WAIT (17), format FM. -/
  | iecWait (mask state : Byte)
  /-- IEC_SETRELEASE (18), format FSR. -/
  | iecSetRelease (setm relm : Byte)
  /-- PARBURST_0 (19), stub. -/
  | parburst0
  /-- PARBURST_1 (20), stub. -/
  | parburst1
  /-- PARBURST_2 (21), stub. -/
  | parburst2
  /-- PARBURST_3 (22), stub. -/
  | parburst3
  /-- EEPROM_READ (23): forwarded whole on `ext_cmd`, so the parameter bytes are kept (bits 55:8 of W). -/
  | eepromRead (params : BitVec 48)
  /-- EEPROM_WRITE (24): forwarded whole on `ext_cmd`. -/
  | eepromWrite (params : BitVec 48)
  /-- FLASH (25): forwarded whole on `ext_cmd`. -/
  | flash (params : BitVec 48)
  /-- S1.INFO (32, 0). -/
  | subS1Info
  /-- S1.READ (32, 1), format FS1. -/
  | subS1Read (n : Byte)
  /-- S1.WRITE (32, 2), format FS2. -/
  | subS1Write (len : BitVec 16)
  /-- S2.INFO (33, 0). -/
  | subS2Info
  /-- S2.READ (33, 1), format FS1. -/
  | subS2Read (n : Byte)
  /-- S2.WRITE (33, 2), format FS2. -/
  | subS2Write (len : BitVec 16)
  /-- PP.INFO (34, 0). -/
  | subPpInfo
  /-- PP.READ (34, 1), format FS1. -/
  | subPpRead (n : Byte)
  /-- PP.WRITE (34, 2), format FS2. -/
  | subPpWrite (len : BitVec 16)
  /-- P2.INFO (35, 0). -/
  | subP2Info
  /-- P2.READ (35, 1), format FS1. -/
  | subP2Read (n : Byte)
  /-- P2.WRITE (35, 2), format FS2. -/
  | subP2Write (len : BitVec 16)
  /-- IRQ_PAUSE (253), decoded when DEBUG_CMDS is true. -/
  | irqPause
  /-- GET_EVENT (254), format FI, decoded when DEBUG_CMDS is true. -/
  | getEvent (idx : Byte)
  /-- ECHO (255), format FE, decoded when DEBUG_CMDS is true. -/
  | echo (e0 e1 e2 e3 : Byte)
  /-- An unassigned code of the range 26 to 31. -/
  | unassignedLow (cmd : Byte)
  /-- An unassigned code of the range 36 to 252 (to 255 when DEBUG_CMDS is false). -/
  | unassignedHigh (cmd : Byte)
  /-- A sub-protocol code with a sub-opcode of 3 to 255. -/
  | badSubOpcode (proto : Proto) (sub : Byte)
  /-- DATA_OUT: a payload chunk (R86). -/
  | dataOut (bytes : List Byte)
  /-- bus:LISTEN, `001ddddd` with ddddd ≠ 31 (R96). -/
  | busListen (dev : BitVec 5)
  /-- bus:UNLISTEN, 0x3F (R96). -/
  | busUnlisten
  /-- bus:TALK, `010ddddd` with ddddd ≠ 31 (R96). -/
  | busTalk (dev : BitVec 5)
  /-- bus:UNTALK, 0x5F (R96). -/
  | busUntalk
  /-- bus:SECOND, `0110ssss` (R96). -/
  | busSecond (sec : BitVec 4)
  /-- bus:CLOSE, `1110ssss` (R96). -/
  | busClose (sec : BitVec 4)
  /-- bus:OPEN, `1111ssss` (R96). -/
  | busOpen (sec : BitVec 4)
deriving DecidableEq, Repr

/-- The three forms an instruction's code takes: a command word (R80), a payload chunk (R86), a bus command byte
the block emits under ATN (R96). -/
inductive Code where
  | word (w : CmdWord)
  | chunk (bytes : List Byte)
  | busByte (b : Byte)
deriving DecidableEq, Repr

/-- What the host sends (00_scope.md R9): a command word with its direction bit, or a payload chunk. -/
inductive HostEvent where
  | command (w : CmdWord) (dir : Dir)
  | chunk (bytes : List Byte)
deriving DecidableEq, Repr

end Sys2Proof
end

