-- ==== Sys2Proof/WellFormed.lean ====
section
/-! DEFINITION. Which instructions have an encoding: the ranges of 30_encoding.md R86, R90, R94 to R96. -/

namespace Sys2Proof

/-- `i` has an encoding under the configuration `c`. Operand ranges that lead to a refusal (R83, R98) are no part of
this: a command word with DEV = 31 is a command word (R95). -/
def Instr.wellFormed (c : Config) : Instr → Bool
  | .irqPause => c.debugCmds
  | .getEvent _ => c.debugCmds
  | .echo _ _ _ _ => c.debugCmds
  | .unassignedLow cmd => decide (0x1A#8 ≤ cmd) && decide (cmd ≤ 0x1F#8)
  | .unassignedHigh cmd => decide (0x24#8 ≤ cmd) && (decide (cmd ≤ 0xFC#8) || !c.debugCmds)
  | .badSubOpcode _ sub => decide (0x03#8 ≤ sub)
  | .dataOut bytes => decide (1 ≤ bytes.length) && decide (bytes.length ≤ c.usbChunk)
  | .busListen dev => decide (dev ≠ 31#5)
  | .busTalk dev => decide (dev ≠ 31#5)
  | .info | .read _ | .write _ | .talk _ _ | .listen _ _ | .untalk | .unlisten | .openDev _ _ | .closeDev _ _
  | .reset | .getEoi | .clearEoi | .requestRead _ | .getResult | .ppRead | .ppWrite _ | .iecPoll | .iecWait _ _
  | .iecSetRelease _ _ | .parburst0 | .parburst1 | .parburst2 | .parburst3 | .eepromRead _ | .eepromWrite _
  | .flash _ | .subS1Info | .subS1Read _ | .subS1Write _ | .subS2Info | .subS2Read _ | .subS2Write _
  | .subPpInfo | .subPpRead _ | .subPpWrite _ | .subP2Info | .subP2Read _ | .subP2Write _
  | .busUnlisten | .busUntalk | .busSecond _ | .busClose _ | .busOpen _ => true

end Sys2Proof
end

