-- ==== Sys2Proof/Decode.lean ====
section
/-! DEFINITION. The decoder (30_encoding.md R80 to R82, R86, R90 to R96) and, after it, the encoder. -/

namespace Sys2Proof

/-! ## Fields of the command word (R80, R82) -/

/-- `cmd = W[7:0]`. -/
def cmdOf (w : CmdWord) : Byte := w.extractLsb' 0 8

/-- `pk`, byte k+1 of the word. -/
def paramOf (k : Nat) (w : CmdWord) : Byte := w.extractLsb' (8 * (k + 1)) 8

/-- `LEN = p4 | (p5 << 8)`, little-endian (R64, R82). -/
def lenOf (w : CmdWord) : BitVec 16 := paramOf 5 w ++ paramOf 4 w

/-- All six parameter bytes, bits 55:8. -/
def paramsOf (w : CmdWord) : BitVec 48 := w.extractLsb' 8 48

/-- The word of seven bytes in the order `cmd p0 p1 p2 p3 p4 p5`. -/
def wordOfBytes (cmd p0 p1 p2 p3 p4 p5 : Byte) : CmdWord :=
  p5 ++ (p4 ++ (p3 ++ (p2 ++ (p1 ++ (p0 ++ cmd)))))

/-- How a command word sits in a USB setup packet (R81, informative, from general knowledge G1). -/
def commandOfSetup (bmRequestType bRequest : Byte) (wValue wIndex wLength : BitVec 16) : HostEvent :=
  .command (wLength ++ (wIndex ++ (wValue ++ bRequest)))
    (if bmRequestType.getLsbD 7 then .toHost else .toBlock)

/-! ## The decoder -/

/-- Why bytes are no instruction. Command words are never rejected (R95). -/
inductive DecodeError where
  /-- a payload chunk with no byte in it (R86: 1 to USB_CHUNK bytes) -/
  | emptyChunk
  /-- a payload chunk of more than USB_CHUNK bytes (R86) -/
  | longChunk
  /-- a byte that none of R96's patterns matches -/
  | notBusByte
deriving DecidableEq, Repr

/-- The sub-protocol codes: the sub-opcode is `p0` (R94). -/
def decodeSub (p : Proto) (w : CmdWord) : Instr :=
  match (paramOf 0 w).toNat with
  | 0 => match p with
    | .s1 => .subS1Info
    | .s2 => .subS2Info
    | .pp => .subPpInfo
    | .p2 => .subP2Info
  | 1 => match p with
    | .s1 => .subS1Read (paramOf 1 w)
    | .s2 => .subS2Read (paramOf 1 w)
    | .pp => .subPpRead (paramOf 1 w)
    | .p2 => .subP2Read (paramOf 1 w)
  | 2 => match p with
    | .s1 => .subS1Write (lenOf w)
    | .s2 => .subS2Write (lenOf w)
    | .pp => .subPpWrite (lenOf w)
    | .p2 => .subP2Write (lenOf w)
  | _ => .badSubOpcode p (paramOf 0 w)

/-- The code map of R90: a total function of the word (R95). `dbg` is DEBUG_CMDS. -/
def decodeWord (dbg : Bool) (w : CmdWord) : Instr :=
  match (cmdOf w).toNat with
  | 0 => .info
  | 1 => .read (lenOf w)
  | 2 => .write (lenOf w)
  | 3 => .talk (paramOf 0 w) (paramOf 1 w)
  | 4 => .listen (paramOf 0 w) (paramOf 1 w)
  | 5 => .untalk
  | 6 => .unlisten
  | 7 => .openDev (paramOf 0 w) (paramOf 1 w)
  | 8 => .closeDev (paramOf 0 w) (paramOf 1 w)
  | 9 => .reset
  | 10 => .getEoi
  | 11 => .clearEoi
  | 12 => .requestRead (paramOf 0 w)
  | 13 => .getResult
  | 14 => .ppRead
  | 15 => .ppWrite (paramOf 0 w)
  | 16 => .iecPoll
  | 17 => .iecWait (paramOf 0 w) (paramOf 1 w)
  | 18 => .iecSetRelease (paramOf 0 w) (paramOf 1 w)
  | 19 => .parburst0
  | 20 => .parburst1
  | 21 => .parburst2
  | 22 => .parburst3
  | 23 => .eepromRead (paramsOf w)
  | 24 => .eepromWrite (paramsOf w)
  | 25 => .flash (paramsOf w)
  | 32 => decodeSub .s1 w
  | 33 => decodeSub .s2 w
  | 34 => decodeSub .pp w
  | 35 => decodeSub .p2 w
  | 253 => if dbg then .irqPause else .unassignedHigh (cmdOf w)
  | 254 => if dbg then .getEvent (paramOf 0 w) else .unassignedHigh (cmdOf w)
  | 255 => if dbg then .echo (paramOf 0 w) (paramOf 1 w) (paramOf 2 w) (paramOf 3 w) else .unassignedHigh (cmdOf w)
  | n => if n < 32 then .unassignedLow (cmdOf w) else .unassignedHigh (cmdOf w)

/-- A payload chunk carries 1 to USB_CHUNK bytes (R86). -/
def decodeChunk (limit : Nat) (bytes : List Byte) : Except DecodeError Instr :=
  if bytes.length = 0 then .error .emptyChunk
  else if limit < bytes.length then .error .longChunk
  else .ok (.dataOut bytes)

/-- The bus command bytes of R96. -/
def decodeBusByte (b : Byte) : Except DecodeError Instr :=
  match (b.extractLsb' 5 3).toNat with
  | 1 => if b = 0x3F#8 then .ok .busUnlisten else .ok (.busListen (b.extractLsb' 0 5))
  | 2 => if b = 0x5F#8 then .ok .busUntalk else .ok (.busTalk (b.extractLsb' 0 5))
  | 3 => if b.getLsbD 4 then .error .notBusByte else .ok (.busSecond (b.extractLsb' 0 4))
  | 7 => if b.getLsbD 4 then .ok (.busOpen (b.extractLsb' 0 4)) else .ok (.busClose (b.extractLsb' 0 4))
  | _ => .error .notBusByte

/-- The decoder, total on every form of code. -/
def decode (c : Config) : Code → Except DecodeError Instr
  | .word w => .ok (decodeWord c.debugCmds w)
  | .chunk bytes => decodeChunk c.usbChunk bytes
  | .busByte b => decodeBusByte b

/-- The code a host event carries; the direction bit is not decoded (R80). -/
def HostEvent.code : HostEvent → Code
  | .command w _ => .word w
  | .chunk bytes => .chunk bytes

/-- The word of the opcode table's numbering: its bits are W's, those from `nbits` up are 0. -/
def tableWord (nbits w : Nat) : CmdWord := BitVec.ofNat 56 (w % 2 ^ nbits)

/-- The instruction the decoder reads from a word numbered as the opcode table numbers it. -/
def decodeTableWord (nbits w : Nat) : Option Instr :=
  match decode Config.asBuilt (.word (tableWord nbits w)) with
  | .ok i => some i
  | .error _ => none

/-! ## The encoder -/

/-- A word with no operands (format F0). -/
def encodeF0 (cmd : Byte) : Code := .word (wordOfBytes cmd 0 0 0 0 0 0)
/-- A word with `LEN` in `p4`, `p5` (formats FL and FS2, `p0` being the sub-opcode). -/
def encodeLen (cmd p0 : Byte) (len : BitVec 16) : Code :=
  .word (wordOfBytes cmd p0 0 0 0 (len.extractLsb' 0 8) (len.extractLsb' 8 8))
/-- A word with operands in `p0` and `p1`. -/
def encodeP01 (cmd p0 p1 : Byte) : Code := .word (wordOfBytes cmd p0 p1 0 0 0 0)

/-- The sub-protocol command codes 32 to 35 (R94). -/
def Proto.cmd : Proto → Byte
  | .s1 => 0x20
  | .s2 => 0x21
  | .pp => 0x22
  | .p2 => 0x23

/-- The code of an instruction, from the same tables (R82, R90, R94, R96). -/
def encode : Instr → Code
  | .info => encodeF0 0x00
  | .read len => encodeLen 0x01 0 len
  | .write len => encodeLen 0x02 0 len
  | .talk dev sec => encodeP01 0x03 dev sec
  | .listen dev sec => encodeP01 0x04 dev sec
  | .untalk => encodeF0 0x05
  | .unlisten => encodeF0 0x06
  | .openDev dev sec => encodeP01 0x07 dev sec
  | .closeDev dev sec => encodeP01 0x08 dev sec
  | .reset => encodeF0 0x09
  | .getEoi => encodeF0 0x0A
  | .clearEoi => encodeF0 0x0B
  | .requestRead n => encodeP01 0x0C n 0
  | .getResult => encodeF0 0x0D
  | .ppRead => encodeF0 0x0E
  | .ppWrite val => encodeP01 0x0F val 0
  | .iecPoll => encodeF0 0x10
  | .iecWait mask state => encodeP01 0x11 mask state
  | .iecSetRelease setm relm => encodeP01 0x12 setm relm
  | .parburst0 => encodeF0 0x13
  | .parburst1 => encodeF0 0x14
  | .parburst2 => encodeF0 0x15
  | .parburst3 => encodeF0 0x16
  | .eepromRead params => .word (params ++ 0x17#8)
  | .eepromWrite params => .word (params ++ 0x18#8)
  | .flash params => .word (params ++ 0x19#8)
  | .subS1Info => encodeP01 0x20 0 0
  | .subS1Read n => encodeP01 0x20 1 n
  | .subS1Write len => encodeLen 0x20 2 len
  | .subS2Info => encodeP01 0x21 0 0
  | .subS2Read n => encodeP01 0x21 1 n
  | .subS2Write len => encodeLen 0x21 2 len
  | .subPpInfo => encodeP01 0x22 0 0
  | .subPpRead n => encodeP01 0x22 1 n
  | .subPpWrite len => encodeLen 0x22 2 len
  | .subP2Info => encodeP01 0x23 0 0
  | .subP2Read n => encodeP01 0x23 1 n
  | .subP2Write len => encodeLen 0x23 2 len
  | .irqPause => encodeF0 0xFD
  | .getEvent idx => encodeP01 0xFE idx 0
  | .echo e0 e1 e2 e3 => .word (wordOfBytes 0xFF e0 e1 e2 e3 0 0)
  | .unassignedLow cmd => encodeF0 cmd
  | .unassignedHigh cmd => encodeF0 cmd
  | .badSubOpcode p sub => encodeP01 p.cmd sub 0
  | .dataOut bytes => .chunk bytes
  | .busListen dev => .busByte (1#3 ++ dev)
  | .busUnlisten => .busByte 0x3F
  | .busTalk dev => .busByte (2#3 ++ dev)
  | .busUntalk => .busByte 0x5F
  | .busSecond sec => .busByte (6#4 ++ sec)
  | .busClose sec => .busByte (14#4 ++ sec)
  | .busOpen sec => .busByte (15#4 ++ sec)

end Sys2Proof
end

