-- ==== Sys2Proof/Machine/State.lean ====
section
/-! DEFINITION. The state (10_state.md), the outcomes' reasons, and the power-on state (70_reset_and_hazards.md R310). -/

namespace Sys2Proof.Machine

/-- `io.mode`, the sequencing register (R26, R35). -/
inductive IoMode where
  | idle | read | readDone | writePrepared | write | async | result
deriving DecidableEq, Repr

/-- `bus_state`, tracking only (R25). -/
inductive BusState where
  | unknown | free | busyAtn | talking | listening
deriving DecidableEq, Repr

/-- The status codes 0 to 11, in the order of 60_exceptions.md R281. -/
inductive Status where
  | ok | noDevice | devNotPresent | listenerTimeout | eoiTimeout | nak | turnaroundTimeout
  | readStall | readBitTimeout | hsTimeout | waitTimeout | resetNotFree
deriving DecidableEq, Repr

/-- The refusal reasons 1 to 8, in the order of 30_encoding.md R85. -/
inductive RefuseReason where
  | busy | badState | badLength | badParam | badSubop | unimplemented | reserved | external
deriving DecidableEq, Repr

/-- The four response kinds (30_encoding.md R84). -/
inductive Response where
  | reply (bytes : List Byte)
  | dataIn (bytes : List Byte)
  | pending (n : Nat)
  | refuse (reason : RefuseReason)
deriving DecidableEq, Repr

/-- One entry of the event log (R34); `etype = 0` means empty. -/
structure EventEntry where
  etype : Byte
  count : Byte
deriving DecidableEq, Repr

/-- What an observer sees on the pins at a micro-step (00_scope.md R9, R16): the time of the change, the line drives,
the byte on the parallel port if the block drives it, the interrupt mask. -/
structure Pins where
  time : Nat
  drive : LineMask
  port : Option Byte
  irqOff : Bool
deriving DecidableEq, Repr

/-- What the block has shown the outside (R9, R16; log 10). Lists hold the newest entry first. -/
structure Outputs where
  pins : List Pins
  responses : List Response
  extCmds : List CmdWord
  wdtKicks : Nat
deriving DecidableEq, Repr

/-- What the outside does to the block (R10): the host's events in the order it sends them, and scripts of the peer's
line samples, of the parallel port's samples and of the delays' overshoots, each with the count of free values drawn
once its script is empty (log 4 to 7). -/
structure Inputs where
  host : List HostEvent
  lines : List LineMask
  linesDrawn : Nat
  port : List PortSample
  portDrawn : Nat
  overs : List Nat
  oversDrawn : Nat
deriving DecidableEq, Repr

/-- The watchdog's first expiry inside a step: the time it was reached, and inputs and outputs as they stood then
(60_exceptions.md R296; log 11). -/
structure WdtExpiry where
  time : Nat
  inp : Inputs
  out : Outputs
deriving DecidableEq, Repr

/-- Where the main loop stands (R27, 44_async_handler.md R261): before taking a host event, or before the handler. -/
inductive LoopPhase where
  | takeEvent | handler
deriving DecidableEq, Repr

/-- The I/O buffer's bytes that have been written, by index, strictly rising; an unlisted byte holds no value
(70_reset_and_hazards.md R313; log 3). -/
abbrev Memory := List Host.Cell

/-- Everything of 10_state.md, the hidden state of R42, the configuration, and the environment's side of the ports. -/
structure State where
  /-- the line latches, 1 = this block asserts the line (R20) -/
  drive : LineMask
  /-- the parallel port's output byte and direction (R30) -/
  ppOut : Byte
  ppOe : Bool
  /-- the EOI flag (R24) -/
  eoi : Bool
  busState : BusState
  /-- 1 while the USB interrupt is masked (R31) -/
  irqOff : Bool
  /-- the free-running counter in ns (R32) and its reading at the last watchdog restart (R33) -/
  now : Nat
  wdtLast : Nat
  /-- the event log and the index of its newest entry (R34) -/
  evEntries : List EventEntry
  evHead : Nat
  /-- the I/O request (R35 to R40) -/
  mode : IoMode
  buffer : Memory
  fill : Byte
  offset : Byte
  status : Byte
  value : Byte
  proto : Proto
  acmd : Byte
  /-- the engine operation's byte count, a local of the handler entry (R42(a)) -/
  count : Nat
  phase : LoopPhase
  /-- the watchdog's expiry, if it came in the step now running -/
  expiry : Option WdtExpiry
  inp : Inputs
  out : Outputs
  /-- the configuration, constant (R43) -/
  cfg : Config
deriving DecidableEq, Repr

/-- Why a step stops with a fault. No state that meets `Safety.Inv` raises one. -/
inductive Fault where
  /-- raised by the checked buffer accesses: an index outside 0..BUF_SIZE-1, for which R62 and R63 define nothing; safe -/
  | bufferBounds
  /-- raised by the checked buffer read: a byte that holds no value since power-on (R36, R313); safe -/
  | unwrittenByte
  /-- raised by the handler in ASYNC mode: an `io.acmd` that is none of the nine of R268, which "cannot occur"; safe -/
  | unknownAsync
deriving DecidableEq, Repr

/-- Why a step is refused. (A `Refuse` of the dispatcher is a response, not one of these.) -/
inductive Refusal where
  /-- raised by exec's arms of instructions that have no meaning yet; safe -/
  | notModelled (mnemonic : String)
  /-- raised by the step on a payload chunk outside 1..USB_CHUNK bytes, which R86 does not let the transport deliver;
  safe -/
  | malformedChunk
deriving DecidableEq, Repr

/-- The state after power-on (R310, R313). Values R310 leaves unspecified: `ppOut` and `now` (log 1, log 2); the
buffer holds no value (log 3). -/
def State.reset : State where
  drive := 0
  ppOut := 0
  ppOe := false
  eoi := false
  busState := .unknown
  irqOff := false
  now := 0
  wdtLast := 0
  evEntries := List.replicate Config.asBuilt.eventLogSize ⟨0, 0⟩
  evHead := 0
  mode := .idle
  buffer := []
  fill := 0
  offset := 0
  status := 0
  value := 0
  proto := .s1
  acmd := 0
  count := 0
  phase := .takeEvent
  expiry := none
  inp := ⟨[], [], 0, [], 0, [], 0⟩
  out := ⟨[], [], [], 0⟩
  cfg := Config.asBuilt

end Sys2Proof.Machine
end

