-- ==== Sys2Proof/Machine/Flags.lean ====
section
/-! DEFINITION. The one status flag, `eoi` (10_state.md R24). There are no condition codes, no carry and no overflow
flag. -/

namespace Sys2Proof.Machine

/-- `eoi <- 1`: `raw_read`'s byte reader on detecting EOI (41_wire_modes.md R143). -/
def State.setEoi (s : State) : State := { s with eoi := true }

/-- `eoi <- 0`: the start of `raw_write` (42_bus_session.md R172) and CLEAR_EOI (43_dispatcher_commands.md R214). -/
def State.clearEoi (s : State) : State := { s with eoi := false }

/-- GET_EOI's reply byte: the flag in bit 0, bits 7:1 zero (30_encoding.md R104). -/
def eoiByte (s : State) : Byte := if s.eoi then 1 else 0

end Sys2Proof.Machine
end

