-- ==== Sys2Proof/Machine/Memory.lean ====
section
/-! DEFINITION. The I/O buffer (20_memory.md R60 to R63): a list of written bytes in canonical form. -/

namespace Sys2Proof.Machine

/-- The byte at index `a`, if it holds a value. -/
def Memory.get? : Memory → Nat → Option Byte
  | [], _ => none
  | (k, v) :: rest, a => if k = a then some v else Memory.get? rest a

/-- Writes one byte, keeping the indices strictly rising. -/
def Memory.set : Memory → Nat → Byte → Memory
  | [], a, b => [(a, b)]
  | (k, v) :: rest, a, b =>
    if a < k then (a, b) :: (k, v) :: rest
    else if a = k then (a, b) :: rest
    else (k, v) :: Memory.set rest a b

/-- Writes consecutive bytes, the first at `a` (R63). -/
def Memory.setMany : Memory → Nat → List Byte → Memory
  | m, _, [] => m
  | m, a, b :: bs => Memory.setMany (Memory.set m a b) (a + 1) bs

/-- The `n` bytes from `a` on, in order (R62), if all of them hold a value. -/
def Memory.getMany? : Memory → Nat → Nat → Option (List Byte)
  | _, _, 0 => some []
  | m, a, n + 1 =>
    match Memory.get? m a, Memory.getMany? m (a + 1) n with
    | some b, some bs => some (b :: bs)
    | _, _ => none

/-- The indices of `m` rise strictly and start at `lo` or above. -/
def Memory.risingFrom : Nat → Memory → Bool
  | _, [] => true
  | lo, (k, _) :: rest => decide (lo ≤ k) && Memory.risingFrom (k + 1) rest

/-- Every index of `m` is below `cap`, the buffer's capacity (R36). -/
def Memory.bounded (cap : Nat) : Memory → Bool
  | [] => true
  | (k, _) :: rest => decide (k < cap) && Memory.bounded cap rest

/-- The canonical form: strictly rising indices, all of them the buffer's, whose capacity is `cap`. An unlisted index
holds no value, so no entry can repeat what an unlisted index reads as. -/
def Memory.wf (cap : Nat) (m : Memory) : Bool := Memory.risingFrom 0 m && Memory.bounded cap m

end Sys2Proof.Machine
end

