-- ==== Sys2Proof/Machine/Operands.lean ====
section
/-! DEFINITION. The operand forms and their ranges (30_encoding.md R82, R83, R97, R98; 20_memory.md R67), and the
numeric codes of the named values. -/

namespace Sys2Proof.Machine

/-- A request length must be 1 to the buffer's capacity, 128 (43_dispatcher_commands.md R203; log 13). -/
def goodLength (c : Config) (n : Nat) : Bool := decide (1 ≤ n) && decide (n ≤ c.bufSize)

/-- `DEV` 0 to 30 and `SEC` 0 to 15, else the command is refused (R98). -/
def goodAddress (dev sec : Byte) : Bool := decide (dev ≤ 30#8) && decide (sec ≤ 15#8)

/-- A line mask operand: bits 3:0 (R83). -/
def maskOf (b : Byte) : LineMask := b.extractLsb' 0 4

/-- A truth operand: any non-zero value is "asserted" (R83, R220). -/
def truthOf (b : Byte) : Byte := if b = 0 then 0 else 1

/-- A line mask as a reply or buffer byte: bits 7:4 zero (R104). -/
def byteOfMask (m : LineMask) : Byte := m.zeroExtend 8

/-- A count as an 8-bit register holds it: `io.value` (R38), `io.fill`, `io.offset` (10_state.md R37). -/
def byteOfCount (n : Nat) : Byte := BitVec.ofNat 8 n

/-- The byte pair of TALK (R97). -/
def talkBytes (dev sec : Byte) : List Byte := [0x40#8 ||| dev, 0x60#8 ||| sec]
/-- The byte pair of LISTEN (R97). -/
def listenBytes (dev sec : Byte) : List Byte := [0x20#8 ||| dev, 0x60#8 ||| sec]
/-- The byte pair of OPEN (R97; 90_conflicts.md C4: the suffix is on the secondary byte). -/
def openBytes (dev sec : Byte) : List Byte := [0x20#8 ||| dev, 0xF0#8 ||| sec]
/-- The byte pair of CLOSE (R97). -/
def closeBytes (dev sec : Byte) : List Byte := [0x20#8 ||| dev, 0xE0#8 ||| sec]
/-- The byte of UNTALK (R97). -/
def untalkBytes : List Byte := [0x5F#8]
/-- The byte of UNLISTEN (R97). -/
def unlistenBytes : List Byte := [0x3F#8]

/-- The code of `io.mode` (10_state.md R35). -/
def IoMode.code : IoMode → Byte
  | .idle => 0
  | .read => 1
  | .readDone => 2
  | .writePrepared => 3
  | .write => 4
  | .async => 5
  | .result => 6

/-- The status codes (60_exceptions.md R281). -/
def Status.code : Status → Byte
  | .ok => 0
  | .noDevice => 1
  | .devNotPresent => 2
  | .listenerTimeout => 3
  | .eoiTimeout => 4
  | .nak => 5
  | .turnaroundTimeout => 6
  | .readStall => 7
  | .readBitTimeout => 8
  | .hsTimeout => 9
  | .waitTimeout => 10
  | .resetNotFree => 11

/-- The numbers of the refusal reasons (30_encoding.md R85). -/
def RefuseReason.number : RefuseReason → Byte
  | .busy => 1
  | .badState => 2
  | .badLength => 3
  | .badParam => 4
  | .badSubop => 5
  | .unimplemented => 6
  | .reserved => 7
  | .external => 8

/-- The number of a bus state (10_state.md R25). -/
def BusState.number : BusState → Nat
  | .unknown => 0
  | .free => 1
  | .busyAtn => 2
  | .talking => 3
  | .listening => 4

/-- A protocol's number, its command code minus 32 (10_state.md R39). -/
def protoNumber : Proto → Nat
  | .s1 => 0
  | .s2 => 1
  | .pp => 2
  | .p2 => 3

/-- The capability bit of a protocol, `CAPS[4 + proto]` (43_dispatcher_commands.md R225). -/
def hasProto (c : Config) (p : Proto) : Bool := c.caps.getLsbD (4 + protoNumber p)

end Sys2Proof.Machine
end

