-- ==== Sys2Proof/Machine/Ops.lean ====
section
/-! DEFINITION. The line primitives (40_line_primitives.md), the event log, `FAIL`, the watchdog, and the buffer
accesses. A primitive is a function of the state; an engine operation that can fail is an `Engine`. -/

namespace Sys2Proof.Machine

/-! ## Inputs: what the peer and the clock bring (00_scope.md R10) -/

/-- The peer's line drives at the next sample: the script's, else a free value. -/
def Inputs.nextLines (i : Inputs) : LineMask :=
  match i.lines with
  | p :: _ => p
  | [] => Config.freePeerLines i.linesDrawn

/-- The inputs after a line sample. -/
def Inputs.dropLines (i : Inputs) : Inputs :=
  match i.lines with
  | _ :: rest => { i with lines := rest }
  | [] => { i with linesDrawn := i.linesDrawn + 1 }

/-- The parallel port's pins at the next sample. -/
def Inputs.nextPort (i : Inputs) : PortSample :=
  match i.port with
  | p :: _ => p
  | [] => Config.freePortSample i.portDrawn

/-- The inputs after a port sample. -/
def Inputs.dropPort (i : Inputs) : Inputs :=
  match i.port with
  | _ :: rest => { i with port := rest }
  | [] => { i with portDrawn := i.portDrawn + 1 }

/-- The overshoot of the next DELAY (R126, U8). -/
def Inputs.nextOver (i : Inputs) : Nat :=
  match i.overs with
  | o :: _ => o
  | [] => Config.freeOvershoot i.oversDrawn

/-- The inputs after a DELAY. -/
def Inputs.dropOver (i : Inputs) : Inputs :=
  match i.overs with
  | _ :: rest => { i with overs := rest }
  | [] => { i with oversDrawn := i.oversDrawn + 1 }

/-! ## Outputs -/

/-- The pins as an observer sees them now; the port shows its byte only while it is driven (R30, R310). -/
def State.pinsNow (s : State) : Pins :=
  ⟨s.now, s.drive, if s.ppOe then some s.ppOut else none, s.irqOff⟩

/-- Records the pins of a micro-step (R16). -/
def State.show (s : State) : State := { s with out := { s.out with pins := s.pinsNow :: s.out.pins } }

/-- The one response to a host event (30_encoding.md R84). -/
def State.answer (r : Response) (s : State) : State :=
  { s with out := { s.out with responses := r :: s.out.responses } }

/-- A command word shown on `ext_cmd` (43_dispatcher_commands.md R237). -/
def State.forward (w : CmdWord) (s : State) : State :=
  { s with out := { s.out with extCmds := w :: s.out.extCmds } }

/-- `wdt_last <- now ; pulse wdt_kick` (R33). -/
def State.kick (s : State) : State :=
  { s with wdtLast := s.now, out := { s.out with wdtKicks := s.out.wdtKicks + 1 } }

/-! ## Time -/

/-- The reading of the counter after `DELAY(t)`. -/
def State.nowAfter (t : Nat) (s : State) : Nat := s.now + t + s.inp.nextOver

/-- The premise of 70_reset_and_hazards.md R320 on the watchdog's period, with the overshoot allowed to a delay. -/
def wdtPremise (c : Config) : Bool := decide (max c.tResetPulse c.tIrqPause + c.overAllowed < c.tWdt)

/-- The watchdog is seen to have expired at the time `now`: the premise of R320 does not hold, and more than T_WDT has
passed since the last restart (R33). Under the premise no expiry can occur, as 93_implementation_defined.md U9 says: not
in a SERIAL2 block either, whose delays of R150 and R151 add up without a restart past the 20 ms that R320 calls the
longest stretch (DESIGN CHOICE, log 26). -/
def State.wdtExpired (now : Nat) (s : State) : Bool :=
  !wdtPremise s.cfg && decide (s.cfg.tWdt < now - s.wdtLast)

/-- `DELAY(t)`: `now <- now + t + over` (R126). The first moment at which the watchdog has expired is noted (R33; log
11). -/
def State.delay (t : Nat) (s : State) : State :=
  { s with
    now := s.nowAfter t
    inp := s.inp.dropOver
    expiry :=
      match s.expiry with
      | some e => some e
      | none => if s.wdtExpired (s.nowAfter t) then some ⟨s.nowAfter t, s.inp.dropOver, s.out⟩ else none }

/-! ## Changing lines (R122 to R124) -/

/-- `SET(m)` (R122). -/
def State.assertLines (m : LineMask) (s : State) : State :=
  ({ s with drive := s.drive ||| m }).show.delay s.cfg.tSettle

/-- `REL(m)` (R123). -/
def State.releaseLines (m : LineMask) (s : State) : State :=
  ({ s with drive := s.drive &&& ~~~m }).show.delay s.cfg.tSettle

/-- `SETREL(a, r)`: both changes at one micro-step; a line in both ends released (R124). -/
def State.setRelease (a r : LineMask) (s : State) : State :=
  ({ s with drive := (s.drive ||| a) &&& ~~~r }).show.delay s.cfg.tSettle

/-! ## Reading lines (R121, R125, R127) -/

/-- The wired-AND: what a sample taken now reads (10_state.md R22, R121). -/
def State.sense (s : State) : LineMask := s.drive ||| s.inp.nextLines

/-- The state after a sample. It changes nothing of the block. -/
def State.sampled (s : State) : State := { s with inp := s.inp.dropLines }

/-- The loop of `WAIT`: sample, then test the deadline, then delay. The fuel bounds the iterations (log 14). -/
def State.waitLoop (m v : LineMask) (t t0 : Nat) : Nat → State → Bool × State
  | 0, s => (false, s)
  | fuel + 1, s =>
    if s.kick.sense &&& m = v then (true, s.kick.sampled)
    else if t ≤ s.kick.sampled.now - t0 then (false, s.kick.sampled)
    else State.waitLoop m v t t0 fuel (s.kick.sampled.delay s.cfg.tPollStep)

/-- `WAIT(m, v, T)` (R125): each iteration takes at least T_POLLSTEP, so there are at most T / T_POLLSTEP + 2. -/
def State.wait (m v : LineMask) (t : Nat) (s : State) : Bool × State :=
  s.waitLoop m v t s.now (t / s.cfg.tPollStep + 2)

/-! ## Interrupt mask and parallel port (R129, R130) -/

/-- `IRQ_OFF()` (R129). -/
def State.irqMask (s : State) : State := ({ s with irqOff := true }).show

/-- `IRQ_ON()` (R129). -/
def State.irqUnmask (s : State) : State := ({ s with irqOff := false }).show

/-- `PP_OUT(b)` (R130). -/
def State.portOut (b : Byte) (s : State) : State :=
  ({ s with ppOut := b, ppOe := true }).show.delay s.cfg.tSettle

/-- `pp_oe <- 0` with no delay, at the end of a parallel block operation (R157, R161, R290). -/
def State.portOff (s : State) : State := ({ s with ppOe := false }).show

/-- `pp_in`: the peer's byte when the port is an input, this block's byte when it drives alone, any value when both
drive (10_state.md R30, U6). -/
def State.portIn (s : State) : Byte :=
  if s.ppOe && !s.inp.nextPort.contends then s.ppOut else s.inp.nextPort.value

/-- The state after a port sample. -/
def State.portSampled (s : State) : State := { s with inp := s.inp.dropPort }

/-- `PP_IN()` up to its sample: the port becomes an input, then the settle delay (R130). -/
def State.portToInput (s : State) : State := s.portOff.delay s.cfg.tSettle

/-! ## The event log (R128) -/

/-- The log entry at an index; `{0, 0}` where there is none. -/
def State.eventAt (i : Nat) (s : State) : EventEntry := s.evEntries.getD i ⟨0, 0⟩

/-- `LOG(e)` (R128). -/
def State.logEvent (e : Byte) (s : State) : State :=
  if (s.eventAt s.evHead).etype = e then
    if (s.eventAt s.evHead).count < 255#8 then
      { s with evEntries := s.evEntries.set s.evHead ⟨e, (s.eventAt s.evHead).count + 1⟩ }
    else s
  else if (s.eventAt s.evHead).etype ≠ 0 then
    { s with
      evHead := (s.evHead + 1) % s.cfg.eventLogSize
      evEntries := s.evEntries.set ((s.evHead + 1) % s.cfg.eventLogSize) ⟨e, 1⟩ }
  else { s with evEntries := s.evEntries.set s.evHead ⟨e, 1⟩ }

/-- GET_EVENT's entry: index 0 is the newest (43_dispatcher_commands.md R241). -/
def State.eventByAge (idx : Nat) (s : State) : EventEntry :=
  if s.cfg.eventLogSize ≤ idx then ⟨0, 0⟩
  else s.eventAt ((s.evHead + s.cfg.eventLogSize - idx) % s.cfg.eventLogSize)

/-! ## Taking a failure (R131, 60_exceptions.md R282, R287, R290; 42_bus_session.md R195)

This block has no traps; `FAIL(st)` stands where a processor's exception entry would, and nothing returns from it
(R288). -/

/-- The classes whose cause is an expired wait are logged (R282). -/
def Status.logged : Status → Bool
  | .ok | .devNotPresent => false
  | .noDevice | .listenerTimeout | .eoiTimeout | .nak | .turnaroundTimeout | .readStall | .readBitTimeout
  | .hsTimeout | .waitTimeout | .resetNotFree => true

/-- One `LOG` call for a logged class (R282). -/
def State.logIf (st : Status) (s : State) : State := if st.logged then s.logEvent st.code else s

/-- The line and port cleanup of R290. For ST_HS_TIMEOUT the rules give `REL(CLOCK | DATA | ATN)` and `pp_oe <- 0` in no
order (R290, 41_wire_modes.md R157): here the lines are released and the settle time passes first, then the port is
switched off (DESIGN CHOICE, log 25). A RESET that IEC_SETRELEASE asserted before stays asserted, as R290's masks have
it, also after ST_READ_BIT_TIMEOUT, where 42_bus_session.md R180 says that all lines are released and R181 that nothing
is asserted (DESIGN CHOICE, log 29). -/
def State.failLines (st : Status) (s : State) : State :=
  match st with
  | .noDevice | .devNotPresent | .listenerTimeout | .eoiTimeout | .nak | .turnaroundTimeout | .readBitTimeout =>
    s.releaseLines (Line.clock ||| Line.data ||| Line.atn)
  | .hsTimeout => (s.releaseLines (Line.clock ||| Line.data ||| Line.atn)).portOff
  | .ok | .readStall | .waitTimeout | .resetNotFree => s

/-- The `bus_state` change of a failure (R195, R290). -/
def State.failBusState (st : Status) (s : State) : State :=
  match st with
  | .noDevice | .devNotPresent | .listenerTimeout | .eoiTimeout | .nak | .turnaroundTimeout | .readBitTimeout
  | .hsTimeout | .resetNotFree => { s with busState := .unknown }
  | .ok | .readStall | .waitTimeout => s

/-- What `FAIL(st)` does to the state, in the order of R131: mask, log, lines, `bus_state`. -/
def State.failWith (st : Status) (s : State) : State :=
  (((if s.irqOff then s.irqUnmask else s).logIf st).failLines st).failBusState st

/-! ## The watchdog's expiry (60_exceptions.md R296, 70_reset_and_hazards.md R310, R311) -/

/-- The power-on state forced by the watchdog: R310's table, with the configuration kept, `now` at the reading that
passed the period, and the environment's side of the ports as it stood then; the released pins are shown. -/
def State.powerOn (e : WdtExpiry) (s : State) : State :=
  State.show
    { State.reset with
      cfg := s.cfg
      evEntries := List.replicate s.cfg.eventLogSize ⟨0, 0⟩
      now := e.time
      wdtLast := e.time
      inp := e.inp
      out := e.out }

/-- The end of a step: a watchdog expiry inside it overrides everything (R286). -/
def State.endStep (s : State) : State :=
  match s.expiry with
  | none => s
  | some e => s.powerOn e

/-! ## Engine operations -/

/-- Why an engine operation ends early: the failure status of R281, or an access the spec gives no meaning. -/
inductive Stop where
  | failed (st : Status)
  | fault (f : Fault)
deriving DecidableEq, Repr

/-- An engine operation: it ends with a result or a stop, in the state it left. -/
abbrev Engine (α : Type) := EStateM Stop State α

/-- A micro-step that cannot fail. -/
def act (f : State → State) : Engine Unit := fun s => .ok () (f s)

/-- `op` where the condition holds, else nothing. -/
def doIf (c : Bool) (op : Engine Unit) : Engine Unit := if c then op else pure ()

/-- `FAIL(st)` (R131): the whole operation ends. -/
def fail {α : Type} (st : Status) : Engine α := fun s => .error (.failed st) (s.failWith st)

/-- `POLL()` (R127). -/
def poll : Engine LineMask := fun s => .ok s.sense s.sampled

/-- `GET(L)` (R127). -/
def getLine (l : LineMask) : Engine Bool := fun s => .ok (decide (s.sense &&& l ≠ 0)) s.sampled

/-- `if not WAIT(m, v, T): FAIL(st)`, with T a parameter of the configuration. -/
def waitOr (m v : LineMask) (t : Config → Nat) (st : Status) : Engine Unit := fun s =>
  match s.wait m v (t s.cfg) with
  | (true, s') => .ok () s'
  | (false, s') => fail st s'

/-- `PP_SAMPLE()` (R130). -/
def portSample : Engine Byte := fun s => .ok s.portIn s.portSampled

/-- `DELAY` of a configured time. -/
def pause (t : Config → Nat) : Engine Unit := act fun s => s.delay (t s.cfg)

/-- `count <- count + 1`. -/
def countByte : Engine Unit := act fun s => { s with count := s.count + 1 }

/-! ## The buffer accesses (20_memory.md R62, R63) -/

/-- `MemRead(addr, n)` (R62); undefined outside the buffer, and on bytes that hold no value (R313). -/
def State.memRead (addr n : Nat) (s : State) : Except Fault (List Byte) :=
  if addr + n ≤ s.cfg.bufSize then
    match s.buffer.getMany? addr n with
    | some bs => .ok bs
    | none => .error .unwrittenByte
  else .error .bufferBounds

/-- The buffer after `MemWrite(addr, n, v)` inside the bound. -/
def State.putBytes (addr : Nat) (bs : List Byte) (s : State) : State :=
  { s with buffer := s.buffer.setMany addr bs }

/-- `MemWrite(addr, n, v)` (R63); undefined outside the buffer. -/
def State.memWrite (addr : Nat) (bs : List Byte) (s : State) : Except Fault State :=
  if addr + bs.length ≤ s.cfg.bufSize then .ok (s.putBytes addr bs) else .error .bufferBounds

/-- `MemRead` inside an engine operation. -/
def readBuffer (addr n : Nat) : Engine (List Byte) := fun s =>
  match s.memRead addr n with
  | .ok bs => .ok bs s
  | .error f => .error (.fault f) s

/-- Stores a received byte at `io.buffer[count]` and counts it (42_bus_session.md R180, 41_wire_modes.md R153). -/
def storeByte (b : Byte) : Engine Unit := fun s =>
  match s.memWrite s.count [b] with
  | .ok s' => .ok () { s' with count := s.count + 1 }
  | .error f => .error (.fault f) s

end Sys2Proof.Machine
end

