-- ==== Sys2Proof/Machine/Wire.lean ====
section
/-! DEFINITION. The four wire modes: their byte encoders and decoders, and the block operations of SERIAL2, PARALLEL
and PARALLEL2 (41_wire_modes.md R141 to R162). -/

namespace Sys2Proof.Machine

/-! ## ORIGINAL (R141, R143) -/

/-- One bit of an ORIGINAL byte: 0 = DATA asserted, valid while CLOCK is released (R141). -/
def State.sendBit (bit : Bool) (s : State) : State :=
  let s1 := s.delay s.cfg.tBitSetup
  let s2 := if bit then s1 else s1.assertLines Line.data
  ((s2.releaseLines Line.clock).delay s.cfg.tBitHold).setRelease Line.clock Line.data

/-- The eight bits, least significant first, with the interrupt masked (R141). -/
def State.sendBits (b : Byte) (s : State) : State :=
  ((List.range 8).foldl (fun t i => t.sendBit (b.getLsbD i)) s.irqMask).irqUnmask

/-- `ORIGINAL.write_byte(b)` (R141). -/
def writeByte (b : Byte) : Engine Unit := do
  act (State.sendBits b)
  waitOr Line.data Line.data (·.tAck) .nak

/-- `b <- (b >> 1) | (GET(DATA) ? 0x00 : 0x80)` (R143, R132). -/
def shiftIn (b : Byte) (dataAsserted : Bool) : Byte :=
  (b >>> 1) ||| (if dataAsserted then 0x00#8 else 0x80#8)

/-- The bits of an ORIGINAL byte still to come, into the byte assembled so far (R143). -/
def readBits : Nat → Byte → Engine Byte
  | 0, b => pure b
  | n + 1, b => do
    waitOr Line.clock 0 (·.tAck) .readBitTimeout
    let d ← getLine Line.data
    waitOr Line.clock Line.clock (·.tAck) .readBitTimeout
    readBits n (shiftIn b d)

/-- The talker was silent for T_EOI_DETECT: note EOI, acknowledge it with a pulse, wait for CLOCK again (R143). -/
def acknowledgeEoi : Engine Unit := do
  act State.setEoi
  act (State.assertLines Line.data)
  pause (·.tEoiAck)
  act (State.releaseLines Line.data)
  waitOr Line.clock Line.clock (·.tAck) .readBitTimeout

/-- `WAIT(m, v, T)` whose outcome the operation looks at. -/
def waitFor (m v : LineMask) (t : Config → Nat) : Engine Bool := fun s =>
  .ok (s.wait m v (t s.cfg)).1 (s.wait m v (t s.cfg)).2

/-- `ORIGINAL.read_byte()` (R143). -/
def readByte : Engine Byte := do
  act State.irqMask
  act (State.releaseLines Line.data)
  let clocked ← waitFor Line.clock Line.clock (·.tEoiDetect)
  doIf (!clocked) acknowledgeEoi
  let b ← readBits 8 0
  act State.irqUnmask
  act (State.assertLines Line.data)
  pure b

/-! ## Block loops of the modes without framing (R152, R153, R157, R158, R161, R162) -/

/-- Sends the bytes in order, counting the acknowledged ones. -/
def sendEach (send : Byte → Engine Unit) : List Byte → Engine Unit
  | [] => pure ()
  | b :: rest => do
    send b
    countByte
    sendEach send rest

/-- Receives bytes, storing byte j at `io.buffer[j]` and counting it. -/
def receiveEach (receive : Engine Byte) : Nat → Engine Unit
  | 0 => pure ()
  | n + 1 => do
    let b ← receive
    storeByte b
    receiveEach receive n

/-- The three lines a block operation of SERIAL2 or PARALLEL starts by releasing (R152, R153, R157, R158). A RESET that
IEC_SETRELEASE asserted before stays asserted, although R165 says that all four lines are released after such a block
(DESIGN CHOICE, log 28). -/
abbrev Line.threeLines : LineMask := Line.data ||| Line.clock ||| Line.atn

/-! ## SERIAL2 (R150 to R153) -/

/-- The lines that carry bit pair k of a byte: bit 2k on DATA, bit 2k+1 on CLOCK, 1 = asserted (R150). -/
def pairLines (b : Byte) (k : Nat) : LineMask :=
  (if b.getLsbD (2 * k) then Line.data else 0) ||| (if b.getLsbD (2 * k + 1) then Line.clock else 0)

/-- The k-th edge of the synthetic clock: ATN asserted for even k, released for odd k (R150, R151). A byte has four of
them, k = 0 to 3, although R154 says eight (DESIGN CHOICE, log 27). -/
def State.atnEdge (k : Nat) (s : State) : State :=
  if k % 2 = 0 then s.assertLines Line.atn else s.releaseLines Line.atn

/-- Half-cycle k of `S2.write_byte` (R150). -/
def State.sendPair (b : Byte) (k : Nat) (s : State) : State :=
  (((s.setRelease (pairLines b k) ((Line.data ||| Line.clock) &&& ~~~(pairLines b k))).delay s.cfg.tS2Setup).atnEdge
    k).delay s.cfg.tS2Hold

/-- `S2.write_byte(b)` (R150): four ATN edges, two bits at each (R154 says eight edges: DESIGN CHOICE, log 27); it cannot
fail. -/
def s2WriteByte (b : Byte) : Engine Unit :=
  act fun s =>
    (((List.range 4).foldl (fun t k => t.sendPair b k) s.irqMask).releaseLines (Line.data ||| Line.clock)).irqUnmask

/-- Half-cycle k of `S2.read_byte`: the edge, the hold time, one poll (R151). -/
def readPair (k : Nat) : Engine LineMask := do
  act (State.atnEdge k)
  pause (·.tS2Hold)
  let m ← poll
  pause (·.tS2Setup)
  pure m

/-- The byte of the four polls: bit 2k from DATA, bit 2k+1 from CLOCK, 1 = asserted (R151). -/
def byteOfPairs (m0 m1 m2 m3 : LineMask) : Byte :=
  m3.extractLsb' 0 2 ++ (m2.extractLsb' 0 2 ++ (m1.extractLsb' 0 2 ++ m0.extractLsb' 0 2))

/-- `S2.read_byte()` (R151): four ATN edges, a poll at each (log 27); it cannot fail. -/
def s2ReadByte : Engine Byte := do
  act State.irqMask
  let m0 ← readPair 0
  let m1 ← readPair 1
  let m2 ← readPair 2
  let m3 ← readPair 3
  act State.irqUnmask
  pure (byteOfPairs m0 m1 m2 m3)

/-- `S2.write(bytes)` (R152): bare bytes, no framing. RESET is left as it is (log 28). -/
def s2Write (bytes : List Byte) : Engine Unit := do
  act (State.releaseLines Line.threeLines)
  sendEach s2WriteByte bytes

/-- `S2.read(cap)` (R153): always cap bytes. RESET is left as it is (log 28). -/
def s2Read (cap : Nat) : Engine Unit := do
  act (State.releaseLines Line.threeLines)
  receiveEach s2ReadByte cap

/-! ## PARALLEL (R155 to R158) -/

/-- `PP.write_byte(b)`, four phases (R155). -/
def ppWriteByte (b : Byte) : Engine Unit := do
  act (State.portOut b)
  act (State.assertLines Line.clock)
  waitOr Line.data Line.data (·.tStall) .hsTimeout
  act (State.releaseLines Line.clock)
  waitOr Line.data 0 (·.tAck) .hsTimeout

/-- `PP.read_byte()` (R156). -/
def ppReadByte : Engine Byte := do
  waitOr Line.clock Line.clock (·.tStall) .hsTimeout
  let b ← portSample
  act (State.assertLines Line.data)
  waitOr Line.clock 0 (·.tAck) .hsTimeout
  act (State.releaseLines Line.data)
  pure b

/-- `PP_IN()` whose value is dropped: the port becomes an input (R158, R162). -/
def portInput : Engine Unit := do
  act State.portToInput
  act State.portSampled

/-- `PP.write(bytes)` (R157); after a failure the cleanup of R290 has switched the port off. RESET is left as it is (log
28). -/
def ppWrite (bytes : List Byte) : Engine Unit := do
  act (State.releaseLines Line.threeLines)
  sendEach ppWriteByte bytes
  act State.portOff

/-- `PP.read(cap)` (R158). RESET is left as it is (log 28). -/
def ppRead (cap : Nat) : Engine Unit := do
  act (State.releaseLines Line.threeLines)
  portInput
  receiveEach ppReadByte cap

/-! ## PARALLEL2 (R159 to R163) -/

/-- A flag line inverted by this block: the sender's CLOCK (R159), the receiver's DATA (R160). -/
def State.toggleLine (l : LineMask) (s : State) : State :=
  if s.drive &&& l = 0 then s.assertLines l else s.releaseLines l

/-- `P2.write_byte(b)`: one CLOCK transition, then the peer makes DATA follow (R159). -/
def p2WriteByte (b : Byte) : Engine Unit := do
  act (State.portOut b)
  let s ← get
  act (State.toggleLine Line.clock)
  waitOr Line.data (if s.drive &&& Line.clock = 0 then Line.data else 0) (·.tStall) .hsTimeout

/-- `P2.read_byte()`: a CLOCK level unlike our DATA is a new byte; making DATA follow takes it (R160). -/
def p2ReadByte : Engine Byte := do
  let s ← get
  waitOr Line.clock (if s.drive &&& Line.data = 0 then Line.clock else 0) (·.tStall) .hsTimeout
  let b ← portSample
  act (State.toggleLine Line.data)
  pure b

/-- `P2.write(bytes)` (R161): CLOCK is left as it is, it carries the phase. -/
def p2Write (bytes : List Byte) : Engine Unit := do
  act (State.releaseLines (Line.data ||| Line.atn))
  sendEach p2WriteByte bytes
  act State.portOff

/-- `P2.read(cap)` (R162): DATA is left as it is. -/
def p2Read (cap : Nat) : Engine Unit := do
  act (State.releaseLines (Line.clock ||| Line.atn))
  portInput
  receiveEach p2ReadByte cap

end Sys2Proof.Machine
end

