-- ==== Sys2Proof/Machine/Session.lean ====
section
/-! DEFINITION. The bus session operations (42_bus_session.md R172 to R193): raw write, raw read, bus reset with its
probe, and the six addressing operations. -/

namespace Sys2Proof.Machine

/-- `bus_state <- v` (R195). -/
def setBusState (v : BusState) : Engine Unit := act fun s => { s with busState := v }

/-! ## raw_write (R172 to R177) -/

/-- The start of `raw_write` up to the presence check (R172, R173). -/
def beginRawWrite (atn : Bool) : Engine Unit := do
  act fun s => { s.clearEoi with count := 0 }
  act (State.releaseLines Line.data)
  act (State.assertLines (Line.clock ||| if atn then Line.atn else 0))
  doIf atn (setBusState .busyAtn)
  waitOr Line.data Line.data (·.tAck) .noDevice

/-- The EOI hold: CLOCK stays released until the listener's pulse has come (R175). -/
def eoiHold : Engine Unit := do
  waitOr Line.data Line.data (·.tAck) .eoiTimeout
  waitOr Line.data 0 (·.tAck) .eoiTimeout

/-- One turn of the byte loop (R174, R177). -/
def sendFramed (lastData : Bool) (b : Byte) : Engine Unit := do
  pause (·.tPreByte)
  let present ← getLine Line.data
  doIf (!present) (fail .devNotPresent)
  act (State.releaseLines Line.clock)
  waitOr Line.data 0 (·.tListener) .listenerTimeout
  doIf lastData eoiHold
  act (State.assertLines Line.clock)
  writeByte b
  countByte
  pause (·.tByteGapW)

/-- The byte loop; the last byte of a write without ATN carries EOI (R172, R175). -/
def sendFramedEach (atn : Bool) : List Byte → Engine Unit
  | [] => pure ()
  | b :: rest => do
    sendFramed (rest.isEmpty && !atn) b
    sendFramedEach atn rest

/-- The talk turnaround: this block becomes the listener, the device takes CLOCK (R176). A RESET that IEC_SETRELEASE
asserted before stays asserted, although R189 says that DATA only is asserted after `talk` (DESIGN CHOICE, log 29). -/
def turnAround : Engine Unit := do
  act (State.assertLines Line.data)
  act (State.releaseLines Line.atn)
  act (State.releaseLines Line.clock)
  waitOr Line.clock Line.clock (·.tTurn) .turnaroundTimeout

/-- The lines at the end of a write: hand the sender role over, or release ATN (R176). -/
def releaseAtn (talk : Bool) : Engine Unit := if talk then turnAround else act (State.releaseLines Line.atn)

/-- The epilogue (R176). -/
def endRawWrite (talk : Bool) : Engine Unit := do
  releaseAtn talk
  pause (·.tPostWrite)

/-- `raw_write(buf, atn, talk)` (R172). -/
def rawWrite (buf : List Byte) (atn talk : Bool) : Engine Unit := do
  beginRawWrite atn
  sendFramedEach atn buf
  endRawWrite talk

/-! ## raw_read (R180) -/

/-- The read loop: at most `cap` more bytes, ending with the byte that carries EOI. No line but DATA is written: a RESET,
ATN or CLOCK that IEC_SETRELEASE asserted before stays asserted, although R181 says that DATA and nothing else is (DESIGN
CHOICE, log 29). -/
def readLoop : Nat → Engine Unit
  | 0 => pure ()
  | cap + 1 => do
    waitOr Line.clock 0 (·.tStall) .readStall
    let b ← readByte
    storeByte b
    pause (·.tByteGapR)
    let s ← get
    if s.eoi then pure () else readLoop cap

/-- `raw_read(cap)` (R180): nothing after the end of a record. -/
def rawRead (cap : Nat) : Engine Unit := do
  let s ← get
  if s.eoi then pure () else readLoop cap

/-! ## reset (R185, R186) -/

/-- All four lines. -/
abbrev Line.allLines : LineMask := Line.data ||| Line.clock ||| Line.atn ||| Line.reset

/-- `probe_free()` (R186). -/
def probeFree : Engine Bool := do
  act (State.releaseLines Line.allLines)
  pause (·.tProbeSettle)
  let lines ← poll
  if lines ≠ 0 then pure false else do
    act (State.assertLines Line.atn)
    pause (·.tProbeSettle)
    let answered ← getLine Line.data
    act (State.releaseLines Line.atn)
    if answered then do
      pause (·.tProbeSettle)
      let held ← getLine Line.data
      pure (!held)
    else pure false

/-- The probe loop of `reset()` (R185). -/
def probeLoop : Nat → Engine Unit
  | 0 => fail .resetNotFree
  | n + 1 => do
    act State.kick
    let free ← probeFree
    if free then setBusState .free else do
      pause (·.tResetStep)
      probeLoop n

/-- `reset()` (R185). -/
def busReset : Engine Unit := do
  act (State.releaseLines (Line.data ||| Line.atn ||| Line.clock))
  act (State.assertLines Line.reset)
  pause (·.tResetPulse)
  act (State.releaseLines Line.reset)
  let s ← get
  probeLoop s.cfg.nResetProbe

/-! ## The addressing operations (R188 to R193): `raw_write` of the command bytes under ATN -/

/-- `listen`, `open`, `close` (R188, R192, R193). -/
def addressListener (bytes : List Byte) : Engine Unit := do
  rawWrite bytes true false
  setBusState .listening

/-- `talk` (R189). RESET is left as it is (log 29). -/
def addressTalker (bytes : List Byte) : Engine Unit := do
  rawWrite bytes true true
  setBusState .talking

/-- `unlisten`, `untalk` (R190, R191). A RESET that IEC_SETRELEASE asserted before stays asserted, although R190 says that
this block then asserts nothing (DESIGN CHOICE, log 29). -/
def endBracket (bytes : List Byte) : Engine Unit := do
  rawWrite bytes true false
  act (State.releaseLines Line.clock)
  setBusState .free

end Sys2Proof.Machine
end

