-- ==== Sys2Proof/Machine/Handler.lean ====
section
/-! DEFINITION. The idle-loop handler (44_async_handler.md R263 to R268). -/

namespace Sys2Proof.Machine

/-- What a step or a meaning answers. -/
abbrev Result := Host.Outcome State Fault Refusal

/-- A finished operation's status and value: its own, or the failure's with the bytes counted so far (R131, R287). -/
def engineReport : EStateM.Result Stop State (Status × Byte) → Except Fault (Status × Byte × State)
  | .ok (st, n) s => .ok (st, n, s)
  | .error (.failed st) s => .ok (st, byteOfCount s.count, s)
  | .error (.fault f) _ => .error f

/-- The end of a handler entry: the request gets its status, value, fill and mode, and the operation's locals are
gone (R266 to R268, 10_state.md R42). -/
def State.finishRequest (m : IoMode) (fill : Byte) (st : Status) (n : Byte) (s : State) : State :=
  { s with status := st.code, value := n, fill := fill, offset := 0, mode := m, count := 0 }

/-- The count and status a block operation that ended well reports: (count, OK). -/
def withCount (op : Engine Unit) : Engine (Status × Byte) := do
  op
  let s ← get
  pure (.ok, byteOfCount s.count)

/-- `read` of a protocol (41_wire_modes.md R140); `count` starts at 0. -/
def readOp (p : Proto) (cap : Nat) : Engine Unit := do
  act fun s => { s with count := 0 }
  match p with
  | .s1 => rawRead cap
  | .s2 => s2Read cap
  | .pp => ppRead cap
  | .p2 => p2Read cap

/-- `write` of a protocol (41_wire_modes.md R140, R142). -/
def writeOp (p : Proto) (bytes : List Byte) : Engine Unit := do
  act fun s => { s with count := 0 }
  match p with
  | .s1 => rawWrite bytes false false
  | .s2 => s2Write bytes
  | .pp => ppWrite bytes
  | .p2 => p2Write bytes

/-- Handler, READ mode (R266). -/
def handleRead (s : State) : Result :=
  match engineReport (withCount (readOp s.proto s.fill.toNat) s) with
  | .ok (st, n, t) => .next (t.finishRequest .readDone (byteOfCount t.count) st n)
  | .error f => .fault f

/-- The write operation of a WRITE request: the payload is `io.buffer[0..io.fill)` (R267). -/
def writeRequest (s : State) : Engine Unit := do
  let bytes ← readBuffer 0 s.fill.toNat
  writeOp s.proto bytes

/-- Handler, WRITE mode (R267). -/
def handleWrite (s : State) : Result :=
  match engineReport (withCount (writeRequest s) s) with
  | .ok (st, n, t) => .next (t.finishRequest .result 0 st n)
  | .error f => .fault f

/-- IEC_WAIT's operation (R220, R268): it does not go through `FAIL`. -/
def iecWaitOp : Engine (Status × Byte) := do
  let bs ← readBuffer 0 2
  let m := maskOf (bs.getD 0 0)
  let v := if bs.getD 1 0 = 1 then m else 0
  let ok ← waitFor m v (·.tStall)
  let lines ← poll
  if ok then pure (.ok, byteOfMask lines)
  else do
    act (State.logEvent Status.waitTimeout.code)
    pure (.waitTimeout, byteOfMask lines)

/-- IRQ_PAUSE's operation (43_dispatcher_commands.md R242). -/
def irqPauseOp : Engine Unit := do
  act State.irqMask
  pause (·.tIrqPause)
  act State.irqUnmask

/-- The deferred operation that `io.acmd` names (R268), on the command bytes in the buffer. -/
def asyncOp (acmd : Byte) : Engine (Status × Byte) := do
  act fun s => { s with count := 0 }
  match acmd.toNat with
  | 3 => do
    let bs ← readBuffer 0 2
    withCount (addressTalker bs)
  | 4 | 7 | 8 => do
    let bs ← readBuffer 0 2
    withCount (addressListener bs)
  | 5 | 6 => do
    let bs ← readBuffer 0 1
    withCount (endBracket bs)
  | 9 => withCount busReset
  | 17 => iecWaitOp
  | 253 => withCount irqPauseOp
  | _ => throw (.fault .unknownAsync)

/-- Handler, ASYNC mode (R268). -/
def handleAsync (s : State) : Result :=
  match engineReport (asyncOp s.acmd s) with
  | .ok (st, n, t) => .next (t.finishRequest .result 0 st n)
  | .error f => .fault f

/-- `handle()`: one handler entry (R263, R265). -/
def handle (s : State) : Result :=
  match s.mode with
  | .read => handleRead s
  | .write => handleWrite s
  | .async => handleAsync s
  | .idle | .readDone | .writePrepared | .result => .next s

end Sys2Proof.Machine
end

