-- ==== Sys2Proof/Machine/Dispatcher.lean ====
section
/-! DEFINITION. What the dispatcher's commands share (43_dispatcher_commands.md R201, R222; 60_exceptions.md R286):
responses, the busy check, the creation of a request; and taking a host event. -/

namespace Sys2Proof.Machine

/-- A command answered with an inline reply (30_encoding.md R84). -/
def replyWith (bytes : List Byte) (s : State) : Result := .next (s.answer (.reply bytes))

/-- `Refuse(reason)`: the command is not executed, the state is unchanged (R84, R201). -/
def refuseWith (reason : RefuseReason) (s : State) : Result := .next (s.answer (.refuse reason))

/-- `require IDLE` (44_async_handler.md R264): the one OVERLAP_POLICY is to reject. -/
def requireIdle (s : State) (accepted : Result) : Result :=
  match s.cfg.overlapPolicy with
  | .reject => if s.mode = .idle then accepted else refuseWith .busy s

/-- A new read or write request (R205, R215). -/
def State.beginTransfer (m : IoMode) (n : Byte) (p : Proto) (s : State) : State :=
  { s with fill := n, offset := 0, proto := p, status := 0, value := 0, mode := m }

/-- A new deferred command (R206, R208, R212, R220, R242). -/
def State.beginAsync (code : Byte) (n : Byte) (s : State) : State :=
  { s with fill := n, offset := 0, acmd := code, status := 0, value := 0, mode := .async }

/-- REQUEST_READ in a protocol (R215, R226). -/
def requestReadIn (p : Proto) (n : Byte) (s : State) : Result :=
  if goodLength s.cfg n.toNat then
    requireIdle s (.next ((s.beginTransfer .read n p).answer (.pending 0)))
  else refuseWith .badLength s

/-- WRITE in a protocol (R205, R227); a length in range fits the 8-bit `io.fill`. -/
def writeIn (p : Proto) (len : BitVec 16) (s : State) : Result :=
  if goodLength s.cfg len.toNat then
    requireIdle s (.next ((s.beginTransfer .writePrepared (byteOfCount len.toNat) p).answer (.pending len.toNat)))
  else refuseWith .badLength s

/-- A deferred command that places its bus command bytes, one or two, in the buffer (R206 to R211); `Config.wf` has the
buffer hold them. -/
def deferWithBytes (code : Byte) (bytes : List Byte) (s : State) : Result :=
  requireIdle s (.next (((s.putBytes 0 bytes).beginAsync code (byteOfCount bytes.length)).answer (.pending 0)))

/-- A deferred command with a device and a secondary address (R206, R207, R210, R211; 30_encoding.md R98). -/
def addressCommand (code dev sec : Byte) (bytes : List Byte) (s : State) : Result :=
  if goodAddress dev sec then deferWithBytes code bytes s else refuseWith .badParam s

/-- The capability check of sub-READ and sub-WRITE (R201 (3)). -/
def requireProto (p : Proto) (s : State) (accepted : Result) : Result :=
  if hasProto s.cfg p then accepted else refuseWith .unimplemented s

/-- Sub-INFO (R225): the protocol's capability bit. -/
def protoInfo (p : Proto) (s : State) : Result := replyWith [if hasProto s.cfg p then 1 else 0] s

/-- A code forwarded out of the block (R237, R238): the word appears on `ext_cmd`, the command is refused. -/
def forwardOut (w : CmdWord) (s : State) : Result := refuseWith .external (s.forward w)

/-! ## The main loop's parts (R261) -/

/-- The next host event, if one waits. -/
def State.waitingEvent (s : State) : Option HostEvent := s.inp.host.head?

/-- The top of a main-loop turn: the watchdog is restarted, the waiting event (if any) is taken, the handler is
next. -/
def State.beginTurn (s : State) : State :=
  { s.kick with inp := { s.inp with host := s.inp.host.tail }, phase := .handler }

/-- The end of a main-loop turn. -/
def State.endTurn (s : State) : State := { s with phase := .takeEvent }

/-- Applies `f` to the next state, if there is one. -/
def onNext (f : State → State) : Result → Result
  | .next s => .next (f s)
  | .fault r => .fault r
  | .refused r => .refused r

/-- The state whose next event is the command word `w`. -/
def State.withCommand (w : CmdWord) (s : State) : State :=
  { s with inp := { s.inp with host := .command w .toBlock :: s.inp.host }, phase := .takeEvent }

end Sys2Proof.Machine
end

