-- ==== Sys2Proof/Machine/Addressing.lean ====
section
/-! DEFINITION. The addressing commands and the bus reset (43_dispatcher_commands.md R206 to R212). -/

namespace Sys2Proof.Machine

/-- TALK (R206). -/
def execTalk (dev sec : Byte) (s : State) : Result := addressCommand 3 dev sec (talkBytes dev sec) s

/-- LISTEN (R207). -/
def execListen (dev sec : Byte) (s : State) : Result := addressCommand 4 dev sec (listenBytes dev sec) s

/-- UNTALK (R208). -/
def execUntalk (s : State) : Result := deferWithBytes 5 untalkBytes s

/-- UNLISTEN (R209). -/
def execUnlisten (s : State) : Result := deferWithBytes 6 unlistenBytes s

/-- OPEN (R210). -/
def execOpenDev (dev sec : Byte) (s : State) : Result := addressCommand 7 dev sec (openBytes dev sec) s

/-- CLOSE (R211). -/
def execCloseDev (dev sec : Byte) (s : State) : Result := addressCommand 8 dev sec (closeBytes dev sec) s

/-- RESET (R212): the one request-creating command with no busy check. -/
def execReset (s : State) : Result := .next ((s.beginAsync 9 0).answer (.pending 0))

end Sys2Proof.Machine
end

