-- ==== Sys2Proof/Machine/BusBytes.lean ====
section
/-! DEFINITION. The bus command bytes the block emits (30_encoding.md R96, R97). They are no host commands: the
handler's `raw_write` sends them. The meaning of such a row is the sending of that one byte under ATN, one turn of the
byte loop of 42_bus_session.md R172 and R174 (log 16). -/

namespace Sys2Proof.Machine

/-- Sends one bus command byte; a failure is taken as R131 says and leaves its status and count in the request
(60_exceptions.md R287 (6)). -/
def sendBusByte (b : Byte) (s : State) : Result :=
  match sendFramed false b s with
  | .ok _ t => .next t
  | .error (.failed st) t => .next { t with status := st.code, value := byteOfCount t.count }
  | .error (.fault f) _ => .fault f

/-- bus:LISTEN, `0x20 | DEV`. -/
def execBusListen (dev : BitVec 5) (s : State) : Result := sendBusByte (0x20#8 ||| dev.zeroExtend 8) s
/-- bus:UNLISTEN, 0x3F. -/
def execBusUnlisten (s : State) : Result := sendBusByte 0x3F#8 s
/-- bus:TALK, `0x40 | DEV`. -/
def execBusTalk (dev : BitVec 5) (s : State) : Result := sendBusByte (0x40#8 ||| dev.zeroExtend 8) s
/-- bus:UNTALK, 0x5F. -/
def execBusUntalk (s : State) : Result := sendBusByte 0x5F#8 s
/-- bus:SECOND, `0x60 | SEC`. -/
def execBusSecond (sec : BitVec 4) (s : State) : Result := sendBusByte (0x60#8 ||| sec.zeroExtend 8) s
/-- bus:CLOSE, `0xE0 | SEC`. -/
def execBusClose (sec : BitVec 4) (s : State) : Result := sendBusByte (0xE0#8 ||| sec.zeroExtend 8) s
/-- bus:OPEN, `0xF0 | SEC`. -/
def execBusOpen (sec : BitVec 4) (s : State) : Result := sendBusByte (0xF0#8 ||| sec.zeroExtend 8) s

end Sys2Proof.Machine
end

