-- ==== Sys2Proof/Machine/LineCommands.lean ====
section
/-! DEFINITION. The low-level line and port commands (43_dispatcher_commands.md R217 to R221). -/

namespace Sys2Proof.Machine

/-- PP_READ (R217): `PP_IN()`, which samples after the settle delay (40_line_primitives.md R130). -/
def execPpRead (s : State) : Result := replyWith [s.portToInput.portIn] s.portToInput.portSampled

/-- PP_WRITE (R218). -/
def execPpWrite (val : Byte) (s : State) : Result := replyWith [] (s.portOut val)

/-- IEC_POLL (R219). -/
def execIecPoll (s : State) : Result := replyWith [byteOfMask s.sense] s.sampled

/-- IEC_WAIT (R220): deferred, its operands go to the buffer. -/
def execIecWait (mask state : Byte) (s : State) : Result :=
  deferWithBytes 17 [byteOfMask (maskOf mask), truthOf state] s

/-- IEC_SETRELEASE (R221). -/
def execIecSetRelease (setm relm : Byte) (s : State) : Result :=
  replyWith [] (s.setRelease (maskOf setm) (maskOf relm))

end Sys2Proof.Machine
end

