-- ==== Sys2Proof/Machine/Reserved.lean ====
section
/-! DEFINITION. Stub, external and unassigned codes (43_dispatcher_commands.md R236 to R239), and the test and debug
commands (R240 to R242). -/

namespace Sys2Proof.Machine

/-- PARBURST_0 (R236). -/
def execParburst0 (s : State) : Result := refuseWith .unimplemented s
/-- PARBURST_1 (R236). -/
def execParburst1 (s : State) : Result := refuseWith .unimplemented s
/-- PARBURST_2 (R236). -/
def execParburst2 (s : State) : Result := refuseWith .unimplemented s
/-- PARBURST_3 (R236). -/
def execParburst3 (s : State) : Result := refuseWith .unimplemented s

/-- EEPROM_READ (R237): the word `cmd = 23` with its parameters goes to `ext_cmd`. -/
def execEepromRead (params : BitVec 48) (s : State) : Result := forwardOut (params ++ 0x17#8) s
/-- EEPROM_WRITE (R237). -/
def execEepromWrite (params : BitVec 48) (s : State) : Result := forwardOut (params ++ 0x18#8) s
/-- FLASH (R238). -/
def execFlash (params : BitVec 48) (s : State) : Result := forwardOut (params ++ 0x19#8) s

/-- An unassigned code of 26 to 31 (R239). -/
def execUnassignedLow (_cmd : Byte) (s : State) : Result := refuseWith .reserved s
/-- An unassigned code of 36 to 252, or to 255 without DEBUG_CMDS (R239). -/
def execUnassignedHigh (_cmd : Byte) (s : State) : Result := refuseWith .reserved s

/-- ECHO (R240). -/
def execEcho (e0 e1 e2 e3 : Byte) (s : State) : Result := replyWith [e0, e1, e2, e3] s

/-- GET_EVENT (R241; 30_encoding.md R103). -/
def execGetEvent (idx : Byte) (s : State) : Result :=
  replyWith [(s.eventByAge idx.toNat).etype, (s.eventByAge idx.toNat).count] s

/-- IRQ_PAUSE (R242). -/
def execIrqPause (s : State) : Result :=
  requireIdle s (.next ((s.beginAsync 0xFD 0).answer (.pending 0)))

end Sys2Proof.Machine
end

