-- ==== Sys2Proof/Machine/SubProtocol.lean ====
section
/-! DEFINITION. The sub-protocol commands (43_dispatcher_commands.md R225 to R228). -/

namespace Sys2Proof.Machine

/-- S1.INFO (R225). -/
def execSubS1Info (s : State) : Result := protoInfo .s1 s
/-- S2.INFO (R225). -/
def execSubS2Info (s : State) : Result := protoInfo .s2 s
/-- PP.INFO (R225). -/
def execSubPpInfo (s : State) : Result := protoInfo .pp s
/-- P2.INFO (R225). -/
def execSubP2Info (s : State) : Result := protoInfo .p2 s

/-- S1.READ (R226). -/
def execSubS1Read (n : Byte) (s : State) : Result := requireProto .s1 s (requestReadIn .s1 n s)
/-- S2.READ (R226). -/
def execSubS2Read (n : Byte) (s : State) : Result := requireProto .s2 s (requestReadIn .s2 n s)
/-- PP.READ (R226). -/
def execSubPpRead (n : Byte) (s : State) : Result := requireProto .pp s (requestReadIn .pp n s)
/-- P2.READ (R226). -/
def execSubP2Read (n : Byte) (s : State) : Result := requireProto .p2 s (requestReadIn .p2 n s)

/-- S1.WRITE (R227). -/
def execSubS1Write (len : BitVec 16) (s : State) : Result := requireProto .s1 s (writeIn .s1 len s)
/-- S2.WRITE (R227). -/
def execSubS2Write (len : BitVec 16) (s : State) : Result := requireProto .s2 s (writeIn .s2 len s)
/-- PP.WRITE (R227). -/
def execSubPpWrite (len : BitVec 16) (s : State) : Result := requireProto .pp s (writeIn .pp len s)
/-- P2.WRITE (R227). -/
def execSubP2Write (len : BitVec 16) (s : State) : Result := requireProto .p2 s (writeIn .p2 len s)

/-- A sub-opcode of 3 to 255 (R228). -/
def execBadSubOpcode (_p : Proto) (_sub : Byte) (s : State) : Result := refuseWith .badSubop s

end Sys2Proof.Machine
end

