-- ==== Sys2Proof/Machine/Transfer.lean ====
section
/-! DEFINITION. Information, the buffer transfer commands and the payload chunk (43_dispatcher_commands.md R200, R204,
R205, R215, R216; 44_async_handler.md R272), and the EOI flag (R213, R214). -/

namespace Sys2Proof.Machine

/-- INFO (R200; 30_encoding.md R101). -/
def execInfo (s : State) : Result :=
  replyWith
    ([s.cfg.fwMajor, s.cfg.fwMinor, s.cfg.caps.extractLsb' 0 8, s.cfg.caps.extractLsb' 8 8] ++
      (if s.cfg.hasBiosInfo then [s.cfg.biosMajor, s.cfg.biosMinor] else [])) s

/-- The number of bytes a READ of `len` returns: `min(LEN, io.fill - io.offset)` (R204). -/
def readAmount (len : Nat) (s : State) : Nat := min len (s.fill.toNat - s.offset.toNat)

/-- `io.offset <- io.offset + k`, and `io.mode <- m` when that drains or fills the request (R204, R272). -/
def State.advance (k : Nat) (m : IoMode) (s : State) : State :=
  { s with
    offset := s.offset + byteOfCount k
    mode := if s.offset + byteOfCount k = s.fill then m else s.mode }

/-- READ (R204). -/
def execRead (len : BitVec 16) (s : State) : Result :=
  if goodLength s.cfg len.toNat then
    if s.mode = .readDone then
      match s.memRead s.offset.toNat (readAmount len.toNat s) with
      | .ok bytes => .next ((s.advance (readAmount len.toNat s) .idle).answer (.dataIn bytes))
      | .error f => .fault f
    else refuseWith .badState s
  else refuseWith .badLength s

/-- WRITE (R205). -/
def execWrite (len : BitVec 16) (s : State) : Result := writeIn .s1 len s

/-- REQUEST_READ (R215). -/
def execRequestRead (n : Byte) (s : State) : Result := requestReadIn .s1 n s

/-- GET_RESULT (R216; 30_encoding.md R102). -/
def execGetResult (s : State) : Result :=
  replyWith [s.mode.code, s.status, s.value] (if s.mode = .result then { s with mode := .idle } else s)

/-- The number of a chunk's bytes that are stored: `min(length(bytes), io.fill - io.offset)` (R272). -/
def chunkAmount (bytes : List Byte) (s : State) : Nat := min bytes.length (s.fill.toNat - s.offset.toNat)

/-- DATA_OUT (44_async_handler.md R272). -/
def execDataOut (bytes : List Byte) (s : State) : Result :=
  if s.mode = .writePrepared then
    match s.memWrite s.offset.toNat (bytes.take (chunkAmount bytes s)) with
    | .ok t => .next ((t.advance (chunkAmount bytes s) .write).answer (.reply []))
    | .error f => .fault f
  else refuseWith .badState s

/-- GET_EOI (R213). -/
def execGetEoi (s : State) : Result := replyWith [eoiByte s] s

/-- CLEAR_EOI (R214). -/
def execClearEoi (s : State) : Result := replyWith [] s.clearEoi

end Sys2Proof.Machine
end

