-- ==== Sys2Proof/Machine/Dispatch.lean ====
section
/-! DEFINITION. The meaning of every instruction: one arm per row of spec/opcode_table.json. -/

namespace Sys2Proof.Machine

def exec (i : Instr) (s : State) : Host.Outcome State Fault Refusal :=
  match i with
  | .info => Sys2Proof.Machine.execInfo s
  | .read len => Sys2Proof.Machine.execRead len s
  | .write len => Sys2Proof.Machine.execWrite len s
  | .talk dev sec => Sys2Proof.Machine.execTalk dev sec s
  | .listen dev sec => Sys2Proof.Machine.execListen dev sec s
  | .untalk => Sys2Proof.Machine.execUntalk s
  | .unlisten => Sys2Proof.Machine.execUnlisten s
  | .openDev dev sec => Sys2Proof.Machine.execOpenDev dev sec s
  | .closeDev dev sec => Sys2Proof.Machine.execCloseDev dev sec s
  | .reset => Sys2Proof.Machine.execReset s
  | .getEoi => Sys2Proof.Machine.execGetEoi s
  | .clearEoi => Sys2Proof.Machine.execClearEoi s
  | .requestRead n => Sys2Proof.Machine.execRequestRead n s
  | .getResult => Sys2Proof.Machine.execGetResult s
  | .ppRead => Sys2Proof.Machine.execPpRead s
  | .ppWrite val => Sys2Proof.Machine.execPpWrite val s
  | .iecPoll => Sys2Proof.Machine.execIecPoll s
  | .iecWait mask state => Sys2Proof.Machine.execIecWait mask state s
  | .iecSetRelease setm relm => Sys2Proof.Machine.execIecSetRelease setm relm s
  | .parburst0 => Sys2Proof.Machine.execParburst0 s
  | .parburst1 => Sys2Proof.Machine.execParburst1 s
  | .parburst2 => Sys2Proof.Machine.execParburst2 s
  | .parburst3 => Sys2Proof.Machine.execParburst3 s
  | .eepromRead params => Sys2Proof.Machine.execEepromRead params s
  | .eepromWrite params => Sys2Proof.Machine.execEepromWrite params s
  | .flash params => Sys2Proof.Machine.execFlash params s
  | .subS1Info => Sys2Proof.Machine.execSubS1Info s
  | .subS1Read n => Sys2Proof.Machine.execSubS1Read n s
  | .subS1Write len => Sys2Proof.Machine.execSubS1Write len s
  | .subS2Info => Sys2Proof.Machine.execSubS2Info s
  | .subS2Read n => Sys2Proof.Machine.execSubS2Read n s
  | .subS2Write len => Sys2Proof.Machine.execSubS2Write len s
  | .subPpInfo => Sys2Proof.Machine.execSubPpInfo s
  | .subPpRead n => Sys2Proof.Machine.execSubPpRead n s
  | .subPpWrite len => Sys2Proof.Machine.execSubPpWrite len s
  | .subP2Info => Sys2Proof.Machine.execSubP2Info s
  | .subP2Read n => Sys2Proof.Machine.execSubP2Read n s
  | .subP2Write len => Sys2Proof.Machine.execSubP2Write len s
  | .irqPause => Sys2Proof.Machine.execIrqPause s
  | .getEvent idx => Sys2Proof.Machine.execGetEvent idx s
  | .echo e0 e1 e2 e3 => Sys2Proof.Machine.execEcho e0 e1 e2 e3 s
  | .unassignedLow cmd => Sys2Proof.Machine.execUnassignedLow cmd s
  | .unassignedHigh cmd => Sys2Proof.Machine.execUnassignedHigh cmd s
  | .badSubOpcode proto sub => Sys2Proof.Machine.execBadSubOpcode proto sub s
  | .dataOut bytes => Sys2Proof.Machine.execDataOut bytes s
  | .busListen dev => Sys2Proof.Machine.execBusListen dev s
  | .busUnlisten => Sys2Proof.Machine.execBusUnlisten s
  | .busTalk dev => Sys2Proof.Machine.execBusTalk dev s
  | .busUntalk => Sys2Proof.Machine.execBusUntalk s
  | .busSecond sec => Sys2Proof.Machine.execBusSecond sec s
  | .busClose sec => Sys2Proof.Machine.execBusClose sec s
  | .busOpen sec => Sys2Proof.Machine.execBusOpen sec s

end Sys2Proof.Machine
end

