-- ==== Sys2Proof/Machine/Step.lean ====
section
/-! DEFINITION. One step: half a turn of the main loop (44_async_handler.md R261). In the phase `takeEvent` the
watchdog is restarted and at most one host event is run by the dispatcher; in the phase `handler` the handler is
entered once. A watchdog expiry inside the step overrides what it did (60_exceptions.md R286, R296). -/

namespace Sys2Proof.Machine

/-- One step of the machine. -/
def step (s : State) : Host.Outcome State Fault Refusal :=
  match s.phase with
  | .takeEvent =>
    match s.waitingEvent with
    | none => .next s.beginTurn.endStep
    | some e =>
      match decode s.cfg e.code with
      | .ok i => onNext State.endStep (exec i s.beginTurn)
      | .error _ => .refused .malformedChunk
  | .handler => onNext (fun t => t.endTurn.endStep) (handle s)

/-- `s` with the instruction whose bits are `w` (numbered as the opcode table numbers them) where the next step takes
its event: it is the waiting host event, and the main loop is at its top. -/
def State.withFetchWord (s : State) (nbits w : Nat) : State := s.withCommand (tableWord nbits w)

end Sys2Proof.Machine
end

