-- ==== Sys2Proof/Safety.lean ====
section
/-! DEFINITION. What counts as a good state and a safe run, in the terms the statements use: the invariants of
44_async_handler.md R273 and 10_state.md R36 and R37, the end of a run (70_reset_and_hazards.md R318), and readings of
the pin record. -/

namespace Sys2Proof.Safety

open Sys2Proof.Machine

/-- How many bytes of the buffer a deferred command's operands take; none for a code that creates no deferred command
(R273 (g)). -/
def asyncBytes (acmd : Byte) : Option Nat :=
  match acmd.toNat with
  | 3 | 4 | 7 | 8 | 17 => some 2
  | 5 | 6 => some 1
  | 9 | 253 => some 0
  | _ => none

/-- R273 (a) to (g): cursor, fill and mode of the request agree. -/
def requestOk (s : State) : Prop :=
  s.offset.toNat ≤ s.fill.toNat ∧ s.fill.toNat ≤ s.cfg.bufSize ∧
    match s.mode with
    | .idle => s.offset = s.fill
    | .result => s.offset = 0 ∧ s.fill = 0
    | .read => s.offset = 0 ∧ 1 ≤ s.fill.toNat
    | .writePrepared => s.offset.toNat < s.fill.toNat
    | .write => s.offset = s.fill ∧ 1 ≤ s.fill.toNat
    | .readDone => s.offset.toNat < s.fill.toNat ∨ s.fill = 0
    | .async => asyncBytes s.acmd = some s.fill.toNat

/-- How many bytes from index 0 on the request's next reader may read (R36, R37). -/
def validBytes (s : State) : Nat :=
  match s.mode with
  | .readDone | .write | .async => s.fill.toNat
  | .writePrepared => s.offset.toNat
  | .idle | .read | .result => 0

/-- The buffer is in its canonical form and every byte the request's next reader may read has been written (R36). -/
def bufferOk (s : State) : Prop :=
  s.buffer.wf s.cfg.bufSize = true ∧ ∀ a, a < validBytes s → (s.buffer.get? a).isSome = true

/-- The event log has EVENT_LOG_SIZE entries and its head is one of them (R34). -/
def logOk (s : State) : Prop :=
  s.evEntries.length = s.cfg.eventLogSize ∧ s.evHead < s.cfg.eventLogSize

/-- Between two steps no engine operation is running: the interrupt is not masked, no local lives (R42), no watchdog
expiry is unanswered, and the watchdog was restarted in the past (R33). -/
def quiet (s : State) : Prop :=
  s.irqOff = false ∧ s.count = 0 ∧ s.expiry = none ∧ s.wdtLast ≤ s.now

/-- A mode that waits for the handler (R262). -/
def pendingMode (m : IoMode) : Bool :=
  match m with
  | .read | .write | .async => true
  | .idle | .readDone | .writePrepared | .result => false

/-- Before the dispatcher takes an event, no request waits for the handler (R269). -/
def handledOk (s : State) : Prop := s.phase = .takeEvent → pendingMode s.mode = false

/-- The invariant of the whole machine. -/
structure Inv (s : State) : Prop where
  config : s.cfg.wf = true
  request : requestOk s
  buffer : bufferOk s
  log : logOk s
  quiet : quiet s
  handled : handledOk s

/-- A host event the transport can deliver (R80, R86). -/
def eventOk (c : Config) : HostEvent → Bool
  | .command _ _ => true
  | .chunk bytes => decide (1 ≤ bytes.length) && decide (bytes.length ≤ c.usbChunk)

/-- A step is safe when it neither faults nor is refused. -/
def Safe (s : State) : Prop := ∃ t, step s = .next t

/-- A run is over: every event answered and the request IDLE (R318). -/
def runOver (s : State) : Bool := s.inp.host.isEmpty && decide (s.mode = .idle)

/-- A run is quiescent but not over: the host still owes a READ, chunks or a GET_RESULT (R318). -/
def quiescent (s : State) : Bool :=
  decide (s.mode = .readDone) || decide (s.mode = .writePrepared) || decide (s.mode = .result)

/-- The premise of 70_reset_and_hazards.md R320 on the watchdog's period: T_WDT is above T_RESET_PULSE and T_IRQ_PAUSE by
more than the overshoot allowed to a delay. Under it no expiry can occur (93_implementation_defined.md U9; log 26). -/
def watchdogPremise (c : Config) : Prop :=
  c.tResetPulse + c.overAllowed < c.tWdt ∧ c.tIrqPause + c.overAllowed < c.tWdt

/-- An instruction that creates a request and needs IDLE (43_dispatcher_commands.md R222), its operands in range. -/
def needsIdle (c : Config) : Instr → Bool
  | .write len => goodLength c len.toNat
  | .requestRead n => goodLength c n.toNat
  | .talk dev sec | .listen dev sec | .openDev dev sec | .closeDev dev sec => goodAddress dev sec
  | .untalk | .unlisten | .iecWait _ _ | .irqPause => true
  | .subS1Read n => hasProto c .s1 && goodLength c n.toNat
  | .subS2Read n => hasProto c .s2 && goodLength c n.toNat
  | .subPpRead n => hasProto c .pp && goodLength c n.toNat
  | .subP2Read n => hasProto c .p2 && goodLength c n.toNat
  | .subS1Write len => hasProto c .s1 && goodLength c len.toNat
  | .subS2Write len => hasProto c .s2 && goodLength c len.toNat
  | .subPpWrite len => hasProto c .pp && goodLength c len.toNat
  | .subP2Write len => hasProto c .p2 && goodLength c len.toNat
  | _ => false

/-- A bus command byte row: emitted by the block, never taken from the host. -/
def isBusByte : Instr → Bool
  | .busListen _ | .busUnlisten | .busTalk _ | .busUntalk | .busSecond _ | .busClose _ | .busOpen _ => true
  | _ => false

/-- A command whose word leaves the block on `ext_cmd` (43_dispatcher_commands.md R237, R238). -/
def isExternal : Instr → Bool
  | .eepromRead _ | .eepromWrite _ | .flash _ => true
  | _ => false

/-- The length operand of a command that has one (43_dispatcher_commands.md R203). -/
def lengthOperand : Instr → Option Nat
  | .read len | .write len => some len.toNat
  | .subS1Write len | .subS2Write len | .subPpWrite len | .subP2Write len => some len.toNat
  | .requestRead n => some n.toNat
  | .subS1Read n | .subS2Read n | .subPpRead n | .subP2Read n => some n.toNat
  | _ => none

/-- The protocol that a sub-READ or sub-WRITE names (43_dispatcher_commands.md R226, R227). -/
def namedProto : Instr → Option Proto
  | .subS1Read _ | .subS1Write _ => some .s1
  | .subS2Read _ | .subS2Write _ => some .s2
  | .subPpRead _ | .subPpWrite _ => some .pp
  | .subP2Read _ | .subP2Write _ => some .p2
  | _ => none

/-- The command code, the device and the secondary address of the four address commands. -/
def addressOperands : Instr → Option (Byte × Byte × Byte)
  | .talk dev sec => some (3, dev, sec)
  | .listen dev sec => some (4, dev, sec)
  | .openDev dev sec => some (7, dev, sec)
  | .closeDev dev sec => some (8, dev, sec)
  | _ => none

/-- The parameter bytes that the format of a word's command names (30_encoding.md R82, R94). An external command's word
leaves the block whole, so all six count (43_dispatcher_commands.md R237; log 19). -/
def namedParams (c : Config) (w : CmdWord) : List Nat :=
  match (cmdOf w).toNat with
  | 1 | 2 => [4, 5]
  | 3 | 4 | 7 | 8 | 17 | 18 => [0, 1]
  | 12 | 15 => [0]
  | 23 | 24 | 25 => [0, 1, 2, 3, 4, 5]
  | 32 | 33 | 34 | 35 => if paramOf 0 w = 1 then [0, 1] else if paramOf 0 w = 2 then [0, 4, 5] else [0]
  | 254 => if c.debugCmds then [0] else []
  | 255 => if c.debugCmds then [0, 1, 2, 3] else []
  | _ => []

/-- Several instructions one after the other, as the dispatcher takes them. -/
def execAll : List Instr → State → Result
  | [], s => .next s
  | i :: rest, s =>
    match exec i s with
    | .next t => execAll rest t
    | .fault f => .fault f
    | .refused r => .refused r

/-- The bytes that READs returned, first one first; the record holds the newest response first. -/
def dataReturned (responses : List Response) : List Byte :=
  responses.reverse.flatMap fun r =>
    match r with
    | .dataIn bytes => bytes
    | .reply _ | .pending _ | .refuse _ => []

/-! ## Readings of the input scripts -/

/-- What the peer drives at the k-th sample from now: the script's entry, or the free value that stands for it. -/
def peerAt (i : Inputs) (k : Nat) : LineMask :=
  match i.lines[k]? with
  | some p => p
  | none => Config.freePeerLines (i.linesDrawn + (k - i.lines.length))

/-- The samples a ready listener gives to `raw_write` of `n` bytes under ATN: it answers the presence check; for each
byte it holds DATA, lets go, and acknowledges (42_bus_session.md R173, R174). -/
def readyListener (n : Nat) : List LineMask :=
  Line.data :: (List.replicate n [Line.data, 0, Line.data]).flatten

/-- The samples a ready listener gives to `raw_write` of `n + 1` data bytes: as above, with the EOI pulse before the
last byte (42_bus_session.md R175). -/
def readyListenerEoi (n : Nat) : List LineMask :=
  readyListener n ++ [Line.data, 0, Line.data, 0, Line.data]

/-- The bits of a byte, least significant first (20_memory.md R66). -/
def bitsOf (b : Byte) : List Bool := (List.range 8).map b.getLsbD

/-- The samples by which an ORIGINAL talker presents bits to `read_byte`: CLOCK released, then the bit on DATA, then
CLOCK asserted (41_wire_modes.md R143). -/
def talkerSamples (bits : List Bool) : List LineMask :=
  bits.flatMap fun bit => [0, if bit then 0 else Line.data, Line.clock]

/-- The samples an ORIGINAL talker gives to one turn of `raw_read`'s loop: CLOCK released when it is ready, CLOCK taken
at once, then the bits of the byte (42_bus_session.md R180, 41_wire_modes.md R143). -/
def talkerByte (b : Byte) : List LineMask := 0 :: Line.clock :: talkerSamples (bitsOf b)

/-- The samples of a peer that makes line `l` follow the block's flag line for `n` bytes of PARALLEL2; `asserted` is the
level of the block's flag before the first sample (41_wire_modes.md R159, R160). -/
def following (l : LineMask) (asserted : Bool) : Nat → List LineMask
  | 0 => []
  | n + 1 => (if asserted then 0 else l) :: following l (!asserted) n

/-- Whether one of `n` bus probes, the first at sample `k`, finds a free bus: all lines released, DATA asserted under
ATN, DATA released again (42_bus_session.md R186). A probe ends at its first sample that says no. -/
def busFreeWithin (i : Inputs) : Nat → Nat → Bool
  | 0, _ => false
  | n + 1, k =>
    if peerAt i k ≠ 0 then busFreeWithin i n (k + 1)
    else if peerAt i (k + 1) &&& Line.data = 0 then busFreeWithin i n (k + 2)
    else if peerAt i (k + 2) &&& Line.data ≠ 0 then busFreeWithin i n (k + 3)
    else true

/-! ## Readings of the pin record (newest entry first) -/

/-- The bits an ORIGINAL listener takes from a stretch of the record, first bit first: one for each entry of a masked
section with CLOCK released, 1 for DATA released (41_wire_modes.md R141). -/
def originalBits (pins : List Pins) : List Bool :=
  (pins.reverse.filter fun p => p.irqOff && decide (p.drive &&& Line.clock = 0)).map
    fun p => decide (p.drive &&& Line.data = 0)

/-- The line levels at every micro-step of a stretch of the record, first one first. -/
def driveTrace (pins : List Pins) : List LineMask := (pins.reverse).map (·.drive)

/-- What the parallel port shows at each moment this block's CLOCK becomes asserted, in a stretch of the record with
the oldest entry first; `asserted` is CLOCK's level before it. -/
def risesFrom (asserted : Bool) : List Pins → List (Option Byte)
  | [] => []
  | p :: rest =>
    if p.drive &&& Line.clock = 0 then risesFrom false rest
    else if asserted then risesFrom true rest
    else p.port :: risesFrom true rest

/-- The port at each CLOCK assertion in a stretch of the record (41_wire_modes.md R155). -/
def clockRises (pins : List Pins) : List (Option Byte) := risesFrom true pins.reverse

/-- What the parallel port shows at each moment this block's CLOCK changes, in a stretch of the record with the oldest
entry first; `asserted` is CLOCK's level before it. -/
def changesFrom (asserted : Bool) : List Pins → List (Option Byte)
  | [] => []
  | p :: rest =>
    if decide (p.drive &&& Line.clock ≠ 0) = asserted then changesFrom asserted rest
    else p.port :: changesFrom (!asserted) rest

/-- The port at each CLOCK transition in a stretch of the record, from CLOCK's level before it (41_wire_modes.md
R159). -/
def clockChanges (asserted : Bool) (pins : List Pins) : List (Option Byte) := changesFrom asserted pins.reverse

/-- The new level at each change in a sequence of levels, from the level before it. -/
def levelChanges (before : Bool) : List Bool → List Bool
  | [] => []
  | level :: rest => if level = before then levelChanges before rest else level :: levelChanges level rest

/-- The levels that this block's line `l` takes at its changes in a stretch of the record, 1 = asserted, first change
first; `before` is its level before the stretch. -/
def lineChanges (l : LineMask) (before : Bool) (pins : List Pins) : List Bool :=
  levelChanges before (pins.reverse.map fun p => decide (p.drive &&& l ≠ 0))

/-- The bits on DATA and CLOCK, 1 = asserted, at each moment this block's ATN changes, in a stretch of the record with
the oldest entry first; `asserted` is ATN's level before it. -/
def edgesFrom (asserted : Bool) : List Pins → List Bool
  | [] => []
  | p :: rest =>
    if decide (p.drive &&& Line.atn ≠ 0) = asserted then edgesFrom asserted rest
    else decide (p.drive &&& Line.data ≠ 0) :: decide (p.drive &&& Line.clock ≠ 0) :: edgesFrom (!asserted) rest

/-- The bits a SERIAL2 listener takes from a stretch of the record that starts by releasing ATN, first bit first: two
for each ATN edge, DATA's before CLOCK's (41_wire_modes.md R150). -/
def edgeBits (pins : List Pins) : List Bool := edgesFrom false pins.reverse

end Sys2Proof.Safety
end

