-- ==== Sys2Proof/Certificates/Slice0/Obligations.lean ====
section
/-! DEFINITION. The statements about the model, for the provers. A statement whose docstring names a decision D<n> of
spec/92_eei_decisions.md or a log entry rests on it. -/

open Sys2Proof Sys2Proof.Machine Sys2Proof.Safety

/-! ## Reset, the step, the invariant -/

/-- The state after power-on holds the values R310 gives (the spec's own choice, D38), and a buffer of R6's 128 bytes. -/
def Obligations.PowerOnValues : Prop :=
  State.reset.drive = 0 ∧ State.reset.ppOe = false ∧ State.reset.eoi = false ∧ State.reset.busState = .unknown ∧
    State.reset.irqOff = false ∧ State.reset.wdtLast = State.reset.now ∧
    (∀ i, State.reset.eventAt i = ⟨0, 0⟩) ∧ State.reset.evHead = 0 ∧ State.reset.mode = .idle ∧
    (∀ a, State.reset.buffer.get? a = none) ∧ State.reset.fill = 0 ∧ State.reset.offset = 0 ∧
    State.reset.status = 0 ∧ State.reset.value = 0 ∧ State.reset.proto = .s1 ∧ State.reset.acmd = 0 ∧
    State.reset.cfg.bufSize = 128

/-- The invariant holds at reset. -/
def Obligations.PowerOnMeetsInvariant : Prop := Inv State.reset

/-- Every step keeps the invariant: R273 (a) to (g), R36, R37, R34, and R269's "no request waits for the handler when
the dispatcher takes an event". The main-loop order it rests on is the spec's decision D39. -/
def Obligations.StepKeepsInvariant : Prop := ∀ s t : State, Inv s → step s = .next t → Inv t

/-- From a state that meets the invariant the machine always goes on: no host command, chunk, sample or delay can
stop it. The one condition is R86's: a chunk carries 1 to USB_CHUNK bytes. -/
def Obligations.StepNeverStops : Prop :=
  ∀ s : State, Inv s → (∀ e, s.waitingEvent = some e → eventOk s.cfg e = true) → ∃ t, step s = .next t

/-- A step at the top of a main-loop turn runs the instruction that the waiting event decodes to: the watchdog is
restarted, the event is taken, the instruction is executed, and a watchdog expiry inside overrides it. -/
def Obligations.StepRunsDecodedInstruction : Prop :=
  ∀ (s : State) (e : HostEvent) (i : Instr),
    s.phase = .takeEvent → s.inp.host.head? = some e → decode s.cfg e.code = .ok i →
      step s = onNext State.endStep (exec i s.beginTurn) ∧
        s.beginTurn =
          { s with
            wdtLast := s.now
            out := { s.out with wdtKicks := s.out.wdtKicks + 1 }
            inp := { s.inp with host := s.inp.host.tail }
            phase := .handler } ∧
        ∀ t : State, t.expiry = none → t.endStep = t

/-- The two halves of a main-loop turn (R261, the spec's decision D39; the split is log 8): with no event waiting the
first half only restarts the watchdog, and the second half enters the handler once. -/
def Obligations.MainLoopTurn : Prop :=
  (∀ s : State, s.phase = .takeEvent → s.inp.host = [] → step s = .next s.beginTurn.endStep) ∧
    ∀ s : State, s.phase = .handler → step s = onNext (fun t => t.endTurn.endStep) (handle s)

/-- The watchdog (R33, R296, R310, R320, R286, U9; D41; that its expiry means reset is general knowledge, log 11). Where
R320's premise on T_WDT fails, a delay that takes the time since the last restart past T_WDT notes an expiry, and no
shorter one does; where it holds, no command and no handler entry, however long its delays, notes one (U9; log 26). A
noted expiry ends the step in the power-on state, whatever the step did: lines released, request dropped. -/
def Obligations.WatchdogForcesPowerOn : Prop :=
  (∀ (t : Nat) (s : State), s.expiry = none →
    ((s.delay t).expiry ≠ none ↔ ¬ watchdogPremise s.cfg ∧ s.cfg.tWdt < (s.delay t).now - s.wdtLast) ∧
      ((s.delay t).expiry ≠ none → ∀ u, ((s.delay t).delay u).expiry = (s.delay t).expiry)) ∧
    (∀ (run : State → Result) (s t : State), (run = handle ∨ ∃ i, run = exec i) → watchdogPremise s.cfg →
      run s = .next t → t.expiry = s.expiry) ∧
    ∀ (s : State) (e : WdtExpiry), s.expiry = some e →
      s.endStep.drive = 0 ∧ s.endStep.ppOe = false ∧ s.endStep.eoi = false ∧ s.endStep.busState = .unknown ∧
        s.endStep.irqOff = false ∧ s.endStep.mode = .idle ∧ s.endStep.fill = 0 ∧ s.endStep.offset = 0 ∧
        s.endStep.status = 0 ∧ s.endStep.value = 0 ∧ s.endStep.proto = .s1 ∧ s.endStep.acmd = 0 ∧
        s.endStep.buffer = [] ∧ s.endStep.evHead = 0 ∧
        s.endStep.evEntries = List.replicate s.cfg.eventLogSize ⟨0, 0⟩ ∧ s.endStep.phase = .takeEvent ∧
        s.endStep.expiry = none ∧ s.endStep.cfg = s.cfg ∧ s.endStep.inp = e.inp ∧
        s.endStep.out.responses = e.out.responses

/-- R43: the device information is constant. No step changes the configuration, and INFO reports the same bytes in
every state of one configuration. -/
def Obligations.DeviceInformationIsConstant : Prop :=
  (∀ s t : State, step s = .next t → t.cfg = s.cfg) ∧
    ∀ s u : State, s.cfg = u.cfg →
      ∃ r, exec .info s = .next (s.answer r) ∧ exec .info u = .next (u.answer r)

/-! ## Encoding -/

/-- Words written out from R111's examples, and one of each other form, decode to what they stand for. -/
def Obligations.SampleWordsDecode : Prop :=
  decode Config.asBuilt (.word (wordOfBytes 0x04 0x08 0x0F 0 0 0 0)) = .ok (.listen 8 15) ∧
    decode Config.asBuilt (.word (wordOfBytes 0x03 0x08 0x0F 0 0 0 0)) = .ok (.talk 8 15) ∧
    decode Config.asBuilt (.word (wordOfBytes 0x0C 0x28 0 0 0 0 0)) = .ok (.requestRead 40) ∧
    decode Config.asBuilt (.word (wordOfBytes 0x01 0 0 0 0 0x0D 0)) = .ok (.read 13) ∧
    decode Config.asBuilt (.word (wordOfBytes 0x02 0 0 0 0 0x02 0)) = .ok (.write 2) ∧
    decode Config.asBuilt (.word (wordOfBytes 0x21 0x01 0x10 0 0 0 0)) = .ok (.subS2Read 16) ∧
    decode Config.asBuilt (.word (wordOfBytes 0x11 0x02 0x01 0 0 0 0)) = .ok (.iecWait 2 1) ∧
    decode Config.asBuilt (.word (wordOfBytes 0xFE 0 0 0 0 0 0)) = .ok (.getEvent 0) ∧
    decode Config.asBuilt (.chunk [0x49, 0x30]) = .ok (.dataOut [0x49, 0x30]) ∧
    decode Config.asBuilt (.busByte 0x28) = .ok (.busListen 8) ∧
    decode Config.asBuilt (.busByte 0x3F) = .ok .busUnlisten

/-- Decode and encode agree: every well-formed instruction comes back from its own code. -/
def Obligations.DecodeInvertsEncode : Prop :=
  ∀ (c : Config) (i : Instr), i.wellFormed c = true → decode c (encode i) = .ok i

/-- The decoder answers only well-formed instructions. -/
def Obligations.DecodedIsWellFormed : Prop :=
  ∀ (c : Config) (code : Code) (i : Instr), decode c code = .ok i → i.wellFormed c = true

/-- Decoding is total on command words (R95, D50) and reads only the bytes that the command's format names (R82, D6):
the decoded instruction's own word has the same command byte, the named bytes of `w`, and zero in the other bytes; and a
word that agrees with `w` in the command byte and the named bytes decodes alike. -/
def Obligations.UnnamedParametersAreIgnored : Prop :=
  ∀ (c : Config) (w : CmdWord),
    (∃ i w', decode c (.word w) = .ok i ∧ encode i = .word w' ∧ cmdOf w' = cmdOf w ∧
      ∀ k, k < 6 → paramOf k w' = if k ∈ namedParams c w then paramOf k w else 0) ∧
      ∀ v : CmdWord, cmdOf v = cmdOf w → (∀ k, k ∈ namedParams c w → paramOf k v = paramOf k w) →
        decode c (.word v) = decode c (.word w)

/-- The bus command bytes of R96 (the 0x60 base is the spec's decision D25) are told apart by their bits: a byte
decodes exactly when it is one of the seven forms, and then it is the code of what it decodes to. -/
def Obligations.BusBytesDecodeExactly : Prop :=
  ∀ (c : Config) (b : Byte),
    (∀ i, decode c (.busByte b) = .ok i → encode i = .busByte b ∧ isBusByte i = true) ∧
      ((∃ i, decode c (.busByte b) = .ok i) ↔
        b &&& 0xE0 = 0x20 ∨ b &&& 0xE0 = 0x40 ∨ b &&& 0xF0 = 0x60 ∨ b &&& 0xE0 = 0xE0)

/-! ## Commands answered at once -/

/-- R101: INFO's reply, 6 bytes, or the first 4 of them. Nothing else changes. -/
def Obligations.InfoReply : Prop :=
  ∀ s : State,
    (s.cfg.hasBiosInfo = true →
      exec .info s =
        .next (s.answer (.reply [s.cfg.fwMajor, s.cfg.fwMinor, s.cfg.caps.extractLsb' 0 8,
          s.cfg.caps.extractLsb' 8 8, s.cfg.biosMajor, s.cfg.biosMinor]))) ∧
      (s.cfg.hasBiosInfo = false →
        exec .info s =
          .next (s.answer (.reply [s.cfg.fwMajor, s.cfg.fwMinor, s.cfg.caps.extractLsb' 0 8,
            s.cfg.caps.extractLsb' 8 8])))

/-- The EOI flag's two commands. R213: GET_EOI (code 10) answers the flag, one byte, 0 or 1, in every request mode, and
reading does not clear it. R214: CLEAR_EOI (code 11) clears the flag and nothing else, in every request mode; with the
flag set a further ORIGINAL read reads nothing, with it cleared it goes on to the bus. -/
def Obligations.EoiCommands : Prop :=
  ∀ s : State,
    exec .getEoi s = .next (s.answer (.reply [if s.eoi = true then 1 else 0])) ∧
      exec .clearEoi s = .next ({ s with eoi := false }.answer (.reply [])) ∧
      decode s.cfg (.word (wordOfBytes 0x0A 0 0 0 0 0 0)) = .ok .getEoi ∧
      decode s.cfg (.word (wordOfBytes 0x0B 0 0 0 0 0 0)) = .ok .clearEoi ∧
      (∀ cap, s.eoi = true → rawRead cap s = .ok () s) ∧
      ∀ cap, rawRead cap { s with eoi := false } = readLoop cap { s with eoi := false }

/-- ECHO answers its four operands (R240, D36); GET_EVENT answers one log entry, index 0 being the newest, and
`[0, 0]` from EVENT_LOG_SIZE on (R241, R103, D29). Neither changes anything else. -/
def Obligations.EchoAndEventReplies : Prop :=
  (∀ (s : State) (e0 e1 e2 e3 : Byte), exec (.echo e0 e1 e2 e3) s = .next (s.answer (.reply [e0, e1, e2, e3]))) ∧
    (∀ (s : State) (idx : Byte), s.cfg.eventLogSize ≤ idx.toNat →
      exec (.getEvent idx) s = .next (s.answer (.reply [0, 0]))) ∧
    ∀ (s : State) (idx : Byte) (e : EventEntry), idx.toNat < s.cfg.eventLogSize →
      s.evEntries[(s.evHead + s.cfg.eventLogSize - idx.toNat) % s.cfg.eventLogSize]? = some e →
      exec (.getEvent idx) s = .next (s.answer (.reply [e.etype, e.count]))

/-- The sub-INFO commands answer the protocol's capability bit, CAPS[4 + proto] (R225, R104, D31). -/
def Obligations.ProtocolInfoReplies : Prop :=
  ∀ s : State,
    exec .subS1Info s = .next (s.answer (.reply [if s.cfg.caps.getLsbD 4 then 1 else 0])) ∧
      exec .subS2Info s = .next (s.answer (.reply [if s.cfg.caps.getLsbD 5 then 1 else 0])) ∧
      exec .subPpInfo s = .next (s.answer (.reply [if s.cfg.caps.getLsbD 6 then 1 else 0])) ∧
      exec .subP2Info s = .next (s.answer (.reply [if s.cfg.caps.getLsbD 7 then 1 else 0]))

/-- GET_RESULT answers mode, status and value, the mode by its number 0 to 6 (R35, D7), and returns RESULT to IDLE; in
every other mode it changes nothing (R216, R102, D9). -/
def Obligations.GetResultReports : Prop :=
  ∀ s : State,
    exec .getResult s =
      .next ({ s with mode := if s.mode = IoMode.result then IoMode.idle else s.mode }.answer
        (.reply [match s.mode with
          | .idle => 0 | .read => 1 | .readDone => 2 | .writePrepared => 3 | .write => 4 | .async => 5 | .result => 6,
          s.status, s.value]))

/-- IEC_POLL answers the wired-AND of the block's and the peer's drives, line by line, bits 7:4 zero (R22, R121, R219,
R104, D37), and changes nothing but the peer's sample it used up. -/
def Obligations.IecPollSamplesWiredAnd : Prop :=
  ∀ s : State, ∃ b : Byte,
    exec .iecPoll s = .next ({ s with inp := s.inp.dropLines }.answer (.reply [b])) ∧
      ∀ i, b.getLsbD i = (decide (i < 4) && (s.drive.getLsbD i || (peerAt s.inp 0).getLsbD i))

/-- IEC_SETRELEASE asserts some lines and releases others at one moment: a line in both masks ends released, bits 7:4
of the masks are ignored, and it takes the settle time (R221, R124, R83, D37). Every other register is unchanged. -/
def Obligations.SetReleaseDrivesLines : Prop :=
  ∀ (s : State) (setm relm : Byte), ∃ (t : State) (d : LineMask),
    exec (.iecSetRelease setm relm) s = .next t ∧
      (∀ i, i < 4 → d.getLsbD i = (!relm.getLsbD i && (setm.getLsbD i || s.drive.getLsbD i))) ∧
      t =
        { s with
          drive := d
          now := s.now + s.cfg.tSettle + s.inp.nextOver
          inp := s.inp.dropOver
          expiry := t.expiry
          out :=
            { s.out with
              pins := ⟨s.now, d, if s.ppOe then some s.ppOut else none, s.irqOff⟩ :: s.out.pins
              responses := .reply [] :: s.out.responses } }

/-- PP_WRITE drives its byte on the port, PP_READ makes the port an input and answers the peer's byte as sampled after
the settle time; both take that time and change nothing else (R217, R218, R130, D22, D37). -/
def Obligations.PortCommands : Prop :=
  ∀ s : State,
    (∀ val : Byte, ∃ t,
      exec (.ppWrite val) s = .next t ∧
        t =
          { s with
            ppOut := val
            ppOe := true
            now := s.now + s.cfg.tSettle + s.inp.nextOver
            inp := s.inp.dropOver
            expiry := t.expiry
            out :=
              { s.out with
                pins := ⟨s.now, s.drive, some val, s.irqOff⟩ :: s.out.pins
                responses := .reply [] :: s.out.responses } }) ∧
      ∃ t,
        exec .ppRead s = .next t ∧
          t =
            { s with
              ppOe := false
              now := s.now + s.cfg.tSettle + s.inp.nextOver
              inp := s.inp.dropOver.dropPort
              expiry := t.expiry
              out :=
                { s.out with
                  pins := ⟨s.now, s.drive, none, s.irqOff⟩ :: s.out.pins
                  responses := .reply [s.inp.nextPort.value] :: s.out.responses } }

/-! ## Commands that create a request -/

/-- A read request in IDLE, of 1 to BUF_SIZE bytes (log 13): the capacity, the protocol and READ mode are recorded, the
answer is Pending(0), the rest is unchanged (R215, R226, D11, D14). -/
def Obligations.ReadRequestsAccepted : Prop :=
  ∀ (s : State) (n : Byte) (i : Instr) (p : Proto),
    s.mode = .idle → 1 ≤ n.toNat → n.toNat ≤ s.cfg.bufSize →
      (i = .requestRead n ∧ p = .s1 ∨ i = .subS1Read n ∧ p = .s1 ∧ s.cfg.caps.getLsbD 4 = true ∨
        i = .subS2Read n ∧ p = .s2 ∧ s.cfg.caps.getLsbD 5 = true ∨
        i = .subPpRead n ∧ p = .pp ∧ s.cfg.caps.getLsbD 6 = true ∨
        i = .subP2Read n ∧ p = .p2 ∧ s.cfg.caps.getLsbD 7 = true) →
      exec i s =
        .next ({ s with
          fill := n, offset := 0, proto := p, status := 0, value := 0, mode := .read }.answer (.pending 0))

/-- A write request in IDLE, of 1 to BUF_SIZE bytes (log 13): the announced length (in the 8-bit `io.fill`), the
protocol and WRITE_PREPARED mode are recorded, the answer is Pending(LEN), the rest is unchanged (R205, R227, D12,
D14). -/
def Obligations.WriteRequestsAccepted : Prop :=
  ∀ (s : State) (len : BitVec 16) (i : Instr) (p : Proto),
    s.mode = .idle → 1 ≤ len.toNat → len.toNat ≤ s.cfg.bufSize →
      (i = .write len ∧ p = .s1 ∨ i = .subS1Write len ∧ p = .s1 ∧ s.cfg.caps.getLsbD 4 = true ∨
        i = .subS2Write len ∧ p = .s2 ∧ s.cfg.caps.getLsbD 5 = true ∨
        i = .subPpWrite len ∧ p = .pp ∧ s.cfg.caps.getLsbD 6 = true ∨
        i = .subP2Write len ∧ p = .p2 ∧ s.cfg.caps.getLsbD 7 = true) →
      exec i s =
        .next ({ s with
          fill := len.setWidth 8, offset := 0, proto := p, status := 0, value := 0,
          mode := .writePrepared }.answer (.pending len.toNat))

/-- TALK, LISTEN, OPEN and CLOSE in IDLE, with a device of 0 to 30 and a secondary address of 0 to 15: the byte pair of
R97 goes to the buffer's first two bytes and every other byte stays, the request is ASYNC, the rest is unchanged
(R206, R207, R210, R211, R98; the 0x60 base is D25). -/
def Obligations.AddressCommandsAccepted : Prop :=
  ∀ (s : State) (dev sec b0 b1 acmd : Byte) (i : Instr),
    s.mode = .idle → dev.toNat ≤ 30 → sec.toNat ≤ 15 →
      (i = .talk dev sec ∧ acmd = 3 ∧ b0 = 0x40 ||| dev ∧ b1 = 0x60 ||| sec ∨
        i = .listen dev sec ∧ acmd = 4 ∧ b0 = 0x20 ||| dev ∧ b1 = 0x60 ||| sec ∨
        i = .openDev dev sec ∧ acmd = 7 ∧ b0 = 0x20 ||| dev ∧ b1 = 0xF0 ||| sec ∨
        i = .closeDev dev sec ∧ acmd = 8 ∧ b0 = 0x20 ||| dev ∧ b1 = 0xE0 ||| sec) →
      ∃ t, exec i s = .next t ∧
        t =
          { s with
            buffer := t.buffer, fill := 2, offset := 0, acmd := acmd, status := 0, value := 0, mode := .async,
            out := { s.out with responses := .pending 0 :: s.out.responses } } ∧
        t.buffer.get? 0 = some b0 ∧ t.buffer.get? 1 = some b1 ∧
        ∀ a, 2 ≤ a → t.buffer.get? a = s.buffer.get? a

/-- UNTALK and UNLISTEN in IDLE: the one byte of R97 goes to the buffer, the request is ASYNC, the rest is unchanged
(R208, R209, D12). -/
def Obligations.BracketEndsAccepted : Prop :=
  ∀ (s : State) (b acmd : Byte) (i : Instr),
    s.mode = .idle → (i = .untalk ∧ acmd = 5 ∧ b = 0x5F ∨ i = .unlisten ∧ acmd = 6 ∧ b = 0x3F) →
      ∃ t, exec i s = .next t ∧
        t =
          { s with
            buffer := t.buffer, fill := 1, offset := 0, acmd := acmd, status := 0, value := 0, mode := .async,
            out := { s.out with responses := .pending 0 :: s.out.responses } } ∧
        t.buffer.get? 0 = some b ∧ ∀ a, 1 ≤ a → t.buffer.get? a = s.buffer.get? a

/-- IEC_WAIT in IDLE puts its mask's low four bits and the truth of STATE in the buffer (R220, R83, D37); IRQ_PAUSE in
IDLE stores nothing (R242, D36); RESET, in every mode, discards the request (R212, D34). The rest is unchanged. -/
def Obligations.DeferredControlsAccepted : Prop :=
  ∀ s : State,
    (∀ mask state : Byte, s.mode = .idle →
      ∃ t, exec (.iecWait mask state) s = .next t ∧
        t =
          { s with
            buffer := t.buffer, fill := 2, offset := 0, acmd := 17, status := 0, value := 0, mode := .async,
            out := { s.out with responses := .pending 0 :: s.out.responses } } ∧
        t.buffer.get? 0 = some (mask &&& 0x0F) ∧ t.buffer.get? 1 = some (if state = 0 then 0 else 1) ∧
        ∀ a, 2 ≤ a → t.buffer.get? a = s.buffer.get? a) ∧
      (s.mode = .idle →
        exec .irqPause s =
          .next ({ s with
            fill := 0, offset := 0, acmd := 0xFD, status := 0, value := 0, mode := .async }.answer (.pending 0))) ∧
      exec .reset s =
        .next ({ s with
          fill := 0, offset := 0, acmd := 9, status := 0, value := 0, mode := .async }.answer (.pending 0))

/-! ## Refusals -/

/-- Outside IDLE every request-creating command but RESET, its operands in range and its protocol there, is refused
as busy and changes nothing (R264, R222, R76, D11). -/
def Obligations.BusyRefusal : Prop :=
  ∀ (i : Instr) (s : State), needsIdle s.cfg i = true → s.mode ≠ .idle →
    exec i s = .next (s.answer (.refuse .busy))

/-- The order of R286 (D51): a clear capability bit is reported before a bad length or address, and those before the
request's mode, whatever it is (R203, D32, a length above BUF_SIZE being bad, log 13; R98, D25). -/
def Obligations.OperandRefusals : Prop :=
  ∀ (i : Instr) (s : State),
    (∀ p, namedProto i = some p → hasProto s.cfg p = false →
      exec i s = .next (s.answer (.refuse .unimplemented))) ∧
      (∀ n, lengthOperand i = some n → (∀ p, namedProto i = some p → hasProto s.cfg p = true) → n = 0 ∨ s.cfg.bufSize < n →
        exec i s = .next (s.answer (.refuse .badLength))) ∧
      ∀ code dev sec, addressOperands i = some (code, dev, sec) → 30 < dev.toNat ∨ 15 < sec.toNat →
        exec i s = .next (s.answer (.refuse .badParam))

/-- The stub, external, unassigned and bad sub-opcode rows are refused in every mode and change nothing; an external
command's whole word appears on `ext_cmd` (R228, R236 to R239, D31, D35; the word's parameters are kept, log 19). -/
def Obligations.UnexecutedCodesRefused : Prop :=
  ∀ (s : State) (params : BitVec 48) (cmd sub : Byte) (p : Proto),
    exec .parburst0 s = .next (s.answer (.refuse .unimplemented)) ∧
      exec .parburst1 s = .next (s.answer (.refuse .unimplemented)) ∧
      exec .parburst2 s = .next (s.answer (.refuse .unimplemented)) ∧
      exec .parburst3 s = .next (s.answer (.refuse .unimplemented)) ∧
      exec (.eepromRead params) s = .next ((s.forward (params ++ 23#8)).answer (.refuse .external)) ∧
      exec (.eepromWrite params) s = .next ((s.forward (params ++ 24#8)).answer (.refuse .external)) ∧
      exec (.flash params) s = .next ((s.forward (params ++ 25#8)).answer (.refuse .external)) ∧
      exec (.unassignedLow cmd) s = .next (s.answer (.refuse .reserved)) ∧
      exec (.unassignedHigh cmd) s = .next (s.answer (.refuse .reserved)) ∧
      exec (.badSubOpcode p sub) s = .next (s.answer (.refuse .badSubop))

/-- READ outside READ_DONE and a chunk outside WRITE_PREPARED are refused and change nothing (R202, D33). -/
def Obligations.WrongModeAccessors : Prop :=
  ∀ (s : State) (len : BitVec 16) (bytes : List Byte),
    (s.mode ≠ .readDone → 1 ≤ len.toNat → len.toNat ≤ s.cfg.bufSize →
      exec (.read len) s = .next (s.answer (.refuse .badState))) ∧
      (s.mode ≠ .writePrepared → exec (.dataOut bytes) s = .next (s.answer (.refuse .badState)))

/-- A refusal changes nothing (R284, R201, D47): whatever command is refused, for whatever reason, the next state is
the old one with the refusal recorded; only an external command also shows its own word on `ext_cmd`. -/
def Obligations.RefusalChangesNothing : Prop :=
  ∀ (i : Instr) (s t : State) (reason : RefuseReason),
    exec i s = .next t → t.out.responses = .refuse reason :: s.out.responses →
      (isExternal i = false → t = s.answer (.refuse reason)) ∧
        (isExternal i = true → ∃ w, encode i = .word w ∧ t = (s.forward w).answer (.refuse reason))

/-- Every command word and chunk gets exactly one response (R84, R316, D47), and the handler gives none. -/
def Obligations.OneResponsePerEvent : Prop :=
  (∀ (i : Instr) (s t : State), isBusByte i = false → exec i s = .next t →
    ∃ r, t.out.responses = r :: s.out.responses) ∧
    ∀ s t : State, handle s = .next t → t.out.responses = s.out.responses

/-! ## The buffer accessors -/

/-- READ in READ_DONE answers the next `min(LEN, fill - offset)` bytes in order and moves the cursor past them; when
that drains the request it is IDLE (R204, R62, D33). The buffer and everything else are unchanged. -/
def Obligations.ReadReturnsBufferBytes : Prop :=
  ∀ (s : State) (len : BitVec 16),
    s.mode = .readDone → 1 ≤ len.toNat → len.toNat ≤ s.cfg.bufSize → s.offset.toNat ≤ s.fill.toNat →
      s.fill.toNat ≤ s.cfg.bufSize →
      (∀ a, s.offset.toNat ≤ a → a < s.fill.toNat → (s.buffer.get? a).isSome = true) →
      ∃ (bytes : List Byte) (cursor : Byte),
        bytes.length = min len.toNat (s.fill.toNat - s.offset.toNat) ∧
          (∀ k (h : k < bytes.length), s.buffer.get? (s.offset.toNat + k) = some bytes[k]) ∧
          cursor.toNat = s.offset.toNat + bytes.length ∧
          exec (.read len) s =
            .next ({ s with
              offset := cursor
              mode := if cursor = s.fill then IoMode.idle else IoMode.readDone }.answer (.dataIn bytes))

/-- The read accessor's property (R204, source example E5, 90_conflicts.md C10; R61): the READs before the last leave
something, together they return exactly the request's bytes in order, none twice, and the request is IDLE exactly when
all of them have been returned (for an empty request, after one READ). -/
def Obligations.ReadsDrainToIdle : Prop :=
  ∀ (s : State) (lens : List (BitVec 16)) (last : BitVec 16) (bytes : List Byte),
    s.mode = .readDone → s.fill.toNat ≤ s.cfg.bufSize → s.fill.toNat = s.offset.toNat + bytes.length →
      (∀ k (h : k < bytes.length), s.buffer.get? (s.offset.toNat + k) = some bytes[k]) →
      (∀ len ∈ last :: lens, 1 ≤ len.toNat ∧ len.toNat ≤ s.cfg.bufSize) →
      (lens = [] ∨ (lens.map BitVec.toNat).sum < bytes.length) →
      ∃ t, execAll ((lens ++ [last]).map Instr.read) s = .next t ∧
        dataReturned (t.out.responses.take (lens.length + 1)) =
          bytes.take ((lens.map BitVec.toNat).sum + last.toNat) ∧
        t.buffer = s.buffer ∧ t.fill = s.fill ∧
        t.offset.toNat = s.offset.toNat + min ((lens.map BitVec.toNat).sum + last.toNat) bytes.length ∧
        t.mode = if bytes.length ≤ (lens.map BitVec.toNat).sum + last.toNat then .idle else .readDone

/-- A chunk in WRITE_PREPARED is stored at the cursor, its surplus dropped; when the payload is complete the mode is
WRITE (R272, R63, D5, D33). Every other byte and register is unchanged. -/
def Obligations.ChunkIsStored : Prop :=
  ∀ (s : State) (bytes : List Byte),
    s.mode = .writePrepared → s.offset.toNat ≤ s.fill.toNat → s.fill.toNat ≤ s.cfg.bufSize →
      ∃ t, exec (.dataOut bytes) s = .next t ∧
        t.offset.toNat = s.offset.toNat + min bytes.length (s.fill.toNat - s.offset.toNat) ∧
        t =
          { s with
            buffer := t.buffer
            offset := t.offset
            mode := if t.offset = s.fill then .write else .writePrepared
            out := { s.out with responses := .reply [] :: s.out.responses } } ∧
        (∀ k (h : k < bytes.length), k < s.fill.toNat - s.offset.toNat →
          t.buffer.get? (s.offset.toNat + k) = some bytes[k]) ∧
        ∀ a, a < s.offset.toNat ∨ t.offset.toNat ≤ a → t.buffer.get? a = s.buffer.get? a

/-- Any split of a payload into chunks gives the same request (R272; D5): all of it in order in the buffer, WRITE mode,
one reply for each chunk. -/
def Obligations.ChunkingDoesNotMatter : Prop :=
  ∀ (s : State) (chunks : List (List Byte)),
    s.mode = .writePrepared → s.offset.toNat < s.fill.toNat → s.fill.toNat ≤ s.cfg.bufSize → (∀ c ∈ chunks, c ≠ []) →
      chunks.flatten.length = s.fill.toNat - s.offset.toNat →
      execAll (chunks.map Instr.dataOut) s =
        .next { s with
          buffer := s.buffer.setMany s.offset.toNat chunks.flatten
          offset := s.fill
          mode := .write
          out := { s.out with
            responses := List.replicate chunks.length (.reply []) ++ s.out.responses } }

/-! ## The handler -/

/-- One handler entry (R76, R263, R265 to R268, R262). In IDLE, READ_DONE, WRITE_PREPARED and RESULT it does nothing at
all; from READ, WRITE and ASYNC it always ends, in READ_DONE or RESULT, and what belongs to the host it leaves alone. -/
def Obligations.HandlerFinishesRequest : Prop :=
  (∀ s : State, (s.mode = .idle ∨ s.mode = .readDone ∨ s.mode = .writePrepared ∨ s.mode = .result) →
    handle s = .next s) ∧
    ∀ s : State, Inv s → pendingMode s.mode = true →
      ∃ t, handle s = .next t ∧ t.mode = (if s.mode = .read then .readDone else .result) ∧ t.offset = 0 ∧
        t.count = 0 ∧ t.irqOff = false ∧ t.proto = s.proto ∧ t.acmd = s.acmd ∧ t.phase = s.phase ∧ t.cfg = s.cfg ∧
        t.inp.host = s.inp.host ∧ t.out.responses = s.out.responses ∧ t.out.extCmds = s.out.extCmds ∧
        s.now ≤ t.now ∧ (s.mode ≠ .read → t.fill = 0 ∧ t.buffer = s.buffer)

/-- What the handler reports (R266, R267, R153, R158, R160, R177, R180; D8, D46). A read's count is its fill, at most the
capacity; less than the capacity after a failure, and else only at an ORIGINAL read's EOI. Every counted byte is in the
buffer, from the count on the buffer is as it was, and the count is the bytes this block took, as the pins show: an
ORIGINAL read asserts DATA once for each with the interrupt unmasked; a PARALLEL read lets DATA go once for each and a
PARALLEL2 read changes it once for each, the two pin entries of a failure's cleanup left aside. A write's count is all of
the payload exactly when the status is OK; else it is exactly the bytes shown and acknowledged: an ORIGINAL write has put
the counted bytes on the wire, and after a NAK the one that was not acknowledged; a PARALLEL or PARALLEL2 write has
announced the counted bytes, and after its handshake timeout the one that was not taken. -/
def Obligations.HandlerReportsCount : Prop :=
  ∀ s t : State, Inv s → handle s = .next t →
    (s.mode = .read →
      t.value = t.fill ∧ t.fill.toNat ≤ s.fill.toNat ∧ (∀ a, a < t.fill.toNat → (t.buffer.get? a).isSome = true) ∧
        (∀ a, t.fill.toNat ≤ a → t.buffer.get? a = s.buffer.get? a) ∧
        (t.status ≠ 0 → t.fill.toNat < s.fill.toNat) ∧
        (t.status = 0 → t.fill = s.fill ∨ s.proto = .s1 ∧ t.eoi = true) ∧
        ∃ cleanup new, t.out.pins = cleanup ++ new ++ s.out.pins ∧
          (s.proto = .s1 → cleanup = [] ∧
            (lineChanges Line.data false (new.filter fun p => !p.irqOff)).count true = t.fill.toNat) ∧
          (s.proto ≠ .s1 → cleanup.length = if t.status = 0 then 0 else 2) ∧
          (s.proto = .pp → (lineChanges Line.data false new).count false = t.fill.toNat) ∧
          (s.proto = .p2 →
            (lineChanges Line.data (decide (s.drive &&& Line.data ≠ 0)) new).length = t.fill.toNat)) ∧
      ∀ bytes : List Byte, s.mode = .write → s.fill.toNat = bytes.length →
        (∀ k (h : k < bytes.length), s.buffer.get? k = some bytes[k]) →
        t.value.toNat ≤ bytes.length ∧ (t.status = 0 ↔ t.value.toNat = bytes.length) ∧
          ∃ cleanup new, t.out.pins = cleanup ++ new ++ s.out.pins ∧
            (s.proto = .s1 → cleanup = [] ∧ originalBits new =
              (bytes.take (t.value.toNat + if t.status = 5 then 1 else 0)).flatMap bitsOf) ∧
            (s.proto ≠ .s1 → cleanup.length = if t.status = 0 then 0 else 2) ∧
            (s.proto = .pp → clockRises (cleanup ++ new) =
              (bytes.take (t.value.toNat + if t.status = 0 then 0 else 1)).map some) ∧
            (s.proto = .p2 → clockChanges (decide (s.drive &&& Line.clock ≠ 0)) new =
              (bytes.take (t.value.toNat + if t.status = 0 then 0 else 1)).map some)

/-- With `eoi` set an ORIGINAL read request ends at once with no byte, status OK, and no access to the bus (R180, R144;
D17, D52). -/
def Obligations.EoiStopsReads : Prop :=
  ∀ s : State, s.mode = .read → s.proto = .s1 → s.eoi = true →
    handle s = .next { s with
      mode := .readDone, fill := 0, offset := 0, status := 0, value := 0, count := 0 }

/-- `eoi` is written only where R24 says (D28): of the host's commands only CLEAR_EOI touches it, and of the handler's
operations only ORIGINAL reads and writes (the addressing commands being ORIGINAL writes). -/
def Obligations.EoiFlagFrame : Prop :=
  (∀ (i : Instr) (s t : State), isBusByte i = false → i ≠ .clearEoi → exec i s = .next t → t.eoi = s.eoi) ∧
    ∀ s t : State, handle s = .next t →
      (s.mode = .read ∨ s.mode = .write) ∧ s.proto ≠ .s1 ∨
        s.mode = .async ∧ (s.acmd = 9 ∨ s.acmd = 17 ∨ s.acmd = 0xFD) → t.eoi = s.eoi

/-- IEC_WAIT's handler (R220, R268, D12, D37): it ends with OK, or with ST_WAIT_TIMEOUT logged, reports the lines as
sampled after the wait, and changes no line, flag or `bus_state`. -/
def Obligations.IecWaitOutcome : Prop :=
  ∀ (s : State) (b0 b1 : Byte),
    2 ≤ s.cfg.bufSize → s.mode = .async → s.acmd = 17 → s.count = 0 → s.buffer.get? 0 = some b0 →
      s.buffer.get? 1 = some b1 →
      ∃ t w, s.wait (b0.extractLsb' 0 4) (if b1 = 1 then b0.extractLsb' 0 4 else 0) s.cfg.tStall = w ∧
        handle s = .next t ∧ t.mode = .result ∧ t.status = (if w.1 = true then 0 else 10) ∧
        t.value = (s.drive ||| peerAt w.2.inp 0).zeroExtend 8 ∧ t.now = w.2.now ∧
        t.evEntries = (if w.1 = true then s.evEntries else (s.logEvent 10).evEntries) ∧
        t.evHead = (if w.1 = true then s.evHead else (s.logEvent 10).evHead) ∧
        t.drive = s.drive ∧ t.ppOut = s.ppOut ∧ t.ppOe = s.ppOe ∧ t.eoi = s.eoi ∧ t.busState = s.busState ∧
        t.irqOff = s.irqOff ∧ t.buffer = s.buffer ∧ t.fill = 0 ∧ t.offset = 0 ∧ t.out.pins = s.out.pins

/-- IRQ_PAUSE's handler (R242, R268, D36): the interrupt is masked for T_IRQ_PAUSE and unmasked again, as the two pin
entries show, no line moves, and the request ends with status 0 and value 0. -/
def Obligations.IrqPauseOutcome : Prop :=
  ∀ s : State, s.mode = .async → s.acmd = 0xFD →
    ∃ t, handle s = .next t ∧
      t =
        { s with
          irqOff := false
          now := s.now + s.cfg.tIrqPause + s.inp.nextOver
          inp := s.inp.dropOver
          expiry := t.expiry
          out := { s.out with
            pins :=
              ⟨t.now, s.drive, if s.ppOe then some s.ppOut else none, false⟩ ::
                ⟨s.now, s.drive, if s.ppOe then some s.ppOut else none, true⟩ :: s.out.pins }
          mode := .result, fill := 0, offset := 0, status := 0, value := 0, count := 0 }

/-- A bus reset (R185 to R187, R195, R312; D23). The pins show DATA, CLOCK and ATN released, then RESET asserted for
T_RESET_PULSE at least, then released and not asserted again. The status is OK exactly when one of the N_RESET_PROBE
probes finds, in its samples, a free bus; the bus is then free, else unknown and ST_RESET_NOT_FREE logged. Either way no
line is asserted on return, and `eoi`, the port, the buffer and the protocol are untouched. -/
def Obligations.BusResetOutcome : Prop :=
  ∀ s : State, s.mode = .async → s.acmd = 9 →
    ∃ t new p0 p1 p2, handle s = .next t ∧ t.mode = .result ∧ t.drive = 0 ∧ t.value = 0 ∧
      t.out.pins = new ++ p2 :: p1 :: p0 :: s.out.pins ∧ p0.drive = s.drive &&& Line.reset ∧
      p1.drive = Line.reset ∧ p2.drive = 0 ∧ p1.time + s.cfg.tResetPulse ≤ p2.time ∧
      (∀ e ∈ new, e.drive &&& ~~~Line.atn = 0) ∧
      (t.status = 0 ↔ busFreeWithin s.inp s.cfg.nResetProbe 0 = true) ∧
      (t.status = 0 ∧ t.busState = .free ∧ t.evEntries = s.evEntries ∧ t.evHead = s.evHead ∨
        t.status = 11 ∧ t.busState = .unknown ∧ t.evEntries = (s.logEvent 11).evEntries ∧
          t.evHead = (s.logEvent 11).evHead) ∧
      t.eoi = s.eoi ∧ t.ppOut = s.ppOut ∧ t.ppOe = s.ppOe ∧ t.buffer = s.buffer ∧ t.proto = s.proto ∧
      t.cfg = s.cfg

/-! ## Failures -/

/-- What `FAIL(st)` does (R131, R290, R195, R282; D10, D43): the interrupt is unmasked; a timeout class is logged and
code 2 is not; CLOCK, DATA and ATN are released but for a stall and a failed reset; the port is switched off after a
handshake timeout; `bus_state` is unknown but for a stall. RESET keeps its level (R290's masks; where R181 says that
nothing is asserted, the model's choice, log 29). It reads no line and waits for nothing (R288), and the
request's registers, the buffer, the count and `eoi` stay. -/
def Obligations.FailureCleanup : Prop :=
  ∀ (st : Status) (s : State), st ≠ .ok → st ≠ .waitTimeout →
    (fail st : Engine Unit) s = .error (.failed st) (s.failWith st) ∧
      (s.failWith st).irqOff = false ∧
      (s.failWith st).drive =
        (if st = .readStall ∨ st = .resetNotFree then s.drive
          else s.drive &&& ~~~(Line.clock ||| Line.data ||| Line.atn)) ∧
      (s.failWith st).ppOe = (if st = .hsTimeout then false else s.ppOe) ∧
      (s.failWith st).busState = (if st = .readStall then s.busState else .unknown) ∧
      (s.failWith st).evEntries =
        (if st = .devNotPresent then s.evEntries else (s.logEvent st.code).evEntries) ∧
      (s.failWith st).evHead = (if st = .devNotPresent then s.evHead else (s.logEvent st.code).evHead) ∧
      (s.failWith st).inp.lines = s.inp.lines ∧ (s.failWith st).inp.port = s.inp.port ∧
      (s.failWith st).wdtLast = s.wdtLast ∧ (s.failWith st).eoi = s.eoi ∧ (s.failWith st).ppOut = s.ppOut ∧
      (s.failWith st).buffer = s.buffer ∧ (s.failWith st).count = s.count ∧ (s.failWith st).mode = s.mode ∧
      (s.failWith st).status = s.status ∧ (s.failWith st).value = s.value ∧ (s.failWith st).fill = s.fill ∧
      (s.failWith st).offset = s.offset ∧ (s.failWith st).proto = s.proto ∧ (s.failWith st).acmd = s.acmd

/-- `WAIT` (R125, D2) is bounded and total: it takes `k + 1` samples, `k` being at most `T / T_POLLSTEP + 1`; it answers
true exactly on a sample that matches, the first such one, and fails only after at least T. It changes nothing but time:
the counter and the watchdog's reading of it, restarted at every sample, the watchdog's expiry if a delay passes its
period, and the samples and overshoots used up; every other register and the pins are as before. -/
def Obligations.WaitIsBounded : Prop :=
  ∀ (m v : LineMask) (t : Nat) (s : State), 0 < s.cfg.tPollStep →
    ∃ (k : Nat) (u : State), (s.wait m v t).2 = u ∧ k ≤ t / s.cfg.tPollStep + 1 ∧
      (∀ j, j < k → (s.drive ||| peerAt s.inp j) &&& m ≠ v) ∧
      ((s.wait m v t).1 = true ↔ (s.drive ||| peerAt s.inp k) &&& m = v) ∧
      ((s.wait m v t).1 = false → t ≤ u.now - s.now) ∧
      s.now + k * s.cfg.tPollStep ≤ u.now ∧ (k = 0 → u.now = s.now) ∧
      u =
        { s with
          now := u.now
          wdtLast := u.now
          expiry := u.expiry
          inp := { s.inp with
            lines := s.inp.lines.drop (k + 1)
            linesDrawn := s.inp.linesDrawn + (k + 1 - s.inp.lines.length)
            overs := s.inp.overs.drop k
            oversDrawn := s.inp.oversDrawn + (k - s.inp.overs.length) }
          out := { s.out with wdtKicks := s.out.wdtKicks + k + 1 } }

/-- Nobody on the bus (source example E3; R173, R178; D10, D43): an addressing or bracket-ending command, or an ORIGINAL write,
to which no device answers with DATA within T_ACK ends with ST_NO_DEVICE, no byte counted, ATN, CLOCK and DATA
released, `bus_state` unknown, one log entry; it never blocks. -/
def Obligations.NoDeviceOnTheBus : Prop :=
  ∀ s : State, Inv s →
    (s.mode = .async ∧ (s.acmd = 3 ∨ s.acmd = 4 ∨ s.acmd = 5 ∨ s.acmd = 6 ∨ s.acmd = 7 ∨ s.acmd = 8) ∨
      s.mode = .write ∧ s.proto = .s1) →
    (∀ k, k ≤ s.cfg.tAck / s.cfg.tPollStep + 1 → peerAt s.inp k &&& Line.data = 0) →
      ∃ t, handle s = .next t ∧ t.mode = .result ∧ t.status = 1 ∧ t.value = 0 ∧
        t.drive = s.drive &&& Line.reset ∧ t.busState = .unknown ∧ t.eoi = false ∧
        t.evEntries = (s.logEvent 1).evEntries ∧ t.evHead = (s.logEvent 1).evHead ∧ t.buffer = s.buffer

/-- A NAK (source example E4; R177, R178; D8, D43): a listener that acknowledges `k` bytes of an ORIGINAL write and does
not acknowledge the next makes the write end with ST_NAK and exactly `k` bytes counted; so too where the next is the
last, before which the listener has answered the EOI hold. -/
def Obligations.NakReportsExactCount : Prop :=
  ∀ (s : State) (k n : Nat), Inv s → s.mode = .write → s.proto = .s1 →
    (k + 1 < s.fill.toNat ∧ n = 3 * k + 3 ∧ (∀ j, j < n → peerAt s.inp j = (readyListener (k + 1)).getD j 0) ∨
      k + 1 = s.fill.toNat ∧ n = 3 * k + 5 ∧ ∀ j, j < n → peerAt s.inp j = (readyListenerEoi k).getD j 0) →
    (∀ j, j ≤ s.cfg.tAck / s.cfg.tPollStep + 1 → peerAt s.inp (n + j) &&& Line.data = 0) →
      ∃ t, handle s = .next t ∧ t.mode = .result ∧ t.status = 5 ∧ t.value = BitVec.ofNat 8 k ∧
        t.drive = s.drive &&& Line.reset ∧ t.busState = .unknown

/-! ## Bytes on the wire -/

/-- A bus command byte (busListen, busUnlisten, busTalk, busUntalk, busSecond, busClose, busOpen), sent to a device that
is present, lets go and acknowledges: its eight bits appear on DATA, least significant first, one for each CLOCK release
of the masked section (R141, R174; D15; what such a row means as an instruction is log 16). CLOCK stays asserted, one
more byte is counted, the rest is unchanged. -/
def Obligations.BusByteGoesOnTheWire : Prop :=
  ∀ (i : Instr) (b : Byte) (s : State) (p q r : LineMask) (rest : List LineMask),
    encode i = .busByte b → s.irqOff = false → s.drive &&& Line.data = 0 → s.inp.lines = p :: q :: r :: rest →
      p &&& Line.data ≠ 0 → q &&& Line.data = 0 → r &&& Line.data ≠ 0 →
      ∃ t new, exec i s = .next t ∧ t.out.pins = new ++ s.out.pins ∧ originalBits new = bitsOf b ∧
        t =
          { s with
            drive := s.drive ||| Line.clock
            count := s.count + 1
            now := t.now, wdtLast := t.wdtLast, expiry := t.expiry
            inp := { s.inp with lines := rest, overs := t.inp.overs, oversDrawn := t.inp.oversDrawn }
            out := { s.out with pins := t.out.pins, wdtKicks := s.out.wdtKicks + 2 } }

/-- A bus command byte that fails (R174, R178, R290; D10, D43, D48; log 16). With DATA released at the top of the byte:
ST_DEV_NOT_PRESENT, not logged. With a listener that never lets DATA go: ST_LISTENER_TIMEOUT, logged. With one that lets
go and does not acknowledge: ST_NAK, logged, the byte's bits shown. Each time the byte is not counted, CLOCK, DATA and
ATN are released and `bus_state` is unknown; `eoi`, the mode and the buffer stay. -/
def Obligations.BusByteNeedsADevice : Prop :=
  ∀ (i : Instr) (b : Byte) (s : State), encode i = .busByte b → s.irqOff = false → 0 < s.cfg.tPollStep →
    ∃ t new, t.out.pins = new ++ s.out.pins ∧ exec i s = .next t ∧
      ((s.drive ||| peerAt s.inp 0) &&& Line.data = 0 →
        t.status = 2 ∧ t.value = BitVec.ofNat 8 s.count ∧ t.drive = s.drive &&& Line.reset ∧ t.busState = .unknown ∧
          t.evEntries = s.evEntries ∧ t.evHead = s.evHead ∧ originalBits new = []) ∧
      ((∀ j, j ≤ s.cfg.tListener / s.cfg.tPollStep + 2 → (s.drive ||| peerAt s.inp j) &&& Line.data ≠ 0) →
        t.status = 3 ∧ t.value = BitVec.ofNat 8 s.count ∧ t.drive = s.drive &&& Line.reset ∧ t.busState = .unknown ∧
          t.evEntries = (s.logEvent 3).evEntries ∧ t.evHead = (s.logEvent 3).evHead ∧ originalBits new = []) ∧
      (s.drive &&& Line.data = 0 → peerAt s.inp 0 &&& Line.data ≠ 0 → peerAt s.inp 1 &&& Line.data = 0 →
        (∀ j, j ≤ s.cfg.tAck / s.cfg.tPollStep + 1 → peerAt s.inp (2 + j) &&& Line.data = 0) →
        t.status = 5 ∧ t.value = BitVec.ofNat 8 s.count ∧ t.drive = s.drive &&& Line.reset ∧ t.busState = .unknown ∧
          t.evEntries = (s.logEvent 5).evEntries ∧ t.evHead = (s.logEvent 5).evHead ∧ originalBits new = bitsOf b) ∧
      t.eoi = s.eoi ∧ t.mode = s.mode ∧ t.buffer = s.buffer

/-- The addressing and bracket-ending commands carried out (R188 to R193, R172, R176; D25 to D27; for TALK,
90_conflicts.md C6 and D18). With a ready listener every command byte appears on DATA, bit by bit, least significant
first, ATN asserted at every bit, and the count is their number. Then: LISTEN, OPEN and CLOSE leave CLOCK asserted and
BUS_LISTENING; TALK, once the device has taken CLOCK, leaves DATA asserted and BUS_TALKING; UNTALK and UNLISTEN leave
nothing asserted and BUS_FREE; all this but for RESET, which keeps the level it had (the model's choice, log 29). -/
def Obligations.CommandBytesReachTheBus : Prop :=
  ∀ (s : State) (bytes : List Byte) (extra rest : List LineMask) (lines : LineMask) (bus : BusState),
    Inv s → s.mode = .async → (∀ k (h : k < bytes.length), s.buffer.get? k = some bytes[k]) →
      s.inp.lines = readyListener bytes.length ++ extra ++ rest →
      ((s.acmd = 4 ∨ s.acmd = 7 ∨ s.acmd = 8) ∧ bytes.length = 2 ∧ extra = [] ∧ lines = Line.clock ∧
            bus = .listening ∨
          s.acmd = 3 ∧ bytes.length = 2 ∧ extra = [Line.clock] ∧ lines = Line.data ∧ bus = .talking ∨
        (s.acmd = 5 ∨ s.acmd = 6) ∧ bytes.length = 1 ∧ extra = [] ∧ lines = 0 ∧ bus = .free) →
      ∃ t new, handle s = .next t ∧ t.mode = .result ∧ t.status = 0 ∧ t.value.toNat = bytes.length ∧
        t.eoi = false ∧ t.busState = bus ∧ t.drive = (s.drive &&& Line.reset) ||| lines ∧ t.inp.lines = rest ∧
        t.out.pins = new ++ s.out.pins ∧ originalBits new = bytes.flatMap bitsOf ∧
        (∀ e ∈ new, e.irqOff = true → e.drive &&& Line.atn ≠ 0) ∧ t.buffer = s.buffer ∧
        t.evEntries = s.evEntries

/-- An ORIGINAL write carried out (R172, R175, R142, R267; D15, D16): with a ready listener that answers the EOI hold,
every payload byte appears on DATA in order, bit by bit, least significant first, and the count is the length. -/
def Obligations.WriteReachesTheBus : Prop :=
  ∀ (s : State) (bytes : List Byte) (rest : List LineMask),
    Inv s → s.mode = .write → s.proto = .s1 → s.fill.toNat = bytes.length →
      (∀ k (h : k < bytes.length), s.buffer.get? k = some bytes[k]) →
      s.inp.lines = readyListenerEoi (bytes.length - 1) ++ rest →
      ∃ t new, handle s = .next t ∧ t.mode = .result ∧ t.status = 0 ∧ t.value.toNat = bytes.length ∧
        t.eoi = false ∧ t.busState = s.busState ∧ t.drive = (s.drive &&& Line.reset) ||| Line.clock ∧
        t.inp.lines = rest ∧ t.out.pins = new ++ s.out.pins ∧ originalBits new = bytes.flatMap bitsOf

/-- The ORIGINAL decoder (R143, R24; D17). A talker that takes CLOCK at once and presents a byte's bits, each valid
while CLOCK is released, is read as that byte, `eoi` untouched; one that leaves CLOCK alone for T_EOI_DETECT first (the
delays not overshooting, the time a multiple of the poll step) is read as that byte with `eoi` set. Either way DATA is
asserted as the acknowledgement and the interrupt is unmasked. With BusByteGoesOnTheWire this is R164's round trip for
ORIGINAL. -/
def Obligations.OriginalReadDecodesTalker : Prop :=
  (∀ (s : State) (b : Byte) (rest : List LineMask),
    s.drive &&& Line.clock = 0 → s.inp.lines = Line.clock :: talkerSamples (bitsOf b) ++ rest →
      ∃ t, readByte s = .ok b t ∧ t.eoi = s.eoi ∧ t.irqOff = false ∧ t.drive = s.drive ||| Line.data ∧
        t.inp.lines = rest ∧ t.buffer = s.buffer) ∧
    ∀ (s : State) (b : Byte) (k : Nat) (rest : List LineMask) (overs : List Nat),
      0 < s.cfg.tPollStep → s.cfg.tEoiDetect = k * s.cfg.tPollStep → s.drive &&& Line.clock = 0 →
        s.inp.overs = List.replicate (k + 1) 0 ++ overs →
        s.inp.lines = List.replicate (k + 1) 0 ++ Line.clock :: talkerSamples (bitsOf b) ++ rest →
        ∃ t, readByte s = .ok b t ∧ t.eoi = true ∧ t.irqOff = false ∧ t.drive = s.drive ||| Line.data ∧
          t.inp.lines = rest ∧ t.buffer = s.buffer

/-- An ORIGINAL read request (R180, R143, R266, R24, R290; D10, D17). The talker's bytes are stored in the order they
come, and the count is their number. The read ends when the capacity is reached, `eoi` clear, or with the byte before
which the talker was silent for T_EOI_DETECT, `eoi` set (the delays up to there not overshooting, the time a multiple of
the poll step). If the talker stalls, keeping CLOCK asserted through T_STALL before a byte, the read ends with
ST_READ_STALL, logged, the bytes before it stored and counted, and DATA, once asserted as the acknowledgement, stays
asserted; `bus_state` stays, and so do the other lines (the model's choice where they were asserted, log 29). -/
def Obligations.OriginalReadFillsBuffer : Prop :=
  ∀ (s : State) (bytes : List Byte) (rest : List LineMask),
    Inv s → s.mode = .read → s.proto = .s1 → s.eoi = false → s.drive &&& Line.clock = 0 →
      (s.fill.toNat = bytes.length → s.inp.lines = bytes.flatMap talkerByte ++ rest →
        ∃ t, handle s = .next t ∧ t.mode = .readDone ∧ t.status = 0 ∧ t.fill = s.fill ∧ t.value = s.fill ∧
          t.eoi = false ∧ t.drive = s.drive ||| Line.data ∧ t.busState = s.busState ∧ t.inp.lines = rest ∧
          ∀ k (h : k < bytes.length), t.buffer.get? k = some bytes[k]) ∧
      (∀ (b : Byte) (n : Nat) (overs : List Nat), bytes.length + 1 ≤ s.fill.toNat →
        s.cfg.tEoiDetect = n * s.cfg.tPollStep →
        s.inp.overs = List.replicate (3 * bytes.length + n + 1) 0 ++ overs →
        s.inp.lines =
          bytes.flatMap talkerByte ++ List.replicate (n + 2) 0 ++ Line.clock :: talkerSamples (bitsOf b) ++ rest →
        ∃ t, handle s = .next t ∧ t.mode = .readDone ∧ t.status = 0 ∧ t.fill.toNat = bytes.length + 1 ∧
          t.value = t.fill ∧ t.eoi = true ∧ t.drive = s.drive ||| Line.data ∧ t.busState = s.busState ∧
          t.inp.lines = rest ∧ t.buffer.get? bytes.length = some b ∧
          ∀ k (h : k < bytes.length), t.buffer.get? k = some bytes[k]) ∧
      (bytes.length < s.fill.toNat → s.inp.lines = bytes.flatMap talkerByte ++ rest →
        (∀ j, j ≤ s.cfg.tStall / s.cfg.tPollStep + 1 →
          peerAt s.inp ((bytes.flatMap talkerByte).length + j) &&& Line.clock ≠ 0) →
        ∃ t, handle s = .next t ∧ t.mode = .readDone ∧ t.status = 7 ∧ t.fill.toNat = bytes.length ∧
          t.value = t.fill ∧ t.eoi = false ∧ t.busState = s.busState ∧
          t.drive = (if bytes = [] then s.drive else s.drive ||| Line.data) ∧
          t.evEntries = (s.logEvent 7).evEntries ∧ t.evHead = (s.logEvent 7).evHead ∧
          ∀ k (h : k < bytes.length), t.buffer.get? k = some bytes[k])

/-- SERIAL2's encoder and decoder agree (R150, R151, R164; D19): from released lines `S2.write_byte` shows, at the four
ATN edges, exactly the line pairs that make `S2.read_byte` answer the same byte when a peer presents them. And a SERIAL2
write request (R152) shows every payload byte in order, two bits at each ATN edge, least significant first, whoever
listens; it ends with status OK and the payload's length, the lines but RESET released. Four ATN edges for a byte (R154
says eight) and RESET left as it was (R165 says all four lines are released) are the model's choice: log 27, log 28. -/
def Obligations.Serial2RoundTrip : Prop :=
  (∀ (s u : State) (b : Byte) (rest : List LineMask),
    s.drive = 0 → u.drive = 0 →
      ∃ t new m0 m1 m2 m3,
        s2WriteByte b s = .ok () t ∧ t.out.pins = new ++ s.out.pins ∧ t.drive = 0 ∧ t.eoi = s.eoi ∧
          driveTrace new = [0, m0, m0 ||| Line.atn, m1 ||| Line.atn, m1, m2, m2 ||| Line.atn, m3 ||| Line.atn, m3, 0, 0] ∧
          (u.inp.lines = m0 :: m1 :: m2 :: m3 :: rest →
            ∃ v, s2ReadByte u = .ok b v ∧ v.drive = 0 ∧ v.eoi = u.eoi ∧ v.inp.lines = rest)) ∧
    ∀ (s : State) (bytes : List Byte),
      Inv s → s.mode = .write → s.proto = .s2 → s.fill.toNat = bytes.length →
        (∀ k (h : k < bytes.length), s.buffer.get? k = some bytes[k]) →
        ∃ t new, handle s = .next t ∧ t.mode = .result ∧ t.status = 0 ∧ t.value.toNat = bytes.length ∧
          t.drive = s.drive &&& Line.reset ∧ t.eoi = s.eoi ∧ t.busState = s.busState ∧ t.inp.lines = s.inp.lines ∧
          t.out.pins = new ++ s.out.pins ∧ edgeBits new = bytes.flatMap bitsOf

/-- A SERIAL2 read (R151, R153, R328; D19, D46), whatever the peer does: it takes exactly as many bytes as asked for, four
samples each, and never fails; byte `a` holds the peer's DATA and CLOCK at its four samples, 1 = asserted, two bits at
each sample, least significant first, so a sender's bytes are stored in order. Where DATA and CLOCK are released at every
sample, every byte is 0. Four samples for a byte (log 27) and RESET left as it was (log 28) are the model's choice. -/
def Obligations.Serial2ReadFromSilence : Prop :=
  ∀ s : State, Inv s → s.mode = .read → s.proto = .s2 →
    ∃ t, handle s = .next t ∧ t.mode = .readDone ∧ t.status = 0 ∧ t.fill = s.fill ∧ t.value = s.fill ∧
      t.drive = s.drive &&& Line.reset ∧ t.eoi = s.eoi ∧ t.busState = s.busState ∧
      t.inp.lines = s.inp.lines.drop (4 * s.fill.toNat) ∧
      t.inp.linesDrawn = s.inp.linesDrawn + (4 * s.fill.toNat - s.inp.lines.length) ∧
      (∀ a, a < s.fill.toNat → ∃ b : Byte, t.buffer.get? a = some b ∧
        ∀ k, k < 4 →
          b.getLsbD (2 * k) = decide (peerAt s.inp (4 * a + k) &&& Line.data ≠ 0) ∧
            b.getLsbD (2 * k + 1) = decide (peerAt s.inp (4 * a + k) &&& Line.clock ≠ 0)) ∧
      ((∀ k, k < 4 * s.fill.toNat → peerAt s.inp k &&& (Line.data ||| Line.clock) = 0) →
        ∀ a, a < s.fill.toNat → t.buffer.get? a = some 0)

/-- PARALLEL, both directions (R155 to R158; D20, D46). A peer that raises CLOCK with each byte on the port and drops it
when DATA answers is read into the buffer byte for byte; to a peer that answers each flag on DATA every payload byte is
on the port when CLOCK announces it. The count is the length, the lines but RESET end released and the port an input;
that RESET keeps the level it had is the model's choice (R165 says all are released, log 28). -/
def Obligations.ParallelTransfersPortBytes : Prop :=
  (∀ (s : State) (bytes : List Byte) (x : PortSample) (rest : List LineMask),
    Inv s → s.mode = .read → s.proto = .pp → s.fill.toNat = bytes.length →
      s.inp.lines = (List.replicate bytes.length [Line.clock, 0]).flatten ++ rest →
      s.inp.port = x :: bytes.map (fun b => ⟨b, false⟩) →
      ∃ t, handle s = .next t ∧ t.mode = .readDone ∧ t.status = 0 ∧ t.fill = s.fill ∧
        t.drive = s.drive &&& Line.reset ∧ t.ppOe = false ∧ t.inp.lines = rest ∧
        ∀ k (h : k < bytes.length), t.buffer.get? k = some bytes[k]) ∧
    ∀ (s : State) (bytes : List Byte) (rest : List LineMask),
      Inv s → s.mode = .write → s.proto = .pp → s.fill.toNat = bytes.length →
        (∀ k (h : k < bytes.length), s.buffer.get? k = some bytes[k]) →
        s.inp.lines = (List.replicate bytes.length [Line.data, 0]).flatten ++ rest →
        ∃ t new, handle s = .next t ∧ t.mode = .result ∧ t.status = 0 ∧ t.value.toNat = bytes.length ∧
          t.drive = s.drive &&& Line.reset ∧ t.ppOe = false ∧ t.out.pins = new ++ s.out.pins ∧
          clockRises new = bytes.map some

/-- PARALLEL2, both directions (R159 to R162, R164, R165; D21). A write whose every byte the peer follows with DATA
toggles CLOCK once for each byte, the byte being on the port at that transition, and leaves CLOCK as toggled. A read from
a peer that toggles CLOCK for each byte it puts on the port stores the bytes in order and toggles DATA once for each,
leaving DATA as toggled. The count is the length, the port ends an input. -/
def Obligations.Parallel2TogglesClock : Prop :=
  (∀ (s : State) (bytes : List Byte) (rest : List LineMask),
    Inv s → s.mode = .write → s.proto = .p2 → s.fill.toNat = bytes.length →
      (∀ k (h : k < bytes.length), s.buffer.get? k = some bytes[k]) →
      s.inp.lines = following Line.data (decide (s.drive &&& Line.clock ≠ 0)) bytes.length ++ rest →
      ∃ t new, handle s = .next t ∧ t.mode = .result ∧ t.status = 0 ∧ t.value.toNat = bytes.length ∧
        t.ppOe = false ∧ t.inp.lines = rest ∧ t.out.pins = new ++ s.out.pins ∧
        clockChanges (decide (s.drive &&& Line.clock ≠ 0)) new = bytes.map some ∧
        t.drive =
          (s.drive &&& Line.reset) |||
            (if (bytes.length + if s.drive &&& Line.clock ≠ 0 then 1 else 0) % 2 = 1 then Line.clock else 0)) ∧
    ∀ (s : State) (bytes : List Byte) (x : PortSample) (rest : List LineMask),
      Inv s → s.mode = .read → s.proto = .p2 → s.fill.toNat = bytes.length →
        s.inp.lines = following Line.clock (decide (s.drive &&& Line.data ≠ 0)) bytes.length ++ rest →
        s.inp.port = x :: bytes.map (fun b => ⟨b, false⟩) →
        ∃ t, handle s = .next t ∧ t.mode = .readDone ∧ t.status = 0 ∧ t.fill = s.fill ∧ t.value = s.fill ∧
          t.ppOe = false ∧ t.inp.lines = rest ∧
          t.drive =
            (s.drive &&& Line.reset) |||
              (if (bytes.length + if s.drive &&& Line.data ≠ 0 then 1 else 0) % 2 = 1 then Line.data else 0) ∧
          ∀ k (h : k < bytes.length), t.buffer.get? k = some bytes[k]

/-! ## Rules of the whole machine -/

/-- `bus_state` admits and refuses nothing (R25, R195, R196; D24). A command does the same in every bus state, and leaves it
as it was. Every operation, the handler's and the bus command bytes among them, may be started from every bus state: it
does the same, and `bus_state` afterwards is the one it sets or, where it sets none, the one before. -/
def Obligations.BusStateGatesNothing : Prop :=
  (∀ (i : Instr) (s : State) (v : BusState), isBusByte i = false →
    exec i { s with busState := v } = onNext (fun t => { t with busState := v }) (exec i s) ∧
      ∀ t, exec i s = .next t → t.busState = s.busState) ∧
    ∀ (run : State → Result) (s : State) (v : BusState), (run = handle ∨ ∃ i, run = exec i) →
      ∃ after, run { s with busState := v } = onNext (fun t => { t with busState := after }) (run s) ∧
        ∀ t, run s = .next t → after = t.busState ∨ t.busState = s.busState ∧ after = v

/-- The event log is a ring of the newest events (R128, R34, R241; D29). After logging `e` the newest entry has type
`e`. If it had that type before, its count goes up by one, at most to 255, and the rest stays; if the log was empty
there, it is the entry with count 1 and the rest stays; else it is a new entry with count 1 and every other entry but
the oldest has aged by one. The log keeps its form. -/
def Obligations.EventLogIsARing : Prop :=
  ∀ (s : State) (e : Byte), logOk s → e ≠ 0 →
    logOk (s.logEvent e) ∧ ((s.logEvent e).eventByAge 0).etype = e ∧
      ((s.eventByAge 0).etype = e →
        ((s.logEvent e).eventByAge 0).count.toNat = min 255 ((s.eventByAge 0).count.toNat + 1) ∧
          ∀ k, 1 ≤ k → (s.logEvent e).eventByAge k = s.eventByAge k) ∧
      ((s.eventByAge 0).etype = 0 →
        ((s.logEvent e).eventByAge 0).count = 1 ∧ ∀ k, 1 ≤ k → (s.logEvent e).eventByAge k = s.eventByAge k) ∧
      ((s.eventByAge 0).etype ≠ e → (s.eventByAge 0).etype ≠ 0 →
        ((s.logEvent e).eventByAge 0).count = 1 ∧
          ∀ k, k + 1 < s.cfg.eventLogSize → (s.logEvent e).eventByAge (k + 1) = s.eventByAge k)

/-- SET (R122) and REL (R123): the lines of the mask are asserted, or released, the others keep their level; each takes
the settle time, cannot fail and does not read the bus. A released line reads released afterwards only if the peer does
not assert it. -/
def Obligations.SetAndRelChangeLines : Prop :=
  (∀ (s : State) (m : LineMask), ∃ overs drawn expiry,
    s.assertLines m =
      { s with
        drive := s.drive ||| m
        now := s.now + s.cfg.tSettle + s.inp.nextOver
        inp := { s.inp with overs := overs, oversDrawn := drawn }
        expiry := expiry
        out := { s.out with
          pins := ⟨s.now, s.drive ||| m, if s.ppOe then some s.ppOut else none, s.irqOff⟩ :: s.out.pins } }) ∧
    (∀ (s : State) (m : LineMask), ∃ overs drawn expiry,
      s.releaseLines m =
        { s with
          drive := s.drive &&& ~~~m
          now := s.now + s.cfg.tSettle + s.inp.nextOver
          inp := { s.inp with overs := overs, oversDrawn := drawn }
          expiry := expiry
          out := { s.out with
            pins := ⟨s.now, s.drive &&& ~~~m, if s.ppOe then some s.ppOut else none, s.irqOff⟩ :: s.out.pins } }) ∧
    (∀ (s : State) (m : LineMask), (s.releaseLines m).sense &&& m = peerAt s.inp 0 &&& m) ∧
    (∀ s : State, s.drive = 0x02 → (s.assertLines 0x05).drive = 0x07) ∧
    ∀ s : State, s.drive = 0x07 → (s.releaseLines 0x06).drive = 0x01
end

