-- ==== Sys2Proof/Laws/Encoding.lean ====
section
/-! SUPPORT. The fields of a command word, read back from the seven bytes it was made of (30_encoding.md R80, R82). -/

namespace Sys2Proof

@[simp] theorem cmdOf_wordOfBytes (c p0 p1 p2 p3 p4 p5 : Byte) : cmdOf (wordOfBytes c p0 p1 p2 p3 p4 p5) = c := by
  refine BitVec.eq_of_getLsbD_eq fun i hi => ?_
  simp only [cmdOf, wordOfBytes, BitVec.getLsbD_extractLsb', BitVec.getLsbD_append]
  interval_cases i <;> simp

@[simp] theorem paramOf_zero_wordOfBytes (c p0 p1 p2 p3 p4 p5 : Byte) :
    paramOf 0 (wordOfBytes c p0 p1 p2 p3 p4 p5) = p0 := by
  refine BitVec.eq_of_getLsbD_eq fun i hi => ?_
  simp only [paramOf, wordOfBytes, BitVec.getLsbD_extractLsb', BitVec.getLsbD_append]
  interval_cases i <;> simp

@[simp] theorem paramOf_one_wordOfBytes (c p0 p1 p2 p3 p4 p5 : Byte) :
    paramOf 1 (wordOfBytes c p0 p1 p2 p3 p4 p5) = p1 := by
  refine BitVec.eq_of_getLsbD_eq fun i hi => ?_
  simp only [paramOf, wordOfBytes, BitVec.getLsbD_extractLsb', BitVec.getLsbD_append]
  interval_cases i <;> simp

@[simp] theorem paramOf_two_wordOfBytes (c p0 p1 p2 p3 p4 p5 : Byte) :
    paramOf 2 (wordOfBytes c p0 p1 p2 p3 p4 p5) = p2 := by
  refine BitVec.eq_of_getLsbD_eq fun i hi => ?_
  simp only [paramOf, wordOfBytes, BitVec.getLsbD_extractLsb', BitVec.getLsbD_append]
  interval_cases i <;> simp

@[simp] theorem paramOf_three_wordOfBytes (c p0 p1 p2 p3 p4 p5 : Byte) :
    paramOf 3 (wordOfBytes c p0 p1 p2 p3 p4 p5) = p3 := by
  refine BitVec.eq_of_getLsbD_eq fun i hi => ?_
  simp only [paramOf, wordOfBytes, BitVec.getLsbD_extractLsb', BitVec.getLsbD_append]
  interval_cases i <;> simp

@[simp] theorem paramOf_four_wordOfBytes (c p0 p1 p2 p3 p4 p5 : Byte) :
    paramOf 4 (wordOfBytes c p0 p1 p2 p3 p4 p5) = p4 := by
  refine BitVec.eq_of_getLsbD_eq fun i hi => ?_
  simp only [paramOf, wordOfBytes, BitVec.getLsbD_extractLsb', BitVec.getLsbD_append]
  interval_cases i <;> simp

@[simp] theorem paramOf_five_wordOfBytes (c p0 p1 p2 p3 p4 p5 : Byte) :
    paramOf 5 (wordOfBytes c p0 p1 p2 p3 p4 p5) = p5 := by
  refine BitVec.eq_of_getLsbD_eq fun i hi => ?_
  simp only [paramOf, wordOfBytes, BitVec.getLsbD_extractLsb', BitVec.getLsbD_append]
  interval_cases i <;> simp

/-- `LEN`'s two bytes, low byte first (20_memory.md R64), make `LEN` again. -/
@[simp] theorem lenOf_wordOfBytes (c p0 p1 p2 p3 : Byte) (len : BitVec 16) :
    lenOf (wordOfBytes c p0 p1 p2 p3 (len.extractLsb' 0 8) (len.extractLsb' 8 8)) = len := by
  simp only [lenOf, paramOf_four_wordOfBytes, paramOf_five_wordOfBytes]
  refine BitVec.eq_of_getLsbD_eq fun i hi => ?_
  simp only [BitVec.getLsbD_extractLsb', BitVec.getLsbD_append]
  interval_cases i <;> simp

@[simp] theorem cmdOf_append (params : BitVec 48) (c : Byte) : cmdOf (params ++ c) = c := by
  refine BitVec.eq_of_getLsbD_eq fun i hi => ?_
  simp only [cmdOf, BitVec.getLsbD_extractLsb', BitVec.getLsbD_append]
  interval_cases i <;> simp

@[simp] theorem paramsOf_append (params : BitVec 48) (c : Byte) : paramsOf (params ++ c) = params := by
  refine BitVec.eq_of_getLsbD_eq fun i hi => ?_
  simp only [paramsOf, BitVec.getLsbD_extractLsb', BitVec.getLsbD_append, hi, decide_true, Bool.true_and]
  rw [if_neg (by omega)]
  congr 1
  omega

/-- A word under the mask of its first byte. -/
theorem and_first_byte (w : CmdWord) : w &&& 0xFF = (cmdOf w).zeroExtend 56 := by
  refine BitVec.eq_of_getLsbD_eq fun i hi => ?_
  simp only [cmdOf, BitVec.getLsbD_and, BitVec.getLsbD_extractLsb', BitVec.getLsbD_setWidth]
  interval_cases i <;> simp

/-- A word under the mask of its first two bytes. -/
theorem and_first_bytes (w : CmdWord) : w &&& 0xFFFF = (paramOf 0 w ++ cmdOf w).zeroExtend 56 := by
  refine BitVec.eq_of_getLsbD_eq fun i hi => ?_
  simp only [cmdOf, paramOf, BitVec.getLsbD_and, BitVec.getLsbD_extractLsb', BitVec.getLsbD_setWidth,
    BitVec.getLsbD_append]
  interval_cases i <;> simp

end Sys2Proof
end

