-- ==== Sys2Proof/Laws/Memory.lean ====
section
/-! SUPPORT. The laws of the I/O buffer: read after write, the canonical form, sequences of bytes. -/

namespace Sys2Proof.Machine

@[simp] theorem Memory.get?_nil (a : Nat) : Memory.get? [] a = none := rfl

/-- A read after a write of the same byte gives the value written. -/
@[simp] theorem Memory.get?_set_same (m : Memory) (a : Nat) (b : Byte) : (m.set a b).get? a = some b := by
  induction m with
  | nil => simp [Memory.set, Memory.get?]
  | cons c rest ih =>
    obtain ⟨k, v⟩ := c
    simp only [Memory.set]
    split
    · simp [Memory.get?]
    · split
      · simp [Memory.get?]
      · have : k ≠ a := by omega
        simp [Memory.get?, this, ih]

/-- A write leaves every other byte alone. -/
theorem Memory.get?_set_other (m : Memory) {a a' : Nat} (b : Byte) (h : a' ≠ a) :
    (m.set a b).get? a' = m.get? a' := by
  induction m with
  | nil => simp [Memory.set, Memory.get?, Ne.symm h]
  | cons c rest ih =>
    obtain ⟨k, v⟩ := c
    simp only [Memory.set]
    split
    · simp [Memory.get?, Ne.symm h]
    · split
      · subst_vars
        simp [Memory.get?, Ne.symm h]
      · simp only [Memory.get?, ih]

/-- A write of several bytes leaves every byte outside them alone. -/
theorem Memory.get?_setMany_outside (bs : List Byte) :
    ∀ (m : Memory) {a a' : Nat}, (a' < a ∨ a + bs.length ≤ a') → (m.setMany a bs).get? a' = m.get? a' := by
  induction bs with
  | nil => intro m a a' _; rfl
  | cons b bs ih =>
    intro m a a' h
    simp only [List.length_cons] at h
    rw [Memory.setMany, ih (m.set a b) (a := a + 1) (by omega), Memory.get?_set_other m b (by omega)]

/-- Byte i of a write of several bytes. -/
theorem Memory.get?_setMany_inside (bs : List Byte) :
    ∀ (m : Memory) (a i : Nat) (h : i < bs.length), (m.setMany a bs).get? (a + i) = some bs[i] := by
  induction bs with
  | nil => intro m a i h; simp at h
  | cons b bs ih =>
    intro m a i h
    cases i with
    | zero =>
      rw [Memory.setMany, Memory.get?_setMany_outside bs (m.set a b) (Or.inl (by omega))]
      simp
    | succ i =>
      have h' : i < bs.length := by simpa using h
      rw [Memory.setMany, show a + (i + 1) = a + 1 + i by omega, ih (m.set a b) (a + 1) i h']
      simp

/-- Writing never makes a byte that held a value lose it. -/
theorem Memory.isSome_get?_set (m : Memory) (a : Nat) (b : Byte) {a' : Nat} (h : (m.get? a').isSome = true) :
    ((m.set a b).get? a').isSome = true := by
  by_cases e : a' = a
  · subst e; simp
  · rwa [Memory.get?_set_other m b e]

theorem Memory.isSome_get?_setMany (bs : List Byte) :
    ∀ (m : Memory) (a : Nat) {a' : Nat}, (m.get? a').isSome = true → ((m.setMany a bs).get? a').isSome = true := by
  induction bs with
  | nil => intro m a a' h; exact h
  | cons b bs ih => intro m a a' h; exact ih _ _ (Memory.isSome_get?_set m a b h)

theorem Memory.risingFrom_mono (m : Memory) {lo lo' : Nat} (h : lo' ≤ lo) (w : m.risingFrom lo = true) :
    m.risingFrom lo' = true := by
  cases m with
  | nil => rfl
  | cons c rest =>
    obtain ⟨k, v⟩ := c
    simp only [Memory.risingFrom, Bool.and_eq_true, decide_eq_true_eq] at w ⊢
    exact ⟨by omega, w.2⟩

theorem Memory.risingFrom_set (m : Memory) (a : Nat) (b : Byte) :
    ∀ {lo : Nat}, lo ≤ a → m.risingFrom lo = true → (m.set a b).risingFrom lo = true := by
  induction m with
  | nil => intro lo h _; simp [Memory.set, Memory.risingFrom, h]
  | cons c rest ih =>
    obtain ⟨k, v⟩ := c
    intro lo h w
    simp only [Memory.risingFrom, Bool.and_eq_true, decide_eq_true_eq] at w
    simp only [Memory.set]
    split
    · simp only [Memory.risingFrom, Bool.and_eq_true, decide_eq_true_eq]
      exact ⟨h, by omega, w.2⟩
    · split
      · subst_vars
        simp only [Memory.risingFrom, Bool.and_eq_true, decide_eq_true_eq]
        exact ⟨h, w.2⟩
      · simp only [Memory.risingFrom, Bool.and_eq_true, decide_eq_true_eq]
        exact ⟨w.1, ih (by omega) w.2⟩

theorem Memory.bounded_set (m : Memory) {cap a : Nat} (b : Byte) (h : a < cap) (w : m.bounded cap = true) :
    (m.set a b).bounded cap = true := by
  induction m with
  | nil => simp [Memory.set, Memory.bounded, h]
  | cons c rest ih =>
    obtain ⟨k, v⟩ := c
    simp only [Memory.bounded, Bool.and_eq_true, decide_eq_true_eq] at w
    simp only [Memory.set]
    split
    · simp [Memory.bounded, h, w]
    · split
      · simp [Memory.bounded, h, w]
      · simp [Memory.bounded, w.1, ih w.2]

/-- A write inside the buffer keeps the canonical form. -/
theorem Memory.wf_set (m : Memory) {cap a : Nat} (b : Byte) (h : a < cap) (w : m.wf cap = true) :
    (m.set a b).wf cap = true := by
  simp only [Memory.wf, Bool.and_eq_true] at w ⊢
  exact ⟨Memory.risingFrom_set m a b (Nat.zero_le a) w.1, Memory.bounded_set m b h w.2⟩

/-- A write of several bytes inside the buffer keeps the canonical form. -/
theorem Memory.wf_setMany {cap : Nat} (bs : List Byte) :
    ∀ (m : Memory) (a : Nat), a + bs.length ≤ cap → m.wf cap = true → (m.setMany a bs).wf cap = true := by
  induction bs with
  | nil => intro m a _ w; exact w
  | cons b bs ih =>
    intro m a h w
    simp only [List.length_cons] at h
    exact ih _ _ (by omega) (Memory.wf_set m b (by omega) w)

/-- A read of several bytes succeeds exactly when every one of them holds a value. -/
theorem Memory.getMany?_isSome (m : Memory) (n : Nat) :
    ∀ a, (m.getMany? a n).isSome = true ↔ ∀ i, i < n → (m.get? (a + i)).isSome = true := by
  induction n with
  | zero => intro a; simp [Memory.getMany?]
  | succ n ih =>
    intro a
    constructor
    · intro h i hi
      simp only [Memory.getMany?] at h
      split at h
      · rename_i b bs hb hbs
        cases i with
        | zero => simp [hb]
        | succ i =>
          have := (ih (a + 1)).1 (by simp [hbs]) i (by omega)
          rwa [show a + (i + 1) = a + 1 + i by omega]
      · simp at h
    · intro h
      have h0 := h 0 (by omega)
      have hr := (ih (a + 1)).2 fun i hi => by
        have := h (i + 1) (by omega)
        rwa [show a + (i + 1) = a + 1 + i by omega] at this
      obtain ⟨b, hb⟩ := Option.isSome_iff_exists.1 h0
      obtain ⟨bs, hbs⟩ := Option.isSome_iff_exists.1 hr
      simp only [Nat.add_zero] at hb
      simp [Memory.getMany?, hb, hbs]

/-- What a successful read of several bytes answers: each of them, in order. -/
theorem Memory.getMany?_some (m : Memory) (n : Nat) :
    ∀ (a : Nat) (bs : List Byte),
      m.getMany? a n = some bs ↔ bs.length = n ∧ ∀ i (h : i < bs.length), m.get? (a + i) = some bs[i] := by
  induction n with
  | zero =>
    intro a bs
    simp only [Memory.getMany?, Option.some.injEq]
    constructor
    · rintro rfl; simp
    · rintro ⟨h, -⟩; exact (List.length_eq_zero_iff.1 h).symm
  | succ n ih =>
    intro a bs
    constructor
    · intro h
      simp only [Memory.getMany?] at h
      split at h
      · rename_i b rest hb hrest
        cases h
        obtain ⟨hl, hr⟩ := (ih (a + 1) rest).1 hrest
        refine ⟨by simp [hl], fun i hi => ?_⟩
        cases i with
        | zero => simpa using hb
        | succ i =>
          rw [show a + (i + 1) = a + 1 + i by omega]
          simpa using hr i (by simpa using hi)
      · simp at h
    · rintro ⟨hl, hr⟩
      cases bs with
      | nil => simp at hl
      | cons b rest =>
        have hb : m.get? a = some b := hr 0 (Nat.succ_pos _)
        have hrest : m.getMany? (a + 1) n = some rest := (ih (a + 1) rest).2
          ⟨by simpa using hl, fun i hi => by
            rw [show a + 1 + i = a + (i + 1) by omega]
            exact hr (i + 1) (Nat.succ_lt_succ hi)⟩
        simp [Memory.getMany?, hb, hrest]

/-- A write followed by a read of the same bytes gives them back. -/
theorem Memory.getMany?_setMany (m : Memory) (a : Nat) (bs : List Byte) :
    (m.setMany a bs).getMany? a bs.length = some bs :=
  (Memory.getMany?_some _ _ _ _).2 ⟨rfl, fun i h => Memory.get?_setMany_inside bs m a i h⟩

/-- Two writes one after the other are one write of both. -/
theorem Memory.setMany_append (xs ys : List Byte) :
    ∀ (m : Memory) (a : Nat), m.setMany a (xs ++ ys) = (m.setMany a xs).setMany (a + xs.length) ys := by
  induction xs with
  | nil => intro m a; rfl
  | cons x xs ih =>
    intro m a
    simp only [List.cons_append, Memory.setMany, List.length_cons, ih]
    rw [show a + 1 + xs.length = a + (xs.length + 1) by omega]

end Sys2Proof.Machine
end

