-- ==== Sys2Proof/Laws/State.lean ====
section
/-! SUPPORT. What each update of the state does to each field: one lemma per field per update, all by rfl; and what the
8-bit cursor arithmetic and the configuration's bounds say of natural numbers. -/

namespace Sys2Proof.Machine

/-! ## Bounds and 8-bit counts -/

/-- All that `Config.wf` asks for. -/
theorem wf_iff (c : Config) :
    c.wf = true ↔ 0 < c.tPollStep ∧ 0 < c.eventLogSize ∧ 0 < c.usbChunk ∧ 2 ≤ c.bufSize ∧ c.bufSize ≤ 255 := by
  simp [Config.wf, and_assoc]

/-- A length in range (43_dispatcher_commands.md R203). -/
theorem goodLength_iff (c : Config) (n : Nat) : goodLength c n = true ↔ 1 ≤ n ∧ n ≤ c.bufSize := by simp [goodLength]

/-- A count below 256 fits its register. -/
theorem byteOfCount_toNat {n : Nat} (h : n < 256) : (byteOfCount n).toNat = n := by
  simp [byteOfCount, Nat.mod_eq_of_lt h]

/-- A register's own value as a count is the register. -/
@[simp] theorem byteOfCount_toNat_self (b : Byte) : byteOfCount b.toNat = b := by simp [byteOfCount]

/-- A 16-bit length as a count is its low byte. -/
@[simp] theorem byteOfCount_length (len : BitVec 16) : byteOfCount len.toNat = len.setWidth 8 := by
  apply BitVec.eq_of_toNat_eq
  simp [byteOfCount]

/-- Moving a cursor by `k` inside a register's bound adds `k`. -/
theorem cursor_toNat {o f : Byte} {k : Nat} (h : o.toNat + k ≤ f.toNat) : (o + byteOfCount k).toNat = o.toNat + k := by
  have : f.toNat < 256 := f.isLt
  rw [BitVec.toNat_add, byteOfCount_toNat (by omega)]
  omega

/-- The cursor reaches the fill exactly when the counts do. -/
theorem cursor_eq_iff {o f : Byte} {k : Nat} (h : o.toNat + k ≤ f.toNat) :
    o + byteOfCount k = f ↔ o.toNat + k = f.toNat := by
  rw [← BitVec.toNat_inj, cursor_toNat h]

/-! ## show -/

@[simp] theorem State.show_drive (s : State) : s.show.drive = s.drive := rfl
@[simp] theorem State.show_ppOut (s : State) : s.show.ppOut = s.ppOut := rfl
@[simp] theorem State.show_ppOe (s : State) : s.show.ppOe = s.ppOe := rfl
@[simp] theorem State.show_eoi (s : State) : s.show.eoi = s.eoi := rfl
@[simp] theorem State.show_busState (s : State) : s.show.busState = s.busState := rfl
@[simp] theorem State.show_irqOff (s : State) : s.show.irqOff = s.irqOff := rfl
@[simp] theorem State.show_now (s : State) : s.show.now = s.now := rfl
@[simp] theorem State.show_wdtLast (s : State) : s.show.wdtLast = s.wdtLast := rfl
@[simp] theorem State.show_evEntries (s : State) : s.show.evEntries = s.evEntries := rfl
@[simp] theorem State.show_evHead (s : State) : s.show.evHead = s.evHead := rfl
@[simp] theorem State.show_mode (s : State) : s.show.mode = s.mode := rfl
@[simp] theorem State.show_buffer (s : State) : s.show.buffer = s.buffer := rfl
@[simp] theorem State.show_fill (s : State) : s.show.fill = s.fill := rfl
@[simp] theorem State.show_offset (s : State) : s.show.offset = s.offset := rfl
@[simp] theorem State.show_status (s : State) : s.show.status = s.status := rfl
@[simp] theorem State.show_value (s : State) : s.show.value = s.value := rfl
@[simp] theorem State.show_proto (s : State) : s.show.proto = s.proto := rfl
@[simp] theorem State.show_acmd (s : State) : s.show.acmd = s.acmd := rfl
@[simp] theorem State.show_count (s : State) : s.show.count = s.count := rfl
@[simp] theorem State.show_phase (s : State) : s.show.phase = s.phase := rfl
@[simp] theorem State.show_expiry (s : State) : s.show.expiry = s.expiry := rfl
@[simp] theorem State.show_inp (s : State) : s.show.inp = s.inp := rfl
@[simp] theorem State.show_out (s : State) : s.show.out = { s.out with pins := s.pinsNow :: s.out.pins } := rfl
@[simp] theorem State.show_cfg (s : State) : s.show.cfg = s.cfg := rfl

/-! ## answer -/

@[simp] theorem State.answer_drive (r : Response) (s : State) : (s.answer r).drive = s.drive := rfl
@[simp] theorem State.answer_ppOut (r : Response) (s : State) : (s.answer r).ppOut = s.ppOut := rfl
@[simp] theorem State.answer_ppOe (r : Response) (s : State) : (s.answer r).ppOe = s.ppOe := rfl
@[simp] theorem State.answer_eoi (r : Response) (s : State) : (s.answer r).eoi = s.eoi := rfl
@[simp] theorem State.answer_busState (r : Response) (s : State) : (s.answer r).busState = s.busState := rfl
@[simp] theorem State.answer_irqOff (r : Response) (s : State) : (s.answer r).irqOff = s.irqOff := rfl
@[simp] theorem State.answer_now (r : Response) (s : State) : (s.answer r).now = s.now := rfl
@[simp] theorem State.answer_wdtLast (r : Response) (s : State) : (s.answer r).wdtLast = s.wdtLast := rfl
@[simp] theorem State.answer_evEntries (r : Response) (s : State) : (s.answer r).evEntries = s.evEntries := rfl
@[simp] theorem State.answer_evHead (r : Response) (s : State) : (s.answer r).evHead = s.evHead := rfl
@[simp] theorem State.answer_mode (r : Response) (s : State) : (s.answer r).mode = s.mode := rfl
@[simp] theorem State.answer_buffer (r : Response) (s : State) : (s.answer r).buffer = s.buffer := rfl
@[simp] theorem State.answer_fill (r : Response) (s : State) : (s.answer r).fill = s.fill := rfl
@[simp] theorem State.answer_offset (r : Response) (s : State) : (s.answer r).offset = s.offset := rfl
@[simp] theorem State.answer_status (r : Response) (s : State) : (s.answer r).status = s.status := rfl
@[simp] theorem State.answer_value (r : Response) (s : State) : (s.answer r).value = s.value := rfl
@[simp] theorem State.answer_proto (r : Response) (s : State) : (s.answer r).proto = s.proto := rfl
@[simp] theorem State.answer_acmd (r : Response) (s : State) : (s.answer r).acmd = s.acmd := rfl
@[simp] theorem State.answer_count (r : Response) (s : State) : (s.answer r).count = s.count := rfl
@[simp] theorem State.answer_phase (r : Response) (s : State) : (s.answer r).phase = s.phase := rfl
@[simp] theorem State.answer_expiry (r : Response) (s : State) : (s.answer r).expiry = s.expiry := rfl
@[simp] theorem State.answer_inp (r : Response) (s : State) : (s.answer r).inp = s.inp := rfl
@[simp] theorem State.answer_out (r : Response) (s : State) : (s.answer r).out = { s.out with responses := r :: s.out.responses } := rfl
@[simp] theorem State.answer_cfg (r : Response) (s : State) : (s.answer r).cfg = s.cfg := rfl

/-! ## forward -/

@[simp] theorem State.forward_drive (w : CmdWord) (s : State) : (s.forward w).drive = s.drive := rfl
@[simp] theorem State.forward_ppOut (w : CmdWord) (s : State) : (s.forward w).ppOut = s.ppOut := rfl
@[simp] theorem State.forward_ppOe (w : CmdWord) (s : State) : (s.forward w).ppOe = s.ppOe := rfl
@[simp] theorem State.forward_eoi (w : CmdWord) (s : State) : (s.forward w).eoi = s.eoi := rfl
@[simp] theorem State.forward_busState (w : CmdWord) (s : State) : (s.forward w).busState = s.busState := rfl
@[simp] theorem State.forward_irqOff (w : CmdWord) (s : State) : (s.forward w).irqOff = s.irqOff := rfl
@[simp] theorem State.forward_now (w : CmdWord) (s : State) : (s.forward w).now = s.now := rfl
@[simp] theorem State.forward_wdtLast (w : CmdWord) (s : State) : (s.forward w).wdtLast = s.wdtLast := rfl
@[simp] theorem State.forward_evEntries (w : CmdWord) (s : State) : (s.forward w).evEntries = s.evEntries := rfl
@[simp] theorem State.forward_evHead (w : CmdWord) (s : State) : (s.forward w).evHead = s.evHead := rfl
@[simp] theorem State.forward_mode (w : CmdWord) (s : State) : (s.forward w).mode = s.mode := rfl
@[simp] theorem State.forward_buffer (w : CmdWord) (s : State) : (s.forward w).buffer = s.buffer := rfl
@[simp] theorem State.forward_fill (w : CmdWord) (s : State) : (s.forward w).fill = s.fill := rfl
@[simp] theorem State.forward_offset (w : CmdWord) (s : State) : (s.forward w).offset = s.offset := rfl
@[simp] theorem State.forward_status (w : CmdWord) (s : State) : (s.forward w).status = s.status := rfl
@[simp] theorem State.forward_value (w : CmdWord) (s : State) : (s.forward w).value = s.value := rfl
@[simp] theorem State.forward_proto (w : CmdWord) (s : State) : (s.forward w).proto = s.proto := rfl
@[simp] theorem State.forward_acmd (w : CmdWord) (s : State) : (s.forward w).acmd = s.acmd := rfl
@[simp] theorem State.forward_count (w : CmdWord) (s : State) : (s.forward w).count = s.count := rfl
@[simp] theorem State.forward_phase (w : CmdWord) (s : State) : (s.forward w).phase = s.phase := rfl
@[simp] theorem State.forward_expiry (w : CmdWord) (s : State) : (s.forward w).expiry = s.expiry := rfl
@[simp] theorem State.forward_inp (w : CmdWord) (s : State) : (s.forward w).inp = s.inp := rfl
@[simp] theorem State.forward_out (w : CmdWord) (s : State) : (s.forward w).out = { s.out with extCmds := w :: s.out.extCmds } := rfl
@[simp] theorem State.forward_cfg (w : CmdWord) (s : State) : (s.forward w).cfg = s.cfg := rfl

/-! ## kick -/

@[simp] theorem State.kick_drive (s : State) : s.kick.drive = s.drive := rfl
@[simp] theorem State.kick_ppOut (s : State) : s.kick.ppOut = s.ppOut := rfl
@[simp] theorem State.kick_ppOe (s : State) : s.kick.ppOe = s.ppOe := rfl
@[simp] theorem State.kick_eoi (s : State) : s.kick.eoi = s.eoi := rfl
@[simp] theorem State.kick_busState (s : State) : s.kick.busState = s.busState := rfl
@[simp] theorem State.kick_irqOff (s : State) : s.kick.irqOff = s.irqOff := rfl
@[simp] theorem State.kick_now (s : State) : s.kick.now = s.now := rfl
@[simp] theorem State.kick_wdtLast (s : State) : s.kick.wdtLast = s.now := rfl
@[simp] theorem State.kick_evEntries (s : State) : s.kick.evEntries = s.evEntries := rfl
@[simp] theorem State.kick_evHead (s : State) : s.kick.evHead = s.evHead := rfl
@[simp] theorem State.kick_mode (s : State) : s.kick.mode = s.mode := rfl
@[simp] theorem State.kick_buffer (s : State) : s.kick.buffer = s.buffer := rfl
@[simp] theorem State.kick_fill (s : State) : s.kick.fill = s.fill := rfl
@[simp] theorem State.kick_offset (s : State) : s.kick.offset = s.offset := rfl
@[simp] theorem State.kick_status (s : State) : s.kick.status = s.status := rfl
@[simp] theorem State.kick_value (s : State) : s.kick.value = s.value := rfl
@[simp] theorem State.kick_proto (s : State) : s.kick.proto = s.proto := rfl
@[simp] theorem State.kick_acmd (s : State) : s.kick.acmd = s.acmd := rfl
@[simp] theorem State.kick_count (s : State) : s.kick.count = s.count := rfl
@[simp] theorem State.kick_phase (s : State) : s.kick.phase = s.phase := rfl
@[simp] theorem State.kick_expiry (s : State) : s.kick.expiry = s.expiry := rfl
@[simp] theorem State.kick_inp (s : State) : s.kick.inp = s.inp := rfl
@[simp] theorem State.kick_out (s : State) : s.kick.out = { s.out with wdtKicks := s.out.wdtKicks + 1 } := rfl
@[simp] theorem State.kick_cfg (s : State) : s.kick.cfg = s.cfg := rfl

/-! ## delay -/

@[simp] theorem State.delay_drive (t : Nat) (s : State) : (s.delay t).drive = s.drive := rfl
@[simp] theorem State.delay_ppOut (t : Nat) (s : State) : (s.delay t).ppOut = s.ppOut := rfl
@[simp] theorem State.delay_ppOe (t : Nat) (s : State) : (s.delay t).ppOe = s.ppOe := rfl
@[simp] theorem State.delay_eoi (t : Nat) (s : State) : (s.delay t).eoi = s.eoi := rfl
@[simp] theorem State.delay_busState (t : Nat) (s : State) : (s.delay t).busState = s.busState := rfl
@[simp] theorem State.delay_irqOff (t : Nat) (s : State) : (s.delay t).irqOff = s.irqOff := rfl
@[simp] theorem State.delay_now (t : Nat) (s : State) : (s.delay t).now = s.nowAfter t := rfl
@[simp] theorem State.delay_wdtLast (t : Nat) (s : State) : (s.delay t).wdtLast = s.wdtLast := rfl
@[simp] theorem State.delay_evEntries (t : Nat) (s : State) : (s.delay t).evEntries = s.evEntries := rfl
@[simp] theorem State.delay_evHead (t : Nat) (s : State) : (s.delay t).evHead = s.evHead := rfl
@[simp] theorem State.delay_mode (t : Nat) (s : State) : (s.delay t).mode = s.mode := rfl
@[simp] theorem State.delay_buffer (t : Nat) (s : State) : (s.delay t).buffer = s.buffer := rfl
@[simp] theorem State.delay_fill (t : Nat) (s : State) : (s.delay t).fill = s.fill := rfl
@[simp] theorem State.delay_offset (t : Nat) (s : State) : (s.delay t).offset = s.offset := rfl
@[simp] theorem State.delay_status (t : Nat) (s : State) : (s.delay t).status = s.status := rfl
@[simp] theorem State.delay_value (t : Nat) (s : State) : (s.delay t).value = s.value := rfl
@[simp] theorem State.delay_proto (t : Nat) (s : State) : (s.delay t).proto = s.proto := rfl
@[simp] theorem State.delay_acmd (t : Nat) (s : State) : (s.delay t).acmd = s.acmd := rfl
@[simp] theorem State.delay_count (t : Nat) (s : State) : (s.delay t).count = s.count := rfl
@[simp] theorem State.delay_phase (t : Nat) (s : State) : (s.delay t).phase = s.phase := rfl
@[simp] theorem State.delay_inp (t : Nat) (s : State) : (s.delay t).inp = s.inp.dropOver := rfl
@[simp] theorem State.delay_out (t : Nat) (s : State) : (s.delay t).out = s.out := rfl
@[simp] theorem State.delay_cfg (t : Nat) (s : State) : (s.delay t).cfg = s.cfg := rfl

/-! ## assertLines -/

@[simp] theorem State.assertLines_drive (m : LineMask) (s : State) : (s.assertLines m).drive = s.drive ||| m := rfl
@[simp] theorem State.assertLines_ppOut (m : LineMask) (s : State) : (s.assertLines m).ppOut = s.ppOut := rfl
@[simp] theorem State.assertLines_ppOe (m : LineMask) (s : State) : (s.assertLines m).ppOe = s.ppOe := rfl
@[simp] theorem State.assertLines_eoi (m : LineMask) (s : State) : (s.assertLines m).eoi = s.eoi := rfl
@[simp] theorem State.assertLines_busState (m : LineMask) (s : State) : (s.assertLines m).busState = s.busState := rfl
@[simp] theorem State.assertLines_irqOff (m : LineMask) (s : State) : (s.assertLines m).irqOff = s.irqOff := rfl
@[simp] theorem State.assertLines_now (m : LineMask) (s : State) : (s.assertLines m).now = s.nowAfter s.cfg.tSettle := rfl
@[simp] theorem State.assertLines_wdtLast (m : LineMask) (s : State) : (s.assertLines m).wdtLast = s.wdtLast := rfl
@[simp] theorem State.assertLines_evEntries (m : LineMask) (s : State) : (s.assertLines m).evEntries = s.evEntries := rfl
@[simp] theorem State.assertLines_evHead (m : LineMask) (s : State) : (s.assertLines m).evHead = s.evHead := rfl
@[simp] theorem State.assertLines_mode (m : LineMask) (s : State) : (s.assertLines m).mode = s.mode := rfl
@[simp] theorem State.assertLines_buffer (m : LineMask) (s : State) : (s.assertLines m).buffer = s.buffer := rfl
@[simp] theorem State.assertLines_fill (m : LineMask) (s : State) : (s.assertLines m).fill = s.fill := rfl
@[simp] theorem State.assertLines_offset (m : LineMask) (s : State) : (s.assertLines m).offset = s.offset := rfl
@[simp] theorem State.assertLines_status (m : LineMask) (s : State) : (s.assertLines m).status = s.status := rfl
@[simp] theorem State.assertLines_value (m : LineMask) (s : State) : (s.assertLines m).value = s.value := rfl
@[simp] theorem State.assertLines_proto (m : LineMask) (s : State) : (s.assertLines m).proto = s.proto := rfl
@[simp] theorem State.assertLines_acmd (m : LineMask) (s : State) : (s.assertLines m).acmd = s.acmd := rfl
@[simp] theorem State.assertLines_count (m : LineMask) (s : State) : (s.assertLines m).count = s.count := rfl
@[simp] theorem State.assertLines_phase (m : LineMask) (s : State) : (s.assertLines m).phase = s.phase := rfl
@[simp] theorem State.assertLines_inp (m : LineMask) (s : State) : (s.assertLines m).inp = s.inp.dropOver := rfl
@[simp] theorem State.assertLines_out (m : LineMask) (s : State) : (s.assertLines m).out = { s.out with pins := { s.pinsNow with drive := s.drive ||| m } :: s.out.pins } := rfl
@[simp] theorem State.assertLines_cfg (m : LineMask) (s : State) : (s.assertLines m).cfg = s.cfg := rfl

/-! ## releaseLines -/

@[simp] theorem State.releaseLines_drive (m : LineMask) (s : State) : (s.releaseLines m).drive = s.drive &&& ~~~m := rfl
@[simp] theorem State.releaseLines_ppOut (m : LineMask) (s : State) : (s.releaseLines m).ppOut = s.ppOut := rfl
@[simp] theorem State.releaseLines_ppOe (m : LineMask) (s : State) : (s.releaseLines m).ppOe = s.ppOe := rfl
@[simp] theorem State.releaseLines_eoi (m : LineMask) (s : State) : (s.releaseLines m).eoi = s.eoi := rfl
@[simp] theorem State.releaseLines_busState (m : LineMask) (s : State) : (s.releaseLines m).busState = s.busState := rfl
@[simp] theorem State.releaseLines_irqOff (m : LineMask) (s : State) : (s.releaseLines m).irqOff = s.irqOff := rfl
@[simp] theorem State.releaseLines_now (m : LineMask) (s : State) : (s.releaseLines m).now = s.nowAfter s.cfg.tSettle := rfl
@[simp] theorem State.releaseLines_wdtLast (m : LineMask) (s : State) : (s.releaseLines m).wdtLast = s.wdtLast := rfl
@[simp] theorem State.releaseLines_evEntries (m : LineMask) (s : State) : (s.releaseLines m).evEntries = s.evEntries := rfl
@[simp] theorem State.releaseLines_evHead (m : LineMask) (s : State) : (s.releaseLines m).evHead = s.evHead := rfl
@[simp] theorem State.releaseLines_mode (m : LineMask) (s : State) : (s.releaseLines m).mode = s.mode := rfl
@[simp] theorem State.releaseLines_buffer (m : LineMask) (s : State) : (s.releaseLines m).buffer = s.buffer := rfl
@[simp] theorem State.releaseLines_fill (m : LineMask) (s : State) : (s.releaseLines m).fill = s.fill := rfl
@[simp] theorem State.releaseLines_offset (m : LineMask) (s : State) : (s.releaseLines m).offset = s.offset := rfl
@[simp] theorem State.releaseLines_status (m : LineMask) (s : State) : (s.releaseLines m).status = s.status := rfl
@[simp] theorem State.releaseLines_value (m : LineMask) (s : State) : (s.releaseLines m).value = s.value := rfl
@[simp] theorem State.releaseLines_proto (m : LineMask) (s : State) : (s.releaseLines m).proto = s.proto := rfl
@[simp] theorem State.releaseLines_acmd (m : LineMask) (s : State) : (s.releaseLines m).acmd = s.acmd := rfl
@[simp] theorem State.releaseLines_count (m : LineMask) (s : State) : (s.releaseLines m).count = s.count := rfl
@[simp] theorem State.releaseLines_phase (m : LineMask) (s : State) : (s.releaseLines m).phase = s.phase := rfl
@[simp] theorem State.releaseLines_inp (m : LineMask) (s : State) : (s.releaseLines m).inp = s.inp.dropOver := rfl
@[simp] theorem State.releaseLines_out (m : LineMask) (s : State) : (s.releaseLines m).out = { s.out with pins := { s.pinsNow with drive := s.drive &&& ~~~m } :: s.out.pins } := rfl
@[simp] theorem State.releaseLines_cfg (m : LineMask) (s : State) : (s.releaseLines m).cfg = s.cfg := rfl

/-! ## setRelease -/

@[simp] theorem State.setRelease_drive (a r : LineMask) (s : State) : (s.setRelease a r).drive = (s.drive ||| a) &&& ~~~r := rfl
@[simp] theorem State.setRelease_ppOut (a r : LineMask) (s : State) : (s.setRelease a r).ppOut = s.ppOut := rfl
@[simp] theorem State.setRelease_ppOe (a r : LineMask) (s : State) : (s.setRelease a r).ppOe = s.ppOe := rfl
@[simp] theorem State.setRelease_eoi (a r : LineMask) (s : State) : (s.setRelease a r).eoi = s.eoi := rfl
@[simp] theorem State.setRelease_busState (a r : LineMask) (s : State) : (s.setRelease a r).busState = s.busState := rfl
@[simp] theorem State.setRelease_irqOff (a r : LineMask) (s : State) : (s.setRelease a r).irqOff = s.irqOff := rfl
@[simp] theorem State.setRelease_now (a r : LineMask) (s : State) : (s.setRelease a r).now = s.nowAfter s.cfg.tSettle := rfl
@[simp] theorem State.setRelease_wdtLast (a r : LineMask) (s : State) : (s.setRelease a r).wdtLast = s.wdtLast := rfl
@[simp] theorem State.setRelease_evEntries (a r : LineMask) (s : State) : (s.setRelease a r).evEntries = s.evEntries := rfl
@[simp] theorem State.setRelease_evHead (a r : LineMask) (s : State) : (s.setRelease a r).evHead = s.evHead := rfl
@[simp] theorem State.setRelease_mode (a r : LineMask) (s : State) : (s.setRelease a r).mode = s.mode := rfl
@[simp] theorem State.setRelease_buffer (a r : LineMask) (s : State) : (s.setRelease a r).buffer = s.buffer := rfl
@[simp] theorem State.setRelease_fill (a r : LineMask) (s : State) : (s.setRelease a r).fill = s.fill := rfl
@[simp] theorem State.setRelease_offset (a r : LineMask) (s : State) : (s.setRelease a r).offset = s.offset := rfl
@[simp] theorem State.setRelease_status (a r : LineMask) (s : State) : (s.setRelease a r).status = s.status := rfl
@[simp] theorem State.setRelease_value (a r : LineMask) (s : State) : (s.setRelease a r).value = s.value := rfl
@[simp] theorem State.setRelease_proto (a r : LineMask) (s : State) : (s.setRelease a r).proto = s.proto := rfl
@[simp] theorem State.setRelease_acmd (a r : LineMask) (s : State) : (s.setRelease a r).acmd = s.acmd := rfl
@[simp] theorem State.setRelease_count (a r : LineMask) (s : State) : (s.setRelease a r).count = s.count := rfl
@[simp] theorem State.setRelease_phase (a r : LineMask) (s : State) : (s.setRelease a r).phase = s.phase := rfl
@[simp] theorem State.setRelease_inp (a r : LineMask) (s : State) : (s.setRelease a r).inp = s.inp.dropOver := rfl
@[simp] theorem State.setRelease_out (a r : LineMask) (s : State) : (s.setRelease a r).out = { s.out with pins := { s.pinsNow with drive := (s.drive ||| a) &&& ~~~r } :: s.out.pins } := rfl
@[simp] theorem State.setRelease_cfg (a r : LineMask) (s : State) : (s.setRelease a r).cfg = s.cfg := rfl

/-! ## sampled -/

@[simp] theorem State.sampled_drive (s : State) : s.sampled.drive = s.drive := rfl
@[simp] theorem State.sampled_ppOut (s : State) : s.sampled.ppOut = s.ppOut := rfl
@[simp] theorem State.sampled_ppOe (s : State) : s.sampled.ppOe = s.ppOe := rfl
@[simp] theorem State.sampled_eoi (s : State) : s.sampled.eoi = s.eoi := rfl
@[simp] theorem State.sampled_busState (s : State) : s.sampled.busState = s.busState := rfl
@[simp] theorem State.sampled_irqOff (s : State) : s.sampled.irqOff = s.irqOff := rfl
@[simp] theorem State.sampled_now (s : State) : s.sampled.now = s.now := rfl
@[simp] theorem State.sampled_wdtLast (s : State) : s.sampled.wdtLast = s.wdtLast := rfl
@[simp] theorem State.sampled_evEntries (s : State) : s.sampled.evEntries = s.evEntries := rfl
@[simp] theorem State.sampled_evHead (s : State) : s.sampled.evHead = s.evHead := rfl
@[simp] theorem State.sampled_mode (s : State) : s.sampled.mode = s.mode := rfl
@[simp] theorem State.sampled_buffer (s : State) : s.sampled.buffer = s.buffer := rfl
@[simp] theorem State.sampled_fill (s : State) : s.sampled.fill = s.fill := rfl
@[simp] theorem State.sampled_offset (s : State) : s.sampled.offset = s.offset := rfl
@[simp] theorem State.sampled_status (s : State) : s.sampled.status = s.status := rfl
@[simp] theorem State.sampled_value (s : State) : s.sampled.value = s.value := rfl
@[simp] theorem State.sampled_proto (s : State) : s.sampled.proto = s.proto := rfl
@[simp] theorem State.sampled_acmd (s : State) : s.sampled.acmd = s.acmd := rfl
@[simp] theorem State.sampled_count (s : State) : s.sampled.count = s.count := rfl
@[simp] theorem State.sampled_phase (s : State) : s.sampled.phase = s.phase := rfl
@[simp] theorem State.sampled_expiry (s : State) : s.sampled.expiry = s.expiry := rfl
@[simp] theorem State.sampled_inp (s : State) : s.sampled.inp = s.inp.dropLines := rfl
@[simp] theorem State.sampled_out (s : State) : s.sampled.out = s.out := rfl
@[simp] theorem State.sampled_cfg (s : State) : s.sampled.cfg = s.cfg := rfl

/-! ## irqMask -/

@[simp] theorem State.irqMask_drive (s : State) : s.irqMask.drive = s.drive := rfl
@[simp] theorem State.irqMask_ppOut (s : State) : s.irqMask.ppOut = s.ppOut := rfl
@[simp] theorem State.irqMask_ppOe (s : State) : s.irqMask.ppOe = s.ppOe := rfl
@[simp] theorem State.irqMask_eoi (s : State) : s.irqMask.eoi = s.eoi := rfl
@[simp] theorem State.irqMask_busState (s : State) : s.irqMask.busState = s.busState := rfl
@[simp] theorem State.irqMask_irqOff (s : State) : s.irqMask.irqOff = true := rfl
@[simp] theorem State.irqMask_now (s : State) : s.irqMask.now = s.now := rfl
@[simp] theorem State.irqMask_wdtLast (s : State) : s.irqMask.wdtLast = s.wdtLast := rfl
@[simp] theorem State.irqMask_evEntries (s : State) : s.irqMask.evEntries = s.evEntries := rfl
@[simp] theorem State.irqMask_evHead (s : State) : s.irqMask.evHead = s.evHead := rfl
@[simp] theorem State.irqMask_mode (s : State) : s.irqMask.mode = s.mode := rfl
@[simp] theorem State.irqMask_buffer (s : State) : s.irqMask.buffer = s.buffer := rfl
@[simp] theorem State.irqMask_fill (s : State) : s.irqMask.fill = s.fill := rfl
@[simp] theorem State.irqMask_offset (s : State) : s.irqMask.offset = s.offset := rfl
@[simp] theorem State.irqMask_status (s : State) : s.irqMask.status = s.status := rfl
@[simp] theorem State.irqMask_value (s : State) : s.irqMask.value = s.value := rfl
@[simp] theorem State.irqMask_proto (s : State) : s.irqMask.proto = s.proto := rfl
@[simp] theorem State.irqMask_acmd (s : State) : s.irqMask.acmd = s.acmd := rfl
@[simp] theorem State.irqMask_count (s : State) : s.irqMask.count = s.count := rfl
@[simp] theorem State.irqMask_phase (s : State) : s.irqMask.phase = s.phase := rfl
@[simp] theorem State.irqMask_expiry (s : State) : s.irqMask.expiry = s.expiry := rfl
@[simp] theorem State.irqMask_inp (s : State) : s.irqMask.inp = s.inp := rfl
@[simp] theorem State.irqMask_out (s : State) : s.irqMask.out = { s.out with pins := { s.pinsNow with irqOff := true } :: s.out.pins } := rfl
@[simp] theorem State.irqMask_cfg (s : State) : s.irqMask.cfg = s.cfg := rfl

/-! ## irqUnmask -/

@[simp] theorem State.irqUnmask_drive (s : State) : s.irqUnmask.drive = s.drive := rfl
@[simp] theorem State.irqUnmask_ppOut (s : State) : s.irqUnmask.ppOut = s.ppOut := rfl
@[simp] theorem State.irqUnmask_ppOe (s : State) : s.irqUnmask.ppOe = s.ppOe := rfl
@[simp] theorem State.irqUnmask_eoi (s : State) : s.irqUnmask.eoi = s.eoi := rfl
@[simp] theorem State.irqUnmask_busState (s : State) : s.irqUnmask.busState = s.busState := rfl
@[simp] theorem State.irqUnmask_irqOff (s : State) : s.irqUnmask.irqOff = false := rfl
@[simp] theorem State.irqUnmask_now (s : State) : s.irqUnmask.now = s.now := rfl
@[simp] theorem State.irqUnmask_wdtLast (s : State) : s.irqUnmask.wdtLast = s.wdtLast := rfl
@[simp] theorem State.irqUnmask_evEntries (s : State) : s.irqUnmask.evEntries = s.evEntries := rfl
@[simp] theorem State.irqUnmask_evHead (s : State) : s.irqUnmask.evHead = s.evHead := rfl
@[simp] theorem State.irqUnmask_mode (s : State) : s.irqUnmask.mode = s.mode := rfl
@[simp] theorem State.irqUnmask_buffer (s : State) : s.irqUnmask.buffer = s.buffer := rfl
@[simp] theorem State.irqUnmask_fill (s : State) : s.irqUnmask.fill = s.fill := rfl
@[simp] theorem State.irqUnmask_offset (s : State) : s.irqUnmask.offset = s.offset := rfl
@[simp] theorem State.irqUnmask_status (s : State) : s.irqUnmask.status = s.status := rfl
@[simp] theorem State.irqUnmask_value (s : State) : s.irqUnmask.value = s.value := rfl
@[simp] theorem State.irqUnmask_proto (s : State) : s.irqUnmask.proto = s.proto := rfl
@[simp] theorem State.irqUnmask_acmd (s : State) : s.irqUnmask.acmd = s.acmd := rfl
@[simp] theorem State.irqUnmask_count (s : State) : s.irqUnmask.count = s.count := rfl
@[simp] theorem State.irqUnmask_phase (s : State) : s.irqUnmask.phase = s.phase := rfl
@[simp] theorem State.irqUnmask_expiry (s : State) : s.irqUnmask.expiry = s.expiry := rfl
@[simp] theorem State.irqUnmask_inp (s : State) : s.irqUnmask.inp = s.inp := rfl
@[simp] theorem State.irqUnmask_out (s : State) : s.irqUnmask.out = { s.out with pins := { s.pinsNow with irqOff := false } :: s.out.pins } := rfl
@[simp] theorem State.irqUnmask_cfg (s : State) : s.irqUnmask.cfg = s.cfg := rfl

/-! ## portOut -/

@[simp] theorem State.portOut_drive (b : Byte) (s : State) : (s.portOut b).drive = s.drive := rfl
@[simp] theorem State.portOut_ppOut (b : Byte) (s : State) : (s.portOut b).ppOut = b := rfl
@[simp] theorem State.portOut_ppOe (b : Byte) (s : State) : (s.portOut b).ppOe = true := rfl
@[simp] theorem State.portOut_eoi (b : Byte) (s : State) : (s.portOut b).eoi = s.eoi := rfl
@[simp] theorem State.portOut_busState (b : Byte) (s : State) : (s.portOut b).busState = s.busState := rfl
@[simp] theorem State.portOut_irqOff (b : Byte) (s : State) : (s.portOut b).irqOff = s.irqOff := rfl
@[simp] theorem State.portOut_now (b : Byte) (s : State) : (s.portOut b).now = s.nowAfter s.cfg.tSettle := rfl
@[simp] theorem State.portOut_wdtLast (b : Byte) (s : State) : (s.portOut b).wdtLast = s.wdtLast := rfl
@[simp] theorem State.portOut_evEntries (b : Byte) (s : State) : (s.portOut b).evEntries = s.evEntries := rfl
@[simp] theorem State.portOut_evHead (b : Byte) (s : State) : (s.portOut b).evHead = s.evHead := rfl
@[simp] theorem State.portOut_mode (b : Byte) (s : State) : (s.portOut b).mode = s.mode := rfl
@[simp] theorem State.portOut_buffer (b : Byte) (s : State) : (s.portOut b).buffer = s.buffer := rfl
@[simp] theorem State.portOut_fill (b : Byte) (s : State) : (s.portOut b).fill = s.fill := rfl
@[simp] theorem State.portOut_offset (b : Byte) (s : State) : (s.portOut b).offset = s.offset := rfl
@[simp] theorem State.portOut_status (b : Byte) (s : State) : (s.portOut b).status = s.status := rfl
@[simp] theorem State.portOut_value (b : Byte) (s : State) : (s.portOut b).value = s.value := rfl
@[simp] theorem State.portOut_proto (b : Byte) (s : State) : (s.portOut b).proto = s.proto := rfl
@[simp] theorem State.portOut_acmd (b : Byte) (s : State) : (s.portOut b).acmd = s.acmd := rfl
@[simp] theorem State.portOut_count (b : Byte) (s : State) : (s.portOut b).count = s.count := rfl
@[simp] theorem State.portOut_phase (b : Byte) (s : State) : (s.portOut b).phase = s.phase := rfl
@[simp] theorem State.portOut_inp (b : Byte) (s : State) : (s.portOut b).inp = s.inp.dropOver := rfl
@[simp] theorem State.portOut_out (b : Byte) (s : State) : (s.portOut b).out = { s.out with pins := { s.pinsNow with port := some b } :: s.out.pins } := rfl
@[simp] theorem State.portOut_cfg (b : Byte) (s : State) : (s.portOut b).cfg = s.cfg := rfl

/-! ## portOff -/

@[simp] theorem State.portOff_drive (s : State) : s.portOff.drive = s.drive := rfl
@[simp] theorem State.portOff_ppOut (s : State) : s.portOff.ppOut = s.ppOut := rfl
@[simp] theorem State.portOff_ppOe (s : State) : s.portOff.ppOe = false := rfl
@[simp] theorem State.portOff_eoi (s : State) : s.portOff.eoi = s.eoi := rfl
@[simp] theorem State.portOff_busState (s : State) : s.portOff.busState = s.busState := rfl
@[simp] theorem State.portOff_irqOff (s : State) : s.portOff.irqOff = s.irqOff := rfl
@[simp] theorem State.portOff_now (s : State) : s.portOff.now = s.now := rfl
@[simp] theorem State.portOff_wdtLast (s : State) : s.portOff.wdtLast = s.wdtLast := rfl
@[simp] theorem State.portOff_evEntries (s : State) : s.portOff.evEntries = s.evEntries := rfl
@[simp] theorem State.portOff_evHead (s : State) : s.portOff.evHead = s.evHead := rfl
@[simp] theorem State.portOff_mode (s : State) : s.portOff.mode = s.mode := rfl
@[simp] theorem State.portOff_buffer (s : State) : s.portOff.buffer = s.buffer := rfl
@[simp] theorem State.portOff_fill (s : State) : s.portOff.fill = s.fill := rfl
@[simp] theorem State.portOff_offset (s : State) : s.portOff.offset = s.offset := rfl
@[simp] theorem State.portOff_status (s : State) : s.portOff.status = s.status := rfl
@[simp] theorem State.portOff_value (s : State) : s.portOff.value = s.value := rfl
@[simp] theorem State.portOff_proto (s : State) : s.portOff.proto = s.proto := rfl
@[simp] theorem State.portOff_acmd (s : State) : s.portOff.acmd = s.acmd := rfl
@[simp] theorem State.portOff_count (s : State) : s.portOff.count = s.count := rfl
@[simp] theorem State.portOff_phase (s : State) : s.portOff.phase = s.phase := rfl
@[simp] theorem State.portOff_expiry (s : State) : s.portOff.expiry = s.expiry := rfl
@[simp] theorem State.portOff_inp (s : State) : s.portOff.inp = s.inp := rfl
@[simp] theorem State.portOff_out (s : State) : s.portOff.out = { s.out with pins := { s.pinsNow with port := none } :: s.out.pins } := rfl
@[simp] theorem State.portOff_cfg (s : State) : s.portOff.cfg = s.cfg := rfl

/-! ## portSampled -/

@[simp] theorem State.portSampled_drive (s : State) : s.portSampled.drive = s.drive := rfl
@[simp] theorem State.portSampled_ppOut (s : State) : s.portSampled.ppOut = s.ppOut := rfl
@[simp] theorem State.portSampled_ppOe (s : State) : s.portSampled.ppOe = s.ppOe := rfl
@[simp] theorem State.portSampled_eoi (s : State) : s.portSampled.eoi = s.eoi := rfl
@[simp] theorem State.portSampled_busState (s : State) : s.portSampled.busState = s.busState := rfl
@[simp] theorem State.portSampled_irqOff (s : State) : s.portSampled.irqOff = s.irqOff := rfl
@[simp] theorem State.portSampled_now (s : State) : s.portSampled.now = s.now := rfl
@[simp] theorem State.portSampled_wdtLast (s : State) : s.portSampled.wdtLast = s.wdtLast := rfl
@[simp] theorem State.portSampled_evEntries (s : State) : s.portSampled.evEntries = s.evEntries := rfl
@[simp] theorem State.portSampled_evHead (s : State) : s.portSampled.evHead = s.evHead := rfl
@[simp] theorem State.portSampled_mode (s : State) : s.portSampled.mode = s.mode := rfl
@[simp] theorem State.portSampled_buffer (s : State) : s.portSampled.buffer = s.buffer := rfl
@[simp] theorem State.portSampled_fill (s : State) : s.portSampled.fill = s.fill := rfl
@[simp] theorem State.portSampled_offset (s : State) : s.portSampled.offset = s.offset := rfl
@[simp] theorem State.portSampled_status (s : State) : s.portSampled.status = s.status := rfl
@[simp] theorem State.portSampled_value (s : State) : s.portSampled.value = s.value := rfl
@[simp] theorem State.portSampled_proto (s : State) : s.portSampled.proto = s.proto := rfl
@[simp] theorem State.portSampled_acmd (s : State) : s.portSampled.acmd = s.acmd := rfl
@[simp] theorem State.portSampled_count (s : State) : s.portSampled.count = s.count := rfl
@[simp] theorem State.portSampled_phase (s : State) : s.portSampled.phase = s.phase := rfl
@[simp] theorem State.portSampled_expiry (s : State) : s.portSampled.expiry = s.expiry := rfl
@[simp] theorem State.portSampled_inp (s : State) : s.portSampled.inp = s.inp.dropPort := rfl
@[simp] theorem State.portSampled_out (s : State) : s.portSampled.out = s.out := rfl
@[simp] theorem State.portSampled_cfg (s : State) : s.portSampled.cfg = s.cfg := rfl

/-! ## portToInput -/

@[simp] theorem State.portToInput_drive (s : State) : s.portToInput.drive = s.drive := rfl
@[simp] theorem State.portToInput_ppOut (s : State) : s.portToInput.ppOut = s.ppOut := rfl
@[simp] theorem State.portToInput_ppOe (s : State) : s.portToInput.ppOe = false := rfl
@[simp] theorem State.portToInput_eoi (s : State) : s.portToInput.eoi = s.eoi := rfl
@[simp] theorem State.portToInput_busState (s : State) : s.portToInput.busState = s.busState := rfl
@[simp] theorem State.portToInput_irqOff (s : State) : s.portToInput.irqOff = s.irqOff := rfl
@[simp] theorem State.portToInput_now (s : State) : s.portToInput.now = s.nowAfter s.cfg.tSettle := rfl
@[simp] theorem State.portToInput_wdtLast (s : State) : s.portToInput.wdtLast = s.wdtLast := rfl
@[simp] theorem State.portToInput_evEntries (s : State) : s.portToInput.evEntries = s.evEntries := rfl
@[simp] theorem State.portToInput_evHead (s : State) : s.portToInput.evHead = s.evHead := rfl
@[simp] theorem State.portToInput_mode (s : State) : s.portToInput.mode = s.mode := rfl
@[simp] theorem State.portToInput_buffer (s : State) : s.portToInput.buffer = s.buffer := rfl
@[simp] theorem State.portToInput_fill (s : State) : s.portToInput.fill = s.fill := rfl
@[simp] theorem State.portToInput_offset (s : State) : s.portToInput.offset = s.offset := rfl
@[simp] theorem State.portToInput_status (s : State) : s.portToInput.status = s.status := rfl
@[simp] theorem State.portToInput_value (s : State) : s.portToInput.value = s.value := rfl
@[simp] theorem State.portToInput_proto (s : State) : s.portToInput.proto = s.proto := rfl
@[simp] theorem State.portToInput_acmd (s : State) : s.portToInput.acmd = s.acmd := rfl
@[simp] theorem State.portToInput_count (s : State) : s.portToInput.count = s.count := rfl
@[simp] theorem State.portToInput_phase (s : State) : s.portToInput.phase = s.phase := rfl
@[simp] theorem State.portToInput_inp (s : State) : s.portToInput.inp = s.inp.dropOver := rfl
@[simp] theorem State.portToInput_out (s : State) : s.portToInput.out = { s.out with pins := { s.pinsNow with port := none } :: s.out.pins } := rfl
@[simp] theorem State.portToInput_cfg (s : State) : s.portToInput.cfg = s.cfg := rfl

/-! ## putBytes -/

@[simp] theorem State.putBytes_drive (a : Nat) (bs : List Byte) (s : State) : (s.putBytes a bs).drive = s.drive := rfl
@[simp] theorem State.putBytes_ppOut (a : Nat) (bs : List Byte) (s : State) : (s.putBytes a bs).ppOut = s.ppOut := rfl
@[simp] theorem State.putBytes_ppOe (a : Nat) (bs : List Byte) (s : State) : (s.putBytes a bs).ppOe = s.ppOe := rfl
@[simp] theorem State.putBytes_eoi (a : Nat) (bs : List Byte) (s : State) : (s.putBytes a bs).eoi = s.eoi := rfl
@[simp] theorem State.putBytes_busState (a : Nat) (bs : List Byte) (s : State) : (s.putBytes a bs).busState = s.busState := rfl
@[simp] theorem State.putBytes_irqOff (a : Nat) (bs : List Byte) (s : State) : (s.putBytes a bs).irqOff = s.irqOff := rfl
@[simp] theorem State.putBytes_now (a : Nat) (bs : List Byte) (s : State) : (s.putBytes a bs).now = s.now := rfl
@[simp] theorem State.putBytes_wdtLast (a : Nat) (bs : List Byte) (s : State) : (s.putBytes a bs).wdtLast = s.wdtLast := rfl
@[simp] theorem State.putBytes_evEntries (a : Nat) (bs : List Byte) (s : State) : (s.putBytes a bs).evEntries = s.evEntries := rfl
@[simp] theorem State.putBytes_evHead (a : Nat) (bs : List Byte) (s : State) : (s.putBytes a bs).evHead = s.evHead := rfl
@[simp] theorem State.putBytes_mode (a : Nat) (bs : List Byte) (s : State) : (s.putBytes a bs).mode = s.mode := rfl
@[simp] theorem State.putBytes_buffer (a : Nat) (bs : List Byte) (s : State) : (s.putBytes a bs).buffer = s.buffer.setMany a bs := rfl
@[simp] theorem State.putBytes_fill (a : Nat) (bs : List Byte) (s : State) : (s.putBytes a bs).fill = s.fill := rfl
@[simp] theorem State.putBytes_offset (a : Nat) (bs : List Byte) (s : State) : (s.putBytes a bs).offset = s.offset := rfl
@[simp] theorem State.putBytes_status (a : Nat) (bs : List Byte) (s : State) : (s.putBytes a bs).status = s.status := rfl
@[simp] theorem State.putBytes_value (a : Nat) (bs : List Byte) (s : State) : (s.putBytes a bs).value = s.value := rfl
@[simp] theorem State.putBytes_proto (a : Nat) (bs : List Byte) (s : State) : (s.putBytes a bs).proto = s.proto := rfl
@[simp] theorem State.putBytes_acmd (a : Nat) (bs : List Byte) (s : State) : (s.putBytes a bs).acmd = s.acmd := rfl
@[simp] theorem State.putBytes_count (a : Nat) (bs : List Byte) (s : State) : (s.putBytes a bs).count = s.count := rfl
@[simp] theorem State.putBytes_phase (a : Nat) (bs : List Byte) (s : State) : (s.putBytes a bs).phase = s.phase := rfl
@[simp] theorem State.putBytes_expiry (a : Nat) (bs : List Byte) (s : State) : (s.putBytes a bs).expiry = s.expiry := rfl
@[simp] theorem State.putBytes_inp (a : Nat) (bs : List Byte) (s : State) : (s.putBytes a bs).inp = s.inp := rfl
@[simp] theorem State.putBytes_out (a : Nat) (bs : List Byte) (s : State) : (s.putBytes a bs).out = s.out := rfl
@[simp] theorem State.putBytes_cfg (a : Nat) (bs : List Byte) (s : State) : (s.putBytes a bs).cfg = s.cfg := rfl

/-! ## setEoi -/

@[simp] theorem State.setEoi_drive (s : State) : s.setEoi.drive = s.drive := rfl
@[simp] theorem State.setEoi_ppOut (s : State) : s.setEoi.ppOut = s.ppOut := rfl
@[simp] theorem State.setEoi_ppOe (s : State) : s.setEoi.ppOe = s.ppOe := rfl
@[simp] theorem State.setEoi_eoi (s : State) : s.setEoi.eoi = true := rfl
@[simp] theorem State.setEoi_busState (s : State) : s.setEoi.busState = s.busState := rfl
@[simp] theorem State.setEoi_irqOff (s : State) : s.setEoi.irqOff = s.irqOff := rfl
@[simp] theorem State.setEoi_now (s : State) : s.setEoi.now = s.now := rfl
@[simp] theorem State.setEoi_wdtLast (s : State) : s.setEoi.wdtLast = s.wdtLast := rfl
@[simp] theorem State.setEoi_evEntries (s : State) : s.setEoi.evEntries = s.evEntries := rfl
@[simp] theorem State.setEoi_evHead (s : State) : s.setEoi.evHead = s.evHead := rfl
@[simp] theorem State.setEoi_mode (s : State) : s.setEoi.mode = s.mode := rfl
@[simp] theorem State.setEoi_buffer (s : State) : s.setEoi.buffer = s.buffer := rfl
@[simp] theorem State.setEoi_fill (s : State) : s.setEoi.fill = s.fill := rfl
@[simp] theorem State.setEoi_offset (s : State) : s.setEoi.offset = s.offset := rfl
@[simp] theorem State.setEoi_status (s : State) : s.setEoi.status = s.status := rfl
@[simp] theorem State.setEoi_value (s : State) : s.setEoi.value = s.value := rfl
@[simp] theorem State.setEoi_proto (s : State) : s.setEoi.proto = s.proto := rfl
@[simp] theorem State.setEoi_acmd (s : State) : s.setEoi.acmd = s.acmd := rfl
@[simp] theorem State.setEoi_count (s : State) : s.setEoi.count = s.count := rfl
@[simp] theorem State.setEoi_phase (s : State) : s.setEoi.phase = s.phase := rfl
@[simp] theorem State.setEoi_expiry (s : State) : s.setEoi.expiry = s.expiry := rfl
@[simp] theorem State.setEoi_inp (s : State) : s.setEoi.inp = s.inp := rfl
@[simp] theorem State.setEoi_out (s : State) : s.setEoi.out = s.out := rfl
@[simp] theorem State.setEoi_cfg (s : State) : s.setEoi.cfg = s.cfg := rfl

/-! ## clearEoi -/

@[simp] theorem State.clearEoi_drive (s : State) : s.clearEoi.drive = s.drive := rfl
@[simp] theorem State.clearEoi_ppOut (s : State) : s.clearEoi.ppOut = s.ppOut := rfl
@[simp] theorem State.clearEoi_ppOe (s : State) : s.clearEoi.ppOe = s.ppOe := rfl
@[simp] theorem State.clearEoi_eoi (s : State) : s.clearEoi.eoi = false := rfl
@[simp] theorem State.clearEoi_busState (s : State) : s.clearEoi.busState = s.busState := rfl
@[simp] theorem State.clearEoi_irqOff (s : State) : s.clearEoi.irqOff = s.irqOff := rfl
@[simp] theorem State.clearEoi_now (s : State) : s.clearEoi.now = s.now := rfl
@[simp] theorem State.clearEoi_wdtLast (s : State) : s.clearEoi.wdtLast = s.wdtLast := rfl
@[simp] theorem State.clearEoi_evEntries (s : State) : s.clearEoi.evEntries = s.evEntries := rfl
@[simp] theorem State.clearEoi_evHead (s : State) : s.clearEoi.evHead = s.evHead := rfl
@[simp] theorem State.clearEoi_mode (s : State) : s.clearEoi.mode = s.mode := rfl
@[simp] theorem State.clearEoi_buffer (s : State) : s.clearEoi.buffer = s.buffer := rfl
@[simp] theorem State.clearEoi_fill (s : State) : s.clearEoi.fill = s.fill := rfl
@[simp] theorem State.clearEoi_offset (s : State) : s.clearEoi.offset = s.offset := rfl
@[simp] theorem State.clearEoi_status (s : State) : s.clearEoi.status = s.status := rfl
@[simp] theorem State.clearEoi_value (s : State) : s.clearEoi.value = s.value := rfl
@[simp] theorem State.clearEoi_proto (s : State) : s.clearEoi.proto = s.proto := rfl
@[simp] theorem State.clearEoi_acmd (s : State) : s.clearEoi.acmd = s.acmd := rfl
@[simp] theorem State.clearEoi_count (s : State) : s.clearEoi.count = s.count := rfl
@[simp] theorem State.clearEoi_phase (s : State) : s.clearEoi.phase = s.phase := rfl
@[simp] theorem State.clearEoi_expiry (s : State) : s.clearEoi.expiry = s.expiry := rfl
@[simp] theorem State.clearEoi_inp (s : State) : s.clearEoi.inp = s.inp := rfl
@[simp] theorem State.clearEoi_out (s : State) : s.clearEoi.out = s.out := rfl
@[simp] theorem State.clearEoi_cfg (s : State) : s.clearEoi.cfg = s.cfg := rfl

/-! ## beginTransfer -/

@[simp] theorem State.beginTransfer_drive (m : IoMode) (n : Byte) (p : Proto) (s : State) : (s.beginTransfer m n p).drive = s.drive := rfl
@[simp] theorem State.beginTransfer_ppOut (m : IoMode) (n : Byte) (p : Proto) (s : State) : (s.beginTransfer m n p).ppOut = s.ppOut := rfl
@[simp] theorem State.beginTransfer_ppOe (m : IoMode) (n : Byte) (p : Proto) (s : State) : (s.beginTransfer m n p).ppOe = s.ppOe := rfl
@[simp] theorem State.beginTransfer_eoi (m : IoMode) (n : Byte) (p : Proto) (s : State) : (s.beginTransfer m n p).eoi = s.eoi := rfl
@[simp] theorem State.beginTransfer_busState (m : IoMode) (n : Byte) (p : Proto) (s : State) : (s.beginTransfer m n p).busState = s.busState := rfl
@[simp] theorem State.beginTransfer_irqOff (m : IoMode) (n : Byte) (p : Proto) (s : State) : (s.beginTransfer m n p).irqOff = s.irqOff := rfl
@[simp] theorem State.beginTransfer_now (m : IoMode) (n : Byte) (p : Proto) (s : State) : (s.beginTransfer m n p).now = s.now := rfl
@[simp] theorem State.beginTransfer_wdtLast (m : IoMode) (n : Byte) (p : Proto) (s : State) : (s.beginTransfer m n p).wdtLast = s.wdtLast := rfl
@[simp] theorem State.beginTransfer_evEntries (m : IoMode) (n : Byte) (p : Proto) (s : State) : (s.beginTransfer m n p).evEntries = s.evEntries := rfl
@[simp] theorem State.beginTransfer_evHead (m : IoMode) (n : Byte) (p : Proto) (s : State) : (s.beginTransfer m n p).evHead = s.evHead := rfl
@[simp] theorem State.beginTransfer_mode (m : IoMode) (n : Byte) (p : Proto) (s : State) : (s.beginTransfer m n p).mode = m := rfl
@[simp] theorem State.beginTransfer_buffer (m : IoMode) (n : Byte) (p : Proto) (s : State) : (s.beginTransfer m n p).buffer = s.buffer := rfl
@[simp] theorem State.beginTransfer_fill (m : IoMode) (n : Byte) (p : Proto) (s : State) : (s.beginTransfer m n p).fill = n := rfl
@[simp] theorem State.beginTransfer_offset (m : IoMode) (n : Byte) (p : Proto) (s : State) : (s.beginTransfer m n p).offset = 0 := rfl
@[simp] theorem State.beginTransfer_status (m : IoMode) (n : Byte) (p : Proto) (s : State) : (s.beginTransfer m n p).status = 0 := rfl
@[simp] theorem State.beginTransfer_value (m : IoMode) (n : Byte) (p : Proto) (s : State) : (s.beginTransfer m n p).value = 0 := rfl
@[simp] theorem State.beginTransfer_proto (m : IoMode) (n : Byte) (p : Proto) (s : State) : (s.beginTransfer m n p).proto = p := rfl
@[simp] theorem State.beginTransfer_acmd (m : IoMode) (n : Byte) (p : Proto) (s : State) : (s.beginTransfer m n p).acmd = s.acmd := rfl
@[simp] theorem State.beginTransfer_count (m : IoMode) (n : Byte) (p : Proto) (s : State) : (s.beginTransfer m n p).count = s.count := rfl
@[simp] theorem State.beginTransfer_phase (m : IoMode) (n : Byte) (p : Proto) (s : State) : (s.beginTransfer m n p).phase = s.phase := rfl
@[simp] theorem State.beginTransfer_expiry (m : IoMode) (n : Byte) (p : Proto) (s : State) : (s.beginTransfer m n p).expiry = s.expiry := rfl
@[simp] theorem State.beginTransfer_inp (m : IoMode) (n : Byte) (p : Proto) (s : State) : (s.beginTransfer m n p).inp = s.inp := rfl
@[simp] theorem State.beginTransfer_out (m : IoMode) (n : Byte) (p : Proto) (s : State) : (s.beginTransfer m n p).out = s.out := rfl
@[simp] theorem State.beginTransfer_cfg (m : IoMode) (n : Byte) (p : Proto) (s : State) : (s.beginTransfer m n p).cfg = s.cfg := rfl

/-! ## beginAsync -/

@[simp] theorem State.beginAsync_drive (c : Byte) (n : Byte) (s : State) : (s.beginAsync c n).drive = s.drive := rfl
@[simp] theorem State.beginAsync_ppOut (c : Byte) (n : Byte) (s : State) : (s.beginAsync c n).ppOut = s.ppOut := rfl
@[simp] theorem State.beginAsync_ppOe (c : Byte) (n : Byte) (s : State) : (s.beginAsync c n).ppOe = s.ppOe := rfl
@[simp] theorem State.beginAsync_eoi (c : Byte) (n : Byte) (s : State) : (s.beginAsync c n).eoi = s.eoi := rfl
@[simp] theorem State.beginAsync_busState (c : Byte) (n : Byte) (s : State) : (s.beginAsync c n).busState = s.busState := rfl
@[simp] theorem State.beginAsync_irqOff (c : Byte) (n : Byte) (s : State) : (s.beginAsync c n).irqOff = s.irqOff := rfl
@[simp] theorem State.beginAsync_now (c : Byte) (n : Byte) (s : State) : (s.beginAsync c n).now = s.now := rfl
@[simp] theorem State.beginAsync_wdtLast (c : Byte) (n : Byte) (s : State) : (s.beginAsync c n).wdtLast = s.wdtLast := rfl
@[simp] theorem State.beginAsync_evEntries (c : Byte) (n : Byte) (s : State) : (s.beginAsync c n).evEntries = s.evEntries := rfl
@[simp] theorem State.beginAsync_evHead (c : Byte) (n : Byte) (s : State) : (s.beginAsync c n).evHead = s.evHead := rfl
@[simp] theorem State.beginAsync_mode (c : Byte) (n : Byte) (s : State) : (s.beginAsync c n).mode = .async := rfl
@[simp] theorem State.beginAsync_buffer (c : Byte) (n : Byte) (s : State) : (s.beginAsync c n).buffer = s.buffer := rfl
@[simp] theorem State.beginAsync_fill (c : Byte) (n : Byte) (s : State) : (s.beginAsync c n).fill = n := rfl
@[simp] theorem State.beginAsync_offset (c : Byte) (n : Byte) (s : State) : (s.beginAsync c n).offset = 0 := rfl
@[simp] theorem State.beginAsync_status (c : Byte) (n : Byte) (s : State) : (s.beginAsync c n).status = 0 := rfl
@[simp] theorem State.beginAsync_value (c : Byte) (n : Byte) (s : State) : (s.beginAsync c n).value = 0 := rfl
@[simp] theorem State.beginAsync_proto (c : Byte) (n : Byte) (s : State) : (s.beginAsync c n).proto = s.proto := rfl
@[simp] theorem State.beginAsync_acmd (c : Byte) (n : Byte) (s : State) : (s.beginAsync c n).acmd = c := rfl
@[simp] theorem State.beginAsync_count (c : Byte) (n : Byte) (s : State) : (s.beginAsync c n).count = s.count := rfl
@[simp] theorem State.beginAsync_phase (c : Byte) (n : Byte) (s : State) : (s.beginAsync c n).phase = s.phase := rfl
@[simp] theorem State.beginAsync_expiry (c : Byte) (n : Byte) (s : State) : (s.beginAsync c n).expiry = s.expiry := rfl
@[simp] theorem State.beginAsync_inp (c : Byte) (n : Byte) (s : State) : (s.beginAsync c n).inp = s.inp := rfl
@[simp] theorem State.beginAsync_out (c : Byte) (n : Byte) (s : State) : (s.beginAsync c n).out = s.out := rfl
@[simp] theorem State.beginAsync_cfg (c : Byte) (n : Byte) (s : State) : (s.beginAsync c n).cfg = s.cfg := rfl

/-! ## finishRequest -/

@[simp] theorem State.finishRequest_drive (m : IoMode) (f : Byte) (st : Status) (n : Byte) (s : State) : (s.finishRequest m f st n).drive = s.drive := rfl
@[simp] theorem State.finishRequest_ppOut (m : IoMode) (f : Byte) (st : Status) (n : Byte) (s : State) : (s.finishRequest m f st n).ppOut = s.ppOut := rfl
@[simp] theorem State.finishRequest_ppOe (m : IoMode) (f : Byte) (st : Status) (n : Byte) (s : State) : (s.finishRequest m f st n).ppOe = s.ppOe := rfl
@[simp] theorem State.finishRequest_eoi (m : IoMode) (f : Byte) (st : Status) (n : Byte) (s : State) : (s.finishRequest m f st n).eoi = s.eoi := rfl
@[simp] theorem State.finishRequest_busState (m : IoMode) (f : Byte) (st : Status) (n : Byte) (s : State) : (s.finishRequest m f st n).busState = s.busState := rfl
@[simp] theorem State.finishRequest_irqOff (m : IoMode) (f : Byte) (st : Status) (n : Byte) (s : State) : (s.finishRequest m f st n).irqOff = s.irqOff := rfl
@[simp] theorem State.finishRequest_now (m : IoMode) (f : Byte) (st : Status) (n : Byte) (s : State) : (s.finishRequest m f st n).now = s.now := rfl
@[simp] theorem State.finishRequest_wdtLast (m : IoMode) (f : Byte) (st : Status) (n : Byte) (s : State) : (s.finishRequest m f st n).wdtLast = s.wdtLast := rfl
@[simp] theorem State.finishRequest_evEntries (m : IoMode) (f : Byte) (st : Status) (n : Byte) (s : State) : (s.finishRequest m f st n).evEntries = s.evEntries := rfl
@[simp] theorem State.finishRequest_evHead (m : IoMode) (f : Byte) (st : Status) (n : Byte) (s : State) : (s.finishRequest m f st n).evHead = s.evHead := rfl
@[simp] theorem State.finishRequest_mode (m : IoMode) (f : Byte) (st : Status) (n : Byte) (s : State) : (s.finishRequest m f st n).mode = m := rfl
@[simp] theorem State.finishRequest_buffer (m : IoMode) (f : Byte) (st : Status) (n : Byte) (s : State) : (s.finishRequest m f st n).buffer = s.buffer := rfl
@[simp] theorem State.finishRequest_fill (m : IoMode) (f : Byte) (st : Status) (n : Byte) (s : State) : (s.finishRequest m f st n).fill = f := rfl
@[simp] theorem State.finishRequest_offset (m : IoMode) (f : Byte) (st : Status) (n : Byte) (s : State) : (s.finishRequest m f st n).offset = 0 := rfl
@[simp] theorem State.finishRequest_status (m : IoMode) (f : Byte) (st : Status) (n : Byte) (s : State) : (s.finishRequest m f st n).status = st.code := rfl
@[simp] theorem State.finishRequest_value (m : IoMode) (f : Byte) (st : Status) (n : Byte) (s : State) : (s.finishRequest m f st n).value = n := rfl
@[simp] theorem State.finishRequest_proto (m : IoMode) (f : Byte) (st : Status) (n : Byte) (s : State) : (s.finishRequest m f st n).proto = s.proto := rfl
@[simp] theorem State.finishRequest_acmd (m : IoMode) (f : Byte) (st : Status) (n : Byte) (s : State) : (s.finishRequest m f st n).acmd = s.acmd := rfl
@[simp] theorem State.finishRequest_count (m : IoMode) (f : Byte) (st : Status) (n : Byte) (s : State) : (s.finishRequest m f st n).count = 0 := rfl
@[simp] theorem State.finishRequest_phase (m : IoMode) (f : Byte) (st : Status) (n : Byte) (s : State) : (s.finishRequest m f st n).phase = s.phase := rfl
@[simp] theorem State.finishRequest_expiry (m : IoMode) (f : Byte) (st : Status) (n : Byte) (s : State) : (s.finishRequest m f st n).expiry = s.expiry := rfl
@[simp] theorem State.finishRequest_inp (m : IoMode) (f : Byte) (st : Status) (n : Byte) (s : State) : (s.finishRequest m f st n).inp = s.inp := rfl
@[simp] theorem State.finishRequest_out (m : IoMode) (f : Byte) (st : Status) (n : Byte) (s : State) : (s.finishRequest m f st n).out = s.out := rfl
@[simp] theorem State.finishRequest_cfg (m : IoMode) (f : Byte) (st : Status) (n : Byte) (s : State) : (s.finishRequest m f st n).cfg = s.cfg := rfl

/-! ## advance -/

@[simp] theorem State.advance_drive (k : Nat) (m : IoMode) (s : State) : (s.advance k m).drive = s.drive := rfl
@[simp] theorem State.advance_ppOut (k : Nat) (m : IoMode) (s : State) : (s.advance k m).ppOut = s.ppOut := rfl
@[simp] theorem State.advance_ppOe (k : Nat) (m : IoMode) (s : State) : (s.advance k m).ppOe = s.ppOe := rfl
@[simp] theorem State.advance_eoi (k : Nat) (m : IoMode) (s : State) : (s.advance k m).eoi = s.eoi := rfl
@[simp] theorem State.advance_busState (k : Nat) (m : IoMode) (s : State) : (s.advance k m).busState = s.busState := rfl
@[simp] theorem State.advance_irqOff (k : Nat) (m : IoMode) (s : State) : (s.advance k m).irqOff = s.irqOff := rfl
@[simp] theorem State.advance_now (k : Nat) (m : IoMode) (s : State) : (s.advance k m).now = s.now := rfl
@[simp] theorem State.advance_wdtLast (k : Nat) (m : IoMode) (s : State) : (s.advance k m).wdtLast = s.wdtLast := rfl
@[simp] theorem State.advance_evEntries (k : Nat) (m : IoMode) (s : State) : (s.advance k m).evEntries = s.evEntries := rfl
@[simp] theorem State.advance_evHead (k : Nat) (m : IoMode) (s : State) : (s.advance k m).evHead = s.evHead := rfl
@[simp] theorem State.advance_mode (k : Nat) (m : IoMode) (s : State) : (s.advance k m).mode = if s.offset + byteOfCount k = s.fill then m else s.mode := rfl
@[simp] theorem State.advance_buffer (k : Nat) (m : IoMode) (s : State) : (s.advance k m).buffer = s.buffer := rfl
@[simp] theorem State.advance_fill (k : Nat) (m : IoMode) (s : State) : (s.advance k m).fill = s.fill := rfl
@[simp] theorem State.advance_offset (k : Nat) (m : IoMode) (s : State) : (s.advance k m).offset = s.offset + byteOfCount k := rfl
@[simp] theorem State.advance_status (k : Nat) (m : IoMode) (s : State) : (s.advance k m).status = s.status := rfl
@[simp] theorem State.advance_value (k : Nat) (m : IoMode) (s : State) : (s.advance k m).value = s.value := rfl
@[simp] theorem State.advance_proto (k : Nat) (m : IoMode) (s : State) : (s.advance k m).proto = s.proto := rfl
@[simp] theorem State.advance_acmd (k : Nat) (m : IoMode) (s : State) : (s.advance k m).acmd = s.acmd := rfl
@[simp] theorem State.advance_count (k : Nat) (m : IoMode) (s : State) : (s.advance k m).count = s.count := rfl
@[simp] theorem State.advance_phase (k : Nat) (m : IoMode) (s : State) : (s.advance k m).phase = s.phase := rfl
@[simp] theorem State.advance_expiry (k : Nat) (m : IoMode) (s : State) : (s.advance k m).expiry = s.expiry := rfl
@[simp] theorem State.advance_inp (k : Nat) (m : IoMode) (s : State) : (s.advance k m).inp = s.inp := rfl
@[simp] theorem State.advance_out (k : Nat) (m : IoMode) (s : State) : (s.advance k m).out = s.out := rfl
@[simp] theorem State.advance_cfg (k : Nat) (m : IoMode) (s : State) : (s.advance k m).cfg = s.cfg := rfl

/-! ## beginTurn -/

@[simp] theorem State.beginTurn_drive (s : State) : s.beginTurn.drive = s.drive := rfl
@[simp] theorem State.beginTurn_ppOut (s : State) : s.beginTurn.ppOut = s.ppOut := rfl
@[simp] theorem State.beginTurn_ppOe (s : State) : s.beginTurn.ppOe = s.ppOe := rfl
@[simp] theorem State.beginTurn_eoi (s : State) : s.beginTurn.eoi = s.eoi := rfl
@[simp] theorem State.beginTurn_busState (s : State) : s.beginTurn.busState = s.busState := rfl
@[simp] theorem State.beginTurn_irqOff (s : State) : s.beginTurn.irqOff = s.irqOff := rfl
@[simp] theorem State.beginTurn_now (s : State) : s.beginTurn.now = s.now := rfl
@[simp] theorem State.beginTurn_wdtLast (s : State) : s.beginTurn.wdtLast = s.now := rfl
@[simp] theorem State.beginTurn_evEntries (s : State) : s.beginTurn.evEntries = s.evEntries := rfl
@[simp] theorem State.beginTurn_evHead (s : State) : s.beginTurn.evHead = s.evHead := rfl
@[simp] theorem State.beginTurn_mode (s : State) : s.beginTurn.mode = s.mode := rfl
@[simp] theorem State.beginTurn_buffer (s : State) : s.beginTurn.buffer = s.buffer := rfl
@[simp] theorem State.beginTurn_fill (s : State) : s.beginTurn.fill = s.fill := rfl
@[simp] theorem State.beginTurn_offset (s : State) : s.beginTurn.offset = s.offset := rfl
@[simp] theorem State.beginTurn_status (s : State) : s.beginTurn.status = s.status := rfl
@[simp] theorem State.beginTurn_value (s : State) : s.beginTurn.value = s.value := rfl
@[simp] theorem State.beginTurn_proto (s : State) : s.beginTurn.proto = s.proto := rfl
@[simp] theorem State.beginTurn_acmd (s : State) : s.beginTurn.acmd = s.acmd := rfl
@[simp] theorem State.beginTurn_count (s : State) : s.beginTurn.count = s.count := rfl
@[simp] theorem State.beginTurn_phase (s : State) : s.beginTurn.phase = .handler := rfl
@[simp] theorem State.beginTurn_expiry (s : State) : s.beginTurn.expiry = s.expiry := rfl
@[simp] theorem State.beginTurn_inp (s : State) : s.beginTurn.inp = { s.inp with host := s.inp.host.tail } := rfl
@[simp] theorem State.beginTurn_out (s : State) : s.beginTurn.out = { s.out with wdtKicks := s.out.wdtKicks + 1 } := rfl
@[simp] theorem State.beginTurn_cfg (s : State) : s.beginTurn.cfg = s.cfg := rfl

/-! ## endTurn -/

@[simp] theorem State.endTurn_drive (s : State) : s.endTurn.drive = s.drive := rfl
@[simp] theorem State.endTurn_ppOut (s : State) : s.endTurn.ppOut = s.ppOut := rfl
@[simp] theorem State.endTurn_ppOe (s : State) : s.endTurn.ppOe = s.ppOe := rfl
@[simp] theorem State.endTurn_eoi (s : State) : s.endTurn.eoi = s.eoi := rfl
@[simp] theorem State.endTurn_busState (s : State) : s.endTurn.busState = s.busState := rfl
@[simp] theorem State.endTurn_irqOff (s : State) : s.endTurn.irqOff = s.irqOff := rfl
@[simp] theorem State.endTurn_now (s : State) : s.endTurn.now = s.now := rfl
@[simp] theorem State.endTurn_wdtLast (s : State) : s.endTurn.wdtLast = s.wdtLast := rfl
@[simp] theorem State.endTurn_evEntries (s : State) : s.endTurn.evEntries = s.evEntries := rfl
@[simp] theorem State.endTurn_evHead (s : State) : s.endTurn.evHead = s.evHead := rfl
@[simp] theorem State.endTurn_mode (s : State) : s.endTurn.mode = s.mode := rfl
@[simp] theorem State.endTurn_buffer (s : State) : s.endTurn.buffer = s.buffer := rfl
@[simp] theorem State.endTurn_fill (s : State) : s.endTurn.fill = s.fill := rfl
@[simp] theorem State.endTurn_offset (s : State) : s.endTurn.offset = s.offset := rfl
@[simp] theorem State.endTurn_status (s : State) : s.endTurn.status = s.status := rfl
@[simp] theorem State.endTurn_value (s : State) : s.endTurn.value = s.value := rfl
@[simp] theorem State.endTurn_proto (s : State) : s.endTurn.proto = s.proto := rfl
@[simp] theorem State.endTurn_acmd (s : State) : s.endTurn.acmd = s.acmd := rfl
@[simp] theorem State.endTurn_count (s : State) : s.endTurn.count = s.count := rfl
@[simp] theorem State.endTurn_phase (s : State) : s.endTurn.phase = .takeEvent := rfl
@[simp] theorem State.endTurn_expiry (s : State) : s.endTurn.expiry = s.expiry := rfl
@[simp] theorem State.endTurn_inp (s : State) : s.endTurn.inp = s.inp := rfl
@[simp] theorem State.endTurn_out (s : State) : s.endTurn.out = s.out := rfl
@[simp] theorem State.endTurn_cfg (s : State) : s.endTurn.cfg = s.cfg := rfl

end Sys2Proof.Machine
end

