-- ==== Sys2Proof/Laws/Engine.lean ====
section
/-! SUPPORT. What every line primitive and every engine operation leaves alone, said once: `Frame s t`, its lemmas for
the primitives, and `Framed op` for the operations built from them. -/

namespace Sys2Proof.Machine

/-- What any piece of an engine operation that leads from `s` to `t` keeps: the request's registers, the
configuration, the host's queue, the responses; a noted watchdog expiry stays, and under R320's premise none is noted;
time and the watchdog's reading do not run backwards; the log and the buffer keep their form, and a byte that held a
value still holds one. -/
structure Frame (s t : State) : Prop where
  mode : t.mode = s.mode
  fill : t.fill = s.fill
  offset : t.offset = s.offset
  status : t.status = s.status
  value : t.value = s.value
  proto : t.proto = s.proto
  acmd : t.acmd = s.acmd
  phase : t.phase = s.phase
  cfg : t.cfg = s.cfg
  host : t.inp.host = s.inp.host
  responses : t.out.responses = s.out.responses
  extCmds : t.out.extCmds = s.out.extCmds
  expiry : ∀ e, s.expiry = some e → t.expiry = some e
  noExpiry : wdtPremise s.cfg = true → t.expiry = s.expiry
  now : s.now ≤ t.now
  wdtLast : s.wdtLast ≤ s.now → t.wdtLast ≤ t.now
  log : Safety.logOk s → Safety.logOk t
  bufferWf : s.buffer.wf s.cfg.bufSize = true → t.buffer.wf t.cfg.bufSize = true
  written : ∀ a, (s.buffer.get? a).isSome = true → (t.buffer.get? a).isSome = true

/-- R320's premise as the operations test it and as the statements say it. -/
theorem wdtPremise_iff (c : Config) : wdtPremise c = true ↔ Safety.watchdogPremise c := by
  simp only [wdtPremise, Safety.watchdogPremise, decide_eq_true_eq]; omega

theorem Frame.refl (s : State) : Frame s s := by
  constructor <;> intros <;> first | rfl | assumption

theorem Frame.trans {s t u : State} (h : Frame s t) (k : Frame t u) : Frame s u where
  mode := k.mode.trans h.mode
  fill := k.fill.trans h.fill
  offset := k.offset.trans h.offset
  status := k.status.trans h.status
  value := k.value.trans h.value
  proto := k.proto.trans h.proto
  acmd := k.acmd.trans h.acmd
  phase := k.phase.trans h.phase
  cfg := k.cfg.trans h.cfg
  host := k.host.trans h.host
  responses := k.responses.trans h.responses
  extCmds := k.extCmds.trans h.extCmds
  expiry := fun e he => k.expiry e (h.expiry e he)
  noExpiry := fun hp => (k.noExpiry (h.cfg ▸ hp)).trans (h.noExpiry hp)
  now := Nat.le_trans h.now k.now
  wdtLast := fun hw => k.wdtLast (h.wdtLast hw)
  log := fun hl => k.log (h.log hl)
  bufferWf := fun hb => k.bufferWf (h.bufferWf hb)
  written := fun a ha => k.written a (h.written a ha)

/-! ## The inputs -/

@[simp] theorem Inputs.dropLines_host (i : Inputs) : i.dropLines.host = i.host := by
  unfold Inputs.dropLines; split <;> rfl

@[simp] theorem Inputs.dropPort_host (i : Inputs) : i.dropPort.host = i.host := by
  unfold Inputs.dropPort; split <;> rfl

@[simp] theorem Inputs.dropOver_host (i : Inputs) : i.dropOver.host = i.host := by
  unfold Inputs.dropOver; split <;> rfl

/-- A line sample consumes nothing but the line script. -/
theorem Inputs.dropLines_eq (i : Inputs) :
    i.dropLines = { i with lines := i.dropLines.lines, linesDrawn := i.dropLines.linesDrawn } := by
  unfold Inputs.dropLines; split <;> rfl

/-- A port sample consumes nothing but the port script. -/
theorem Inputs.dropPort_eq (i : Inputs) :
    i.dropPort = { i with port := i.dropPort.port, portDrawn := i.dropPort.portDrawn } := by
  unfold Inputs.dropPort; split <;> rfl

/-- A delay consumes nothing but the overshoot script. -/
theorem Inputs.dropOver_eq (i : Inputs) :
    i.dropOver = { i with overs := i.dropOver.overs, oversDrawn := i.dropOver.oversDrawn } := by
  unfold Inputs.dropOver; split <;> rfl

/-! ## The primitives -/

theorem Frame.show (s : State) : Frame s s.show := by
  constructor <;> intros <;> first | rfl | assumption

theorem Frame.kick (s : State) : Frame s s.kick := by
  constructor <;> intros <;> first | rfl | assumption

theorem Frame.delay (t : Nat) (s : State) : Frame s (s.delay t) where
  mode := rfl
  fill := rfl
  offset := rfl
  status := rfl
  value := rfl
  proto := rfl
  acmd := rfl
  phase := rfl
  cfg := rfl
  host := Inputs.dropOver_host _
  responses := rfl
  extCmds := rfl
  expiry := fun e he => by simp only [State.delay, he]
  noExpiry := fun hp => by cases he : s.expiry <;> simp [State.delay, State.wdtExpired, hp, he]
  now := by simp only [State.delay, State.nowAfter]; omega
  wdtLast := fun h => by simp only [State.delay, State.nowAfter]; omega
  log := fun h => h
  bufferWf := fun h => h
  written := fun _ h => h

theorem Frame.assertLines (m : LineMask) (s : State) : Frame s (s.assertLines m) :=
  Frame.trans (t := { s with drive := s.drive ||| m })
    (by constructor <;> intros <;> first | rfl | assumption)
    ((Frame.show _).trans (Frame.delay _ _))

theorem Frame.releaseLines (m : LineMask) (s : State) : Frame s (s.releaseLines m) :=
  Frame.trans (t := { s with drive := s.drive &&& ~~~m })
    (by constructor <;> intros <;> first | rfl | assumption)
    ((Frame.show _).trans (Frame.delay _ _))

theorem Frame.setRelease (a r : LineMask) (s : State) : Frame s (s.setRelease a r) :=
  Frame.trans (t := { s with drive := (s.drive ||| a) &&& ~~~r })
    (by constructor <;> intros <;> first | rfl | assumption)
    ((Frame.show _).trans (Frame.delay _ _))

theorem Frame.sampled (s : State) : Frame s s.sampled := by
  constructor <;> intros <;> first | rfl | assumption | exact Inputs.dropLines_host _

theorem Frame.irqMask (s : State) : Frame s s.irqMask := by
  constructor <;> intros <;> first | rfl | assumption

theorem Frame.irqUnmask (s : State) : Frame s s.irqUnmask := by
  constructor <;> intros <;> first | rfl | assumption

theorem Frame.portOut (b : Byte) (s : State) : Frame s (s.portOut b) :=
  Frame.trans (t := { s with ppOut := b, ppOe := true })
    (by constructor <;> intros <;> first | rfl | assumption)
    ((Frame.show _).trans (Frame.delay _ _))

theorem Frame.portOff (s : State) : Frame s s.portOff := by
  constructor <;> intros <;> first | rfl | assumption

theorem Frame.portSampled (s : State) : Frame s s.portSampled := by
  constructor <;> intros <;> first | rfl | assumption | exact Inputs.dropPort_host _

theorem Frame.portToInput (s : State) : Frame s s.portToInput := (Frame.portOff _).trans (Frame.delay _ _)

theorem Frame.setEoi (s : State) : Frame s s.setEoi := by
  constructor <;> intros <;> first | rfl | assumption

theorem Frame.clearEoi (s : State) : Frame s s.clearEoi := by
  constructor <;> intros <;> first | rfl | assumption

/-- Setting the byte count, a local of the handler entry. -/
theorem Frame.count (n : Nat) (s : State) : Frame s { s with count := n } := by
  constructor <;> intros <;> first | rfl | assumption

theorem Frame.busState (v : BusState) (s : State) : Frame s { s with busState := v } := by
  constructor <;> intros <;> first | rfl | assumption

/-- All that `LOG` can do: it writes one entry of the log and may move the head to the next slot (R128). -/
theorem State.logEvent_cases (e : Byte) (s : State) :
    s.logEvent e = s ∨
      (∃ x, s.logEvent e = { s with evEntries := s.evEntries.set s.evHead x }) ∨
      ∃ x, s.logEvent e = { s with
        evHead := (s.evHead + 1) % s.cfg.eventLogSize
        evEntries := s.evEntries.set ((s.evHead + 1) % s.cfg.eventLogSize) x } := by
  unfold State.logEvent
  split
  · split
    · exact .inr (.inl ⟨_, rfl⟩)
    · exact .inl rfl
  · split
    · exact .inr (.inr ⟨_, rfl⟩)
    · exact .inr (.inl ⟨_, rfl⟩)

theorem Frame.logEvent (e : Byte) (s : State) : Frame s (s.logEvent e) := by
  obtain h | ⟨x, h⟩ | ⟨x, h⟩ := s.logEvent_cases e <;> rw [h]
  · exact Frame.refl s
  · constructor <;> intros <;> first | rfl | assumption | skip
    rename_i hl
    exact ⟨by simpa using hl.1, hl.2⟩
  · constructor <;> intros <;> first | rfl | assumption | skip
    rename_i hl
    exact ⟨by simpa using hl.1, Nat.mod_lt _ (Nat.lt_of_le_of_lt (Nat.zero_le _) hl.2)⟩

theorem Frame.waitLoop (m v : LineMask) (t t0 : Nat) (fuel : Nat) :
    ∀ s : State, Frame s (s.waitLoop m v t t0 fuel).2 := by
  induction fuel with
  | zero => intro s; exact Frame.refl s
  | succ fuel ih =>
    intro s
    have hk : Frame s s.kick.sampled := (Frame.kick s).trans (Frame.sampled _)
    unfold State.waitLoop
    split
    · exact hk
    · split
      · exact hk
      · exact (hk.trans (Frame.delay _ _)).trans (ih _)

theorem Frame.wait (m v : LineMask) (t : Nat) (s : State) : Frame s (s.wait m v t).2 := Frame.waitLoop m v t _ _ s

/-! ## Taking a failure -/

theorem Frame.failLines (st : Status) (s : State) : Frame s (s.failLines st) := by
  cases st <;>
    first
    | exact Frame.refl s
    | exact Frame.releaseLines _ s
    | exact (Frame.releaseLines _ s).trans (Frame.portOff _)

theorem Frame.failBusState (st : Status) (s : State) : Frame s (s.failBusState st) := by
  cases st <;> first | exact Frame.refl s | exact Frame.busState _ s

theorem Frame.logIf (st : Status) (s : State) : Frame s (s.logIf st) := by
  unfold State.logIf
  split
  · exact Frame.logEvent _ s
  · exact Frame.refl s

theorem Frame.failWith (st : Status) (s : State) : Frame s (s.failWith st) := by
  have h : Frame s (if s.irqOff then s.irqUnmask else s) := by
    split
    · exact Frame.irqUnmask s
    · exact Frame.refl s
  exact ((h.trans (Frame.logIf st _)).trans (Frame.failLines st _)).trans (Frame.failBusState st _)

@[simp] theorem State.logEvent_irqOff (e : Byte) (s : State) : (s.logEvent e).irqOff = s.irqOff := by
  obtain h | ⟨x, h⟩ | ⟨x, h⟩ := s.logEvent_cases e <;> rw [h]

@[simp] theorem State.logEvent_count (e : Byte) (s : State) : (s.logEvent e).count = s.count := by
  obtain h | ⟨x, h⟩ | ⟨x, h⟩ := s.logEvent_cases e <;> rw [h]

@[simp] theorem State.logEvent_buffer (e : Byte) (s : State) : (s.logEvent e).buffer = s.buffer := by
  obtain h | ⟨x, h⟩ | ⟨x, h⟩ := s.logEvent_cases e <;> rw [h]

@[simp] theorem State.logEvent_drive (e : Byte) (s : State) : (s.logEvent e).drive = s.drive := by
  obtain h | ⟨x, h⟩ | ⟨x, h⟩ := s.logEvent_cases e <;> rw [h]

@[simp] theorem State.logEvent_eoi (e : Byte) (s : State) : (s.logEvent e).eoi = s.eoi := by
  obtain h | ⟨x, h⟩ | ⟨x, h⟩ := s.logEvent_cases e <;> rw [h]

@[simp] theorem State.logEvent_ppOe (e : Byte) (s : State) : (s.logEvent e).ppOe = s.ppOe := by
  obtain h | ⟨x, h⟩ | ⟨x, h⟩ := s.logEvent_cases e <;> rw [h]

@[simp] theorem State.logEvent_busState (e : Byte) (s : State) : (s.logEvent e).busState = s.busState := by
  obtain h | ⟨x, h⟩ | ⟨x, h⟩ := s.logEvent_cases e <;> rw [h]

/-- `FAIL` leaves the interrupt unmasked (R131 (1), R290). -/
@[simp] theorem State.failWith_irqOff (st : Status) (s : State) : (s.failWith st).irqOff = false := by
  unfold State.failWith
  have h : ((if s.irqOff then s.irqUnmask else s).logIf st).irqOff = false := by
    unfold State.logIf
    cases hi : s.irqOff <;> cases st.logged <;> simp [hi]
  generalize (if s.irqOff then s.irqUnmask else s).logIf st = u at h
  cases st <;> simp [State.failLines, State.failBusState, h]

/-- `FAIL` leaves the byte count and the buffer alone. -/
theorem State.failWith_count_buffer (st : Status) (s : State) :
    (s.failWith st).count = s.count ∧ (s.failWith st).buffer = s.buffer := by
  unfold State.failWith
  have h : ((if s.irqOff then s.irqUnmask else s).logIf st).count = s.count ∧
      ((if s.irqOff then s.irqUnmask else s).logIf st).buffer = s.buffer := by
    unfold State.logIf
    cases hi : s.irqOff <;> cases st.logged <;> simp
  generalize (if s.irqOff then s.irqUnmask else s).logIf st = u at h
  rw [← h.1, ← h.2]
  cases st <;> simp [State.failLines, State.failBusState]

/-! ## Engine operations -/

/-- The state an engine operation leaves, however it ends. -/
def after {α : Type} (op : Engine α) (s : State) : State :=
  match op s with
  | .ok _ t => t
  | .error _ t => t

/-- `op` keeps what `Frame` says, however it ends. -/
def Framed {α : Type} (op : Engine α) : Prop := ∀ s, Frame s (after op s)

theorem after_bind {α β : Type} (op : Engine α) (f : α → Engine β) (s : State) :
    after (op >>= f) s =
      match op s with
      | .ok a t => after (f a) t
      | .error _ t => t := by
  simp only [after, bind, EStateM.bind]
  cases op s <;> rfl

theorem Framed.bind {α β : Type} {op : Engine α} {f : α → Engine β} (h : Framed op) (k : ∀ a, Framed (f a)) :
    Framed (op >>= f) := by
  intro s
  have hs := h s
  rw [after_bind]
  unfold after at hs
  split <;> simp_all
  exact hs.trans (k _ _)

theorem Framed.pure {α : Type} (a : α) : Framed (Pure.pure a : Engine α) := fun s => Frame.refl s
theorem Framed.get : Framed (MonadState.get : Engine State) := fun s => Frame.refl s
theorem Framed.act {f : State → State} (h : ∀ s, Frame s (f s)) : Framed (act f) := h
theorem Framed.fail {α : Type} (st : Status) : Framed (fail st : Engine α) := fun s => Frame.failWith st s
theorem Framed.poll : Framed poll := Frame.sampled
theorem Framed.getLine (l : LineMask) : Framed (getLine l) := Frame.sampled
theorem Framed.portSample : Framed portSample := Frame.portSampled
theorem Framed.pause (t : Config → Nat) : Framed (pause t) := fun s => Frame.delay _ s
theorem Framed.countByte : Framed countByte := fun s => Frame.count _ s
theorem Framed.setBusState (v : BusState) : Framed (setBusState v) := fun s => Frame.busState v s

theorem Framed.waitFor (m v : LineMask) (t : Config → Nat) : Framed (waitFor m v t) := fun s => Frame.wait m v _ s

theorem Framed.waitOr (m v : LineMask) (t : Config → Nat) (st : Status) : Framed (waitOr m v t st) := by
  intro s
  have h := Frame.wait m v (t s.cfg) s
  unfold after Sys2Proof.Machine.waitOr
  split <;> rename_i u hu
  · split at hu <;> rename_i x hx
    · cases hu; rw [hx] at h; exact h
    · cases hu
  · split at hu <;> rename_i x hx
    · cases hu
    · cases hu; rw [hx] at h; exact h.trans (Frame.failWith st _)

theorem Framed.doIf {c : Bool} {op : Engine Unit} (h : Framed op) : Framed (doIf c op) := by
  cases c
  · exact Framed.pure _
  · exact h

theorem Framed.readBuffer (addr n : Nat) : Framed (readBuffer addr n) := by
  intro s
  unfold after Sys2Proof.Machine.readBuffer
  cases s.memRead addr n <;> exact Frame.refl s

/-- All that a buffer write inside the bound can do (R63). -/
theorem State.memWrite_ok {addr : Nat} {bs : List Byte} {s t : State} (h : s.memWrite addr bs = .ok t) :
    addr + bs.length ≤ s.cfg.bufSize ∧ t = s.putBytes addr bs := by
  unfold State.memWrite at h
  split at h
  · rename_i hb
    cases h
    exact ⟨hb, rfl⟩
  · cases h

/-- A buffer write faults only outside the bound. -/
theorem State.memWrite_in {addr : Nat} {bs : List Byte} (s : State) (h : addr + bs.length ≤ s.cfg.bufSize) :
    s.memWrite addr bs = .ok (s.putBytes addr bs) := by
  simp [State.memWrite, h]

/-- All that a buffer read can answer (R62). -/
theorem State.memRead_ok_iff (addr n : Nat) (bs : List Byte) (s : State) :
    s.memRead addr n = .ok bs ↔
      addr + n ≤ s.cfg.bufSize ∧ bs.length = n ∧ ∀ i (h : i < bs.length), s.buffer.get? (addr + i) = some bs[i] := by
  rw [← Memory.getMany?_some]
  unfold State.memRead
  split
  · split <;> simp_all
  · simp_all

/-- A buffer read of written bytes inside the bound succeeds. -/
theorem State.memRead_written {addr n : Nat} {s : State} (h : addr + n ≤ s.cfg.bufSize)
    (hw : ∀ a, addr ≤ a → a < addr + n → (s.buffer.get? a).isSome = true) :
    ∃ bs, s.memRead addr n = .ok bs ∧ bs.length = n := by
  obtain ⟨bs, hbs⟩ := Option.isSome_iff_exists.1
    ((Memory.getMany?_isSome s.buffer n addr).2 fun i hi => hw _ (by omega) (by omega))
  exact ⟨bs, by simp [State.memRead, h, hbs], ((Memory.getMany?_some _ _ _ _).1 hbs).1⟩

theorem Frame.putBytes {addr : Nat} {bs : List Byte} (s : State) (h : addr + bs.length ≤ s.cfg.bufSize) :
    Frame s (s.putBytes addr bs) := by
  constructor <;> intros <;> first | rfl | assumption | skip
  · rename_i hw; exact Memory.wf_setMany bs _ _ h hw
  · rename_i a ha; exact Memory.isSome_get?_setMany bs _ _ ha

theorem Framed.storeByte (b : Byte) : Framed (storeByte b) := by
  intro s
  unfold after Sys2Proof.Machine.storeByte
  cases h : s.memWrite s.count [b] with
  | ok t =>
    obtain ⟨hb, rfl⟩ := State.memWrite_ok h
    exact (Frame.putBytes s hb).trans (Frame.count _ _)
  | error f => exact Frame.refl s

/-! ## The wire modes -/

theorem Frame.foldl {α : Type} {f : State → α → State} (h : ∀ s a, Frame s (f s a)) (xs : List α) :
    ∀ s, Frame s (xs.foldl f s) := by
  induction xs with
  | nil => exact Frame.refl
  | cons x xs ih => intro s; exact (h s x).trans (ih _)

theorem Frame.sendBit (bit : Bool) (s : State) : Frame s (s.sendBit bit) := by
  unfold State.sendBit
  cases bit
  · exact ((((Frame.delay _ _).trans (Frame.assertLines _ _)).trans (Frame.releaseLines _ _)).trans
      (Frame.delay _ _)).trans (Frame.setRelease _ _ _)
  · exact (((Frame.delay _ _).trans (Frame.releaseLines _ _)).trans (Frame.delay _ _)).trans
      (Frame.setRelease _ _ _)

theorem Frame.sendBits (b : Byte) (s : State) : Frame s (s.sendBits b) :=
  ((Frame.irqMask s).trans (Frame.foldl (fun _ _ => Frame.sendBit _ _) _ _)).trans (Frame.irqUnmask _)

theorem Frame.atnEdge (k : Nat) (s : State) : Frame s (s.atnEdge k) := by
  unfold State.atnEdge
  split
  · exact Frame.assertLines _ s
  · exact Frame.releaseLines _ s

theorem Frame.sendPair (b : Byte) (k : Nat) (s : State) : Frame s (s.sendPair b k) :=
  (((Frame.setRelease _ _ s).trans (Frame.delay _ _)).trans (Frame.atnEdge k _)).trans (Frame.delay _ _)

theorem Frame.toggleLine (l : LineMask) (s : State) : Frame s (s.toggleLine l) := by
  unfold State.toggleLine
  split
  · exact Frame.assertLines _ s
  · exact Frame.releaseLines _ s

theorem Framed.writeByte (b : Byte) : Framed (writeByte b) :=
  (Framed.act (Frame.sendBits b)).bind fun _ => Framed.waitOr _ _ _ _

theorem Framed.readBits (n : Nat) : ∀ b, Framed (readBits n b) := by
  induction n with
  | zero => intro b; exact Framed.pure b
  | succ n ih =>
    intro b
    exact (Framed.waitOr _ _ _ _).bind fun _ => (Framed.getLine _).bind fun _ =>
      (Framed.waitOr _ _ _ _).bind fun _ => ih _

theorem Framed.acknowledgeEoi : Framed acknowledgeEoi :=
  (Framed.act Frame.setEoi).bind fun _ => (Framed.act (Frame.assertLines _)).bind fun _ =>
    (Framed.pause _).bind fun _ => (Framed.act (Frame.releaseLines _)).bind fun _ => Framed.waitOr _ _ _ _

theorem Framed.readByte : Framed readByte :=
  (Framed.act Frame.irqMask).bind fun _ => (Framed.act (Frame.releaseLines _)).bind fun _ =>
    (Framed.waitFor _ _ _).bind fun _ => Framed.acknowledgeEoi.doIf.bind fun _ => (Framed.readBits _ _).bind fun _ =>
      (Framed.act Frame.irqUnmask).bind fun _ => (Framed.act (Frame.assertLines _)).bind fun _ => Framed.pure _

theorem Framed.sendEach {send : Byte → Engine Unit} (h : ∀ b, Framed (send b)) (bytes : List Byte) :
    Framed (sendEach send bytes) := by
  induction bytes with
  | nil => exact Framed.pure _
  | cons b rest ih => exact (h b).bind fun _ => Framed.countByte.bind fun _ => ih

theorem Framed.receiveEach {receive : Engine Byte} (h : Framed receive) (n : Nat) : Framed (receiveEach receive n) := by
  induction n with
  | zero => exact Framed.pure _
  | succ n ih => exact h.bind fun _ => (Framed.storeByte _).bind fun _ => ih

theorem Framed.s2WriteByte (b : Byte) : Framed (s2WriteByte b) :=
  Framed.act fun s => (((Frame.irqMask s).trans (Frame.foldl (fun _ _ => Frame.sendPair b _ _) _ _)).trans
    (Frame.releaseLines _ _)).trans (Frame.irqUnmask _)

theorem Framed.readPair (k : Nat) : Framed (readPair k) :=
  (Framed.act (Frame.atnEdge k)).bind fun _ => (Framed.pause _).bind fun _ => Framed.poll.bind fun _ =>
    (Framed.pause _).bind fun _ => Framed.pure _

theorem Framed.s2ReadByte : Framed s2ReadByte :=
  (Framed.act Frame.irqMask).bind fun _ => (Framed.readPair 0).bind fun _ => (Framed.readPair 1).bind fun _ =>
    (Framed.readPair 2).bind fun _ => (Framed.readPair 3).bind fun _ => (Framed.act Frame.irqUnmask).bind fun _ =>
      Framed.pure _

theorem Framed.s2Write (bytes : List Byte) : Framed (s2Write bytes) :=
  (Framed.act (Frame.releaseLines _)).bind fun _ => Framed.sendEach Framed.s2WriteByte bytes

theorem Framed.s2Read (cap : Nat) : Framed (s2Read cap) :=
  (Framed.act (Frame.releaseLines _)).bind fun _ => Framed.receiveEach Framed.s2ReadByte cap

theorem Framed.ppWriteByte (b : Byte) : Framed (ppWriteByte b) :=
  (Framed.act (Frame.portOut b)).bind fun _ => (Framed.act (Frame.assertLines _)).bind fun _ =>
    (Framed.waitOr _ _ _ _).bind fun _ => (Framed.act (Frame.releaseLines _)).bind fun _ => Framed.waitOr _ _ _ _

theorem Framed.ppReadByte : Framed ppReadByte :=
  (Framed.waitOr _ _ _ _).bind fun _ => Framed.portSample.bind fun _ =>
    (Framed.act (Frame.assertLines _)).bind fun _ => (Framed.waitOr _ _ _ _).bind fun _ =>
      (Framed.act (Frame.releaseLines _)).bind fun _ => Framed.pure _

theorem Framed.portInput : Framed portInput :=
  (Framed.act Frame.portToInput).bind fun _ => Framed.act Frame.portSampled

theorem Framed.ppWrite (bytes : List Byte) : Framed (ppWrite bytes) :=
  (Framed.act (Frame.releaseLines _)).bind fun _ => (Framed.sendEach Framed.ppWriteByte bytes).bind fun _ =>
    Framed.act Frame.portOff

theorem Framed.ppRead (cap : Nat) : Framed (ppRead cap) :=
  (Framed.act (Frame.releaseLines _)).bind fun _ => Framed.portInput.bind fun _ =>
    Framed.receiveEach Framed.ppReadByte cap

theorem Framed.p2WriteByte (b : Byte) : Framed (p2WriteByte b) :=
  (Framed.act (Frame.portOut b)).bind fun _ => Framed.get.bind fun _ =>
    (Framed.act (Frame.toggleLine _)).bind fun _ => Framed.waitOr _ _ _ _

theorem Framed.p2ReadByte : Framed p2ReadByte :=
  Framed.get.bind fun _ => (Framed.waitOr _ _ _ _).bind fun _ => Framed.portSample.bind fun _ =>
    (Framed.act (Frame.toggleLine _)).bind fun _ => Framed.pure _

theorem Framed.p2Write (bytes : List Byte) : Framed (p2Write bytes) :=
  (Framed.act (Frame.releaseLines _)).bind fun _ => (Framed.sendEach Framed.p2WriteByte bytes).bind fun _ =>
    Framed.act Frame.portOff

theorem Framed.p2Read (cap : Nat) : Framed (p2Read cap) :=
  (Framed.act (Frame.releaseLines _)).bind fun _ => Framed.portInput.bind fun _ =>
    Framed.receiveEach Framed.p2ReadByte cap

/-! ## The bus session -/

theorem Framed.beginRawWrite (atn : Bool) : Framed (beginRawWrite atn) :=
  (Framed.act fun s => (Frame.clearEoi s).trans (Frame.count 0 _)).bind fun _ =>
    (Framed.act (Frame.releaseLines _)).bind fun _ => (Framed.act (Frame.assertLines _)).bind fun _ =>
      (Framed.setBusState _).doIf.bind fun _ => Framed.waitOr _ _ _ _

theorem Framed.eoiHold : Framed eoiHold := (Framed.waitOr _ _ _ _).bind fun _ => Framed.waitOr _ _ _ _

theorem Framed.sendFramed (lastData : Bool) (b : Byte) : Framed (sendFramed lastData b) :=
  (Framed.pause _).bind fun _ => (Framed.getLine _).bind fun _ => (Framed.fail _).doIf.bind fun _ =>
    (Framed.act (Frame.releaseLines _)).bind fun _ => (Framed.waitOr _ _ _ _).bind fun _ =>
      Framed.eoiHold.doIf.bind fun _ => (Framed.act (Frame.assertLines _)).bind fun _ =>
        (Framed.writeByte b).bind fun _ => Framed.countByte.bind fun _ => Framed.pause _

theorem Framed.sendFramedEach (atn : Bool) (bytes : List Byte) : Framed (sendFramedEach atn bytes) := by
  induction bytes with
  | nil => exact Framed.pure _
  | cons b rest ih => exact (Framed.sendFramed _ b).bind fun _ => ih

theorem Framed.turnAround : Framed turnAround :=
  (Framed.act (Frame.assertLines _)).bind fun _ => (Framed.act (Frame.releaseLines _)).bind fun _ =>
    (Framed.act (Frame.releaseLines _)).bind fun _ => Framed.waitOr _ _ _ _

theorem Framed.endRawWrite (talk : Bool) : Framed (endRawWrite talk) := by
  refine Framed.bind ?_ fun _ => Framed.pause _
  cases talk
  · exact Framed.act (Frame.releaseLines _)
  · exact Framed.turnAround

theorem Framed.rawWrite (bytes : List Byte) (atn talk : Bool) : Framed (rawWrite bytes atn talk) :=
  (Framed.beginRawWrite atn).bind fun _ => (Framed.sendFramedEach atn bytes).bind fun _ => Framed.endRawWrite talk

theorem Framed.readLoop (cap : Nat) : Framed (readLoop cap) := by
  induction cap with
  | zero => exact Framed.pure _
  | succ cap ih =>
    refine (Framed.waitOr _ _ _ _).bind fun _ => Framed.readByte.bind fun _ => (Framed.storeByte _).bind fun _ =>
      (Framed.pause _).bind fun _ => Framed.get.bind fun s => ?_
    cases s.eoi
    · exact ih
    · exact Framed.pure _

theorem Framed.rawRead (cap : Nat) : Framed (rawRead cap) := by
  refine Framed.get.bind fun s => ?_
  cases s.eoi
  · exact Framed.readLoop cap
  · exact Framed.pure _

theorem Framed.probeFree : Framed probeFree := by
  refine (Framed.act (Frame.releaseLines _)).bind fun _ => (Framed.pause _).bind fun _ => Framed.poll.bind fun m => ?_
  split
  · exact Framed.pure _
  · refine (Framed.act (Frame.assertLines _)).bind fun _ => (Framed.pause _).bind fun _ =>
      (Framed.getLine _).bind fun answered => (Framed.act (Frame.releaseLines _)).bind fun _ => ?_
    cases answered
    · exact Framed.pure _
    · exact (Framed.pause _).bind fun _ => (Framed.getLine _).bind fun _ => Framed.pure _

theorem Framed.probeLoop (n : Nat) : Framed (probeLoop n) := by
  induction n with
  | zero => exact Framed.fail _
  | succ n ih =>
    refine (Framed.act Frame.kick).bind fun _ => Framed.probeFree.bind fun free => ?_
    cases free
    · exact (Framed.pause _).bind fun _ => ih
    · exact Framed.setBusState _

theorem Framed.busReset : Framed busReset :=
  (Framed.act (Frame.releaseLines _)).bind fun _ => (Framed.act (Frame.assertLines _)).bind fun _ =>
    (Framed.pause _).bind fun _ => (Framed.act (Frame.releaseLines _)).bind fun _ => Framed.get.bind fun _ =>
      Framed.probeLoop _

theorem Framed.addressListener (bytes : List Byte) : Framed (addressListener bytes) :=
  (Framed.rawWrite _ _ _).bind fun _ => Framed.setBusState _

theorem Framed.addressTalker (bytes : List Byte) : Framed (addressTalker bytes) :=
  (Framed.rawWrite _ _ _).bind fun _ => Framed.setBusState _

theorem Framed.endBracket (bytes : List Byte) : Framed (endBracket bytes) :=
  (Framed.rawWrite _ _ _).bind fun _ => (Framed.act (Frame.releaseLines _)).bind fun _ => Framed.setBusState _

/-! ## The handler's operations -/

theorem Framed.withCount {op : Engine Unit} (h : Framed op) : Framed (withCount op) :=
  h.bind fun _ => Framed.get.bind fun _ => Framed.pure _

theorem Framed.readOp (p : Proto) (cap : Nat) : Framed (readOp p cap) := by
  refine (Framed.act (Frame.count 0)).bind fun _ => ?_
  cases p
  · exact Framed.rawRead cap
  · exact Framed.s2Read cap
  · exact Framed.ppRead cap
  · exact Framed.p2Read cap

theorem Framed.writeOp (p : Proto) (bytes : List Byte) : Framed (writeOp p bytes) := by
  refine (Framed.act (Frame.count 0)).bind fun _ => ?_
  cases p
  · exact Framed.rawWrite bytes _ _
  · exact Framed.s2Write bytes
  · exact Framed.ppWrite bytes
  · exact Framed.p2Write bytes

theorem Framed.writeRequest (s : State) : Framed (writeRequest s) :=
  (Framed.readBuffer _ _).bind fun _ => Framed.writeOp _ _

theorem Framed.iecWaitOp : Framed iecWaitOp := by
  refine (Framed.readBuffer _ _).bind fun _ => (Framed.waitFor _ _ _).bind fun ok => Framed.poll.bind fun _ => ?_
  cases ok
  · exact (Framed.act (Frame.logEvent _)).bind fun _ => Framed.pure _
  · exact Framed.pure _

theorem Framed.irqPauseOp : Framed irqPauseOp :=
  (Framed.act Frame.irqMask).bind fun _ => (Framed.pause _).bind fun _ => Framed.act Frame.irqUnmask

theorem Framed.asyncOp (acmd : Byte) : Framed (asyncOp acmd) := by
  refine (Framed.act (Frame.count 0)).bind fun _ => ?_
  split
  · exact (Framed.readBuffer _ _).bind fun _ => (Framed.addressTalker _).withCount
  · exact (Framed.readBuffer _ _).bind fun _ => (Framed.addressListener _).withCount
  · exact (Framed.readBuffer _ _).bind fun _ => (Framed.addressListener _).withCount
  · exact (Framed.readBuffer _ _).bind fun _ => (Framed.addressListener _).withCount
  · exact (Framed.readBuffer _ _).bind fun _ => (Framed.endBracket _).withCount
  · exact (Framed.readBuffer _ _).bind fun _ => (Framed.endBracket _).withCount
  · exact Framed.busReset.withCount
  · exact Framed.iecWaitOp
  · exact Framed.irqPauseOp.withCount
  · intro s; exact Frame.refl s

end Sys2Proof.Machine
end

