-- ==== Sys2Proof/Laws/Outcome.lean ====
section
/-! SUPPORT. How an engine operation ends: with a result or a failure of 60_exceptions.md R281, with the interrupt
unmasked, its byte count bounded, and the buffer as its kind of operation leaves it. -/

namespace Sys2Proof.Machine

/-- From a state with `P`, `op` raises no fault: it ends well with `Q`, or fails with `E`. -/
def Ends {α : Type} (P : State → Prop) (op : Engine α) (Q : α → State → Prop) (E : State → Prop) : Prop :=
  ∀ s, P s →
    match op s with
    | .ok a t => Q a t
    | .error (.failed _) t => E t
    | .error (.fault _) _ => False

theorem Ends.bind {α β : Type} {P : State → Prop} {op : Engine α} {f : α → Engine β} {Q : α → State → Prop}
    {R : β → State → Prop} {E : State → Prop} (h : Ends P op Q E) (k : ∀ a, Ends (Q a) (f a) R E) :
    Ends P (op >>= f) R E := by
  intro s hs
  have h1 := h s hs
  simp only [Bind.bind, EStateM.bind]
  revert h1
  cases op s with
  | ok a t => exact fun h1 => k a t h1
  | error e t => cases e <;> exact fun h1 => h1

theorem Ends.mono {α : Type} {P P' : State → Prop} {op : Engine α} {Q Q' : α → State → Prop} {E E' : State → Prop}
    (h : Ends P op Q E) (hp : ∀ s, P' s → P s) (hq : ∀ a s, Q a s → Q' a s) (he : ∀ s, E s → E' s) :
    Ends P' op Q' E' := by
  intro s hs
  have h1 := h s (hp s hs)
  revert h1
  cases op s with
  | ok a t => exact fun h1 => hq a t h1
  | error e t => cases e <;> first | exact fun h1 => he _ h1 | exact fun h1 => h1

theorem Ends.pure {α : Type} {P : State → Prop} {Q : α → State → Prop} {E : State → Prop} (a : α)
    (h : ∀ s, P s → Q a s) : Ends P (Pure.pure a : Engine α) Q E := fun s hs => h s hs

theorem Ends.act {P : State → Prop} {f : State → State} {Q : State → Prop} {E : State → Prop}
    (h : ∀ s, P s → Q (f s)) : Ends P (act f) (fun _ => Q) E := fun s hs => h s hs

/-- An operation that keeps what `Frame` says ends in a state framed by the one it started from. -/
theorem Ends.framed {α : Type} {P : State → Prop} {op : Engine α} {Q : α → State → Prop} {E : State → Prop}
    (h : Ends P op Q E) (hf : Framed op) (s : State) :
    Ends (fun u => P u ∧ u = s) op (fun a t => Q a t ∧ Frame s t) (fun t => E t ∧ Frame s t) := by
  rintro u ⟨hu, rfl⟩
  have h1 := h u hu
  have h2 := hf u
  revert h1 h2
  unfold after
  cases op u with
  | ok a t => exact fun h1 h2 => ⟨h1, h2⟩
  | error e t => cases e <;> first | exact fun h1 h2 => ⟨h1, h2⟩ | exact fun h1 _ => h1

/-! ## Operations that leave the byte count and the buffer alone -/

/-- The byte count, the buffer and the interrupt mask. -/
def Holds (c : Nat) (m : Memory) (b : Bool) (s : State) : Prop := s.count = c ∧ s.buffer = m ∧ s.irqOff = b

/-- `op` keeps the byte count and the buffer, takes the interrupt mask from `b` to `b'`, and if it fails leaves the
interrupt unmasked. -/
def Steady {α : Type} (b : Bool) (op : Engine α) (b' : Bool) : Prop :=
  ∀ c m, Ends (Holds c m b) op (fun _ => Holds c m b') (Holds c m false)

theorem Steady.bind {α β : Type} {b b' b'' : Bool} {op : Engine α} {f : α → Engine β} (h : Steady b op b')
    (k : ∀ a, Steady b' (f a) b'') : Steady b (op >>= f) b'' :=
  fun c m => (h c m).bind fun a => k a c m

theorem Steady.pure {α : Type} {b : Bool} (a : α) : Steady b (Pure.pure a : Engine α) b :=
  fun _ _ => Ends.pure a fun _ h => h

theorem Steady.get {b : Bool} : Steady b (MonadState.get : Engine State) b := fun _ _ _ h => h

theorem Steady.act {b b' : Bool} {f : State → State}
    (h : ∀ s, (f s).count = s.count ∧ (f s).buffer = s.buffer ∧ (s.irqOff = b → (f s).irqOff = b')) :
    Steady b (act f) b' :=
  fun _ _ => Ends.act fun s hs => ⟨(h s).1.trans hs.1, (h s).2.1.trans hs.2.1, (h s).2.2 hs.2.2⟩

theorem State.waitLoop_keeps (m v : LineMask) (t t0 : Nat) (fuel : Nat) :
    ∀ s : State, (s.waitLoop m v t t0 fuel).2.count = s.count ∧ (s.waitLoop m v t t0 fuel).2.buffer = s.buffer ∧
      (s.waitLoop m v t t0 fuel).2.irqOff = s.irqOff ∧ (s.waitLoop m v t t0 fuel).2.drive = s.drive ∧
      (s.waitLoop m v t t0 fuel).2.ppOut = s.ppOut ∧ (s.waitLoop m v t t0 fuel).2.ppOe = s.ppOe ∧
      (s.waitLoop m v t t0 fuel).2.eoi = s.eoi ∧ (s.waitLoop m v t t0 fuel).2.busState = s.busState ∧
      (s.waitLoop m v t t0 fuel).2.evEntries = s.evEntries ∧ (s.waitLoop m v t t0 fuel).2.evHead = s.evHead ∧
      (s.waitLoop m v t t0 fuel).2.out.pins = s.out.pins := by
  induction fuel with
  | zero => intro s; simp [State.waitLoop]
  | succ fuel ih =>
    intro s
    unfold State.waitLoop
    split
    · exact ⟨rfl, rfl, rfl, rfl, rfl, rfl, rfl, rfl, rfl, rfl, rfl⟩
    · split
      · exact ⟨rfl, rfl, rfl, rfl, rfl, rfl, rfl, rfl, rfl, rfl, rfl⟩
      · exact ih _

/-- `WAIT` changes no latch, flag, log entry or buffer byte, and shows nothing new on the pins (R125). -/
theorem State.wait_keeps (m v : LineMask) (t : Nat) (s : State) :
    (s.wait m v t).2.count = s.count ∧ (s.wait m v t).2.buffer = s.buffer ∧ (s.wait m v t).2.irqOff = s.irqOff ∧
      (s.wait m v t).2.drive = s.drive ∧ (s.wait m v t).2.ppOut = s.ppOut ∧ (s.wait m v t).2.ppOe = s.ppOe ∧
      (s.wait m v t).2.eoi = s.eoi ∧ (s.wait m v t).2.busState = s.busState ∧
      (s.wait m v t).2.evEntries = s.evEntries ∧ (s.wait m v t).2.evHead = s.evHead ∧
      (s.wait m v t).2.out.pins = s.out.pins := State.waitLoop_keeps m v t _ _ s

theorem Steady.fail {α : Type} {b b' : Bool} (st : Status) : Steady b (fail st : Engine α) b' := by
  intro c m s hs
  exact ⟨(State.failWith_count_buffer st s).1.trans hs.1, (State.failWith_count_buffer st s).2.trans hs.2.1,
    State.failWith_irqOff st s⟩

theorem Steady.waitFor {b : Bool} (m v : LineMask) (t : Config → Nat) : Steady b (waitFor m v t) b := by
  intro c k s hs
  obtain ⟨h1, h2, h3, -⟩ := State.wait_keeps m v (t s.cfg) s
  exact ⟨h1.trans hs.1, h2.trans hs.2.1, h3.trans hs.2.2⟩

theorem Steady.waitOr {b : Bool} (m v : LineMask) (t : Config → Nat) (st : Status) : Steady b (waitOr m v t st) b := by
  intro c k s hs
  obtain ⟨h1, h2, h3, -⟩ := State.wait_keeps m v (t s.cfg) s
  unfold Sys2Proof.Machine.waitOr
  rcases hw : s.wait m v (t s.cfg) with ⟨ok, u⟩
  rw [hw] at h1 h2 h3
  have hu : Holds c k b u := ⟨h1.trans hs.1, h2.trans hs.2.1, h3.trans hs.2.2⟩
  cases ok
  · exact Steady.fail (α := Unit) (b' := b) st c k u hu
  · exact hu

theorem Steady.poll {b : Bool} : Steady b poll b := fun _ _ _ h => h
theorem Steady.getLine {b : Bool} (l : LineMask) : Steady b (getLine l) b := fun _ _ _ h => h
theorem Steady.portSample {b : Bool} : Steady b portSample b := fun _ _ _ h => h
theorem Steady.pause {b : Bool} (t : Config → Nat) : Steady b (pause t) b := fun _ _ _ h => h
theorem Steady.setBusState {b : Bool} (v : BusState) : Steady b (setBusState v) b := fun _ _ _ h => h

theorem Steady.assertLines {b : Bool} (m : LineMask) : Steady b (Sys2Proof.Machine.act (State.assertLines m)) b :=
  Steady.act fun _ => ⟨rfl, rfl, fun h => h⟩
theorem Steady.releaseLines {b : Bool} (m : LineMask) : Steady b (Sys2Proof.Machine.act (State.releaseLines m)) b :=
  Steady.act fun _ => ⟨rfl, rfl, fun h => h⟩
theorem Steady.irqMask {b : Bool} : Steady b (Sys2Proof.Machine.act State.irqMask) true :=
  Steady.act fun _ => ⟨rfl, rfl, fun _ => rfl⟩
theorem Steady.irqUnmask {b : Bool} : Steady b (Sys2Proof.Machine.act State.irqUnmask) false :=
  Steady.act fun _ => ⟨rfl, rfl, fun _ => rfl⟩

theorem Steady.setEoi {b : Bool} : Steady b (Sys2Proof.Machine.act State.setEoi) b :=
  Steady.act fun _ => ⟨rfl, rfl, fun h => h⟩
theorem Steady.portOut {b : Bool} (x : Byte) : Steady b (Sys2Proof.Machine.act (State.portOut x)) b :=
  Steady.act fun _ => ⟨rfl, rfl, fun h => h⟩
theorem Steady.portOff {b : Bool} : Steady b (Sys2Proof.Machine.act State.portOff) b :=
  Steady.act fun _ => ⟨rfl, rfl, fun h => h⟩
theorem Steady.portToInput {b : Bool} : Steady b (Sys2Proof.Machine.act State.portToInput) b :=
  Steady.act fun _ => ⟨rfl, rfl, fun h => h⟩
theorem Steady.portSampled {b : Bool} : Steady b (Sys2Proof.Machine.act State.portSampled) b :=
  Steady.act fun _ => ⟨rfl, rfl, fun h => h⟩

theorem Steady.doIf {b : Bool} {c : Bool} {op : Engine Unit} (h : Steady b op b) : Steady b (doIf c op) b := by
  cases c
  · exact Steady.pure _
  · exact h

theorem State.sendBit_keeps (bit : Bool) (s : State) :
    (s.sendBit bit).count = s.count ∧ (s.sendBit bit).buffer = s.buffer ∧ (s.sendBit bit).irqOff = s.irqOff := by
  cases bit <;> exact ⟨rfl, rfl, rfl⟩

theorem State.atnEdge_keeps (k : Nat) (s : State) :
    (s.atnEdge k).count = s.count ∧ (s.atnEdge k).buffer = s.buffer ∧ (s.atnEdge k).irqOff = s.irqOff := by
  unfold State.atnEdge; split <;> exact ⟨rfl, rfl, rfl⟩

theorem State.sendPair_keeps (b : Byte) (k : Nat) (s : State) :
    (s.sendPair b k).count = s.count ∧ (s.sendPair b k).buffer = s.buffer ∧ (s.sendPair b k).irqOff = s.irqOff := by
  obtain ⟨h1, h2, h3⟩ := State.atnEdge_keeps k
    ((s.setRelease (pairLines b k) ((Line.data ||| Line.clock) &&& ~~~(pairLines b k))).delay s.cfg.tS2Setup)
  exact ⟨h1, h2, h3⟩

theorem State.toggleLine_keeps (l : LineMask) (s : State) :
    (s.toggleLine l).count = s.count ∧ (s.toggleLine l).buffer = s.buffer ∧ (s.toggleLine l).irqOff = s.irqOff := by
  unfold State.toggleLine; split <;> exact ⟨rfl, rfl, rfl⟩

theorem State.foldl_keeps {α : Type} {f : State → α → State}
    (h : ∀ s a, (f s a).count = s.count ∧ (f s a).buffer = s.buffer ∧ (f s a).irqOff = s.irqOff) (xs : List α) :
    ∀ s, (xs.foldl f s).count = s.count ∧ (xs.foldl f s).buffer = s.buffer ∧ (xs.foldl f s).irqOff = s.irqOff := by
  induction xs with
  | nil => exact fun _ => ⟨rfl, rfl, rfl⟩
  | cons x xs ih =>
    intro s
    obtain ⟨h1, h2, h3⟩ := h s x
    obtain ⟨k1, k2, k3⟩ := ih (f s x)
    exact ⟨k1.trans h1, k2.trans h2, k3.trans h3⟩

theorem Steady.writeByte {b : Bool} (x : Byte) : Steady b (writeByte x) false := by
  refine Steady.bind (b' := false) (Steady.act fun s => ?_) fun _ => Steady.waitOr _ _ _ _
  obtain ⟨h1, h2, -⟩ := State.foldl_keeps (f := fun t i => t.sendBit (x.getLsbD i))
    (fun _ _ => State.sendBit_keeps _ _) (List.range 8) s.irqMask
  exact ⟨h1, h2, fun _ => rfl⟩

theorem Steady.readBits {b : Bool} (n : Nat) : ∀ x, Steady b (readBits n x) b := by
  induction n with
  | zero => intro x; exact Steady.pure x
  | succ n ih =>
    intro x
    exact (Steady.waitOr _ _ _ _).bind fun _ => (Steady.getLine _).bind fun _ =>
      (Steady.waitOr _ _ _ _).bind fun _ => ih _

theorem Steady.acknowledgeEoi {b : Bool} : Steady b acknowledgeEoi b :=
  Steady.setEoi.bind fun _ => (Steady.assertLines _).bind fun _ =>
    (Steady.pause _).bind fun _ => (Steady.releaseLines _).bind fun _ => Steady.waitOr _ _ _ _

theorem Steady.readByte {b : Bool} : Steady b readByte false :=
  Steady.irqMask.bind fun _ => (Steady.releaseLines _).bind fun _ => (Steady.waitFor _ _ _).bind fun _ =>
    Steady.acknowledgeEoi.doIf.bind fun _ => (Steady.readBits _ _).bind fun _ => Steady.irqUnmask.bind fun _ =>
      (Steady.assertLines _).bind fun _ => Steady.pure _

theorem Steady.s2WriteByte {b : Bool} (x : Byte) : Steady b (s2WriteByte x) false := by
  refine Steady.act fun s => ?_
  obtain ⟨h1, h2, -⟩ := State.foldl_keeps (f := fun t k => t.sendPair x k)
    (fun _ _ => State.sendPair_keeps _ _ _) (List.range 4) s.irqMask
  exact ⟨h1, h2, fun _ => rfl⟩

theorem Steady.readPair {b : Bool} (k : Nat) : Steady b (readPair k) b := by
  refine (Steady.act fun s => ?_).bind fun _ => (Steady.pause _).bind fun _ => Steady.poll.bind fun _ =>
    (Steady.pause _).bind fun _ => Steady.pure _
  obtain ⟨h1, h2, h3⟩ := State.atnEdge_keeps k s
  exact ⟨h1, h2, fun h => h3.trans h⟩

theorem Steady.s2ReadByte {b : Bool} : Steady b s2ReadByte false :=
  Steady.irqMask.bind fun _ => (Steady.readPair 0).bind fun _ => (Steady.readPair 1).bind fun _ =>
    (Steady.readPair 2).bind fun _ => (Steady.readPair 3).bind fun _ => Steady.irqUnmask.bind fun _ => Steady.pure _

theorem Steady.ppWriteByte {b : Bool} (x : Byte) : Steady b (ppWriteByte x) b :=
  (Steady.portOut x).bind fun _ => (Steady.assertLines _).bind fun _ =>
    (Steady.waitOr _ _ _ _).bind fun _ => (Steady.releaseLines _).bind fun _ => Steady.waitOr _ _ _ _

theorem Steady.ppReadByte {b : Bool} : Steady b ppReadByte b :=
  (Steady.waitOr _ _ _ _).bind fun _ => Steady.portSample.bind fun _ => (Steady.assertLines _).bind fun _ =>
    (Steady.waitOr _ _ _ _).bind fun _ => (Steady.releaseLines _).bind fun _ => Steady.pure _

theorem Steady.portInput {b : Bool} : Steady b portInput b :=
  Steady.portToInput.bind fun _ => Steady.portSampled

theorem Steady.toggleLine {b : Bool} (l : LineMask) : Steady b (Sys2Proof.Machine.act (State.toggleLine l)) b :=
  Steady.act fun s => by
    obtain ⟨h1, h2, h3⟩ := State.toggleLine_keeps l s
    exact ⟨h1, h2, fun h => h3.trans h⟩

theorem Steady.p2WriteByte {b : Bool} (x : Byte) : Steady b (p2WriteByte x) b :=
  (Steady.portOut x).bind fun _ => Steady.get.bind fun _ =>
    (Steady.toggleLine _).bind fun _ => Steady.waitOr _ _ _ _

theorem Steady.p2ReadByte {b : Bool} : Steady b p2ReadByte b :=
  Steady.get.bind fun _ => (Steady.waitOr _ _ _ _).bind fun _ => Steady.portSample.bind fun _ =>
    (Steady.toggleLine _).bind fun _ => Steady.pure _

/-! ## Operations that send: the count rises by at most the number of bytes -/

/-- What an operation that sends `n` bytes may leave: a count between `c` and `c + n`, the buffer `m`, the interrupt
unmasked. -/
def Sent (c n : Nat) (m : Memory) (s : State) : Prop :=
  c ≤ s.count ∧ s.count ≤ c + n ∧ s.buffer = m ∧ s.irqOff = false

/-- `op` sends `n` bytes: if it ends well it counted all of them. -/
def Sends (op : Engine Unit) (n : Nat) : Prop :=
  ∀ c m, Ends (Holds c m false) op (fun _ => Holds (c + n) m false) (Sent c n m)

theorem Holds.sent {c : Nat} {m : Memory} {s : State} (h : Holds c m false s) (n : Nat) : Sent c n m s :=
  ⟨by rw [h.1], by rw [h.1]; omega, h.2.1, h.2.2⟩

theorem Steady.sends {op : Engine Unit} (h : Steady false op false) : Sends op 0 :=
  fun c m => (h c m).mono (fun _ x => x) (fun _ _ x => x) fun _ x => x.sent 0

theorem Sends.bind {op op' : Engine Unit} {n k : Nat} (h : Sends op n) (h' : Sends op' k) :
    Sends (op >>= fun _ => op') (n + k) := by
  intro c m
  refine ((h c m).mono (fun _ x => x) (fun _ _ x => x) fun s x => ?_).bind fun _ =>
    (h' (c + n) m).mono (fun _ x => x) (fun _ s x => ?_) fun s x => ?_
  · exact ⟨x.1, by have := x.2.1; omega, x.2.2⟩
  · rw [← Nat.add_assoc]; exact x
  · exact ⟨by have := x.1; omega, by have := x.2.1; omega, x.2.2⟩

theorem Sends.countByte : Sends countByte 1 := fun _ _ _ h => ⟨congrArg (· + 1) h.1, h.2.1, h.2.2⟩

theorem Sends.sendEach {send : Byte → Engine Unit} (h : ∀ b, Steady false (send b) false) (bytes : List Byte) :
    Sends (sendEach send bytes) bytes.length := by
  induction bytes with
  | nil => exact (Steady.pure _).sends
  | cons b rest ih =>
    have k := (h b).sends.bind (Sends.countByte.bind ih)
    rw [Nat.zero_add, Nat.add_comm] at k
    exact k

theorem Sends.s2Write (bytes : List Byte) : Sends (s2Write bytes) bytes.length := by
  have k := (Steady.releaseLines (b := false) Line.threeLines).sends.bind
    (Sends.sendEach (fun b => Steady.s2WriteByte b) bytes)
  rwa [Nat.zero_add] at k

theorem Sends.ppWrite (bytes : List Byte) : Sends (ppWrite bytes) bytes.length := by
  have k := (Steady.releaseLines (b := false) Line.threeLines).sends.bind
    ((Sends.sendEach (fun b => Steady.ppWriteByte b) bytes).bind
      Steady.portOff.sends)
  rwa [Nat.zero_add] at k

theorem Sends.p2Write (bytes : List Byte) : Sends (p2Write bytes) bytes.length := by
  have k := (Steady.releaseLines (b := false) (Line.data ||| Line.atn)).sends.bind
    ((Sends.sendEach (fun b => Steady.p2WriteByte b) bytes).bind
      Steady.portOff.sends)
  rwa [Nat.zero_add] at k

theorem Steady.eoiHold {b : Bool} : Steady b eoiHold b := (Steady.waitOr _ _ _ _).bind fun _ => Steady.waitOr _ _ _ _

theorem Sends.sendFramed (lastData : Bool) (b : Byte) : Sends (sendFramed lastData b) 1 := by
  intro c m
  refine ((Steady.pause _) c m |>.mono (fun _ x => x) (fun _ _ x => x) fun _ x => x.sent 1).bind fun _ =>
    ((Steady.getLine _) c m |>.mono (fun _ x => x) (fun _ _ x => x) fun _ x => x.sent 1).bind fun _ =>
    ((Steady.fail _).doIf c m |>.mono (fun _ x => x) (fun _ _ x => x) fun _ x => x.sent 1).bind fun _ =>
    ((Steady.releaseLines _) c m |>.mono (fun _ x => x) (fun _ _ x => x) fun _ x => x.sent 1).bind fun _ =>
    ((Steady.waitOr _ _ _ _) c m |>.mono (fun _ x => x) (fun _ _ x => x) fun _ x => x.sent 1).bind fun _ =>
    (Steady.eoiHold.doIf c m |>.mono (fun _ x => x) (fun _ _ x => x) fun _ x => x.sent 1).bind fun _ =>
    ((Steady.assertLines _) c m |>.mono (fun _ x => x) (fun _ _ x => x) fun _ x => x.sent 1).bind fun _ =>
    ((Steady.writeByte b) c m |>.mono (fun _ x => x) (fun _ _ x => x) fun _ x => x.sent 1).bind fun _ => ?_
  exact (Sends.countByte c m).bind fun _ => (Steady.pause _) (c + 1) m |>.mono (fun _ x => x) (fun _ _ x => x)
    fun s x => ⟨by rw [x.1]; omega, by rw [x.1], x.2.1, x.2.2⟩

theorem Sends.sendFramedEach (atn : Bool) (bytes : List Byte) : Sends (sendFramedEach atn bytes) bytes.length := by
  induction bytes with
  | nil => exact (Steady.pure _).sends
  | cons b rest ih =>
    have k := (Sends.sendFramed (rest.isEmpty && !atn) b).bind ih
    rw [Nat.add_comm] at k
    exact k

theorem Steady.turnAround {b : Bool} : Steady b turnAround b :=
  (Steady.assertLines _).bind fun _ => (Steady.releaseLines _).bind fun _ => (Steady.releaseLines _).bind fun _ =>
    Steady.waitOr _ _ _ _

theorem Steady.endRawWrite {b : Bool} (talk : Bool) : Steady b (endRawWrite talk) b := by
  refine Steady.bind (b' := b) ?_ fun _ => Steady.pause _
  cases talk
  · exact Steady.releaseLines _
  · exact Steady.turnAround

/-- `raw_write` counts the bytes whose acknowledge it saw, from 0; a whole write counts all of them (R172, R177). -/
theorem rawWrite_ends (bytes : List Byte) (atn talk : Bool) (c : Nat) (m : Memory) :
    Ends (Holds c m false) (rawWrite bytes atn talk) (fun _ => Holds bytes.length m false)
      (Sent 0 bytes.length m) := by
  have h0 : Ends (Holds c m false) (beginRawWrite atn) (fun _ => Holds 0 m false) (Holds 0 m false) :=
    Ends.bind (Q := fun _ => Holds 0 m false) (Ends.act fun s hs => ⟨rfl, hs.2.1, hs.2.2⟩) fun _ =>
      (Steady.releaseLines _ 0 m).bind fun _ => (Steady.assertLines _ 0 m).bind fun _ =>
        ((Steady.setBusState _).doIf 0 m).bind fun _ => Steady.waitOr _ _ _ _ 0 m
  refine (h0.mono (fun _ x => x) (fun _ _ x => x) fun _ x => x.sent _).bind fun _ => ?_
  have k := (Sends.sendFramedEach atn bytes 0 m).bind fun _ =>
    (Steady.endRawWrite talk (0 + bytes.length) m).mono (fun _ x => x) (fun _ _ x => x)
      fun s x => (⟨by omega, by rw [x.1], x.2.1, x.2.2⟩ : Sent 0 bytes.length m s)
  rwa [Nat.zero_add] at k

/-! ## Operations that receive: every counted byte is in the buffer -/

/-- What an operation that receives may leave: a count between `c` and `c + n`, every counted byte written, the
interrupt unmasked. -/
def Got (c n : Nat) (s : State) : Prop :=
  c ≤ s.count ∧ s.count ≤ c + n ∧ (∀ a, a < s.count → (s.buffer.get? a).isSome = true) ∧ s.irqOff = false

/-- A byte count at which every counted byte is in the buffer, whose capacity is `cap`. -/
def Filled (cap c : Nat) (s : State) : Prop :=
  s.count = c ∧ (∀ a, a < c → (s.buffer.get? a).isSome = true) ∧ s.irqOff = false ∧ s.cfg.bufSize = cap

theorem Filled.got {cap c : Nat} {s : State} (h : Filled cap c s) (n : Nat) : Got c n s :=
  ⟨by rw [h.1], by rw [h.1]; omega, by rw [h.1]; exact h.2.1, h.2.2.1⟩

theorem Steady.filled {α : Type} {op : Engine α} (h : Steady false op false) (hf : Framed op) (cap c : Nat) :
    Ends (Filled cap c) op (fun _ => Filled cap c) (Filled cap c) := by
  intro s hs
  have k : ∀ {t : State}, t.cfg = s.cfg → Holds c s.buffer false t → Filled cap c t := fun e x =>
    ⟨x.1, by rw [x.2.1]; exact hs.2.1, x.2.2, by rw [e]; exact hs.2.2.2⟩
  exact (((h c s.buffer).framed hf s).mono (fun _ x => x) (fun _ _ x => k x.2.cfg x.1)
    fun _ x => k x.2.cfg x.1 :
      Ends (fun u => Holds c s.buffer false u ∧ u = s) op (fun _ => Filled cap c) (Filled cap c)) s
    ⟨⟨hs.1, rfl, hs.2.2.1⟩, rfl⟩

theorem storeByte_ends (b : Byte) {cap c : Nat} (hc : c < cap) (E : State → Prop) :
    Ends (Filled cap c) (storeByte b) (fun _ => Filled cap (c + 1)) E := by
  intro s hs
  have hb : s.count + [b].length ≤ s.cfg.bufSize := by rw [hs.1, hs.2.2.2]; exact hc
  simp only [storeByte, State.memWrite_in s hb]
  refine ⟨congrArg (· + 1) hs.1, fun a ha => ?_, hs.2.2⟩
  have hbuf : (s.putBytes s.count [b]).buffer = s.buffer.set s.count b := rfl
  show (((s.putBytes s.count [b]).buffer).get? a).isSome = true
  rw [hbuf]
  by_cases e : a = c
  · subst e; rw [hs.1]; simp
  · exact Memory.isSome_get?_set _ _ _ (hs.2.1 a (by omega))

theorem receiveEach_ends {receive : Engine Byte} (h : Steady false receive false) (hf : Framed receive) {cap : Nat}
    (n : Nat) :
    ∀ {c : Nat}, c + n ≤ cap →
      Ends (Filled cap c) (receiveEach receive n) (fun _ => Filled cap (c + n)) (Got c n) := by
  induction n with
  | zero => intro c _; exact Ends.pure _ fun _ x => x
  | succ n ih =>
    intro c hc
    refine ((h.filled hf cap c).mono (fun _ x => x) (fun _ _ x => x) fun _ x => x.got (n + 1)).bind fun b =>
      (storeByte_ends b (by omega) _).bind fun _ =>
        (ih (c := c + 1) (by omega)).mono (fun _ x => x) (fun _ s x => ?_) fun s x => ?_
    · rw [show c + (n + 1) = c + 1 + n by omega]; exact x
    · exact ⟨by have := x.1; omega, by have := x.2.1; omega, x.2.2⟩

theorem readLoop_ends {cap : Nat} (n : Nat) :
    ∀ {c : Nat}, c + n ≤ cap → Ends (Filled cap c) (readLoop n) (fun _ => Got c n) (Got c n) := by
  induction n with
  | zero => intro c _; exact Ends.pure _ fun _ x => x.got 0
  | succ n ih =>
    intro c hc
    have hgot : ∀ s, Filled cap (c + 1) s → Got c (n + 1) s := fun s x =>
      ⟨by rw [x.1]; omega, by rw [x.1]; omega, by rw [x.1]; exact x.2.1, x.2.2.1⟩
    refine (((Steady.waitOr _ _ _ _).filled (Framed.waitOr _ _ _ _) cap c).mono (fun _ x => x) (fun _ _ x => x)
      fun _ x => x.got (n + 1)).bind fun _ =>
        ((Steady.readByte.filled Framed.readByte cap c).mono (fun _ x => x) (fun _ _ x => x)
          fun _ x => x.got (n + 1)).bind fun b => (storeByte_ends b (by omega) _).bind fun _ =>
            (((Steady.pause _).filled (Framed.pause _) cap (c + 1)).mono (fun _ x => x) (fun _ _ x => x) hgot).bind
              fun _ => Ends.bind (Q := fun _ => Filled cap (c + 1)) (fun _ x => x) fun s => ?_
    cases s.eoi
    · exact (ih (c := c + 1) (by omega)).mono (fun _ x => x)
        (fun _ s x => ⟨by have := x.1; omega, by have := x.2.1; omega, x.2.2⟩)
        fun s x => ⟨by have := x.1; omega, by have := x.2.1; omega, x.2.2⟩
    · exact Ends.pure _ hgot

/-- `read` of a protocol: it stores at most `cap` bytes, all counted bytes are in the buffer, and no access leaves
the buffer (R140, R153, R158, R162, R180). -/
theorem readOp_ends (p : Proto) {cap n : Nat} (h : n ≤ cap) :
    Ends (fun s => s.irqOff = false ∧ s.cfg.bufSize = cap) (readOp p n) (fun _ => Got 0 n) (Got 0 n) := by
  refine Ends.bind (Q := fun _ => Filled cap 0)
    (Ends.act fun s hs => ⟨rfl, fun a ha => absurd ha (Nat.not_lt_zero a), hs⟩) fun _ => ?_
  have hall : ∀ {receive : Engine Byte}, Steady false receive false → Framed receive →
      Ends (Filled cap 0) (receiveEach receive n) (fun _ => Got 0 n) (Got 0 n) := fun hr hf =>
    (receiveEach_ends hr hf n (c := 0) (by omega)).mono (fun _ x => x)
      (fun _ s x => ⟨Nat.zero_le _, by rw [x.1], by rw [x.1]; exact x.2.1, x.2.2.1⟩) fun _ x => x
  have hgot : ∀ {op : Engine Unit}, Steady false op false → Framed op →
      Ends (Filled cap 0) op (fun _ => Filled cap 0) (Got 0 n) := fun ho hf =>
    (ho.filled hf cap 0).mono (fun _ x => x) (fun _ _ x => x) fun _ x => x.got n
  have hrel : ∀ m, Ends (Filled cap 0) (act (State.releaseLines m)) (fun _ => Filled cap 0) (Got 0 n) := fun m =>
    hgot (Steady.releaseLines m) (Framed.act (Frame.releaseLines m))
  have hport := hgot Steady.portInput Framed.portInput
  cases p
  · refine Ends.bind (Q := fun _ => Filled cap 0) (fun _ x => x) fun s => ?_
    cases s.eoi
    · exact readLoop_ends n (by omega)
    · exact Ends.pure _ fun _ x => x.got n
  · exact (hrel _).bind fun _ => hall Steady.s2ReadByte Framed.s2ReadByte
  · exact (hrel _).bind fun _ => hport.bind fun _ => hall Steady.ppReadByte Framed.ppReadByte
  · exact (hrel _).bind fun _ => hport.bind fun _ => hall Steady.p2ReadByte Framed.p2ReadByte

/-- `write` of a protocol: it counts acknowledged bytes from 0; one that ends well counts all of them (R140, R177). -/
theorem writeOp_ends (p : Proto) (bytes : List Byte) (m : Memory) :
    Ends (fun s => s.buffer = m ∧ s.irqOff = false) (writeOp p bytes) (fun _ => Holds bytes.length m false)
      (Sent 0 bytes.length m) := by
  refine Ends.bind (Q := fun _ => Holds 0 m false) (Ends.act fun s hs => ⟨rfl, hs.1, hs.2⟩) fun _ => ?_
  have h0 : ∀ {op : Engine Unit}, Sends op bytes.length →
      Ends (Holds 0 m false) op (fun _ => Holds bytes.length m false) (Sent 0 bytes.length m) := fun hs =>
    (hs 0 m).mono (fun _ x => x) (fun _ _ x => by rwa [Nat.zero_add] at x) fun _ x => x
  cases p
  · exact rawWrite_ends bytes false false 0 m
  · exact h0 (Sends.s2Write bytes)
  · exact h0 (Sends.ppWrite bytes)
  · exact h0 (Sends.p2Write bytes)

/-! ## Reset, the deferred commands and the handler's reports -/

theorem Steady.kick {b : Bool} : Steady b (Sys2Proof.Machine.act State.kick) b :=
  Steady.act fun _ => ⟨rfl, rfl, fun h => h⟩

theorem Steady.probeFree {b : Bool} : Steady b probeFree b := by
  refine (Steady.releaseLines _).bind fun _ => (Steady.pause _).bind fun _ => Steady.poll.bind fun m => ?_
  split
  · exact Steady.pure _
  · refine (Steady.assertLines _).bind fun _ => (Steady.pause _).bind fun _ => (Steady.getLine _).bind
      fun answered => (Steady.releaseLines _).bind fun _ => ?_
    cases answered
    · exact Steady.pure _
    · exact (Steady.pause _).bind fun _ => (Steady.getLine _).bind fun _ => Steady.pure _

theorem Steady.probeLoop {b : Bool} (n : Nat) : Steady b (probeLoop n) b := by
  induction n with
  | zero => exact Steady.fail _
  | succ n ih =>
    refine Steady.kick.bind fun _ => Steady.probeFree.bind fun free => ?_
    cases free
    · exact (Steady.pause _).bind fun _ => ih
    · exact Steady.setBusState _

theorem Steady.busReset {b : Bool} : Steady b busReset b :=
  (Steady.releaseLines _).bind fun _ => (Steady.assertLines _).bind fun _ => (Steady.pause _).bind fun _ =>
    (Steady.releaseLines _).bind fun _ => Steady.get.bind fun _ => Steady.probeLoop _

theorem Steady.irqPauseOp {b : Bool} : Steady b irqPauseOp false :=
  Steady.irqMask.bind fun _ => (Steady.pause _).bind fun _ => Steady.irqUnmask

/-- A successful read of the deferred command's bytes. -/
theorem readBuffer_ends {cap addr n : Nat} (m : Memory) (E : State → Prop) (h : addr + n ≤ cap)
    (hw : ∀ a, addr ≤ a → a < addr + n → (m.get? a).isSome = true) :
    Ends (fun s => Holds 0 m false s ∧ s.cfg.bufSize = cap) (readBuffer addr n)
      (fun bs s => bs.length = n ∧ Holds 0 m false s) E := by
  rintro s ⟨hs, hcap⟩
  obtain ⟨bs, hbs, hl⟩ := State.memRead_written (s := s) (by rw [hcap]; exact h) (by rw [hs.2.1]; exact hw)
  simp only [readBuffer, hbs]
  exact ⟨hl, hs⟩

theorem iecWaitOp_ends {cap : Nat} (m : Memory) (hcap : 2 ≤ cap) (hw : ∀ a, a < 2 → (m.get? a).isSome = true) :
    Ends (fun s => Holds 0 m false s ∧ s.cfg.bufSize = cap) iecWaitOp (fun _ => Holds 0 m false)
      (Holds 0 m false) := by
  refine Ends.bind ((readBuffer_ends m _ (by omega) fun a _ h => hw a (by omega))) fun bs => ?_
  refine Ends.mono (P := Holds 0 m false) ?_ (fun _ x => x.2) (fun _ _ x => x) fun _ x => x
  refine (Steady.waitFor _ _ _ 0 m).bind fun ok => (Steady.poll 0 m).bind fun _ => ?_
  cases ok
  · exact (Ends.act (Q := Holds 0 m false) fun s hs =>
      ⟨(State.logEvent_count _ _).trans hs.1, (State.logEvent_buffer _ _).trans hs.2.1,
        (State.logEvent_irqOff _ _).trans hs.2.2⟩).bind fun _ => Ends.pure _ fun _ x => x
  · exact Ends.pure _ fun _ x => x

/-- What a deferred operation leaves. -/
def Calm (m : Memory) (s : State) : Prop := s.buffer = m ∧ s.irqOff = false

theorem withCount_ends {P : State → Prop} {op : Engine Unit} {Q : State → Prop} {E : State → Prop}
    (h : Ends P op (fun _ => Q) E) :
    Ends P (withCount op) (fun r s => r = (.ok, byteOfCount s.count) ∧ Q s) E :=
  h.bind fun _ _ hs => ⟨rfl, hs⟩

/-- The deferred operations of R268: with the command bytes of R273 (g) written, none raises a fault. -/
theorem asyncOp_ends {cap : Nat} {acmd : Byte} {n : Nat} (m : Memory) (hcap : 2 ≤ cap)
    (h : Safety.asyncBytes acmd = some n) (hw : ∀ a, a < n → (m.get? a).isSome = true) :
    Ends (fun s => Calm m s ∧ s.cfg.bufSize = cap) (asyncOp acmd) (fun _ => Calm m) (Calm m) := by
  refine Ends.bind (Q := fun _ s => Holds 0 m false s ∧ s.cfg.bufSize = cap)
    (Ends.act fun s hs => ⟨⟨rfl, hs.1.1, hs.1.2⟩, hs.2⟩) fun _ => ?_
  have hwrite : ∀ (bytes : List Byte) (atn talk : Bool) (op : Engine Unit), Steady false op false →
      Ends (Holds 0 m false) (rawWrite bytes atn talk >>= fun _ => op) (fun _ => Calm m) (Calm m) :=
    fun bytes atn talk op ho => Ends.bind
      ((rawWrite_ends bytes atn talk 0 m).mono (fun _ x => x) (fun _ _ x => x) fun _ x => ⟨x.2.2.1, x.2.2.2⟩)
      fun _ => (ho _ m).mono (fun _ x => x) (fun _ _ x => ⟨x.2.1, x.2.2⟩) fun _ x => ⟨x.2.1, x.2.2⟩
  have hcount : ∀ {op : Engine Unit}, Ends (Holds 0 m false) op (fun _ => Calm m) (Calm m) →
      Ends (Holds 0 m false) (withCount op) (fun _ => Calm m) (Calm m) := fun ho =>
    (withCount_ends ho).mono (fun _ x => x) (fun _ _ x => x.2) fun _ x => x
  have hread : ∀ (k : Nat) (f : List Byte → Engine (Status × Byte)), k ≤ 2 → k ≤ n →
      (∀ bs, Ends (Holds 0 m false) (f bs) (fun _ => Calm m) (Calm m)) →
      Ends (fun s => Holds 0 m false s ∧ s.cfg.bufSize = cap) (readBuffer 0 k >>= f) (fun _ => Calm m) (Calm m) :=
    fun k f hk hkn hf =>
    Ends.bind (readBuffer_ends m _ (by omega) fun a _ ha => hw a (by omega)) fun bs =>
      (hf bs).mono (fun _ x => x.2) (fun _ _ x => x) fun _ x => x
  have hsteady : ∀ {op : Engine Unit}, Steady false op false →
      Ends (Holds 0 m false) op (fun _ => Calm m) (Calm m) := fun ho =>
    (ho 0 m).mono (fun _ x => x) (fun _ _ x => ⟨x.2.1, x.2.2⟩) fun _ x => ⟨x.2.1, x.2.2⟩
  unfold Safety.asyncBytes at h
  split <;> rename_i e <;> simp only [e] at h
  · cases h
    exact hread 2 _ (by decide) (by omega) fun bs => hcount (hwrite bs _ _ _ (Steady.setBusState _))
  · cases h
    exact hread 2 _ (by decide) (by omega) fun bs => hcount (hwrite bs _ _ _ (Steady.setBusState _))
  · cases h
    exact hread 2 _ (by decide) (by omega) fun bs => hcount (hwrite bs _ _ _ (Steady.setBusState _))
  · cases h
    exact hread 2 _ (by decide) (by omega) fun bs => hcount (hwrite bs _ _ _ (Steady.setBusState _))
  · cases h
    exact hread 1 _ (by decide) (by omega) fun bs => hcount (hwrite bs _ _ _
      ((Steady.releaseLines _).bind fun _ => Steady.setBusState _))
  · cases h
    exact hread 1 _ (by decide) (by omega) fun bs => hcount (hwrite bs _ _ _
      ((Steady.releaseLines _).bind fun _ => Steady.setBusState _))
  · exact (hcount (hsteady Steady.busReset)).mono (fun _ x => x.1) (fun _ _ x => x) fun _ x => x
  · cases h
    exact (iecWaitOp_ends m hcap hw).mono (fun _ x => x) (fun _ _ x => ⟨x.2.1, x.2.2⟩) fun _ x => ⟨x.2.1, x.2.2⟩
  · exact (hcount (hsteady Steady.irqPauseOp)).mono (fun _ x => x.1) (fun _ _ x => x) fun _ x => x
  · cases h

/-- An operation that raises no fault is reported, in the state it left (R131, R287). -/
theorem engineReport_ends {P : State → Prop} {op : Engine (Status × Byte)} {Q E R : State → Prop}
    (h : Ends P op (fun _ => Q) E) (hf : Framed op) (hq : ∀ s, Q s → R s) (he : ∀ s, E s → R s) {s : State} (hs : P s) :
    ∃ st n t, engineReport (op s) = .ok (st, n, t) ∧ R t ∧ Frame s t := by
  have h1 := h s hs
  have h2 := hf s
  revert h1 h2
  unfold after
  cases op s with
  | ok a t => exact fun h1 h2 => ⟨a.1, a.2, t, rfl, hq t h1, h2⟩
  | error e t =>
    cases e with
    | failed st => exact fun h1 h2 => ⟨st, byteOfCount t.count, t, rfl, he t h1, h2⟩
    | fault f => exact fun h1 _ => h1.elim

/-- READ mode: the handler always ends, in `readDone`, with the received bytes in the buffer (R266). -/
theorem handleRead_ends {s : State} (h : s.fill.toNat ≤ s.cfg.bufSize) (hi : s.irqOff = false) :
    ∃ st n t, handleRead s = .next (t.finishRequest .readDone (byteOfCount t.count) st n) ∧ Got 0 s.fill.toNat t ∧
      Frame s t := by
  have k := readOp_ends s.proto h
  obtain ⟨st, n, t, hr, ht, hf⟩ := engineReport_ends (R := Got 0 s.fill.toNat)
    ((withCount_ends (Q := Got 0 s.fill.toNat) k).mono (fun _ x => x) (fun _ _ x => x.2) fun _ x => x)
    (Framed.readOp s.proto s.fill.toNat).withCount (fun _ x => x) (fun _ x => x) ⟨hi, rfl⟩
  exact ⟨st, n, t, by simp [handleRead, hr], ht, hf⟩

/-- WRITE mode: with the payload in the buffer the handler always ends, in `result` (R267). -/
theorem handleWrite_ends {s : State} (h : s.fill.toNat ≤ s.cfg.bufSize) (hi : s.irqOff = false)
    (hw : ∀ a, a < s.fill.toNat → (s.buffer.get? a).isSome = true) :
    ∃ st n t, handleWrite s = .next (t.finishRequest .result 0 st n) ∧ Calm s.buffer t ∧ t.count ≤ s.fill.toNat ∧
      Frame s t := by
  obtain ⟨bs, hbs, hl⟩ := State.memRead_written (s := s) (addr := 0) (n := s.fill.toNat) (by omega)
    fun a _ ha => hw a (by omega)
  have k : Ends (fun u => u = s) (withCount (writeRequest s))
      (fun _ t => Calm s.buffer t ∧ t.count ≤ s.fill.toNat) (fun t => Calm s.buffer t ∧ t.count ≤ s.fill.toNat) := by
    have k1 : Ends (fun u => u = s) (writeRequest s) (fun _ t => Calm s.buffer t ∧ t.count ≤ s.fill.toNat)
        (fun t => Calm s.buffer t ∧ t.count ≤ s.fill.toNat) := by
      refine Ends.bind (Q := fun r u => r = bs ∧ u = s) (fun u hu => ?_) fun r => ?_
      · subst hu
        simp [readBuffer, hbs]
      · intro u hu
        obtain ⟨rfl, rfl⟩ := hu
        exact ((writeOp_ends u.proto r u.buffer).mono (fun _ x => x)
          (fun _ t x => ⟨⟨x.2.1, x.2.2⟩, by rw [x.1, hl]⟩)
          fun t x => ⟨⟨x.2.2.1, x.2.2.2⟩, by have := x.2.1; omega⟩ :
            Ends (fun v => v.buffer = u.buffer ∧ v.irqOff = false) (writeOp u.proto r)
              (fun _ t => Calm u.buffer t ∧ t.count ≤ u.fill.toNat) (fun t => Calm u.buffer t ∧ t.count ≤ u.fill.toNat)) u ⟨rfl, hi⟩
    exact (withCount_ends (Q := fun t => Calm s.buffer t ∧ t.count ≤ s.fill.toNat) k1).mono (fun _ x => x)
      (fun _ _ x => x.2) fun _ x => x
  obtain ⟨st, n, t, hr, ht, hf⟩ := engineReport_ends (R := fun t => Calm s.buffer t ∧ t.count ≤ s.fill.toNat) k
    (Framed.writeRequest s).withCount (fun _ x => x) (fun _ x => x) rfl
  exact ⟨st, n, t, by simp [handleWrite, hr], ht.1, ht.2, hf⟩

/-- ASYNC mode: with the command bytes in the buffer the handler always ends, in `result` (R268). -/
theorem handleAsync_ends {s : State} (hc : 2 ≤ s.cfg.bufSize) (hi : s.irqOff = false)
    (h : Safety.asyncBytes s.acmd = some s.fill.toNat)
    (hw : ∀ a, a < s.fill.toNat → (s.buffer.get? a).isSome = true) :
    ∃ st n t, handleAsync s = .next (t.finishRequest .result 0 st n) ∧ Calm s.buffer t ∧ Frame s t := by
  obtain ⟨st, n, t, hr, ht, hf⟩ := engineReport_ends (R := Calm s.buffer) (asyncOp_ends s.buffer hc h hw)
    (Framed.asyncOp s.acmd) (fun _ x => x) (fun _ x => x) ⟨⟨rfl, hi⟩, rfl⟩
  exact ⟨st, n, t, by simp [handleAsync, hr], ht, hf⟩

end Sys2Proof.Machine
end

