-- ==== Sys2Proof/Laws/PerInstr.lean ====
section
/-! SUPPORT. One family of statements per instruction, about its encoding alone: the bits that the opcode table fixes
for its row (spec/opcode_table.json: mask and match; 30_encoding.md R90, R94, R96). -/

namespace Sys2Proof.Laws.FixedBits

/-- A command word whose bits under `mask` are `value`. -/
def wordLike (mask value : CmdWord) : Code → Prop
  | .word w => w &&& mask = value
  | .chunk _ => False
  | .busByte _ => False

/-- A bus command byte whose bits under `mask` are `value`. -/
def byteLike (mask value : Byte) : Code → Prop
  | .word _ => False
  | .chunk _ => False
  | .busByte b => b &&& mask = value

/-- A payload chunk. -/
def chunkLike : Code → Prop
  | .word _ => False
  | .chunk _ => True
  | .busByte _ => False

/-- The code of `i` has the bits that the opcode table fixes for its row. -/
def Statement (i : Instr) : Prop :=
  match i with
  | .info => wordLike 0xFF 0x00 (encode .info)
  | .read len => wordLike 0xFF 0x01 (encode (.read len))
  | .write len => wordLike 0xFF 0x02 (encode (.write len))
  | .talk dev sec => wordLike 0xFF 0x03 (encode (.talk dev sec))
  | .listen dev sec => wordLike 0xFF 0x04 (encode (.listen dev sec))
  | .untalk => wordLike 0xFF 0x05 (encode .untalk)
  | .unlisten => wordLike 0xFF 0x06 (encode .unlisten)
  | .openDev dev sec => wordLike 0xFF 0x07 (encode (.openDev dev sec))
  | .closeDev dev sec => wordLike 0xFF 0x08 (encode (.closeDev dev sec))
  | .reset => wordLike 0xFF 0x09 (encode .reset)
  | .getEoi => wordLike 0xFF 0x0A (encode .getEoi)
  | .clearEoi => wordLike 0xFF 0x0B (encode .clearEoi)
  | .requestRead n => wordLike 0xFF 0x0C (encode (.requestRead n))
  | .getResult => wordLike 0xFF 0x0D (encode .getResult)
  | .ppRead => wordLike 0xFF 0x0E (encode .ppRead)
  | .ppWrite val => wordLike 0xFF 0x0F (encode (.ppWrite val))
  | .iecPoll => wordLike 0xFF 0x10 (encode .iecPoll)
  | .iecWait mask state => wordLike 0xFF 0x11 (encode (.iecWait mask state))
  | .iecSetRelease setm relm => wordLike 0xFF 0x12 (encode (.iecSetRelease setm relm))
  | .parburst0 => wordLike 0xFF 0x13 (encode .parburst0)
  | .parburst1 => wordLike 0xFF 0x14 (encode .parburst1)
  | .parburst2 => wordLike 0xFF 0x15 (encode .parburst2)
  | .parburst3 => wordLike 0xFF 0x16 (encode .parburst3)
  | .eepromRead params => wordLike 0xFF 0x17 (encode (.eepromRead params))
  | .eepromWrite params => wordLike 0xFF 0x18 (encode (.eepromWrite params))
  | .flash params => wordLike 0xFF 0x19 (encode (.flash params))
  | .subS1Info => wordLike 0xFFFF 0x20 (encode .subS1Info)
  | .subS1Read n => wordLike 0xFFFF 0x120 (encode (.subS1Read n))
  | .subS1Write len => wordLike 0xFFFF 0x220 (encode (.subS1Write len))
  | .subS2Info => wordLike 0xFFFF 0x21 (encode .subS2Info)
  | .subS2Read n => wordLike 0xFFFF 0x121 (encode (.subS2Read n))
  | .subS2Write len => wordLike 0xFFFF 0x221 (encode (.subS2Write len))
  | .subPpInfo => wordLike 0xFFFF 0x22 (encode .subPpInfo)
  | .subPpRead n => wordLike 0xFFFF 0x122 (encode (.subPpRead n))
  | .subPpWrite len => wordLike 0xFFFF 0x222 (encode (.subPpWrite len))
  | .subP2Info => wordLike 0xFFFF 0x23 (encode .subP2Info)
  | .subP2Read n => wordLike 0xFFFF 0x123 (encode (.subP2Read n))
  | .subP2Write len => wordLike 0xFFFF 0x223 (encode (.subP2Write len))
  | .irqPause => wordLike 0xFF 0xFD (encode .irqPause)
  | .getEvent idx => wordLike 0xFF 0xFE (encode (.getEvent idx))
  | .echo e0 e1 e2 e3 => wordLike 0xFF 0xFF (encode (.echo e0 e1 e2 e3))
  | .unassignedLow cmd =>
    ∀ c, Instr.wellFormed c (.unassignedLow cmd) = true → ∃ w, encode (.unassignedLow cmd) = .word w ∧ 0x1A#8 ≤ cmdOf w ∧ cmdOf w ≤ 0x1F#8
  | .unassignedHigh cmd =>
    ∀ c, Instr.wellFormed c (.unassignedHigh cmd) = true → ∃ w, encode (.unassignedHigh cmd) = .word w ∧ 0x24#8 ≤ cmdOf w
  | .badSubOpcode p sub =>
    ∀ c, Instr.wellFormed c (.badSubOpcode p sub) = true → ∃ w, encode (.badSubOpcode p sub) = .word w ∧ 0x20#8 ≤ cmdOf w ∧ cmdOf w ≤ 0x23#8 ∧ 0x03#8 ≤ paramOf 0 w
  | .dataOut bytes =>
    chunkLike (encode (.dataOut bytes))
  | .busListen dev =>
    byteLike 0xE0 0x20 (encode (.busListen dev))
  | .busUnlisten =>
    byteLike 0xFF 0x3F (encode .busUnlisten)
  | .busTalk dev =>
    byteLike 0xE0 0x40 (encode (.busTalk dev))
  | .busUntalk =>
    byteLike 0xFF 0x5F (encode .busUntalk)
  | .busSecond sec =>
    byteLike 0xF0 0x60 (encode (.busSecond sec))
  | .busClose sec =>
    byteLike 0xF0 0xE0 (encode (.busClose sec))
  | .busOpen sec =>
    byteLike 0xF0 0xF0 (encode (.busOpen sec))

theorem info : Statement .info := by
  exact (and_first_byte _).trans (by rw [cmdOf_wordOfBytes]; decide)
theorem read (len : BitVec 16) : Statement (.read len) := by
  exact (and_first_byte _).trans (by rw [cmdOf_wordOfBytes]; decide)
theorem write (len : BitVec 16) : Statement (.write len) := by
  exact (and_first_byte _).trans (by rw [cmdOf_wordOfBytes]; decide)
theorem talk (dev sec : Byte) : Statement (.talk dev sec) := by
  exact (and_first_byte _).trans (by rw [cmdOf_wordOfBytes]; decide)
theorem listen (dev sec : Byte) : Statement (.listen dev sec) := by
  exact (and_first_byte _).trans (by rw [cmdOf_wordOfBytes]; decide)
theorem untalk : Statement .untalk := by
  exact (and_first_byte _).trans (by rw [cmdOf_wordOfBytes]; decide)
theorem unlisten : Statement .unlisten := by
  exact (and_first_byte _).trans (by rw [cmdOf_wordOfBytes]; decide)
theorem openDev (dev sec : Byte) : Statement (.openDev dev sec) := by
  exact (and_first_byte _).trans (by rw [cmdOf_wordOfBytes]; decide)
theorem closeDev (dev sec : Byte) : Statement (.closeDev dev sec) := by
  exact (and_first_byte _).trans (by rw [cmdOf_wordOfBytes]; decide)
theorem reset : Statement .reset := by
  exact (and_first_byte _).trans (by rw [cmdOf_wordOfBytes]; decide)
theorem getEoi : Statement .getEoi := by
  exact (and_first_byte _).trans (by rw [cmdOf_wordOfBytes]; decide)
theorem clearEoi : Statement .clearEoi := by
  exact (and_first_byte _).trans (by rw [cmdOf_wordOfBytes]; decide)
theorem requestRead (n : Byte) : Statement (.requestRead n) := by
  exact (and_first_byte _).trans (by rw [cmdOf_wordOfBytes]; decide)
theorem getResult : Statement .getResult := by
  exact (and_first_byte _).trans (by rw [cmdOf_wordOfBytes]; decide)
theorem ppRead : Statement .ppRead := by
  exact (and_first_byte _).trans (by rw [cmdOf_wordOfBytes]; decide)
theorem ppWrite (val : Byte) : Statement (.ppWrite val) := by
  exact (and_first_byte _).trans (by rw [cmdOf_wordOfBytes]; decide)
theorem iecPoll : Statement .iecPoll := by
  exact (and_first_byte _).trans (by rw [cmdOf_wordOfBytes]; decide)
theorem iecWait (mask state : Byte) : Statement (.iecWait mask state) := by
  exact (and_first_byte _).trans (by rw [cmdOf_wordOfBytes]; decide)
theorem iecSetRelease (setm relm : Byte) : Statement (.iecSetRelease setm relm) := by
  exact (and_first_byte _).trans (by rw [cmdOf_wordOfBytes]; decide)
theorem parburst0 : Statement .parburst0 := by
  exact (and_first_byte _).trans (by rw [cmdOf_wordOfBytes]; decide)
theorem parburst1 : Statement .parburst1 := by
  exact (and_first_byte _).trans (by rw [cmdOf_wordOfBytes]; decide)
theorem parburst2 : Statement .parburst2 := by
  exact (and_first_byte _).trans (by rw [cmdOf_wordOfBytes]; decide)
theorem parburst3 : Statement .parburst3 := by
  exact (and_first_byte _).trans (by rw [cmdOf_wordOfBytes]; decide)
theorem eepromRead (params : BitVec 48) : Statement (.eepromRead params) := by
  exact (and_first_byte _).trans (by rw [cmdOf_append]; decide)
theorem eepromWrite (params : BitVec 48) : Statement (.eepromWrite params) := by
  exact (and_first_byte _).trans (by rw [cmdOf_append]; decide)
theorem flash (params : BitVec 48) : Statement (.flash params) := by
  exact (and_first_byte _).trans (by rw [cmdOf_append]; decide)
theorem subS1Info : Statement .subS1Info := by
  exact (and_first_bytes _).trans (by rw [cmdOf_wordOfBytes, paramOf_zero_wordOfBytes]; decide)
theorem subS1Read (n : Byte) : Statement (.subS1Read n) := by
  exact (and_first_bytes _).trans (by rw [cmdOf_wordOfBytes, paramOf_zero_wordOfBytes]; decide)
theorem subS1Write (len : BitVec 16) : Statement (.subS1Write len) := by
  exact (and_first_bytes _).trans (by rw [cmdOf_wordOfBytes, paramOf_zero_wordOfBytes]; decide)
theorem subS2Info : Statement .subS2Info := by
  exact (and_first_bytes _).trans (by rw [cmdOf_wordOfBytes, paramOf_zero_wordOfBytes]; decide)
theorem subS2Read (n : Byte) : Statement (.subS2Read n) := by
  exact (and_first_bytes _).trans (by rw [cmdOf_wordOfBytes, paramOf_zero_wordOfBytes]; decide)
theorem subS2Write (len : BitVec 16) : Statement (.subS2Write len) := by
  exact (and_first_bytes _).trans (by rw [cmdOf_wordOfBytes, paramOf_zero_wordOfBytes]; decide)
theorem subPpInfo : Statement .subPpInfo := by
  exact (and_first_bytes _).trans (by rw [cmdOf_wordOfBytes, paramOf_zero_wordOfBytes]; decide)
theorem subPpRead (n : Byte) : Statement (.subPpRead n) := by
  exact (and_first_bytes _).trans (by rw [cmdOf_wordOfBytes, paramOf_zero_wordOfBytes]; decide)
theorem subPpWrite (len : BitVec 16) : Statement (.subPpWrite len) := by
  exact (and_first_bytes _).trans (by rw [cmdOf_wordOfBytes, paramOf_zero_wordOfBytes]; decide)
theorem subP2Info : Statement .subP2Info := by
  exact (and_first_bytes _).trans (by rw [cmdOf_wordOfBytes, paramOf_zero_wordOfBytes]; decide)
theorem subP2Read (n : Byte) : Statement (.subP2Read n) := by
  exact (and_first_bytes _).trans (by rw [cmdOf_wordOfBytes, paramOf_zero_wordOfBytes]; decide)
theorem subP2Write (len : BitVec 16) : Statement (.subP2Write len) := by
  exact (and_first_bytes _).trans (by rw [cmdOf_wordOfBytes, paramOf_zero_wordOfBytes]; decide)
theorem irqPause : Statement .irqPause := by
  exact (and_first_byte _).trans (by rw [cmdOf_wordOfBytes]; decide)
theorem getEvent (idx : Byte) : Statement (.getEvent idx) := by
  exact (and_first_byte _).trans (by rw [cmdOf_wordOfBytes]; decide)
theorem echo (e0 e1 e2 e3 : Byte) : Statement (.echo e0 e1 e2 e3) := by
  exact (and_first_byte _).trans (by rw [cmdOf_wordOfBytes]; decide)
theorem unassignedLow (cmd : Byte) : Statement (.unassignedLow cmd) := by
  intro c h
  refine ⟨wordOfBytes cmd 0 0 0 0 0 0, rfl, ?_⟩
  have e : cmdOf (wordOfBytes cmd 0 0 0 0 0 0) = cmd := cmdOf_wordOfBytes ..
  simpa [Instr.wellFormed, e] using h
theorem unassignedHigh (cmd : Byte) : Statement (.unassignedHigh cmd) := by
  intro c h
  refine ⟨wordOfBytes cmd 0 0 0 0 0 0, rfl, ?_⟩
  have e : cmdOf (wordOfBytes cmd 0 0 0 0 0 0) = cmd := cmdOf_wordOfBytes ..
  rw [e]
  simp only [Instr.wellFormed, Bool.and_eq_true, decide_eq_true_eq] at h
  exact h.1
theorem badSubOpcode (p : Proto) (sub : Byte) : Statement (.badSubOpcode p sub) := by
  intro c h
  refine ⟨wordOfBytes p.cmd sub 0 0 0 0 0, rfl, ?_⟩
  have e : cmdOf (wordOfBytes p.cmd sub 0 0 0 0 0) = p.cmd := cmdOf_wordOfBytes ..
  have e0 : paramOf 0 (wordOfBytes p.cmd sub 0 0 0 0 0) = sub := paramOf_zero_wordOfBytes ..
  simp only [Instr.wellFormed, decide_eq_true_eq] at h
  rw [e, e0]
  cases p <;> exact ⟨by decide, by decide, h⟩
theorem dataOut (bytes : List Byte) : Statement (.dataOut bytes) := by
  trivial
theorem busListen (dev : BitVec 5) : Statement (.busListen dev) := by
  refine BitVec.eq_of_getLsbD_eq fun i hi => ?_
  simp only [BitVec.getLsbD_and, BitVec.getLsbD_append]
  interval_cases i <;> simp
theorem busUnlisten : Statement .busUnlisten := by
  exact rfl
theorem busTalk (dev : BitVec 5) : Statement (.busTalk dev) := by
  refine BitVec.eq_of_getLsbD_eq fun i hi => ?_
  simp only [BitVec.getLsbD_and, BitVec.getLsbD_append]
  interval_cases i <;> simp
theorem busUntalk : Statement .busUntalk := by
  exact rfl
theorem busSecond (sec : BitVec 4) : Statement (.busSecond sec) := by
  refine BitVec.eq_of_getLsbD_eq fun i hi => ?_
  simp only [BitVec.getLsbD_and, BitVec.getLsbD_append]
  interval_cases i <;> simp
theorem busClose (sec : BitVec 4) : Statement (.busClose sec) := by
  refine BitVec.eq_of_getLsbD_eq fun i hi => ?_
  simp only [BitVec.getLsbD_and, BitVec.getLsbD_append]
  interval_cases i <;> simp
theorem busOpen (sec : BitVec 4) : Statement (.busOpen sec) := by
  refine BitVec.eq_of_getLsbD_eq fun i hi => ?_
  simp only [BitVec.getLsbD_and, BitVec.getLsbD_append]
  interval_cases i <;> simp

end Sys2Proof.Laws.FixedBits
end

