-- ==== Sys2Proof/Laws/Wire.lean ====
section
/-! SUPPORT. What the wire shows: samples taken from the input script, waits that end at once, and the pin entries that
a byte of ORIGINAL leaves (41_wire_modes.md R141). -/

namespace Sys2Proof.Machine

open Sys2Proof.Safety

/-! ## Samples (R121, R125) -/

theorem Inputs.nextLines_cons {i : Inputs} {p : LineMask} {rest : List LineMask} (h : i.lines = p :: rest) :
    i.nextLines = p := by simp [Inputs.nextLines, h]

theorem Inputs.dropLines_cons {i : Inputs} {p : LineMask} {rest : List LineMask} (h : i.lines = p :: rest) :
    i.dropLines = { i with lines := rest } := by simp [Inputs.dropLines, h]

/-- The next sample. -/
theorem peerAt_zero (i : Inputs) : peerAt i 0 = i.nextLines := by
  unfold peerAt Inputs.nextLines
  cases i.lines <;> simp

/-- The samples after the next one. -/
theorem peerAt_succ (i : Inputs) (k : Nat) : peerAt i (k + 1) = peerAt i.dropLines k := by
  unfold peerAt Inputs.dropLines
  cases h : i.lines with
  | nil => simp only [List.getElem?_nil, List.length_nil]; congr 1; omega
  | cons p rest => simp

theorem State.sense_cons {s : State} {p : LineMask} {rest : List LineMask} (h : s.inp.lines = p :: rest) :
    s.sense = s.drive ||| p := by
  simp [State.sense, Inputs.nextLines_cons h]

theorem State.sampled_lines {s : State} {p : LineMask} {rest : List LineMask} (h : s.inp.lines = p :: rest) :
    s.sampled.inp.lines = rest := by
  simp [State.sampled, Inputs.dropLines_cons h]

/-- A wait whose first sample matches ends at once: it restarts the watchdog and uses up the sample. -/
theorem State.wait_first {m v : LineMask} {s : State} (t : Nat) (h : s.sense &&& m = v) :
    s.wait m v t = (true, s.kick.sampled) := by
  have h' : s.kick.sense &&& m = v := h
  unfold State.wait State.waitLoop
  rw [if_pos h']

theorem waitOr_first {m v : LineMask} {s : State} (t : Config → Nat) (st : Status) (h : s.sense &&& m = v) :
    waitOr m v t st s = .ok () s.kick.sampled := by
  simp only [waitOr, State.wait_first _ h]

/-- One step of an engine operation that goes on. -/
theorem engine_bind_ok {α β : Type} {op : Engine α} {f : α → Engine β} {s t : State} {a : α}
    {r : EStateM.Result Stop State β} (h : op s = .ok a t) (k : f a t = r) : (op >>= f) s = r := by
  simp only [Bind.bind, EStateM.bind, h]; exact k

/-- One step of an engine operation that stops. -/
theorem engine_bind_error {α β : Type} {op : Engine α} {f : α → Engine β} {s t : State} {e : Stop}
    (h : op s = .error e t) : (op >>= f) s = .error e t := by
  simp only [Bind.bind, EStateM.bind, h]

/-! ## Pin entries -/

/-- What an observer sees of a pin entry but for its time. -/
abbrev Look := LineMask × Option Byte × Bool

/-- The look of a pin entry. -/
def Pins.look (p : Pins) : Look := (p.drive, p.port, p.irqOff)

/-- What the port shows. -/
def State.portLook (s : State) : Option Byte := if s.ppOe then some s.ppOut else none

/-- From `s` to `t` only the pins moved, as `new` shows (newest first), and time passed. -/
structure Moves (s t : State) (new : List Look) : Prop where
  eq : t =
    { s with
      drive := t.drive
      ppOut := t.ppOut
      ppOe := t.ppOe
      irqOff := t.irqOff
      now := t.now
      expiry := t.expiry
      inp := { s.inp with overs := t.inp.overs, oversDrawn := t.inp.oversDrawn }
      out := { s.out with pins := t.out.pins } }
  pins : ∃ ps, t.out.pins = ps ++ s.out.pins ∧ ps.map Pins.look = new

theorem Moves.refl (s : State) : Moves s s [] := ⟨rfl, [], rfl, rfl⟩

theorem Moves.trans {s t u : State} {new new' : List Look} (h : Moves s t new) (k : Moves t u new') :
    Moves s u (new' ++ new) where
  eq := by
    have := k.eq
    rw [h.eq] at this
    exact this
  pins := by
    obtain ⟨ps, h1, h2⟩ := h.pins
    obtain ⟨qs, k1, k2⟩ := k.pins
    exact ⟨qs ++ ps, by rw [k1, h1, List.append_assoc], by rw [List.map_append, h2, k2]⟩

theorem Moves.delay (n : Nat) (s : State) : Moves s (s.delay n) [] := by
  refine ⟨?_, [], rfl, rfl⟩
  have h := Inputs.dropOver_eq s.inp
  unfold State.delay
  simp only [State.mk.injEq, true_and, and_true]
  exact h

theorem Moves.assertLines (m : LineMask) (s : State) :
    Moves s (s.assertLines m) [(s.drive ||| m, s.portLook, s.irqOff)] :=
  (show Moves s ({ s with drive := s.drive ||| m } : State).show _ from ⟨rfl, [_], rfl, rfl⟩).trans (Moves.delay _ _)

theorem Moves.releaseLines (m : LineMask) (s : State) :
    Moves s (s.releaseLines m) [(s.drive &&& ~~~m, s.portLook, s.irqOff)] :=
  (show Moves s ({ s with drive := s.drive &&& ~~~m } : State).show _ from ⟨rfl, [_], rfl, rfl⟩).trans
    (Moves.delay _ _)

theorem Moves.setRelease (a r : LineMask) (s : State) :
    Moves s (s.setRelease a r) [((s.drive ||| a) &&& ~~~r, s.portLook, s.irqOff)] :=
  (show Moves s ({ s with drive := (s.drive ||| a) &&& ~~~r } : State).show _ from ⟨rfl, [_], rfl, rfl⟩).trans
    (Moves.delay _ _)

theorem Moves.irqMask (s : State) : Moves s s.irqMask [(s.drive, s.portLook, true)] := ⟨rfl, [_], rfl, rfl⟩
theorem Moves.irqUnmask (s : State) : Moves s s.irqUnmask [(s.drive, s.portLook, false)] := ⟨rfl, [_], rfl, rfl⟩

theorem Moves.portOut (b : Byte) (s : State) : Moves s (s.portOut b) [(s.drive, some b, s.irqOff)] :=
  (show Moves s ({ s with ppOut := b, ppOe := true } : State).show _ from ⟨rfl, [_], rfl, rfl⟩).trans
    (Moves.delay _ _)

theorem Moves.portOff (s : State) : Moves s s.portOff [(s.drive, none, s.irqOff)] := ⟨rfl, [_], rfl, rfl⟩

/-! ## The bits of an ORIGINAL byte (R141) -/

/-- `Safety.originalBits` on line levels and interrupt masks. -/
def wireBits (new : List (LineMask × Bool)) : List Bool :=
  (new.reverse.filter fun p => p.2 && decide (p.1 &&& Line.clock = 0)).map fun p => decide (p.1 &&& Line.data = 0)

/-- `Safety.originalBits` on looks. -/
def lookBits (new : List Look) : List Bool := wireBits (new.map fun p => (p.1, p.2.2))

theorem originalBits_look (ps : List Pins) : originalBits ps = lookBits (ps.map Pins.look) := by
  simp [originalBits, lookBits, wireBits, Pins.look, ← List.map_reverse, List.filter_map, Function.comp_def]

/-- The record holds the newest entry first, the bits come oldest first. -/
theorem lookBits_append (new old : List Look) : lookBits (new ++ old) = lookBits old ++ lookBits new := by
  simp [lookBits, wireBits]

/-- The line levels of a sender between two bits: CLOCK asserted, DATA released. -/
theorem senderIdle_cases :
    ∀ d : LineMask, d &&& Line.clock ≠ 0 → d &&& Line.data = 0 → d = 2 ∨ d = 6 ∨ d = 10 ∨ d = 14 := by decide

/-- One bit on the wire: a sender idle between bits shows it once, and is idle again. -/
theorem State.sendBit_moves (bit : Bool) {s : State} (hi : s.irqOff = true) (hc : s.drive &&& Line.clock ≠ 0)
    (hd : s.drive &&& Line.data = 0) :
    ∃ new, Moves s (s.sendBit bit) new ∧ lookBits new = [bit] ∧ (s.sendBit bit).drive = s.drive ∧
      (s.sendBit bit).irqOff = true ∧ (s.sendBit bit).ppOut = s.ppOut ∧ (s.sendBit bit).ppOe = s.ppOe ∧
      ∀ e ∈ new, e.1 &&& Line.atn = s.drive &&& Line.atn := by
  cases bit
  · refine ⟨_, ((((Moves.delay _ s).trans (Moves.assertLines _ _)).trans (Moves.releaseLines _ _)).trans
      (Moves.delay _ _)).trans (Moves.setRelease _ _ _), ?_, ?_, hi, rfl, rfl, ?_⟩
    · simp only [State.delay_drive, State.assertLines_drive, State.releaseLines_drive, State.delay_irqOff,
        State.assertLines_irqOff, State.releaseLines_irqOff, hi, lookBits, List.append_nil, List.nil_append,
        List.cons_append, List.map_cons, List.map_nil]
      rcases senderIdle_cases _ hc hd with h | h | h | h <;> rw [h] <;> decide
    · show (((s.drive ||| Line.data) &&& ~~~Line.clock) ||| Line.clock) &&& ~~~Line.data = s.drive
      rcases senderIdle_cases _ hc hd with h | h | h | h <;> rw [h] <;> decide
    · simp only [State.delay_drive, State.assertLines_drive, State.releaseLines_drive, List.append_nil,
        List.nil_append, List.cons_append, List.mem_cons, List.not_mem_nil, or_false, forall_eq_or_imp, forall_eq]
      rcases senderIdle_cases _ hc hd with h | h | h | h <;> rw [h] <;> decide
  · refine ⟨_, (((Moves.delay _ s).trans (Moves.releaseLines _ _)).trans (Moves.delay _ _)).trans
      (Moves.setRelease _ _ _), ?_, ?_, hi, rfl, rfl, ?_⟩
    · simp only [State.delay_drive, State.releaseLines_drive, State.delay_irqOff, State.releaseLines_irqOff, hi,
        lookBits, List.append_nil, List.nil_append, List.cons_append, List.map_cons, List.map_nil]
      rcases senderIdle_cases _ hc hd with h | h | h | h <;> rw [h] <;> decide
    · show ((s.drive &&& ~~~Line.clock) ||| Line.clock) &&& ~~~Line.data = s.drive
      rcases senderIdle_cases _ hc hd with h | h | h | h <;> rw [h] <;> decide
    · simp only [State.delay_drive, State.releaseLines_drive, List.append_nil, List.nil_append, List.cons_append,
        List.mem_cons, List.not_mem_nil, or_false, forall_eq_or_imp, forall_eq]
      rcases senderIdle_cases _ hc hd with h | h | h | h <;> rw [h] <;> decide

/-- Several bits on the wire. -/
theorem State.sendBitList_moves (f : Nat → Bool) (xs : List Nat) :
    ∀ {s : State}, s.irqOff = true → s.drive &&& Line.clock ≠ 0 → s.drive &&& Line.data = 0 →
      ∃ new, Moves s (xs.foldl (fun t i => t.sendBit (f i)) s) new ∧ lookBits new = xs.map f ∧
        (xs.foldl (fun t i => t.sendBit (f i)) s).drive = s.drive ∧
        (xs.foldl (fun t i => t.sendBit (f i)) s).ppOut = s.ppOut ∧
        (xs.foldl (fun t i => t.sendBit (f i)) s).ppOe = s.ppOe ∧
        ∀ e ∈ new, e.1 &&& Line.atn = s.drive &&& Line.atn := by
  induction xs with
  | nil => exact fun _ _ _ => ⟨[], Moves.refl _, rfl, rfl, rfl, rfl, by simp⟩
  | cons i xs ih =>
    intro s hi hc hd
    obtain ⟨n1, h1, h2, h3, h4, h5, h6, h7⟩ := State.sendBit_moves (f i) hi hc hd
    obtain ⟨n2, k1, k2, k3, k4, k5, k6⟩ := ih h4 (by rw [h3]; exact hc) (by rw [h3]; exact hd)
    refine ⟨_, h1.trans k1, by rw [lookBits_append, h2, k2]; rfl, k3.trans h3, k4.trans h5, k5.trans h6, ?_⟩
    intro e he
    rcases List.mem_append.1 he with he | he
    · rw [k6 e he, h3]
    · exact h7 e he

/-- A byte on the wire: its eight bits, least significant first, ATN as it was. -/
theorem State.sendBits_moves (b : Byte) {s : State} (hc : s.drive &&& Line.clock ≠ 0)
    (hd : s.drive &&& Line.data = 0) :
    ∃ new, Moves s (s.sendBits b) new ∧ lookBits new = bitsOf b ∧ (s.sendBits b).drive = s.drive ∧
      (s.sendBits b).irqOff = false ∧ (s.sendBits b).ppOut = s.ppOut ∧ (s.sendBits b).ppOe = s.ppOe ∧
      ∀ e ∈ new, e.1 &&& Line.atn = s.drive &&& Line.atn := by
  obtain ⟨n, k1, k2, k3, k4, k5, k6⟩ := State.sendBitList_moves b.getLsbD (List.range 8) (s := s.irqMask) rfl hc hd
  refine ⟨_, ((Moves.irqMask s).trans k1).trans (Moves.irqUnmask _), ?_, k3, rfl, k4, k5, ?_⟩
  · have : lookBits [(s.drive, s.portLook, true)] = [] := by
      simp only [lookBits, List.map_cons, List.map_nil]
      rcases senderIdle_cases _ hc hd with h | h | h | h <;> rw [h] <;> decide
    rw [lookBits_append, lookBits_append, k2, this]
    show [] ++ (List.map b.getLsbD (List.range 8) ++ []) = _
    simp [bitsOf]
  · intro e he
    simp only [List.mem_append, List.mem_singleton] at he
    rcases he with rfl | he | rfl
    · exact congrArg (· &&& Line.atn) k3
    · exact k6 e he
    · rfl

end Sys2Proof.Machine
end

