-- ==== Sys2Proof/Tests/Slice0.lean ====
section
/-! SUPPORT. The tests: ill-formed instructions refused; a word of every instruction, its bytes written out from
spec/30_encoding.md R82, R90, R94, R96, R111 and the words of spec/95_test_vectors.md V43; one-step tests whose results
are those of 95_test_vectors.md (V<n> names the vector); and, for every obligation with hypotheses, a state and operands
that meet them. -/

namespace Sys2Proof.Tests

open Sys2Proof Sys2Proof.Machine Sys2Proof.Safety

/-! ## A small machine to test on -/

/-- Short waits, every open parameter a number. -/
def tc : Config :=
  { tAck := 3, tStall := 3, tListener := 3, tTurn := 3, nResetProbe := 2, tEoiDetect := 2, tPollStep := 1, tIrqPause := 10
    tWdt := 1000000000, overAllowed := 0, fwMajor := 7, fwMinor := 2, biosMajor := 3, biosMinor := 4, ppSplit := 0 }

/-- R320's premise fails: T_WDT is no longer than the RESET pulse and the pause of IRQ_PAUSE. -/
def shortWdt : Config := { tc with tResetPulse := 10, tWdt := 10 }

/-- DEBUG_CMDS = false. -/
def noDebug : Config := { tc with debugCmds := false }

/-- After power-on, the peer's samples given, the delays exact, the port's samples 0x5A. -/
def powered (lines : List LineMask) : State :=
  { State.reset with
    cfg := tc
    inp := ⟨[], lines, 0, List.replicate 4 ⟨0x5A, false⟩, 0, List.replicate 120 0, 0⟩ }

/-- A request in `mode` with the given bytes at the start of the buffer. -/
def requested (mode : IoMode) (fill offset : Byte) (bytes : List Byte) (lines : List LineMask) : State :=
  { powered lines with mode := mode, fill := fill, offset := offset, buffer := Memory.setMany [] 0 bytes }

theorem requested_buffer (mode : IoMode) (fill offset : Byte) (bytes : List Byte) (lines : List LineMask) :
    (requested mode fill offset bytes lines).buffer = Memory.setMany [] 0 bytes := rfl

/-- Ten bytes. -/
def ten : List Byte := [1, 2, 3, 4, 5, 6, 7, 8, 9, 10]

/-- The next state passes a test. -/
def next (r : Result) (test : State → Bool) : Bool :=
  match r with
  | .next s => test s
  | .fault _ => false
  | .refused _ => false

/-- `s` answered `r`, and this was its only answer. -/
def said (r : Response) (s : State) : Bool := decide (s.out.responses = [r])

/-- The command word of seven bytes `cmd p0 .. p5`, first byte lowest (R80). -/
def bytesWord (bytes : List Nat) : Nat := bytes.foldr (fun b w => b + 256 * w) 0

/-- What the decoder reads from the seven bytes of a command word. -/
def read (bytes : List Nat) : Option Instr := decodeTableWord 56 (bytesWord bytes)

/-- What the decoder reads from a bus command byte. -/
def readBus (b : Byte) : Option Instr := (decode tc (.busByte b)).toOption

/-! ## WellFormed refuses each kind of ill-formed instruction (R86, R90, R94 to R96) -/

theorem test_ill_unassignedLow_below : (Instr.unassignedLow 0x19).wellFormed tc = false := by decide
theorem test_ill_unassignedLow_above : (Instr.unassignedLow 0x20).wellFormed tc = false := by decide
theorem test_ill_unassignedHigh_below : (Instr.unassignedHigh 0x23).wellFormed tc = false := by decide
theorem test_ill_unassignedHigh_debug : (Instr.unassignedHigh 0xFD).wellFormed tc = false := by decide
theorem test_ill_badSubOpcode : (Instr.badSubOpcode .pp 2).wellFormed tc = false := by decide
theorem test_ill_emptyChunk : (Instr.dataOut []).wellFormed tc = false := by decide
theorem test_ill_longChunk : (Instr.dataOut (List.replicate 9 0)).wellFormed tc = false := by decide
theorem test_ill_busListen : (Instr.busListen 31).wellFormed tc = false := by decide
theorem test_ill_busTalk : (Instr.busTalk 31).wellFormed tc = false := by decide
theorem test_ill_debug :
    Instr.irqPause.wellFormed noDebug = false ∧ (Instr.getEvent 0).wellFormed noDebug = false ∧
      (Instr.echo 1 2 3 4).wellFormed noDebug = false := by decide

/-! ## Every instruction's decoding -/

theorem test_decode_transfer :
    read [0x00, 0, 0, 0, 0, 0, 0] = some .info ∧
      read [0x01, 0, 0, 0, 0, 0x0D, 0] = some (.read 13) ∧
      read [0x01, 0, 0, 0, 0, 0x00, 0x01] = some (.read 256) ∧
      read [0x02, 0, 0, 0, 0, 0x02, 0] = some (.write 2) ∧
      read [0x0A, 0, 0, 0, 0, 0, 0] = some .getEoi ∧
      read [0x0B, 0, 0, 0, 0, 0, 0] = some .clearEoi ∧
      read [0x0C, 0x28, 0, 0, 0, 0, 0] = some (.requestRead 40) ∧
      read [0x0D, 0, 0, 0, 0, 0, 0] = some .getResult := by decide

theorem test_decode_addressing :
    read [0x03, 0x08, 0x0F, 0, 0, 0, 0] = some (.talk 8 15) ∧
      read [0x04, 0x08, 0x0F, 0xAA, 0xBB, 0xCC, 0xDD] = some (.listen 8 15) ∧
      read [0x05, 0, 0, 0, 0, 0, 0] = some .untalk ∧
      read [0x06, 0, 0, 0, 0, 0, 0] = some .unlisten ∧
      read [0x07, 0x08, 0x02, 0, 0, 0, 0] = some (.openDev 8 2) ∧
      read [0x08, 0x08, 0x02, 0, 0, 0, 0] = some (.closeDev 8 2) ∧
      read [0x09, 0, 0, 0, 0, 0, 0] = some .reset := by decide

theorem test_decode_lines :
    read [0x0E, 0, 0, 0, 0, 0, 0] = some .ppRead ∧
      read [0x0F, 0xA5, 0, 0, 0, 0, 0] = some (.ppWrite 0xA5) ∧
      read [0x10, 0, 0, 0, 0, 0, 0] = some .iecPoll ∧
      read [0x11, 0x02, 0x01, 0, 0, 0, 0] = some (.iecWait 2 1) ∧
      read [0x12, 0x04, 0x03, 0, 0, 0, 0] = some (.iecSetRelease 4 3) := by decide

theorem test_decode_stubs :
    read [0x13, 0, 0, 0, 0, 0, 0] = some .parburst0 ∧
      read [0x14, 0, 0, 0, 0, 0, 0] = some .parburst1 ∧
      read [0x15, 0, 0, 0, 0, 0, 0] = some .parburst2 ∧
      read [0x16, 0, 0, 0, 0, 0, 0] = some .parburst3 ∧
      read [0x17, 1, 2, 3, 4, 5, 6] = some (.eepromRead 0x060504030201) ∧
      read [0x18, 1, 2, 3, 4, 5, 6] = some (.eepromWrite 0x060504030201) ∧
      read [0x19, 1, 2, 3, 4, 5, 6] = some (.flash 0x060504030201) := by decide

theorem test_decode_subProtocols :
    read [0x20, 0, 0, 0, 0, 0, 0] = some .subS1Info ∧
      read [0x20, 0x01, 0x28, 0, 0, 0, 0] = some (.subS1Read 40) ∧
      read [0x20, 0x02, 0, 0, 0, 0x04, 0x03] = some (.subS1Write 0x0304) ∧
      read [0x21, 0, 0, 0, 0, 0, 0] = some .subS2Info ∧
      read [0x21, 0x01, 0x10, 0, 0, 0, 0] = some (.subS2Read 16) ∧
      read [0x21, 0x02, 0, 0, 0, 0x02, 0] = some (.subS2Write 2) ∧
      read [0x22, 0, 0, 0, 0, 0, 0] = some .subPpInfo ∧
      read [0x22, 0x01, 0x10, 0, 0, 0, 0] = some (.subPpRead 16) ∧
      read [0x22, 0x02, 0, 0, 0, 0x02, 0] = some (.subPpWrite 2) ∧
      read [0x23, 0, 0, 0, 0, 0, 0] = some .subP2Info ∧
      read [0x23, 0x01, 0, 0, 0, 0, 0] = some (.subP2Read 0) ∧
      read [0x23, 0x02, 0, 0, 0, 0x03, 0] = some (.subP2Write 3) ∧
      read [0x23, 0x07, 0, 0, 0, 0, 0] = some (.badSubOpcode .p2 7) := by decide

theorem test_decode_debug :
    read [0xFD, 0, 0, 0, 0, 0, 0] = some .irqPause ∧
      read [0xFE, 0x08, 0, 0, 0, 0, 0] = some (.getEvent 8) ∧
      read [0xFF, 0x01, 0x02, 0x03, 0x04, 0x55, 0x66] = some (.echo 1 2 3 4) := by decide

/-- V43.57, V43.65. -/
theorem test_decode_unassigned :
    read [0x1A, 0, 0, 0, 0, 0, 0] = some (.unassignedLow 0x1A) ∧
      read [0x1F, 0, 0, 0, 0, 0, 0] = some (.unassignedLow 0x1F) ∧
      read [0x24, 0, 0, 0, 0, 0, 0] = some (.unassignedHigh 0x24) ∧
      read [0xFC, 0, 0, 0, 0, 0, 0] = some (.unassignedHigh 0xFC) ∧
      decode noDebug (.word 0xFF) = .ok (.unassignedHigh 0xFF) := ⟨by decide, by decide, by decide, by decide, rfl⟩

theorem test_decode_chunk : (decode tc (.chunk [0xA5, 0x00])).toOption = some (.dataOut [0xA5, 0x00]) := by decide
theorem test_decode_badChunks :
    (decode tc (.chunk [])).toOption = none ∧ (decode tc (.chunk (List.replicate 9 1))).toOption = none := by decide

/-- V42.14's bytes. -/
theorem test_decode_busBytes :
    readBus 0x28 = some (.busListen 8) ∧ readBus 0x3E = some (.busListen 30) ∧ readBus 0x3F = some .busUnlisten ∧
      readBus 0x48 = some (.busTalk 8) ∧ readBus 0x5F = some .busUntalk ∧ readBus 0x6F = some (.busSecond 15) ∧
      readBus 0xE2 = some (.busClose 2) ∧ readBus 0xF2 = some (.busOpen 2) ∧ readBus 0x70 = none ∧
      readBus 0x08 = none ∧ readBus 0x80 = none := by decide

/-! ## Information, buffer transfer, the EOI flag -/

/-- V43.1 -/
theorem test_info : next (exec .info (powered [])) (said (.reply [7, 2, 0xF7, 0x00, 3, 4])) = true := by decide
/-- V43.1 without HAS_BIOS_INFO -/
theorem test_info_short :
    next (exec .info { powered [] with cfg := { tc with hasBiosInfo := false } }) (said (.reply [7, 2, 0xF7, 0x00])) =
      true := by decide

/-- V44.4: four bytes of ten, then at the end two of ten -/
theorem test_read :
    next (exec (.read 4) (requested .readDone 10 0 ten []))
      (fun t => said (.dataIn [1, 2, 3, 4]) t && decide (t.mode = .readDone ∧ t.offset = 4)) = true := by decide
theorem test_read_last :
    next (exec (.read 4) (requested .readDone 10 8 ten []))
      (fun t => said (.dataIn [9, 10]) t && decide (t.mode = .idle ∧ t.offset = 10)) = true := by decide

/-- V43.10, V43.11 -/
theorem test_write :
    next (exec (.write 1) (powered []))
      (fun t => said (.pending 1) t && decide (t.mode = .writePrepared ∧ t.fill = 1 ∧ t.proto = .s1)) = true := by decide
theorem test_write_long : next (exec (.write 200) (powered [])) (said (.refuse .badLength)) = true := by decide

/-- V43.26, V43.29 -/
theorem test_requestRead :
    next (exec (.requestRead 40) (powered []))
      (fun t => said (.pending 0) t && decide (t.mode = .read ∧ t.fill = 40 ∧ t.offset = 0)) = true := by decide
theorem test_requestRead_long :
    next (exec (.requestRead 200) (requested .readDone 1 0 [9] [])) (said (.refuse .badLength)) = true := by decide

/-- V43.30, V43.32 -/
theorem test_getResult :
    next (exec .getResult { powered [] with mode := .result, value := 2 })
      (fun t => said (.reply [6, 0, 2]) t && decide (t.mode = .idle)) = true := by decide
theorem test_getResult_readDone :
    next (exec .getResult { powered [] with mode := .readDone, status := 7 })
      (fun t => said (.reply [2, 7, 0]) t && decide (t.mode = .readDone)) = true := by decide

/-- V43.24, V43.25 -/
theorem test_getEoi :
    next (exec .getEoi { powered [] with eoi := true }) (fun t => said (.reply [1]) t && t.eoi) = true := by decide
theorem test_clearEoi :
    next (exec .clearEoi { powered [] with eoi := true }) (fun t => said (.reply []) t && !t.eoi) = true := by decide

/-- V44.2: of eight bytes three are wanted; V44.3 -/
theorem test_dataOut :
    next (exec (.dataOut [1, 2, 3, 4, 5, 6, 7, 8]) (requested .writePrepared 3 0 [] []))
      (fun t => said (.reply []) t && decide (t.mode = .write ∧ t.offset = 3 ∧ t.buffer = [(0, 1), (1, 2), (2, 3)])) =
      true := by decide
theorem test_dataOut_idle :
    next (exec (.dataOut [1]) (powered [])) (fun t => said (.refuse .badState) t && decide (t.buffer = [])) = true := by
  decide

/-! ## Addressing and reset -/

/-- V43.13, V43.14 -/
theorem test_talk :
    next (exec (.talk 8 15) (powered []))
      (fun t => said (.pending 0) t && decide (t.buffer = [(0, 0x48), (1, 0x6F)] ∧ t.acmd = 3 ∧ t.mode = .async)) =
      true := by decide
theorem test_talk_31 : next (exec (.talk 31 0) (powered [])) (said (.refuse .badParam)) = true := by decide

/-- V43.16, V43.15 -/
theorem test_listen :
    next (exec (.listen 8 15) (powered []))
      (fun t => said (.pending 0) t && decide (t.buffer = [(0, 0x28), (1, 0x6F)] ∧ t.acmd = 4)) = true := by decide
theorem test_listen_16 : next (exec (.listen 8 16) (powered [])) (said (.refuse .badParam)) = true := by decide

/-- V43.18, V43.19 -/
theorem test_untalk :
    next (exec .untalk (powered [])) (fun t => decide (t.buffer = [(0, 0x5F)] ∧ t.acmd = 5 ∧ t.fill = 1)) = true := by
  decide
theorem test_untalk_busy : next (exec .untalk (requested .readDone 1 0 [9] [])) (said (.refuse .busy)) = true := by decide

/-- V43.20 to V43.22; V42.14's `open(11, 15)` and `close(10, 0)` -/
theorem test_unlisten :
    next (exec .unlisten (powered [])) (fun t => decide (t.buffer = [(0, 0x3F)] ∧ t.acmd = 6 ∧ t.fill = 1)) = true := by
  decide
theorem test_open :
    next (exec (.openDev 8 2) (powered [])) (fun t => decide (t.buffer = [(0, 0x28), (1, 0xF2)] ∧ t.acmd = 7)) =
      true := by decide
theorem test_open_11 :
    next (exec (.openDev 11 15) (powered [])) (fun t => decide (t.buffer = [(0, 0x2B), (1, 0xFF)])) = true := by decide
theorem test_close :
    next (exec (.closeDev 8 2) (powered [])) (fun t => decide (t.buffer = [(0, 0x28), (1, 0xE2)] ∧ t.acmd = 8)) =
      true := by decide
theorem test_close_10 :
    next (exec (.closeDev 10 0) (powered [])) (fun t => decide (t.buffer = [(0, 0x2A), (1, 0xE0)])) = true := by decide

/-- V43.23 -/
theorem test_reset :
    next (exec .reset (requested .writePrepared 10 8 [1] []))
      (fun t => said (.pending 0) t &&
        decide (t.mode = .async ∧ t.acmd = 9 ∧ t.fill = 0 ∧ t.offset = 0 ∧ t.buffer = [(0, 1)])) = true := by decide

/-! ## Lines and the port -/

/-- V43.34, V43.35 -/
theorem test_ppRead :
    next (exec .ppRead { powered [] with ppOe := true }) (fun t => said (.reply [0x5A]) t && !t.ppOe) = true := by decide
theorem test_ppWrite :
    next (exec (.ppWrite 0xA5) (powered []))
      (fun t => said (.reply []) t && decide (t.ppOut = 0xA5 ∧ t.ppOe = true ∧ t.now = 500)) = true := by decide

/-- V43.36 -/
theorem test_iecPoll :
    next (exec .iecPoll { powered [0x1] with drive := 0x2 }) (said (.reply [0x03])) = true := by decide

/-- V43.38 -/
theorem test_iecWait :
    next (exec (.iecWait 0xF2 7) (powered [])) (fun t => decide (t.buffer = [(0, 2), (1, 1)] ∧ t.acmd = 17)) = true := by
  decide
/-- V43.37: the handler -/
theorem test_iecWait_handler :
    next (handle { requested .async 2 0 [2, 1] [0x2, 0x2] with acmd := 17 })
      (fun t => decide (t.mode = .result ∧ t.status = 0 ∧ t.value = 2)) = true := by decide

/-- V43.41, V43.42 -/
theorem test_setRelease :
    next (exec (.iecSetRelease 0x04 0x03) { powered [] with drive := 0x3 }) (fun t => decide (t.drive = 0x4)) = true := by
  decide
theorem test_setRelease_reset :
    next (exec (.iecSetRelease 0xF8 0x00) (powered [])) (fun t => decide (t.drive = 0x8)) = true := by decide

/-! ## Codes that are not executed -/

/-- V43.54 -/
theorem test_parbursts :
    next (exec .parburst0 (powered [])) (said (.refuse .unimplemented)) = true ∧
      next (exec .parburst1 (powered [])) (said (.refuse .unimplemented)) = true ∧
      next (exec .parburst2 (powered [])) (said (.refuse .unimplemented)) = true ∧
      next (exec .parburst3 (powered [])) (said (.refuse .unimplemented)) = true := by decide

/-- V43.55, V43.56: the whole word leaves -/
theorem test_eepromRead :
    next (exec (.eepromRead 0x060504030201) (powered []))
      (fun t => said (.refuse .external) t && decide (t.out.extCmds = [0x06050403020117])) = true := by decide
theorem test_eepromWrite :
    next (exec (.eepromWrite 0) (powered []))
      (fun t => said (.refuse .external) t && decide (t.out.extCmds = [0x18])) = true := by decide
theorem test_flash :
    next (exec (.flash 0) (powered []))
      (fun t => said (.refuse .external) t && decide (t.out.extCmds = [0x19])) = true := by decide

/-- V43.57, V43.51 -/
theorem test_unassigned :
    next (exec (.unassignedLow 0x1A) (powered [])) (said (.refuse .reserved)) = true ∧
      next (exec (.unassignedHigh 0x80) (powered [])) (said (.refuse .reserved)) = true := by decide
theorem test_badSubOpcode :
    next (exec (.badSubOpcode .s1 3) (requested .readDone 1 0 [9] [])) (said (.refuse .badSubop)) = true := by decide

/-! ## Sub-protocols -/

/-- V43.44, V43.45 -/
theorem test_subInfo :
    next (exec .subS1Info (powered [])) (said (.reply [1])) = true ∧
      next (exec .subS2Info (powered [])) (said (.reply [1])) = true ∧
      next (exec .subPpInfo (powered [])) (said (.reply [1])) = true ∧
      next (exec .subP2Info { powered [] with cfg := { tc with caps := 0x0077 } }) (said (.reply [0])) = true := by decide

/-- V43.47 -/
theorem test_subS1Read :
    next (exec (.subS1Read 40) { powered [] with proto := .p2 })
      (fun t => said (.pending 0) t && decide (t.mode = .read ∧ t.fill = 40 ∧ t.proto = .s1)) = true := by decide
theorem test_subS1Write :
    next (exec (.subS1Write 128) { powered [] with proto := .p2 })
      (fun t => said (.pending 128) t && decide (t.mode = .writePrepared ∧ t.fill = 128 ∧ t.proto = .s1)) = true := by
  decide
/-- V43.46, V43.53 -/
theorem test_subS2Read :
    next (exec (.subS2Read 16) (powered []))
      (fun t => said (.pending 0) t && decide (t.mode = .read ∧ t.fill = 16 ∧ t.proto = .s2)) = true := by decide
theorem test_subS2Read_absent :
    next (exec (.subS2Read 0) { powered [] with cfg := { tc with caps := 0x00D7 } }) (said (.refuse .unimplemented)) =
      true := by decide
theorem test_subS2Write :
    next (exec (.subS2Write 2) (powered [])) (fun t => said (.pending 2) t && decide (t.proto = .s2)) = true := by decide
theorem test_subPpRead :
    next (exec (.subPpRead 16) (powered [])) (fun t => said (.pending 0) t && decide (t.proto = .pp)) = true := by decide
/-- V43.48 -/
theorem test_subPpWrite :
    next (exec (.subPpWrite 2) (powered []))
      (fun t => said (.pending 2) t && decide (t.mode = .writePrepared ∧ t.fill = 2 ∧ t.proto = .pp)) = true := by decide
/-- V43.49 -/
theorem test_subP2Read : next (exec (.subP2Read 0) (powered [])) (said (.refuse .badLength)) = true := by decide
theorem test_subP2Write :
    next (exec (.subP2Write 3) (powered [])) (fun t => said (.pending 3) t && decide (t.proto = .p2)) = true := by decide

/-! ## Debug commands -/

/-- V43.63, V43.64 -/
theorem test_irqPause :
    next (exec .irqPause (powered [])) (fun t => said (.pending 0) t && decide (t.acmd = 0xFD ∧ t.mode = .async)) =
      true := by decide
theorem test_irqPause_busy :
    next (exec .irqPause { powered [] with mode := .result }) (said (.refuse .busy)) = true := by decide

/-- V40.21: after logging 1, 3, 4, 5, 6, 7, 8, 9, 10 -/
theorem test_getEvent :
    next (exec (.getEvent 7) ([1, 3, 4, 5, 6, 7, 8, 9, 10].foldl (fun s e => s.logEvent e) (powered [])))
      (said (.reply [3, 1])) = true := by decide
/-- V43.61 -/
theorem test_getEvent_outside :
    next (exec (.getEvent 8) ((powered []).logEvent 5)) (said (.reply [0, 0])) = true := by decide
/-- V43.58 -/
theorem test_echo : next (exec (.echo 1 2 3 4) (powered [])) (said (.reply [1, 2, 3, 4])) = true := by decide

/-! ## Bus command bytes, from V41.1's rule: bit 0 first, 1 = DATA released -/

/-- A byte's bits on the wire after an instruction that sends it to a ready listener. -/
def wire (i : Instr) : List Bool :=
  match exec i { powered [0x1, 0, 0x1] with drive := 0x6 } with
  | .next t => originalBits t.out.pins
  | .fault _ => []
  | .refused _ => []

/-- 0x28, 0x3F and 0x48 -/
theorem test_busListen : wire (.busListen 8) = [false, false, false, true, false, true, false, false] := by decide
theorem test_busUnlisten : wire .busUnlisten = [true, true, true, true, true, true, false, false] := by decide
theorem test_busTalk : wire (.busTalk 8) = [false, false, false, true, false, false, true, false] := by decide
/-- 0x5F and 0x6F -/
theorem test_busUntalk : wire .busUntalk = [true, true, true, true, true, false, true, false] := by decide
theorem test_busSecond : wire (.busSecond 15) = [true, true, true, true, false, true, true, false] := by decide
/-- 0xE2 and 0xF2 -/
theorem test_busClose : wire (.busClose 2) = [false, true, false, false, false, true, true, true] := by decide
theorem test_busOpen : wire (.busOpen 2) = [false, true, false, false, true, true, true, true] := by decide

/-! ## The wire modes and the handler -/

/-- V41.8: the levels at the nine line changes of 0xA5, between the two changes of the interrupt mask -/
theorem test_s2_write :
    (match s2WriteByte 0xA5 (powered []) with
      | .ok _ t => driveTrace t.out.pins
      | .error _ _ => []) = [0, 1, 5, 5, 1, 2, 6, 6, 2, 0, 0] := by decide
/-- V41.10: the polls 05, 01, 06, 02 without this block's ATN -/
theorem test_s2_read :
    (match s2ReadByte (powered [1, 1, 2, 2]) with
      | .ok b _ => some b
      | .error _ _ => none) = some 0xA5 := by decide
/-- V41.4: the windows rel ass rel ass ass rel ass rel give 0xA5 -/
theorem test_original_read :
    (match readByte (powered (Line.clock :: talkerSamples [true, false, true, false, false, true, false, true])) with
      | .ok b t => some (b, t.eoi)
      | .error _ _ => none) = some (0xA5, false) := by decide
/-- V42.3: nobody there -/
theorem test_noDevice :
    next (handle { requested .async 2 0 [0x28, 0x6F] (List.replicate 9 0) with acmd := 4 })
      (fun t => decide (t.mode = .result ∧ t.status = 1 ∧ t.value = 0 ∧ t.drive = 0 ∧ t.eventByAge 0 = ⟨1, 1⟩)) =
      true := by decide

/-! ## Witnesses: a state and operands that meet each obligation's hypotheses -/

/-- `Safety.Inv` as a test. -/
def invTest (s : State) : Bool :=
  s.cfg.wf &&
    (decide (s.offset.toNat ≤ s.fill.toNat ∧ s.fill.toNat ≤ s.cfg.bufSize) &&
      match s.mode with
      | .idle => decide (s.offset = s.fill)
      | .result => decide (s.offset = 0 ∧ s.fill = 0)
      | .read => decide (s.offset = 0 ∧ 1 ≤ s.fill.toNat)
      | .writePrepared => decide (s.offset.toNat < s.fill.toNat)
      | .write => decide (s.offset = s.fill ∧ 1 ≤ s.fill.toNat)
      | .readDone => decide (s.offset.toNat < s.fill.toNat ∨ s.fill = 0)
      | .async => decide (asyncBytes s.acmd = some s.fill.toNat)) &&
    (s.buffer.wf s.cfg.bufSize && decide (∀ a, a < validBytes s → (s.buffer.get? a).isSome = true)) &&
    decide (s.evEntries.length = s.cfg.eventLogSize ∧ s.evHead < s.cfg.eventLogSize) &&
    decide (s.irqOff = false ∧ s.count = 0 ∧ s.wdtLast ≤ s.now) && s.expiry.isNone &&
    (decide (s.phase ≠ .takeEvent) || !pendingMode s.mode)

theorem inv_of_invTest {s : State} (h : invTest s = true) : Inv s := by
  simp only [invTest, Bool.and_eq_true, decide_eq_true_eq, Bool.or_eq_true, Bool.not_eq_true',
    Option.isNone_iff_eq_none] at h
  obtain ⟨⟨⟨⟨⟨⟨h1, h2, h3⟩, h4⟩, h5⟩, h6⟩, h7⟩, h8⟩ := h
  refine ⟨h1, ⟨h2.1, h2.2, ?_⟩, h4, h5, ⟨h6.1, h6.2.1, h7, h6.2.2⟩, fun hp => h8.resolve_left fun hn => hn hp⟩
  revert h3
  cases s.mode <;> simp

/-- A pending request about to be handled. -/
def pendingRequest (mode : IoMode) (p : Proto) (acmd : Byte) (fill offset : Byte) (bytes : List Byte)
    (lines : List LineMask) : State :=
  { requested mode fill offset bytes lines with proto := p, acmd := acmd, phase := .handler }

/-- The listener that acknowledges `k` bytes and then is silent. -/
def refusing (k : Nat) : State :=
  pendingRequest .write .s1 0 3 3 [1, 2, 3] ((readyListener (k + 1)).take (3 * k + 3) ++ List.replicate 5 0)

/-- The listener that answers the EOI hold of the third and last byte and then is silent. -/
def refusingLast : State :=
  pendingRequest .write .s1 0 3 3 [1, 2, 3] ((readyListenerEoi 2).take 11 ++ List.replicate 5 0)

theorem witness_StepKeepsInvariant : Inv (powered []) ∧ step (powered []) = .next (powered []).beginTurn.endStep :=
  ⟨inv_of_invTest (by decide), rfl⟩

theorem witness_StepNeverStops :
    Inv ((powered []).withCommand 0x0A) ∧
      ∀ e, ((powered []).withCommand 0x0A).waitingEvent = some e →
        eventOk ((powered []).withCommand 0x0A).cfg e = true :=
  ⟨inv_of_invTest (by decide), fun _ h => by cases h; rfl⟩

theorem witness_StepNeverStops_chunk :
    Inv { powered [] with inp := { (powered []).inp with host := [.chunk (List.replicate 8 0)] } } ∧
      eventOk tc (.chunk (List.replicate 8 0)) = true ∧ eventOk tc (.chunk [0]) = true :=
  ⟨inv_of_invTest (by decide), by decide, by decide⟩

theorem witness_StepRunsDecodedInstruction :
    ((powered []).withCommand 0x0A).phase = .takeEvent ∧
      ((powered []).withCommand 0x0A).inp.host.head? = some (.command 0x0A .toBlock) ∧
      decode tc (HostEvent.command 0x0A .toBlock).code = .ok .getEoi ∧ (powered []).expiry = none :=
  ⟨rfl, rfl, rfl, rfl⟩

theorem witness_MainLoopTurn :
    (powered []).phase = .takeEvent ∧ (powered []).inp.host = [] ∧
      (pendingRequest .read .s1 0 1 0 [] []).phase = .handler := ⟨rfl, rfl, rfl⟩

theorem witness_WatchdogForcesPowerOn :
    (powered []).expiry = none ∧ watchdogPremise tc ∧ ((powered []).delay 1000000001).expiry = none ∧
      ¬ watchdogPremise shortWdt ∧ ({ powered [] with cfg := shortWdt }.delay 10).expiry = none ∧
      ({ powered [] with cfg := shortWdt }.delay 11).expiry.isSome = true ∧
      next (handle (pendingRequest .read .s2 0 1 0 [] (List.replicate 4 0))) (fun t => t.expiry.isNone) = true ∧
      next (exec (.iecSetRelease 1 0) (powered [])) (fun t => t.expiry.isNone) = true :=
  ⟨rfl, ⟨by decide, by decide⟩, by decide, fun h => absurd h.1 (by decide), by decide, by decide, by decide, by decide⟩

theorem witness_DeviceInformationIsConstant :
    step (powered []) = .next (powered []).beginTurn.endStep ∧
      (powered []).cfg = { powered [] with eoi := true }.cfg := ⟨rfl, rfl⟩

theorem witness_DecodeInvertsEncode :
    (Instr.busListen 30).wellFormed tc = true ∧ (Instr.unassignedHigh 0xFC).wellFormed tc = true ∧
      (Instr.unassignedHigh 0xFF).wellFormed noDebug = true ∧ (Instr.badSubOpcode .s1 3).wellFormed tc = true ∧
      (Instr.dataOut (List.replicate 8 0)).wellFormed tc = true := by decide

theorem witness_DecodedIsWellFormed : decode tc (.word 0x24) = .ok (.unassignedHigh 0x24) := rfl
/-- TALK 8 15 with its four unnamed bytes set, and without; S2.WRITE names p0, p4 and p5. -/
theorem witness_UnnamedParametersAreIgnored :
    cmdOf 0xDDCCBBAA0F0803 = cmdOf 0x000000000F0803 ∧
      (∀ k, k ∈ namedParams tc 0x000000000F0803 → paramOf k 0xDDCCBBAA0F0803 = paramOf k 0x000000000F0803) ∧
      namedParams tc 0x000200_00000221 = [0, 4, 5] ∧ namedParams noDebug 0xFF = [] := by decide

theorem witness_BusBytesDecodeExactly : decode tc (.busByte 0x3E) = .ok (.busListen 30) := rfl

theorem witness_InfoReply : tc.hasBiosInfo = true ∧ { tc with hasBiosInfo := false }.hasBiosInfo = false := ⟨rfl, rfl⟩
theorem witness_EoiCommands : { powered [] with eoi := true }.eoi = true := rfl

theorem witness_EchoAndEventReplies :
    (powered []).cfg.eventLogSize ≤ (8 : Byte).toNat ∧ (7 : Byte).toNat < (powered []).cfg.eventLogSize ∧
      ((powered []).logEvent 5).evEntries[(((powered []).logEvent 5).evHead + 8 - 0) % 8]? = some ⟨5, 1⟩ ∧
      (powered []).evEntries[((powered []).evHead + 8 - 7) % 8]? = some ⟨0, 0⟩ := by decide

theorem witness_ReadRequestsAccepted :
    (powered []).mode = .idle ∧ 1 ≤ (1 : Byte).toNat ∧ (128 : Byte).toNat ≤ 128 ∧ tc.caps.getLsbD 4 = true ∧
      tc.caps.getLsbD 5 = true ∧ tc.caps.getLsbD 6 = true ∧ tc.caps.getLsbD 7 = true := by decide

theorem witness_WriteRequestsAccepted :
    (powered []).mode = .idle ∧ 1 ≤ (1 : BitVec 16).toNat ∧ (128 : BitVec 16).toNat ≤ 128 ∧
      tc.caps.getLsbD 4 = true ∧ tc.caps.getLsbD 5 = true ∧ tc.caps.getLsbD 6 = true ∧ tc.caps.getLsbD 7 = true := by
  decide

theorem witness_AddressCommandsAccepted :
    (powered []).mode = .idle ∧ (30 : Byte).toNat ≤ 30 ∧ (15 : Byte).toNat ≤ 15 ∧
      (0x40 ||| 30 : Byte) = 0x5E ∧ (0x60 ||| 15 : Byte) = 0x6F ∧ (0xF0 ||| 15 : Byte) = 0xFF := by decide

theorem witness_BracketEndsAccepted : (powered []).mode = .idle := rfl
theorem witness_DeferredControlsAccepted : (powered []).mode = .idle := rfl

theorem witness_BusyRefusal :
    needsIdle tc (.write 128) = true ∧ needsIdle tc (.requestRead 1) = true ∧ needsIdle tc (.talk 30 15) = true ∧
      needsIdle tc .irqPause = true ∧ needsIdle tc (.subP2Read 128) = true ∧
      (requested .result 0 0 [] []).mode ≠ .idle := by decide

theorem witness_OperandRefusals :
    namedProto (.subP2Write 0) = some .p2 ∧ hasProto { tc with caps := 0x0077 } .p2 = false ∧
      lengthOperand (.read 129) = some 129 ∧ lengthOperand (.requestRead 0) = some 0 ∧ namedProto (.read 129) = none ∧
      lengthOperand (.subS1Write 129) = some 129 ∧ hasProto tc .s1 = true ∧
      addressOperands (.talk 31 0) = some (3, 31, 0) ∧ addressOperands (.openDev 0 16) = some (7, 0, 16) ∧
      30 < (31 : Byte).toNat ∧ 15 < (16 : Byte).toNat := by decide

theorem witness_WrongModeAccessors :
    (powered []).mode ≠ .readDone ∧ (powered []).mode ≠ .writePrepared ∧ 1 ≤ (1 : BitVec 16).toNat ∧
      (128 : BitVec 16).toNat ≤ 128 := by decide

theorem witness_RefusalChangesNothing :
    exec (.unassignedLow 0x1A) (powered []) = .next ((powered []).answer (.refuse .reserved)) ∧
      exec (.flash 0) (powered []) = .next (((powered []).forward 0x19).answer (.refuse .external)) ∧
      encode (.flash 0) = .word 0x19 ∧ ((powered []).answer (.refuse .reserved)).out.responses =
        .refuse .reserved :: (powered []).out.responses := ⟨rfl, rfl, rfl, rfl⟩

theorem witness_OneResponsePerEvent :
    isBusByte .clearEoi = false ∧ exec .clearEoi (powered []) = .next ((powered []).clearEoi.answer (.reply [])) ∧
      handle (powered []) = .next (powered []) := ⟨rfl, rfl, rfl⟩

/-- A full buffer at its last byte, and an empty one. -/
theorem witness_ReadReturnsBufferBytes :
    (requested .readDone 128 127 (List.replicate 128 7) []).mode = .readDone ∧ (127 : Byte).toNat ≤ (128 : Byte).toNat ∧
      (128 : Byte).toNat ≤ tc.bufSize ∧
      (∀ a, 127 ≤ a → a < 128 → ((requested .readDone 128 127 (List.replicate 128 7) []).buffer.get? a).isSome = true) ∧
      (∀ a, 0 ≤ a → a < 0 → ((requested .readDone 0 0 [] []).buffer.get? a).isSome = true) :=
  ⟨rfl, by decide, by decide, fun a h1 h2 => by
    have : a = 127 := by omega
    subst this
    decide, fun a _ h => absurd h (Nat.not_lt_zero a)⟩

/-- V44.4: lengths 4, 4, 4 of ten bytes. -/
theorem witness_ReadsDrainToIdle :
    (requested .readDone 10 0 ten []).fill.toNat = (0 : Byte).toNat + ten.length ∧
      (∀ k (h : k < ten.length), (requested .readDone 10 0 ten []).buffer.get? (0 + k) = some ten[k]) ∧
      (∀ len ∈ [(4 : BitVec 16), 4, 4], 1 ≤ len.toNat ∧ len.toNat ≤ 128) ∧
      ([(4 : BitVec 16), 4].map BitVec.toNat).sum < ten.length :=
  ⟨rfl, fun k h => by rw [requested_buffer, Memory.get?_setMany_inside], by simp, by decide⟩

theorem witness_ChunkIsStored :
    (requested .writePrepared 128 127 [] []).mode = .writePrepared ∧ (127 : Byte).toNat ≤ (128 : Byte).toNat ∧
      (128 : Byte).toNat ≤ tc.bufSize := by decide

theorem witness_ChunkingDoesNotMatter :
    (requested .writePrepared 10 0 [] []).mode = .writePrepared ∧ 0 < 10 ∧
      (∀ c ∈ [List.replicate 8 (1 : Byte), [2, 3]], c ≠ []) ∧
      [List.replicate 8 (1 : Byte), [2, 3]].flatten.length = 10 - 0 := by decide

theorem witness_HandlerFinishesRequest :
    (powered []).mode = .idle ∧ Inv (pendingRequest .read .s2 0 128 0 [] []) ∧
      Inv (pendingRequest .write .pp 0 1 1 [9] []) ∧ Inv (pendingRequest .async .s1 3 2 0 [0x48, 0x6F] []) ∧
      pendingMode .read = true ∧ pendingMode .write = true ∧ pendingMode .async = true :=
  ⟨rfl, inv_of_invTest (by decide), inv_of_invTest (by decide), inv_of_invTest (by decide), rfl, rfl, rfl⟩

/-- A read of two bytes and a write of one, both by SERIAL2; an ORIGINAL write whose first byte is not acknowledged, a
PARALLEL and a PARALLEL2 write nobody answers, and reads of the other protocols that take one byte of two, as their
handler entries end them. -/
theorem witness_HandlerReportsCount :
    Inv (pendingRequest .read .s2 0 2 0 [] (List.replicate 8 0)) ∧
      next (handle (pendingRequest .read .s2 0 2 0 [] (List.replicate 8 0))) (fun t => decide (t.fill = 2)) = true ∧
      Inv (pendingRequest .write .s2 0 1 1 [9] []) ∧
      next (handle (pendingRequest .write .s2 0 1 1 [9] [])) (fun t => decide (t.value = 1 ∧ t.status = 0)) = true ∧
      Inv (refusing 0) ∧ next (handle (refusing 0)) (fun t => decide (t.value = 0 ∧ t.status = 5 ∧
        originalBits t.out.pins = bitsOf 1)) = true ∧
      Inv (pendingRequest .write .pp 0 2 2 [7, 8] (List.replicate 5 0)) ∧
      next (handle (pendingRequest .write .pp 0 2 2 [7, 8] (List.replicate 5 0))) (fun t =>
        decide (t.value = 0 ∧ t.status = 9 ∧ clockRises t.out.pins = [some 7])) = true ∧
      Inv (pendingRequest .write .p2 0 2 2 [7, 8] (List.replicate 5 0)) ∧
      next (handle (pendingRequest .write .p2 0 2 2 [7, 8] (List.replicate 5 0))) (fun t =>
        decide (t.value = 0 ∧ t.status = 9 ∧ clockChanges false (t.out.pins.drop 2) = [some 7])) = true :=
  ⟨inv_of_invTest (by decide), by decide, inv_of_invTest (by decide), by decide, inv_of_invTest (by decide), by decide,
    inv_of_invTest (by decide), by decide, inv_of_invTest (by decide), by decide⟩

theorem witness_HandlerReportsCount_reads :
    Inv (pendingRequest .read .pp 0 2 0 [] ([0x2, 0] ++ List.replicate 5 0)) ∧
      next (handle (pendingRequest .read .pp 0 2 0 [] ([0x2, 0] ++ List.replicate 5 0))) (fun t =>
        decide (t.fill = 1 ∧ t.status = 9 ∧
          (lineChanges Line.data false (t.out.pins.drop 2)).count false = 1)) = true ∧
      Inv (pendingRequest .read .p2 0 2 0 [] ([0x2] ++ List.replicate 5 0x2)) ∧
      next (handle (pendingRequest .read .p2 0 2 0 [] ([0x2] ++ List.replicate 5 0x2))) (fun t =>
        decide (t.fill = 1 ∧ t.status = 9 ∧ (lineChanges Line.data false (t.out.pins.drop 2)).length = 1)) = true ∧
      Inv (pendingRequest .read .s1 0 2 0 [] (talkerByte 0x49 ++ List.replicate 5 0x2)) ∧
      next (handle (pendingRequest .read .s1 0 2 0 [] (talkerByte 0x49 ++ List.replicate 5 0x2))) (fun t =>
        decide (t.fill = 1 ∧ t.status = 7 ∧
          (lineChanges Line.data false (t.out.pins.filter fun p => !p.irqOff)).count true = 1)) = true :=
  ⟨inv_of_invTest (by decide), by decide, inv_of_invTest (by decide), by decide, inv_of_invTest (by decide), by decide⟩

theorem witness_EoiStopsReads :
    { pendingRequest .read .s1 0 40 0 [] [] with eoi := true }.mode = .read ∧
      { pendingRequest .read .s1 0 40 0 [] [] with eoi := true }.proto = .s1 ∧
      { pendingRequest .read .s1 0 40 0 [] [] with eoi := true }.eoi = true := ⟨rfl, rfl, rfl⟩

theorem witness_EoiFlagFrame :
    exec .getEoi (powered []) = .next ((powered []).answer (.reply [0])) ∧
      next (handle (pendingRequest .write .s2 0 1 1 [9] [])) (fun t => !t.eoi) = true ∧
      next (handle (pendingRequest .async .s1 0xFD 0 0 [] [])) (fun t => !t.eoi) = true :=
  ⟨rfl, by decide, by decide⟩

theorem witness_IecWaitOutcome :
    2 ≤ tc.bufSize ∧ (pendingRequest .async .s1 17 2 0 [0x0F, 1] []).mode = .async ∧
      (pendingRequest .async .s1 17 2 0 [0x0F, 1] []).buffer.get? 0 = some 0x0F ∧
      (pendingRequest .async .s1 17 2 0 [0x0F, 1] []).buffer.get? 1 = some 1 ∧
      (pendingRequest .async .s1 17 2 0 [0x0F, 1] []).count = 0 := by decide

theorem witness_IrqPauseOutcome :
    (pendingRequest .async .s1 0xFD 0 0 [] []).mode = .async ∧ (pendingRequest .async .s1 0xFD 0 0 [] []).acmd = 0xFD :=
  ⟨rfl, rfl⟩

/-- A free bus at the second of two probes, after a first that finds a line asserted; a bus held in all samples. -/
theorem witness_BusResetOutcome :
    (pendingRequest .async .s1 9 0 0 [] []).mode = .async ∧ (pendingRequest .async .s1 9 0 0 [] []).acmd = 9 ∧
      busFreeWithin (powered [0x2, 0, 0x1, 0]).inp tc.nResetProbe 0 = true ∧
      next (handle (pendingRequest .async .s1 9 0 0 [] [0x2, 0, 0x1, 0])) (fun t => decide (t.status = 0)) = true ∧
      busFreeWithin (powered [0, 0x1, 0x1, 0, 0]).inp tc.nResetProbe 0 = false ∧
      next (handle (pendingRequest .async .s1 9 0 0 [] [0, 0x1, 0x1, 0, 0])) (fun t => decide (t.status = 11)) = true := by
  decide

theorem witness_FailureCleanup : Status.nak ≠ .ok ∧ Status.nak ≠ .waitTimeout := by decide
theorem witness_WaitIsBounded : 0 < (powered []).cfg.tPollStep := by decide

theorem witness_NoDeviceOnTheBus :
    Inv (pendingRequest .async .s1 4 2 0 [0x28, 0x6F] (List.replicate 5 0)) ∧
      Inv (pendingRequest .write .s1 0 1 1 [9] (List.replicate 5 0)) ∧
      (∀ k, k < 3 / 1 + 2 → peerAt (pendingRequest .write .s1 0 1 1 [9] (List.replicate 5 0)).inp k &&& Line.data = 0) :=
  ⟨inv_of_invTest (by decide), inv_of_invTest (by decide), by decide⟩

/-- None of three bytes acknowledged, one of three, two of three. -/
theorem witness_NakReportsExactCount :
    Inv (refusing 0) ∧ Inv (refusing 1) ∧ 1 + 1 < (refusing 1).fill.toNat ∧
      (∀ j, j < 3 → peerAt (refusing 0).inp j = (readyListener 1).getD j 0) ∧
      (∀ j, j < 6 → peerAt (refusing 1).inp j = (readyListener 2).getD j 0) ∧
      (∀ j, j < 5 → peerAt (refusing 0).inp (3 + j) &&& Line.data = 0) ∧
      (∀ j, j < 5 → peerAt (refusing 1).inp (6 + j) &&& Line.data = 0) ∧
      Inv refusingLast ∧ 2 + 1 = refusingLast.fill.toNat ∧
      (∀ j, j < 11 → peerAt refusingLast.inp j = (readyListenerEoi 2).getD j 0) ∧
      ∀ j, j < 5 → peerAt refusingLast.inp (11 + j) &&& Line.data = 0 :=
  ⟨inv_of_invTest (by decide), inv_of_invTest (by decide), by decide, by decide, by decide, by decide, by decide,
    inv_of_invTest (by decide), by decide, by decide, by decide⟩

theorem witness_BusByteGoesOnTheWire :
    encode (.busOpen 15) = .busByte 0xFF ∧ (powered [0x1, 0, 0x1]).irqOff = false ∧
      (powered [0x1, 0, 0x1]).drive &&& Line.data = 0 ∧ (powered [0x1, 0, 0x1]).inp.lines = [0x1, 0, 0x1] :=
  ⟨rfl, rfl, by decide, rfl⟩

/-- Nobody; a listener that holds DATA; one that lets go and does not acknowledge. -/
theorem witness_BusByteNeedsADevice :
    encode (.busListen 8) = .busByte 0x28 ∧ (powered [0xE]).irqOff = false ∧ 0 < tc.tPollStep ∧
      ((powered [0xE]).drive ||| peerAt (powered [0xE]).inp 0) &&& Line.data = 0 ∧
      (∀ j, j < 3 / 1 + 3 →
        ((powered []).drive ||| peerAt (powered (List.replicate 6 1)).inp j) &&& Line.data ≠ 0) ∧
      (powered []).drive &&& Line.data = 0 ∧ peerAt (powered [1, 0, 0, 0, 0, 0, 0]).inp 0 &&& Line.data ≠ 0 ∧
      peerAt (powered [1, 0, 0, 0, 0, 0, 0]).inp 1 &&& Line.data = 0 ∧
      ∀ j, j < 3 / 1 + 2 → peerAt (powered [1, 0, 0, 0, 0, 0, 0]).inp (2 + j) &&& Line.data = 0 := by decide

theorem witness_CommandBytesReachTheBus :
    Inv (pendingRequest .async .s1 4 2 0 [0x28, 0x6F] (readyListener 2)) ∧
      Inv (pendingRequest .async .s1 3 2 0 [0x48, 0x6F] (readyListener 2 ++ [Line.clock])) ∧
      Inv (pendingRequest .async .s1 6 1 0 [0x3F] (readyListener 1)) ∧
      (∀ k (h : k < [(0x28 : Byte), 0x6F].length),
        (pendingRequest .async .s1 4 2 0 [0x28, 0x6F] (readyListener 2)).buffer.get? k = some [(0x28 : Byte), 0x6F][k]) :=
  ⟨inv_of_invTest (by decide), inv_of_invTest (by decide), inv_of_invTest (by decide), by decide⟩

theorem witness_WriteReachesTheBus :
    Inv (pendingRequest .write .s1 0 2 2 [0x49, 0x30] (readyListenerEoi 1)) ∧
      (∀ k (h : k < [(0x49 : Byte), 0x30].length),
        (pendingRequest .write .s1 0 2 2 [0x49, 0x30] (readyListenerEoi 1)).buffer.get? k = some [(0x49 : Byte), 0x30][k]) :=
  ⟨inv_of_invTest (by decide), by decide⟩

theorem witness_OriginalReadDecodesTalker :
    (powered []).drive &&& Line.clock = 0 ∧ 0 < tc.tPollStep ∧ tc.tEoiDetect = 2 * tc.tPollStep ∧
      (powered []).inp.overs = List.replicate 3 0 ++ List.replicate 117 0 ∧
      (match readByte (powered (List.replicate 3 0 ++ Line.clock :: talkerSamples (bitsOf 0x5A))) with
        | .ok b t => some (b, t.eoi)
        | .error _ _ => none) = some (0x5A, true) := by decide

/-- A write of one byte, as its handler entry shows it. -/
theorem witness_Serial2RoundTrip :
    (powered []).drive = 0 ∧ Inv (pendingRequest .write .s2 0 1 1 [0xA5] []) ∧
      (∀ k (h : k < [(0xA5 : Byte)].length),
        (pendingRequest .write .s2 0 1 1 [0xA5] []).buffer.get? k = some [(0xA5 : Byte)][k]) ∧
      next (handle (pendingRequest .write .s2 0 1 1 [0xA5] []))
        (fun t => decide (edgeBits t.out.pins = bitsOf 0xA5)) = true :=
  ⟨rfl, inv_of_invTest (by decide), by decide, by decide⟩

/-- A talker of two bytes; one byte after silence; one that stalls before its first byte. -/
theorem witness_OriginalReadFillsBuffer :
    Inv (pendingRequest .read .s1 0 2 0 [] ([0x49, 0x30].flatMap talkerByte)) ∧
      (powered []).drive &&& Line.clock = 0 ∧ (powered []).eoi = false ∧ tc.tEoiDetect = 2 * tc.tPollStep ∧
      (powered []).inp.overs = List.replicate (3 * 2 + 2 + 1) 0 ++ List.replicate 111 0 ∧
      next (handle (pendingRequest .read .s1 0 40 0 []
        (List.replicate 4 0 ++ Line.clock :: talkerSamples (bitsOf 0x0D))))
        (fun t => decide (t.fill = 1 ∧ t.eoi = true ∧ t.buffer = [(0, 0x0D)])) = true ∧
      (∀ j, j < 3 / 1 + 2 → peerAt (powered (List.replicate 5 Line.clock)).inp j &&& Line.clock ≠ 0) ∧
      next (handle (pendingRequest .read .s1 0 40 0 [] (List.replicate 5 Line.clock)))
        (fun t => decide (t.status = 7 ∧ t.fill = 0 ∧ t.drive = 0)) = true :=
  ⟨inv_of_invTest (by decide), by decide, rfl, by decide, by decide, by decide, by decide, by decide⟩

/-- A sender of 0xA5 (V41.10's polls) and 0x01, ATN driven by the peer besides; a bus with DATA and CLOCK released. -/
theorem witness_Serial2ReadFromSilence :
    Inv (pendingRequest .read .s2 0 2 0 [] [5, 1, 6, 2, 1, 0, 0, 0]) ∧
      next (handle (pendingRequest .read .s2 0 2 0 [] [5, 1, 6, 2, 1, 0, 0, 0]))
        (fun t => decide (t.buffer = [(0, 0xA5), (1, 0x01)] ∧ t.inp.lines = [])) = true ∧
      Inv (pendingRequest .read .s2 0 2 0 [] (List.replicate 8 0xC)) ∧
      ∀ k, k < 4 * 2 →
        peerAt (pendingRequest .read .s2 0 2 0 [] (List.replicate 8 0xC)).inp k &&& (Line.data ||| Line.clock) = 0 :=
  ⟨inv_of_invTest (by decide), by decide, inv_of_invTest (by decide), by decide⟩

theorem witness_ParallelTransfersPortBytes :
    Inv { pendingRequest .read .pp 0 2 0 [] [0x2, 0, 0x2, 0] with
      inp := { (powered [0x2, 0, 0x2, 0]).inp with port := [⟨0, true⟩, ⟨0x3C, false⟩, ⟨0x5A, false⟩] } } ∧
      (List.replicate 2 [Line.clock, 0]).flatten = [0x2, 0, 0x2, 0] ∧
      Inv (pendingRequest .write .pp 0 2 2 [0x11, 0x22] [0x1, 0, 0x1, 0]) ∧
      (List.replicate 2 [Line.data, 0]).flatten = [0x1, 0, 0x1, 0] ∧
      ∀ k (h : k < [(0x11 : Byte), 0x22].length),
        (pendingRequest .write .pp 0 2 2 [0x11, 0x22] [0x1, 0, 0x1, 0]).buffer.get? k = some [(0x11 : Byte), 0x22][k] :=
  ⟨inv_of_invTest (by decide), by decide, inv_of_invTest (by decide), by decide, by decide⟩

/-- V41.18, from CLOCK released; and from CLOCK asserted; a read of two bytes, from DATA released and from DATA
asserted. -/
theorem witness_Parallel2TogglesClock :
    Inv (pendingRequest .write .p2 0 3 3 [0x11, 0x11, 0x33] [0x1, 0, 0x1]) ∧ following Line.data false 3 = [0x1, 0, 0x1] ∧
      Inv { pendingRequest .write .p2 0 1 1 [0x44] [0] with drive := 0x2 } ∧ following Line.data true 1 = [0] ∧
      (∀ k (h : k < [(0x11 : Byte), 0x11, 0x33].length),
        (pendingRequest .write .p2 0 3 3 [0x11, 0x11, 0x33] [0x1, 0, 0x1]).buffer.get? k =
          some [(0x11 : Byte), 0x11, 0x33][k]) ∧
      next (handle (pendingRequest .write .p2 0 3 3 [0x11, 0x11, 0x33] [0x1, 0, 0x1]))
        (fun t => decide (clockChanges false t.out.pins = [some 0x11, some 0x11, some 0x33])) = true ∧
      Inv (pendingRequest .read .p2 0 2 0 [] [0x2, 0]) ∧ following Line.clock false 2 = [0x2, 0] ∧
      Inv { pendingRequest .read .p2 0 2 0 [] [0, 0x2] with drive := 0x1 } ∧ following Line.clock true 2 = [0, 0x2] ∧
      (powered []).inp.port.take 3 = ⟨0x5A, false⟩ :: [0x5A, 0x5A].map (fun b => ⟨b, false⟩) :=
  ⟨inv_of_invTest (by decide), by decide, inv_of_invTest (by decide), by decide, by decide, by decide,
    inv_of_invTest (by decide), by decide, inv_of_invTest (by decide), by decide, by decide⟩

theorem witness_BusStateGatesNothing :
    isBusByte .iecPoll = false ∧
      exec .clearEoi (powered []) = .next ((powered []).clearEoi.answer (.reply [])) ∧
      next (handle { pendingRequest .read .s2 0 1 0 [] (List.replicate 4 0) with busState := .talking })
        (fun t => decide (t.busState = .talking)) = true ∧
      next (handle (pendingRequest .write .pp 0 1 1 [9] (List.replicate 5 0)))
        (fun t => decide (t.busState = .unknown ∧ t.status = 9)) = true := ⟨rfl, rfl, by decide, by decide⟩

theorem witness_EventLogIsARing :
    logOk (powered []) ∧ (5 : Byte) ≠ 0 ∧ ((powered []).eventByAge 0).etype = 0 ∧
      logOk ((powered []).logEvent 5) ∧ (((powered []).logEvent 5).eventByAge 0).etype = 5 ∧
      (((powered []).logEvent 1).eventByAge 0).etype ≠ 5 ∧ 6 + 1 < (powered []).cfg.eventLogSize := by
  refine ⟨⟨rfl, by decide⟩, by decide, by decide, ⟨rfl, by decide⟩, by decide, by decide, by decide⟩

theorem witness_SetAndRelChangeLines :
    { powered [] with drive := 0x2 }.drive = 0x2 ∧ { powered [] with drive := 0x7 }.drive = 0x7 := ⟨rfl, rfl⟩

end Sys2Proof.Tests
end

section
/-! PROOF. INFO's reply (30_encoding.md R101). The reply's tail depends on HAS_BIOS_INFO alone: one equation for each of
its two values. -/

namespace Sys2Proof.Proofs.Encoding

open Sys2Proof Sys2Proof.Machine

/-- The dispatcher's arm for INFO. -/
theorem exec_info (s : State) : exec .info s = execInfo s := rfl

/-- A command that only replies changes the state by its one response. -/
theorem replyWith_eq_next_answer (bytes : List Byte) (s : State) :
    replyWith bytes s = .next (s.answer (.reply bytes)) := rfl

/-- The six-byte layout. -/
theorem execInfo_of_hasBiosInfo {s : State} (hbios : s.cfg.hasBiosInfo = true) :
    execInfo s =
      .next (s.answer (.reply [s.cfg.fwMajor, s.cfg.fwMinor, s.cfg.caps.extractLsb' 0 8,
        s.cfg.caps.extractLsb' 8 8, s.cfg.biosMajor, s.cfg.biosMinor])) := by
  simp only [execInfo, if_pos hbios, replyWith_eq_next_answer, List.cons_append, List.nil_append]

/-- The four-byte layout: no bootloader version. -/
theorem execInfo_of_not_hasBiosInfo {s : State} (hbios : s.cfg.hasBiosInfo = false) :
    execInfo s =
      .next (s.answer (.reply [s.cfg.fwMajor, s.cfg.fwMinor, s.cfg.caps.extractLsb' 0 8,
        s.cfg.caps.extractLsb' 8 8])) := by
  rw [execInfo, if_neg (Bool.eq_false_iff.mp hbios), replyWith_eq_next_answer, List.append_nil]

/-- Settles O14, by the two values of HAS_BIOS_INFO. -/
theorem infoReply : Obligations.InfoReply := by
  intro s
  rw [exec_info]
  exact ⟨execInfo_of_hasBiosInfo, execInfo_of_not_hasBiosInfo⟩

end Sys2Proof.Proofs.Encoding
end

section
/-! PROOF. SET and REL (40_line_primitives.md R122, R123). Both show the pins with the new drive and then let the settle
time pass, and a DELAY moves nothing but the counter, the overshoot script and the watchdog's expiry (R126). -/

namespace Sys2Proof.Proofs.LinePrimitives

open Sys2Proof Sys2Proof.Machine Sys2Proof.Safety

/-- All that a DELAY changes. -/
theorem delay_eq (t : Nat) (s : State) :
    s.delay t =
      { s with
        now := s.nowAfter t
        inp := { s.inp with overs := s.inp.dropOver.overs, oversDrawn := s.inp.dropOver.oversDrawn }
        expiry := (s.delay t).expiry } := by
  rw [← Inputs.dropOver_eq s.inp]
  rfl

/-- All that a change of the line latches changes, up to the end of its settle time. -/
theorem drive_show_delay_eq (s : State) (d : LineMask) :
    ({ s with drive := d }).show.delay s.cfg.tSettle =
      { s with
        drive := d
        now := s.nowAfter s.cfg.tSettle
        inp := { s.inp with overs := s.inp.dropOver.overs, oversDrawn := s.inp.dropOver.oversDrawn }
        expiry := (({ s with drive := d }).show.delay s.cfg.tSettle).expiry
        out := { s.out with pins := { s.pinsNow with drive := d } :: s.out.pins } } :=
  delay_eq s.cfg.tSettle ({ s with drive := d }).show

/-- A delay uses up an overshoot and no line sample. -/
theorem nextLines_dropOver (i : Inputs) : i.dropOver.nextLines = i.nextLines := by
  rw [Inputs.dropOver_eq]
  rfl

/-- On the lines it releases, the block's own latch is 0, so a sample reads the peer alone (R22). -/
theorem sense_releaseLines_and (s : State) (m : LineMask) :
    (s.releaseLines m).sense &&& m = peerAt s.inp 0 &&& m := by
  have hreleased : (s.drive &&& ~~~m) &&& m = 0 := by
    rw [BitVec.and_assoc, BitVec.and_comm (~~~m), BitVec.and_not_self]
    exact BitVec.and_zero
  have hpeer : (s.releaseLines m).inp.nextLines = peerAt s.inp 0 := by
    rw [State.releaseLines_inp, nextLines_dropOver, peerAt_zero]
  rw [State.sense, hpeer, State.releaseLines_drive, BitVec.and_or_distrib_right, hreleased]
  exact BitVec.zero_or

/-- Settles O60: both primitives are a change of the latches, shown and settled; the released lines read the peer; the
two examples evaluate the new drive. -/
theorem setAndRelChangeLines : Obligations.SetAndRelChangeLines := by
  refine ⟨fun s m => ⟨_, _, _, drive_show_delay_eq s (s.drive ||| m)⟩,
    fun s m => ⟨_, _, _, drive_show_delay_eq s (s.drive &&& ~~~m)⟩, sense_releaseLines_and, fun s hdrive => ?_,
    fun s hdrive => ?_⟩
  · rw [State.assertLines_drive, hdrive]
    rfl
  · rw [State.releaseLines_drive, hdrive]
    rfl

end Sys2Proof.Proofs.LinePrimitives
end

section
/-! PROOF. The EOI flag's two commands (43_dispatcher_commands.md R213, R214) and the read that the flag stops: `raw_read`
looks at the flag before it touches the bus (R180). -/

namespace Sys2Proof.Proofs.EoiFlag

open Sys2Proof Sys2Proof.Machine Sys2Proof.Proofs.Encoding

/-! ## The two codes (R90) -/

/-- The code map at 10, whatever the other bytes of the word. -/
theorem decode_word_getEoi (c : Config) {w : CmdWord} (hcmd : cmdOf w = 0x0A) :
    decode c (.word w) = .ok .getEoi := by
  rw [decode, decodeWord, hcmd]
  rfl

/-- The code map at 11, whatever the other bytes of the word. -/
theorem decode_word_clearEoi (c : Config) {w : CmdWord} (hcmd : cmdOf w = 0x0B) :
    decode c (.word w) = .ok .clearEoi := by
  rw [decode, decodeWord, hcmd]
  rfl

/-! ## The dispatcher's arms -/

/-- The dispatcher's arm for GET_EOI. -/
theorem exec_getEoi (s : State) : exec .getEoi s = execGetEoi s := rfl

/-- The dispatcher's arm for CLEAR_EOI. -/
theorem exec_clearEoi (s : State) : exec .clearEoi s = execClearEoi s := rfl

/-- GET_EOI answers the flag's byte and leaves the flag (R213). -/
theorem exec_getEoi_eq_next_answer (s : State) :
    exec .getEoi s = .next (s.answer (.reply [eoiByte s])) := by
  rw [exec_getEoi, execGetEoi, replyWith_eq_next_answer]

/-- CLEAR_EOI clears the flag and answers no byte (R214). -/
theorem exec_clearEoi_eq_next_answer (s : State) :
    exec .clearEoi s = .next (s.clearEoi.answer (.reply [])) := by
  rw [exec_clearEoi, execClearEoi, replyWith_eq_next_answer]

/-! ## The read behind the flag (R180) -/

/-- `raw_read` goes on by the flag it finds, from the state it finds. -/
theorem rawRead_apply (cap : Nat) (s : State) :
    rawRead cap s = (if s.eoi then pure () else readLoop cap : Engine Unit) s :=
  engine_bind_ok (op := get) rfl rfl

/-- With the flag set nothing is read. -/
theorem rawRead_of_eoi (cap : Nat) {s : State} (heoi : s.eoi = true) : rawRead cap s = .ok () s := by
  rw [rawRead_apply, if_pos heoi]
  rfl

/-- With the flag clear the read goes on to the bus. -/
theorem rawRead_of_not_eoi (cap : Nat) {s : State} (heoi : s.eoi = false) : rawRead cap s = readLoop cap s := by
  rw [rawRead_apply, if_neg (Bool.eq_false_iff.mp heoi)]

/-- Settles O15: each command is its one reply, the codes are the code map's, and a further read follows the flag. -/
theorem eoiCommands : Obligations.EoiCommands := fun s =>
  ⟨exec_getEoi_eq_next_answer s, exec_clearEoi_eq_next_answer s,
    decode_word_getEoi s.cfg (cmdOf_wordOfBytes ..), decode_word_clearEoi s.cfg (cmdOf_wordOfBytes ..),
    fun cap => rawRead_of_eoi cap, fun cap => rawRead_of_not_eoi cap rfl⟩

end Sys2Proof.Proofs.EoiFlag
end

section
/-! PROOF. Decoder and encoder against each other (30_encoding.md R80 to R82, R86, R90 to R96): what each form of code
decodes to, and which bytes of a command word its decoding reads. -/

namespace Sys2Proof.Proofs.Codes

open Sys2Proof Sys2Proof.Machine Sys2Proof.Safety

/-! ## Bytes of a command word -/

/-- `LEN`'s low byte is `p4` (R64, R82). -/
theorem lenOf_low (w : CmdWord) : (lenOf w).extractLsb' 0 8 = paramOf 4 w := by
  refine BitVec.eq_of_getLsbD_eq fun i hi => ?_
  simp only [lenOf, BitVec.getLsbD_extractLsb', BitVec.getLsbD_append]
  simp [hi]

/-- `LEN`'s high byte is `p5`. -/
theorem lenOf_high (w : CmdWord) : (lenOf w).extractLsb' 8 8 = paramOf 5 w := by
  refine BitVec.eq_of_getLsbD_eq fun i hi => ?_
  simp only [lenOf, BitVec.getLsbD_extractLsb', BitVec.getLsbD_append]
  simp [hi]

/-- A word made of a word's parameter bytes and a command byte has those parameter bytes. -/
theorem paramOf_paramsOf_append (w : CmdWord) (c : Byte) {k : Nat} (hk : k < 6) :
    paramOf k (paramsOf w ++ c) = paramOf k w := by
  refine BitVec.eq_of_getLsbD_eq fun i hi => ?_
  simp only [paramOf, paramsOf, BitVec.getLsbD_extractLsb', BitVec.getLsbD_append]
  rw [if_neg (by omega), decide_eq_true (show 8 * (k + 1) + i - 8 < 48 by omega),
    show 8 + (8 * (k + 1) + i - 8) = 8 * (k + 1) + i by omega, Bool.true_and]

/-! ## The code map outside its assigned rows (R90) -/

/-- The codes 26 to 31. -/
theorem decodeWord_low (dbg : Bool) {w : CmdWord} (hlo : 26 ≤ (cmdOf w).toNat) (hhi : (cmdOf w).toNat ≤ 31) :
    decodeWord dbg w = .unassignedLow (cmdOf w) := by
  fun_cases decodeWord dbg w <;> first | rfl | omega

/-- The codes 36 to 252, and to 255 without DEBUG_CMDS. -/
theorem decodeWord_high {dbg : Bool} {w : CmdWord} (hlo : 36 ≤ (cmdOf w).toNat)
    (hhi : (cmdOf w).toNat ≤ 252 ∨ dbg = false) : decodeWord dbg w = .unassignedHigh (cmdOf w) := by
  fun_cases decodeWord dbg w
  all_goals first | rfl | omega | simp_all

/-- A sub-opcode of 3 to 255. -/
theorem decodeSub_bad (p : Proto) {w : CmdWord} (h : 3 ≤ (paramOf 0 w).toNat) :
    decodeSub p w = .badSubOpcode p (paramOf 0 w) := by
  fun_cases decodeSub p w <;> first | rfl | omega

/-- The command codes 32 to 35. -/
theorem decodeWord_sub (dbg : Bool) (p : Proto) {w : CmdWord} (h : cmdOf w = p.cmd) :
    decodeWord dbg w = decodeSub p w := by
  cases p <;> rw [decodeWord, h] <;> rfl

/-! ## Bus command bytes (R96) -/

/-- Every bus byte row but the two 31s comes back from its byte. -/
theorem decodeBusByte_listen : ∀ dev : BitVec 5, dev ≠ 31#5 → decodeBusByte (1#3 ++ dev) = .ok (.busListen dev) := by
  decide
theorem decodeBusByte_talk : ∀ dev : BitVec 5, dev ≠ 31#5 → decodeBusByte (2#3 ++ dev) = .ok (.busTalk dev) := by
  decide
theorem decodeBusByte_second : ∀ sec : BitVec 4, decodeBusByte (6#4 ++ sec) = .ok (.busSecond sec) := by decide
theorem decodeBusByte_close : ∀ sec : BitVec 4, decodeBusByte (14#4 ++ sec) = .ok (.busClose sec) := by decide
theorem decodeBusByte_open : ∀ sec : BitVec 4, decodeBusByte (15#4 ++ sec) = .ok (.busOpen sec) := by decide

/-- A byte is its top three bits before its low five. -/
theorem topThree_append (b : Byte) : b.extractLsb' 5 3 ++ b.extractLsb' 0 5 = b := by
  refine BitVec.eq_of_getLsbD_eq fun i hi => ?_
  simp only [BitVec.getLsbD_extractLsb', BitVec.getLsbD_append]
  interval_cases i <;> simp

/-- Settles O10: the words of the assigned rows evaluate, field by field; the ranges and the bus bytes have their own
lemmas. -/
theorem decodeInvertsEncode : Obligations.DecodeInvertsEncode := by
  intro c i hwf
  cases i
  case unassignedLow cmd =>
    simp only [Instr.wellFormed, Bool.and_eq_true, decide_eq_true_eq, BitVec.le_def] at hwf
    have hcmd : cmdOf (wordOfBytes cmd 0 0 0 0 0 0) = cmd := cmdOf_wordOfBytes ..
    rw [encode, encodeF0, decode, decodeWord_low _ (by rw [hcmd]; exact hwf.1) (by rw [hcmd]; exact hwf.2), hcmd]
  case unassignedHigh cmd =>
    simp only [Instr.wellFormed, Bool.and_eq_true, Bool.or_eq_true, decide_eq_true_eq, Bool.not_eq_true',
      BitVec.le_def] at hwf
    have hcmd : cmdOf (wordOfBytes cmd 0 0 0 0 0 0) = cmd := cmdOf_wordOfBytes ..
    rw [encode, encodeF0, decode, decodeWord_high (by rw [hcmd]; exact hwf.1) (by rw [hcmd]; exact hwf.2), hcmd]
  case badSubOpcode p sub =>
    simp only [Instr.wellFormed, decide_eq_true_eq, BitVec.le_def] at hwf
    have hsub : paramOf 0 (wordOfBytes p.cmd sub 0 0 0 0 0) = sub := paramOf_zero_wordOfBytes ..
    rw [encode, encodeP01, decode, decodeWord_sub _ p (cmdOf_wordOfBytes ..), decodeSub_bad p (by rw [hsub]; exact hwf),
      hsub]
  case dataOut bytes =>
    simp only [Instr.wellFormed, Bool.and_eq_true, decide_eq_true_eq] at hwf
    rw [encode, decode, decodeChunk, if_neg (by omega), if_neg (by omega)]
  case busListen dev => exact decodeBusByte_listen dev (by simpa [Instr.wellFormed] using hwf)
  case busTalk dev => exact decodeBusByte_talk dev (by simpa [Instr.wellFormed] using hwf)
  case busSecond sec => exact decodeBusByte_second sec
  case busClose sec => exact decodeBusByte_close sec
  case busOpen sec => exact decodeBusByte_open sec
  all_goals simp_all [decode, encode, encodeF0, encodeLen, encodeP01, decodeWord, decodeSub, decodeBusByte,
    Instr.wellFormed]

/-- A byte is its top nibble before its low one. -/
theorem topNibble_append (b : Byte) : b.extractLsb' 4 4 ++ b.extractLsb' 0 4 = b := by
  refine BitVec.eq_of_getLsbD_eq fun i hi => ?_
  simp only [BitVec.getLsbD_extractLsb', BitVec.getLsbD_append]
  interval_cases i <;> simp

/-- The top nibble, from the top three bits and bit 4. -/
theorem topNibble_eq (b : Byte) : b.extractLsb' 4 4 = b.extractLsb' 5 3 ++ BitVec.ofBool (b.getLsbD 4) := by
  refine BitVec.eq_of_getLsbD_eq fun i hi => ?_
  simp only [BitVec.getLsbD_extractLsb', BitVec.getLsbD_append, BitVec.getLsbD_ofBool]
  interval_cases i <;> simp

/-- What a bus byte decodes to is the row whose byte it is. -/
theorem encode_of_decodeBusByte {b : Byte} {i : Instr} (h : decodeBusByte b = .ok i) : encode i = .busByte b := by
  have hthree : ∀ {t : BitVec 3}, (b.extractLsb' 5 3).toNat = t.toNat → t ++ b.extractLsb' 0 5 = b := fun ht => by
    rw [← BitVec.eq_of_toNat_eq ht, topThree_append]
  have hnibble : ∀ {t : BitVec 3}, (b.extractLsb' 5 3).toNat = t.toNat →
      (t ++ BitVec.ofBool (b.getLsbD 4)) ++ b.extractLsb' 0 4 = b := fun ht => by
    rw [← BitVec.eq_of_toNat_eq ht, ← topNibble_eq, topNibble_append]
  revert h
  fun_cases decodeBusByte b <;> intro h <;> cases h
  case case1 hb => rw [hb]; rfl
  case case2 htop _ => exact congrArg Code.busByte (hthree (t := 1#3) htop)
  case case3 hb => rw [hb]; rfl
  case case4 htop _ => exact congrArg Code.busByte (hthree (t := 2#3) htop)
  case case6 htop hbit => 
    rw [Bool.not_eq_true] at hbit
    rw [hbit] at hnibble
    exact congrArg Code.busByte (hnibble (t := 3#3) htop)
  case case7 htop hbit => 
    rw [hbit] at hnibble
    exact congrArg Code.busByte (hnibble (t := 7#3) htop)
  case case8 htop hbit =>
    rw [Bool.not_eq_true] at hbit
    rw [hbit] at hnibble
    exact congrArg Code.busByte (hnibble (t := 7#3) htop)

/-- What a bus byte decodes to is a bus row, never device 31: those bytes are UNLISTEN and UNTALK (log 24). -/
theorem wellFormed_of_decodeBusByte (c : Config) {b : Byte} {i : Instr} (h : decodeBusByte b = .ok i) :
    i.wellFormed c = true ∧ isBusByte i = true := by
  have hcode := encode_of_decodeBusByte h
  revert h
  fun_cases decodeBusByte b <;> intro h <;> cases h
  case case2 _ hne =>
    refine ⟨decide_eq_true fun hdev => hne ?_, rfl⟩
    rw [← (Code.busByte.inj hcode : 1#3 ++ _ = b), hdev]
    rfl
  case case4 _ hne =>
    refine ⟨decide_eq_true fun hdev => hne ?_, rfl⟩
    rw [← (Code.busByte.inj hcode : 2#3 ++ _ = b), hdev]
    rfl
  all_goals exact ⟨rfl, rfl⟩

/-- R96's four patterns are the top bits on which the decoder looks. -/
theorem busByte_pattern_iff :
    ∀ b : Byte, (decodeBusByte b).isOk = true ↔
      b &&& 0xE0 = 0x20 ∨ b &&& 0xE0 = 0x40 ∨ b &&& 0xF0 = 0x60 ∨ b &&& 0xE0 = 0xE0 := by
  decide

/-- Settles O13: a decoded byte is its row's code, and the patterns are decided byte by byte. -/
theorem busBytesDecodeExactly : Obligations.BusBytesDecodeExactly := fun c b =>
  ⟨fun i h => ⟨encode_of_decodeBusByte h, (wellFormed_of_decodeBusByte c h).2⟩, by
    rw [← busByte_pattern_iff b]
    show (∃ i, decodeBusByte b = .ok i) ↔ _
    cases decodeBusByte b <;> simp [Except.isOk, Except.toBool]⟩

/-! ## Command words -/

/-- What a sub-protocol code decodes to is well formed. -/
theorem wellFormed_decodeSub (c : Config) (p : Proto) (w : CmdWord) : (decodeSub p w).wellFormed c = true := by
  fun_cases decodeSub p w
  case case13 =>
    simp only [imp_false] at *
    have hsub : 3 ≤ (paramOf 0 w).toNat := by omega
    exact decide_eq_true hsub
  all_goals rfl

/-- What a word decodes to is well formed: the ranges are those that the code map leaves. -/
theorem wellFormed_decodeWord (c : Config) (w : CmdWord) : (decodeWord c.debugCmds w).wellFormed c = true := by
  have hbyte : (cmdOf w).toNat < 256 := (cmdOf w).isLt
  fun_cases decodeWord c.debugCmds w
  case case27 => exact wellFormed_decodeSub c _ w
  case case28 => exact wellFormed_decodeSub c _ w
  case case29 => exact wellFormed_decodeSub c _ w
  case case30 => exact wellFormed_decodeSub c _ w
  case case37 hlow =>
    simp only [imp_false] at *
    simp only [Instr.wellFormed, Bool.and_eq_true, decide_eq_true_eq, BitVec.le_def]
    exact ⟨show 26 ≤ _ by omega, show _ ≤ 31 by omega⟩
  case case38 =>
    simp only [imp_false] at *
    simp only [Instr.wellFormed, Bool.and_eq_true, Bool.or_eq_true, decide_eq_true_eq, BitVec.le_def]
    exact ⟨show 36 ≤ _ by omega, .inl (show _ ≤ 252 by omega)⟩
  all_goals simp_all [Instr.wellFormed, BitVec.le_def]

/-- Six parameter bytes make the parameters. -/
theorem paramsOf_congr {v w : CmdWord} (h : ∀ k, k < 6 → paramOf k v = paramOf k w) : paramsOf v = paramsOf w := by
  refine BitVec.eq_of_getLsbD_eq fun i hi => ?_
  have hbit := congrArg (BitVec.getLsbD · (i % 8)) (h (i / 8) (by omega))
  simp only [paramOf, BitVec.getLsbD_extractLsb', decide_eq_true (show i % 8 < 8 by omega), Bool.true_and,
    show 8 * (i / 8 + 1) + i % 8 = 8 + i by omega] at hbit
  simp only [paramsOf, BitVec.getLsbD_extractLsb', decide_eq_true hi, Bool.true_and, hbit]

/-- The parameter bytes that a sub-protocol code with sub-opcode `sub` names (R82, R94). -/
def subParams (sub : Byte) : List Nat := if sub = 1 then [0, 1] else if sub = 2 then [0, 4, 5] else [0]

/-- `w'` has the command byte of `w`, the bytes of `w` at `named`, and 0 in every other byte. -/
structure KeepsNamed (named : List Nat) (w w' : CmdWord) : Prop where
  cmd : cmdOf w' = cmdOf w
  params : ∀ k, k < 6 → paramOf k w' = if k ∈ named then paramOf k w else 0

/-- The sub-opcodes that the decoder tells apart (R94). -/
theorem subOpcode_cases (sub : Byte) : sub = 0 ∨ sub = 1 ∨ sub = 2 ∨ sub ≠ 1 ∧ sub ≠ 2 ∧ 3 ≤ sub.toNat := by
  bv_omega

/-- The word of a decoded sub-protocol command. -/
theorem encode_decodeSub (p : Proto) {w : CmdWord} (hcmd : cmdOf w = p.cmd) :
    ∃ w', encode (decodeSub p w) = .word w' ∧ KeepsNamed (subParams (paramOf 0 w)) w w' := by
  have hkeeps : ∀ {sub p1 p4 p5 : Byte},
      (∀ k, k < 6 → paramOf k (wordOfBytes p.cmd sub p1 0 0 p4 p5) =
        if k ∈ subParams (paramOf 0 w) then paramOf k w else 0) →
      KeepsNamed (subParams (paramOf 0 w)) w (wordOfBytes p.cmd sub p1 0 0 p4 p5) := fun h =>
    ⟨(cmdOf_wordOfBytes ..).trans hcmd.symm, h⟩
  obtain h | h | h | ⟨h1, h2, h3⟩ := subOpcode_cases (paramOf 0 w)
  · refine ⟨wordOfBytes p.cmd 0 0 0 0 0 0, by cases p <;> rw [decodeSub, h] <;> rfl, hkeeps fun k hk => ?_⟩
    interval_cases k <;> simp [subParams, h]
  · refine ⟨wordOfBytes p.cmd 1 (paramOf 1 w) 0 0 0 0, by cases p <;> rw [decodeSub, h] <;> rfl, hkeeps fun k hk => ?_⟩
    interval_cases k <;> simp [subParams, h]
  · refine ⟨wordOfBytes p.cmd 2 0 0 0 (paramOf 4 w) (paramOf 5 w), ?_, hkeeps fun k hk => ?_⟩
    · rw [← lenOf_low, ← lenOf_high]
      cases p <;> rw [decodeSub, h] <;> rfl
    · interval_cases k <;> simp [subParams, h]
  · refine ⟨wordOfBytes p.cmd (paramOf 0 w) 0 0 0 0 0, by rw [decodeSub_bad p h3]; rfl, hkeeps fun k hk => ?_⟩
    rw [subParams, if_neg h1, if_neg h2]
    interval_cases k <;> simp

/-- Sub-protocol codes that agree in the named bytes decode alike. -/
theorem decodeSub_congr (p : Proto) {v w : CmdWord}
    (hparams : ∀ k, k ∈ subParams (paramOf 0 w) → paramOf k v = paramOf k w) :
    decodeSub p v = decodeSub p w := by
  have h0 : paramOf 0 v = paramOf 0 w := hparams 0 (by unfold subParams; split <;> [skip; split] <;> simp)
  obtain h | h | h | ⟨-, -, h3⟩ := subOpcode_cases (paramOf 0 w)
  · cases p <;> rw [decodeSub, decodeSub, h0, h] <;> rfl
  · have h1 : paramOf 1 v = paramOf 1 w := hparams 1 (by rw [h]; decide)
    cases p <;> rw [decodeSub, decodeSub, h0, h, h1] <;> rfl
  · have hlen : lenOf v = lenOf w := by rw [lenOf, lenOf, hparams 4 (by rw [h]; decide), hparams 5 (by rw [h]; decide)]
    cases p <;> rw [decodeSub, decodeSub, h0, h, hlen] <;> rfl
  · rw [decodeSub_bad p h3, decodeSub_bad p (by rw [h0]; exact h3), h0]

/-- The word of a decoded command. -/
theorem encode_decodeWord (c : Config) (w : CmdWord) :
    ∃ w', encode (decodeWord c.debugCmds w) = .word w' ∧ KeepsNamed (namedParams c w) w w' := by
  have hcmd : ∀ {n : Byte}, (cmdOf w).toNat = n.toNat → cmdOf w = n := BitVec.eq_of_toNat_eq
  have hsub : ∀ p : Proto, cmdOf w = p.cmd →
      ∃ w', encode (decodeSub p w) = .word w' ∧ KeepsNamed (namedParams c w) w w' := fun p hp => by
    have hnamed : namedParams c w = subParams (paramOf 0 w) := by cases p <;> rw [namedParams, hp] <;> rfl
    rw [hnamed]
    exact encode_decodeSub p hp
  fun_cases decodeWord c.debugCmds w
  case case27 h => exact hsub .s1 (hcmd h)
  case case28 h => exact hsub .s2 (hcmd h)
  case case29 h => exact hsub .pp (hcmd h)
  case case30 h => exact hsub .p2 (hcmd h)
  all_goals
    refine ⟨_, rfl, ?_, fun k hk => ?_⟩
    · apply BitVec.eq_of_toNat_eq
      simp_all
    · simp only [namedParams, *]
      interval_cases k <;> simp [lenOf_low, lenOf_high, paramOf_paramsOf_append]

/-- Words that agree in the command byte and the named bytes decode alike. -/
theorem decodeWord_congr (c : Config) {v w : CmdWord} (hcmd : cmdOf v = cmdOf w)
    (hparams : ∀ k, k ∈ namedParams c w → paramOf k v = paramOf k w) :
    decodeWord c.debugCmds v = decodeWord c.debugCmds w := by
  have hsub : ∀ p : Proto, (cmdOf w).toNat = p.cmd.toNat → decodeWord c.debugCmds v = decodeSub p w := fun p hp => by
    have hpw : cmdOf w = p.cmd := BitVec.eq_of_toNat_eq hp
    have hnamed : namedParams c w = subParams (paramOf 0 w) := by cases p <;> rw [namedParams, hpw] <;> rfl
    rw [decodeWord_sub _ p (hcmd.trans hpw), decodeSub_congr p (hnamed ▸ hparams)]
  have hall : (cmdOf w).toNat = 23 ∨ (cmdOf w).toNat = 24 ∨ (cmdOf w).toNat = 25 → paramsOf v = paramsOf w := by
    intro h
    have hnamed : namedParams c w = [0, 1, 2, 3, 4, 5] := by rcases h with h | h | h <;> rw [namedParams, h] <;> rfl
    exact paramsOf_congr fun k hk => hparams k (by rw [hnamed]; interval_cases k <;> decide)
  fun_cases decodeWord c.debugCmds w
  case case27 h => exact hsub .s1 h
  case case28 h => exact hsub .s2 h
  case case29 h => exact hsub .pp h
  case case30 h => exact hsub .p2 h
  all_goals
    simp [namedParams, *] at hparams
    simp [decodeWord, lenOf, *]

/-- Settles O11, by the three forms of code. -/
theorem decodedIsWellFormed : Obligations.DecodedIsWellFormed := by
  intro c code i h
  cases code with
  | word w =>
    cases h
    exact wellFormed_decodeWord c w
  | chunk bytes =>
    revert h
    simp only [decode]
    fun_cases decodeChunk c.usbChunk bytes <;> intro h <;> cases h
    simp only [Instr.wellFormed, Bool.and_eq_true, decide_eq_true_eq]
    omega
  | busByte b => exact (wellFormed_of_decodeBusByte c h).1

/-- Settles O12: decoding is total on words, and what it reads and what it keeps are the named bytes. -/
theorem unnamedParametersAreIgnored : Obligations.UnnamedParametersAreIgnored := by
  refine fun c w => ⟨?_, fun v hcmd hparams => congrArg Except.ok (decodeWord_congr c hcmd hparams)⟩
  obtain ⟨w', hw, hkeeps⟩ := encode_decodeWord c w
  exact ⟨_, w', rfl, hw, hkeeps.cmd, hkeeps.params⟩

/-- Settles O9: each code evaluates. -/
theorem sampleWordsDecode : Obligations.SampleWordsDecode := by
  refine ⟨?_, ?_, ?_, ?_, ?_, ?_, ?_, ?_, ?_, ?_, ?_⟩ <;> rfl

end Sys2Proof.Proofs.Codes
end

section
/-! PROOF. What the dispatcher can do with an instruction, said once (43_dispatcher_commands.md R200 to R242): the
checks in their order, and `Dispatched`, one case for each kind of answer. -/

namespace Sys2Proof.Proofs.Dispatcher

open Sys2Proof Sys2Proof.Machine Sys2Proof.Safety

/-! ## The checks -/

theorem requireIdle_of_idle {s : State} (h : s.mode = .idle) (r : Result) : requireIdle s r = r := by
  unfold requireIdle
  cases s.cfg.overlapPolicy
  exact if_pos h

theorem requireIdle_of_busy {s : State} (h : s.mode ≠ .idle) (r : Result) :
    requireIdle s r = .next (s.answer (.refuse .busy)) := by
  unfold requireIdle
  cases s.cfg.overlapPolicy
  exact if_neg h

theorem requireProto_of_has {p : Proto} {s : State} (h : hasProto s.cfg p = true) (r : Result) :
    requireProto p s r = r := if_pos h

theorem requireProto_of_absent {p : Proto} {s : State} (h : hasProto s.cfg p = false) (r : Result) :
    requireProto p s r = .next (s.answer (.refuse .unimplemented)) := if_neg (Bool.eq_false_iff.mp h)

theorem goodLength_of_bounds {c : Config} {n : Nat} (h1 : 1 ≤ n) (h2 : n ≤ c.bufSize) : goodLength c n = true :=
  (goodLength_iff c n).mpr ⟨h1, h2⟩

theorem not_goodLength {c : Config} {n : Nat} (h : n = 0 ∨ c.bufSize < n) : ¬ goodLength c n = true := fun hg => by
  have := (goodLength_iff c n).mp hg
  omega

/-- DEV 0 to 30 and SEC 0 to 15 (R98). -/
theorem goodAddress_iff (dev sec : Byte) : goodAddress dev sec = true ↔ dev.toNat ≤ 30 ∧ sec.toNat ≤ 15 := by
  simp [goodAddress, BitVec.le_def]

theorem requestReadIn_of_good {s : State} {n : Byte} (p : Proto) (h : goodLength s.cfg n.toNat = true) :
    requestReadIn p n s = requireIdle s (.next ((s.beginTransfer .read n p).answer (.pending 0))) := if_pos h

theorem requestReadIn_of_bad {s : State} {n : Byte} (p : Proto) (h : n.toNat = 0 ∨ s.cfg.bufSize < n.toNat) :
    requestReadIn p n s = .next (s.answer (.refuse .badLength)) := if_neg (not_goodLength h)

theorem writeIn_of_good {s : State} {len : BitVec 16} (p : Proto) (h : goodLength s.cfg len.toNat = true) :
    writeIn p len s =
      requireIdle s (.next ((s.beginTransfer .writePrepared (len.setWidth 8) p).answer (.pending len.toNat))) := by
  rw [writeIn, if_pos h, byteOfCount_length]

theorem writeIn_of_bad {s : State} {len : BitVec 16} (p : Proto) (h : len.toNat = 0 ∨ s.cfg.bufSize < len.toNat) :
    writeIn p len s = .next (s.answer (.refuse .badLength)) := if_neg (not_goodLength h)

theorem addressCommand_of_good {s : State} {dev sec : Byte} (code : Byte) (bytes : List Byte)
    (h : goodAddress dev sec = true) : addressCommand code dev sec bytes s = deferWithBytes code bytes s := if_pos h

theorem addressCommand_of_bad {s : State} {dev sec : Byte} (code : Byte) (bytes : List Byte)
    (h : 30 < dev.toNat ∨ 15 < sec.toNat) :
    addressCommand code dev sec bytes s = .next (s.answer (.refuse .badParam)) := by
  refine if_neg fun hg => ?_
  have := (goodAddress_iff dev sec).mp hg
  omega

/-! ## One case for each kind of answer -/

/-- What a command that acts at once may change: the lines, the port, `eoi`, time and the scripts it samples. -/
structure ActsAtOnce (s t : State) : Prop where
  frame : Frame s t
  buffer : t.buffer = s.buffer
  irqOff : t.irqOff = s.irqOff
  count : t.count = s.count
  busState : t.busState = s.busState

theorem ActsAtOnce.refl (s : State) : ActsAtOnce s s := ⟨Frame.refl s, rfl, rfl, rfl, rfl⟩

/-- The answers of the dispatcher to an instruction that is no bus byte. -/
inductive Dispatched (s : State) : Instr → Result → Prop
  /-- a refusal, for whatever reason (R201) -/
  | refused {i : Instr} (reason : RefuseReason) (hi : isExternal i = false) :
    Dispatched s i (.next (s.answer (.refuse reason)))
  /-- an external command (R237, R238) -/
  | forwarded {i : Instr} {w : CmdWord} (hi : isExternal i = true) (hw : encode i = .word w) :
    Dispatched s i (.next ((s.forward w).answer (.refuse .external)))
  /-- a command answered at once -/
  | replied {i : Instr} {t : State} (bytes : List Byte) (h : ActsAtOnce s t) (heoi : i ≠ .clearEoi → t.eoi = s.eoi) :
    Dispatched s i (.next (t.answer (.reply bytes)))
  /-- GET_RESULT of a finished request (R216) -/
  | resultTaken {i : Instr} (bytes : List Byte) (hmode : s.mode = .result) :
    Dispatched s i (.next ({ s with mode := .idle }.answer (.reply bytes)))
  /-- an accepted read or write request (R205, R215, R226, R227) -/
  | transfer {i : Instr} {m : IoMode} {n : Byte} (p : Proto) (k : Nat) (hmode : s.mode = .idle)
    (hm : m = .read ∨ m = .writePrepared) (hn : s.cfg.wf = true → goodLength s.cfg n.toNat = true) :
    Dispatched s i (.next ((s.beginTransfer m n p).answer (.pending k)))
  /-- an accepted deferred command; RESET in every mode (R206 to R212, R220, R242) -/
  | deferred {i : Instr} {code : Byte} {bytes : List Byte} (hcode : asyncBytes code = some bytes.length)
    (hlen : bytes.length ≤ 2) :
    Dispatched s i (.next (((s.putBytes 0 bytes).beginAsync code (byteOfCount bytes.length)).answer (.pending 0)))
  /-- READ of bytes of the request (R204) -/
  | read {len : BitVec 16} {bytes : List Byte} (hmode : s.mode = .readDone) (hlen : goodLength s.cfg len.toNat = true)
    (hread : s.memRead s.offset.toNat (readAmount len.toNat s) = .ok bytes) :
    Dispatched s (.read len) (.next ((s.advance (readAmount len.toNat s) .idle).answer (.dataIn bytes)))
  /-- READ of bytes the buffer cannot give -/
  | readFault {len : BitVec 16} {f : Fault} (hmode : s.mode = .readDone)
    (hread : s.memRead s.offset.toNat (readAmount len.toNat s) = .error f) : Dispatched s (.read len) (.fault f)
  /-- a chunk stored at the cursor (R272) -/
  | stored {bytes : List Byte} (hmode : s.mode = .writePrepared)
    (hroom : s.offset.toNat + (bytes.take (chunkAmount bytes s)).length ≤ s.cfg.bufSize) :
    Dispatched s (.dataOut bytes)
      (.next (((s.putBytes s.offset.toNat (bytes.take (chunkAmount bytes s))).advance (chunkAmount bytes s)
        .write).answer (.reply [])))
  /-- a chunk outside the buffer -/
  | storeFault {bytes : List Byte} (hmode : s.mode = .writePrepared)
    (hroom : ¬ s.offset.toNat + (bytes.take (chunkAmount bytes s)).length ≤ s.cfg.bufSize) :
    Dispatched s (.dataOut bytes) (.fault .bufferBounds)

section
variable {s : State} {i : Instr}

theorem Dispatched.requireIdle {r : Result} (hi : isExternal i = false) (h : s.mode = .idle → Dispatched s i r) :
    Dispatched s i (requireIdle s r) := by
  by_cases hmode : s.mode = .idle
  · rw [requireIdle_of_idle hmode]
    exact h hmode
  · rw [requireIdle_of_busy hmode]
    exact .refused .busy hi

theorem Dispatched.requireProto {p : Proto} {r : Result} (hi : isExternal i = false) (h : Dispatched s i r) :
    Dispatched s i (requireProto p s r) := by
  cases hp : hasProto s.cfg p
  · rw [requireProto_of_absent hp]
    exact .refused _ hi
  · rw [requireProto_of_has hp]
    exact h

theorem Dispatched.requestReadIn (p : Proto) (n : Byte) (hi : isExternal i = false) :
    Dispatched s i (requestReadIn p n s) := by
  by_cases hn : goodLength s.cfg n.toNat = true
  · rw [requestReadIn_of_good p hn]
    exact .requireIdle hi fun hmode => .transfer p 0 hmode (.inl rfl) fun _ => hn
  · rw [Machine.requestReadIn, if_neg hn]
    exact .refused _ hi

theorem Dispatched.writeIn (p : Proto) (len : BitVec 16) (hi : isExternal i = false) :
    Dispatched s i (writeIn p len s) := by
  by_cases hn : goodLength s.cfg len.toNat = true
  · rw [writeIn_of_good p hn]
    refine .requireIdle hi fun hmode => .transfer p _ hmode (.inr rfl) fun hwf => ?_
    have hlen := (goodLength_iff _ _).mp hn
    obtain ⟨-, -, -, -, hcap⟩ := (wf_iff _).mp hwf
    rw [← byteOfCount_length, byteOfCount_toNat (by omega)]
    exact hn
  · rw [Machine.writeIn, if_neg hn]
    exact .refused _ hi

theorem Dispatched.deferWithBytes {code : Byte} {bytes : List Byte} (hi : isExternal i = false)
    (hcode : asyncBytes code = some bytes.length) (hlen : bytes.length ≤ 2) :
    Dispatched s i (deferWithBytes code bytes s) := .requireIdle hi fun _ => .deferred hcode hlen

theorem Dispatched.addressCommand {code : Byte} (dev sec : Byte) {bytes : List Byte} (hi : isExternal i = false)
    (hcode : asyncBytes code = some bytes.length) (hlen : bytes.length ≤ 2) :
    Dispatched s i (addressCommand code dev sec bytes s) := by
  by_cases ha : goodAddress dev sec = true
  · rw [addressCommand_of_good code bytes ha]
    exact .deferWithBytes hi hcode hlen
  · rw [Machine.addressCommand, if_neg ha]
    exact .refused _ hi

theorem Dispatched.execRead (len : BitVec 16) : Dispatched s (.read len) (execRead len s) := by
  fun_cases Machine.execRead len s
  case case1 hlen hmode bytes hread => exact .read hmode hlen hread
  case case2 hlen hmode f hread => exact .readFault hmode hread
  all_goals exact .refused _ rfl

theorem Dispatched.execDataOut (bytes : List Byte) : Dispatched s (.dataOut bytes) (execDataOut bytes s) := by
  by_cases hmode : s.mode = .writePrepared
  · rw [Machine.execDataOut, if_pos hmode]
    by_cases hroom : s.offset.toNat + (bytes.take (chunkAmount bytes s)).length ≤ s.cfg.bufSize
    · rw [State.memWrite_in s hroom]
      exact .stored hmode hroom
    · rw [State.memWrite, if_neg hroom]
      exact .storeFault hmode hroom
  · rw [Machine.execDataOut, if_neg hmode]
    exact .refused _ rfl

theorem Dispatched.execGetResult : Dispatched s .getResult (execGetResult s) := by
  by_cases hmode : s.mode = .result
  · rw [Machine.execGetResult, if_pos hmode]
    exact .resultTaken _ hmode
  · rw [Machine.execGetResult, if_neg hmode]
    exact .replied _ (.refl s) fun _ => rfl

end

/-- Every answer of the dispatcher is one of these. -/
theorem exec_dispatched {i : Instr} (s : State) (hi : isBusByte i = false) : Dispatched s i (exec i s) := by
  have hreply : ∀ {j : Instr} (bytes : List Byte), Dispatched s j (replyWith bytes s) := fun bytes =>
    .replied bytes (.refl s) fun _ => rfl
  cases i
  case info => exact hreply _
  case read len => exact .execRead len
  case write len => exact .writeIn .s1 len rfl
  case talk dev sec => exact .addressCommand dev sec rfl rfl (Nat.le_refl 2)
  case listen dev sec => exact .addressCommand dev sec rfl rfl (Nat.le_refl 2)
  case untalk => exact .deferWithBytes rfl rfl (by decide)
  case unlisten => exact .deferWithBytes rfl rfl (by decide)
  case openDev dev sec => exact .addressCommand dev sec rfl rfl (Nat.le_refl 2)
  case closeDev dev sec => exact .addressCommand dev sec rfl rfl (Nat.le_refl 2)
  case reset => exact .deferred (code := 9) (bytes := []) rfl (by decide)
  case getEoi => exact hreply _
  case clearEoi => exact .replied _ ⟨Frame.clearEoi s, rfl, rfl, rfl, rfl⟩ fun h => absurd rfl h
  case requestRead n => exact .requestReadIn .s1 n rfl
  case getResult => exact .execGetResult
  case ppRead =>
    exact .replied _ ⟨(Frame.portToInput s).trans (Frame.portSampled _), rfl, rfl, rfl, rfl⟩ fun _ => rfl
  case ppWrite val => exact .replied _ ⟨Frame.portOut val s, rfl, rfl, rfl, rfl⟩ fun _ => rfl
  case iecPoll => exact .replied _ ⟨Frame.sampled s, rfl, rfl, rfl, rfl⟩ fun _ => rfl
  case iecWait mask state => exact .deferWithBytes rfl rfl (Nat.le_refl 2)
  case iecSetRelease setm relm => exact .replied _ ⟨Frame.setRelease _ _ s, rfl, rfl, rfl, rfl⟩ fun _ => rfl
  case parburst0 => exact .refused _ rfl
  case parburst1 => exact .refused _ rfl
  case parburst2 => exact .refused _ rfl
  case parburst3 => exact .refused _ rfl
  case eepromRead params => exact .forwarded rfl rfl
  case eepromWrite params => exact .forwarded rfl rfl
  case flash params => exact .forwarded rfl rfl
  case subS1Info => exact hreply _
  case subS1Read n => exact .requireProto rfl (.requestReadIn .s1 n rfl)
  case subS1Write len => exact .requireProto rfl (.writeIn .s1 len rfl)
  case subS2Info => exact hreply _
  case subS2Read n => exact .requireProto rfl (.requestReadIn .s2 n rfl)
  case subS2Write len => exact .requireProto rfl (.writeIn .s2 len rfl)
  case subPpInfo => exact hreply _
  case subPpRead n => exact .requireProto rfl (.requestReadIn .pp n rfl)
  case subPpWrite len => exact .requireProto rfl (.writeIn .pp len rfl)
  case subP2Info => exact hreply _
  case subP2Read n => exact .requireProto rfl (.requestReadIn .p2 n rfl)
  case subP2Write len => exact .requireProto rfl (.writeIn .p2 len rfl)
  case irqPause => exact .requireIdle rfl fun _ => .deferred (code := 0xFD) (bytes := []) rfl (by decide)
  case getEvent idx => exact hreply _
  case echo e0 e1 e2 e3 => exact hreply _
  case unassignedLow cmd => exact .refused _ rfl
  case unassignedHigh cmd => exact .refused _ rfl
  case badSubOpcode p sub => exact .refused _ rfl
  case dataOut bytes => exact .execDataOut bytes
  all_goals cases hi

end Sys2Proof.Proofs.Dispatcher
end

section
/-! PROOF. One handler entry as the run of one engine operation (44_async_handler.md R263 to R268): which operation a
pending request runs, and what the entry makes of its end. -/

namespace Sys2Proof.Proofs.Handler

open Sys2Proof Sys2Proof.Machine Sys2Proof.Safety

/-- The engine operation of a request that waits for the handler (R266 to R268). -/
def requestOp (s : State) : Engine (Status × Byte) :=
  match s.mode with
  | .read => withCount (readOp s.proto s.fill.toNat)
  | .write => withCount (writeRequest s)
  | .async => asyncOp s.acmd
  | .idle | .readDone | .writePrepared | .result => pure (.ok, 0)

/-- The request's registers after an operation for `s` that ended in `t`: a read keeps its count as the fill. -/
def finished (s : State) (st : Status) (n : Byte) (t : State) : State :=
  match s.mode with
  | .read => t.finishRequest .readDone (byteOfCount t.count) st n
  | .idle | .readDone | .writePrepared | .write | .async | .result => t.finishRequest .result 0 st n

theorem requestOp_of_read {s : State} (h : s.mode = .read) :
    requestOp s = withCount (readOp s.proto s.fill.toNat) := by rw [requestOp, h]

theorem requestOp_of_write {s : State} (h : s.mode = .write) : requestOp s = withCount (writeRequest s) := by
  rw [requestOp, h]

theorem requestOp_of_async {s : State} (h : s.mode = .async) : requestOp s = asyncOp s.acmd := by rw [requestOp, h]

theorem finished_of_read {s : State} (h : s.mode = .read) (st : Status) (n : Byte) (t : State) :
    finished s st n t = t.finishRequest .readDone (byteOfCount t.count) st n := by rw [finished, h]

theorem finished_of_write {s : State} (h : s.mode = .write) (st : Status) (n : Byte) (t : State) :
    finished s st n t = t.finishRequest .result 0 st n := by rw [finished, h]

theorem finished_of_async {s : State} (h : s.mode = .async) (st : Status) (n : Byte) (t : State) :
    finished s st n t = t.finishRequest .result 0 st n := by rw [finished, h]

theorem Framed_requestOp (s : State) : Framed (requestOp s) := by
  unfold requestOp
  split
  · exact (Framed.readOp _ _).withCount
  · exact (Framed.writeRequest s).withCount
  · exact Framed.asyncOp _
  all_goals exact Framed.pure _

/-- Nothing waits: the entry does nothing (R262). -/
theorem handle_of_not_pending {s : State} (h : pendingMode s.mode = false) : handle s = .next s := by
  unfold handle
  cases hm : s.mode <;> simp_all [pendingMode]

/-- A pending request is run and reported. -/
theorem handle_of_pending {s : State} (h : pendingMode s.mode = true) :
    handle s =
      match engineReport (requestOp s s) with
      | .ok (st, n, t) => .next (finished s st n t)
      | .error f => .fault f := by
  unfold handle requestOp finished
  cases hm : s.mode <;> simp only [hm, pendingMode, Bool.false_eq_true] at h ⊢ <;> rfl

/-- The operation ended well. -/
theorem handle_of_ok {s t : State} {st : Status} {n : Byte} (h : pendingMode s.mode = true)
    (hop : requestOp s s = .ok (st, n) t) : handle s = .next (finished s st n t) := by
  rw [handle_of_pending h, hop]
  rfl

/-- The operation failed: its status, and the bytes counted so far (R131, R287). -/
theorem handle_of_failed {s t : State} {st : Status} (h : pendingMode s.mode = true)
    (hop : requestOp s s = .error (.failed st) t) : handle s = .next (finished s st (byteOfCount t.count) t) := by
  rw [handle_of_pending h, hop]
  rfl

/-- All that an entry with a pending request can do. -/
theorem handle_next {s t : State} (h : pendingMode s.mode = true) (ht : handle s = .next t) :
    ∃ st n u, t = finished s st n u ∧ Frame s u ∧
      (requestOp s s = .ok (st, n) u ∨ requestOp s s = .error (.failed st) u ∧ n = byteOfCount u.count) := by
  have hframe := Framed_requestOp s s
  rw [handle_of_pending h] at ht
  revert ht hframe
  unfold after
  cases requestOp s s with
  | ok r u => rintro ⟨⟩ hframe; exact ⟨r.1, r.2, u, rfl, hframe, .inl rfl⟩
  | error e u =>
    cases e with
    | failed st => rintro ⟨⟩ hframe; exact ⟨st, _, u, rfl, hframe, .inr ⟨rfl, rfl⟩⟩
    | fault f => rintro ⟨⟩

/-- The count and status of an operation that ended well. -/
theorem withCount_of_ok {op : Engine Unit} {s t : State} (h : op s = .ok () t) :
    withCount op s = .ok (.ok, byteOfCount t.count) t := engine_bind_ok h rfl

theorem withCount_of_error {op : Engine Unit} {s t : State} {e : Stop} (h : op s = .error e t) :
    withCount op s = .error e t := engine_bind_error h

/-! ## What an entry leaves: the request's registers, and the rest as the operation left it -/

section
variable (s : State) (st : Status) (n : Byte) (u : State)

@[simp] theorem finished_drive : (finished s st n u).drive = u.drive := by unfold finished; split <;> rfl
@[simp] theorem finished_ppOut : (finished s st n u).ppOut = u.ppOut := by unfold finished; split <;> rfl
@[simp] theorem finished_ppOe : (finished s st n u).ppOe = u.ppOe := by unfold finished; split <;> rfl
@[simp] theorem finished_eoi : (finished s st n u).eoi = u.eoi := by unfold finished; split <;> rfl
@[simp] theorem finished_busState : (finished s st n u).busState = u.busState := by unfold finished; split <;> rfl
@[simp] theorem finished_irqOff : (finished s st n u).irqOff = u.irqOff := by unfold finished; split <;> rfl
@[simp] theorem finished_now : (finished s st n u).now = u.now := by unfold finished; split <;> rfl
@[simp] theorem finished_wdtLast : (finished s st n u).wdtLast = u.wdtLast := by unfold finished; split <;> rfl
@[simp] theorem finished_evEntries : (finished s st n u).evEntries = u.evEntries := by unfold finished; split <;> rfl
@[simp] theorem finished_evHead : (finished s st n u).evHead = u.evHead := by unfold finished; split <;> rfl
@[simp] theorem finished_buffer : (finished s st n u).buffer = u.buffer := by unfold finished; split <;> rfl
@[simp] theorem finished_proto : (finished s st n u).proto = u.proto := by unfold finished; split <;> rfl
@[simp] theorem finished_acmd : (finished s st n u).acmd = u.acmd := by unfold finished; split <;> rfl
@[simp] theorem finished_phase : (finished s st n u).phase = u.phase := by unfold finished; split <;> rfl
@[simp] theorem finished_expiry : (finished s st n u).expiry = u.expiry := by unfold finished; split <;> rfl
@[simp] theorem finished_inp : (finished s st n u).inp = u.inp := by unfold finished; split <;> rfl
@[simp] theorem finished_out : (finished s st n u).out = u.out := by unfold finished; split <;> rfl
@[simp] theorem finished_cfg : (finished s st n u).cfg = u.cfg := by unfold finished; split <;> rfl
@[simp] theorem finished_status : (finished s st n u).status = st.code := by unfold finished; split <;> rfl
@[simp] theorem finished_value : (finished s st n u).value = n := by unfold finished; split <;> rfl
@[simp] theorem finished_offset : (finished s st n u).offset = 0 := by unfold finished; split <;> rfl
@[simp] theorem finished_count : (finished s st n u).count = 0 := by unfold finished; split <;> rfl

theorem finished_mode : (finished s st n u).mode = if s.mode = .read then .readDone else .result := by
  unfold finished
  split
  · next h => rw [if_pos h]; rfl
  all_goals next h => rw [if_neg (by rw [h]; decide)]; rfl

theorem finished_fill : (finished s st n u).fill = if s.mode = .read then byteOfCount u.count else 0 := by
  unfold finished
  split
  · next h => rw [if_pos h]; rfl
  all_goals next h => rw [if_neg (by rw [h]; decide)]; rfl

end

end Sys2Proof.Proofs.Handler
end

section
/-! PROOF. The dispatcher's statements: the replies (43_dispatcher_commands.md R216, R225, R240, R241), the requests
that are accepted (R205 to R212, R215, R220, R226, R227, R242), the refusals in their order (60_exceptions.md R286), and
the one response of every event (30_encoding.md R84). -/

namespace Sys2Proof.Proofs.Commands

open Sys2Proof Sys2Proof.Machine Sys2Proof.Safety Sys2Proof.Proofs.Encoding Sys2Proof.Proofs.Dispatcher
  Sys2Proof.Proofs.Handler

/-! ## Replies -/

theorem eventByAge_of_outside {s : State} {idx : Nat} (h : s.cfg.eventLogSize ≤ idx) : s.eventByAge idx = ⟨0, 0⟩ :=
  if_pos h

theorem eventByAge_of_inside {s : State} {idx : Nat} (h : idx < s.cfg.eventLogSize) :
    s.eventByAge idx = s.eventAt ((s.evHead + s.cfg.eventLogSize - idx) % s.cfg.eventLogSize) :=
  if_neg (by omega)

/-- Settles O16: both commands reply; the entry is the log's, or none outside it. -/
theorem echoAndEventReplies : Obligations.EchoAndEventReplies := by
  refine ⟨fun s e0 e1 e2 e3 => rfl, fun s idx hout => ?_, fun s idx e hin hentry => ?_⟩
  · show replyWith [_, _] s = _
    rw [eventByAge_of_outside hout]
    rfl
  · show replyWith [_, _] s = _
    rw [eventByAge_of_inside hin, State.eventAt, List.getD_eq_getElem?_getD, hentry]
    rfl

/-- Settles O17: the four arms read CAPS at the protocol's own bit. -/
theorem protocolInfoReplies : Obligations.ProtocolInfoReplies := fun _ => ⟨rfl, rfl, rfl, rfl⟩

/-- Settles O18, by the mode. -/
theorem getResultReports : Obligations.GetResultReports := by
  intro s
  show execGetResult s = _
  by_cases hmode : s.mode = .result
  · rw [execGetResult, if_pos hmode, replyWith_eq_next_answer, if_pos hmode, hmode]
    rfl
  · rw [execGetResult, if_neg hmode, replyWith_eq_next_answer, if_neg hmode]
    refine congrArg (fun c : Byte => Host.Outcome.next (s.answer (.reply [c, s.status, s.value]))) ?_
    cases s.mode <;> rfl

/-- A line mask as a reply byte, bit by bit (R104). -/
theorem byteOfMask_getLsbD (m : LineMask) (i : Nat) :
    (byteOfMask m).getLsbD i = (decide (i < 4) && m.getLsbD i) := by
  rw [byteOfMask, BitVec.zeroExtend, BitVec.getLsbD_setWidth]
  by_cases hi : i < 4
  · rw [decide_eq_true hi, decide_eq_true (show i < 8 by omega)]
  · rw [BitVec.getLsbD_of_ge m i (by omega), Bool.and_false, Bool.and_false]

/-- Settles O19: the reply is the wired-AND's byte. -/
theorem iecPollSamplesWiredAnd : Obligations.IecPollSamplesWiredAnd := by
  refine fun s => ⟨byteOfMask s.sense, rfl, fun i => ?_⟩
  rw [byteOfMask_getLsbD, State.sense, ← peerAt_zero, BitVec.getLsbD_or]

/-- A mask operand is the operand's low four bits (R83). -/
theorem maskOf_getLsbD (b : Byte) {i : Nat} (hi : i < 4) : (maskOf b).getLsbD i = b.getLsbD i := by
  rw [maskOf, BitVec.getLsbD_extractLsb', decide_eq_true hi, Bool.true_and, Nat.zero_add]

/-- Settles O20: one change of the latches, shown and settled. -/
theorem setReleaseDrivesLines : Obligations.SetReleaseDrivesLines := by
  refine fun s setm relm => ⟨_, (s.drive ||| maskOf setm) &&& ~~~maskOf relm, rfl, fun i hi => ?_, rfl⟩
  rw [BitVec.getLsbD_and, BitVec.getLsbD_or, BitVec.getLsbD_not, maskOf_getLsbD _ hi, maskOf_getLsbD _ hi,
    decide_eq_true hi, Bool.true_and, Bool.and_comm, Bool.or_comm]

/-- Settles O21: the port's byte and direction change, then the settle time passes; PP_READ samples after it. -/
theorem portCommands : Obligations.PortCommands := by
  refine fun s => ⟨fun val => ⟨_, rfl, rfl⟩, _, rfl, ?_⟩
  have hsample : s.portToInput.portIn = s.inp.nextPort.value := by
    show s.inp.dropOver.nextPort.value = _
    rw [Inputs.dropOver_eq]
    rfl
  rw [hsample]
  rfl

/-! ## Requests -/

/-- A capability bit is the protocol's (R225). -/
theorem hasProto_eq (c : Config) :
    hasProto c .s1 = c.caps.getLsbD 4 ∧ hasProto c .s2 = c.caps.getLsbD 5 ∧ hasProto c .pp = c.caps.getLsbD 6 ∧
      hasProto c .p2 = c.caps.getLsbD 7 := ⟨rfl, rfl, rfl, rfl⟩

/-- Settles O22: the capability and the length pass, and IDLE accepts. -/
theorem readRequestsAccepted : Obligations.ReadRequestsAccepted := by
  intro s n i p hmode hlo hhi hi
  have haccept : ∀ q, requestReadIn q n s = .next ((s.beginTransfer .read n q).answer (.pending 0)) := fun q => by
    rw [requestReadIn_of_good q (goodLength_of_bounds hlo hhi), requireIdle_of_idle hmode]
  have hsub : ∀ q, hasProto s.cfg q = true →
      requireProto q s (requestReadIn q n s) = .next ((s.beginTransfer .read n q).answer (.pending 0)) := fun q hq => by
    rw [requireProto_of_has hq, haccept]
  obtain ⟨rfl, rfl⟩ | ⟨rfl, rfl, hq⟩ | ⟨rfl, rfl, hq⟩ | ⟨rfl, rfl, hq⟩ | ⟨rfl, rfl, hq⟩ := hi
  · exact haccept .s1
  · exact hsub .s1 hq
  · exact hsub .s2 hq
  · exact hsub .pp hq
  · exact hsub .p2 hq

/-- Settles O23: as for reads; the length fits the 8-bit register by its low byte. -/
theorem writeRequestsAccepted : Obligations.WriteRequestsAccepted := by
  intro s len i p hmode hlo hhi hi
  have haccept : ∀ q, writeIn q len s =
      .next ((s.beginTransfer .writePrepared (len.setWidth 8) q).answer (.pending len.toNat)) := fun q => by
    rw [writeIn_of_good q (goodLength_of_bounds hlo hhi), requireIdle_of_idle hmode]
  have hsub : ∀ q, hasProto s.cfg q = true → requireProto q s (writeIn q len s) =
      .next ((s.beginTransfer .writePrepared (len.setWidth 8) q).answer (.pending len.toNat)) := fun q hq => by
    rw [requireProto_of_has hq, haccept]
  obtain ⟨rfl, rfl⟩ | ⟨rfl, rfl, hq⟩ | ⟨rfl, rfl, hq⟩ | ⟨rfl, rfl, hq⟩ | ⟨rfl, rfl, hq⟩ := hi
  · exact haccept .s1
  · exact hsub .s1 hq
  · exact hsub .s2 hq
  · exact hsub .pp hq
  · exact hsub .p2 hq

/-- A deferred command in IDLE: its bytes go to the start of the buffer, the rest of which stays (R206 to R211,
R220). -/
theorem deferWithBytes_of_idle {s : State} (code : Byte) (bytes : List Byte) (hmode : s.mode = .idle) :
    ∃ t, deferWithBytes code bytes s = .next t ∧
      t =
        { s with
          buffer := t.buffer, fill := byteOfCount bytes.length, offset := 0, acmd := code, status := 0, value := 0,
          mode := .async, out := { s.out with responses := .pending 0 :: s.out.responses } } ∧
      (∀ k (h : k < bytes.length), t.buffer.get? k = some bytes[k]) ∧
      ∀ a, bytes.length ≤ a → t.buffer.get? a = s.buffer.get? a := by
  refine ⟨_, requireIdle_of_idle hmode _, rfl, fun k h => ?_, fun a ha => ?_⟩
  · have hk := Memory.get?_setMany_inside bytes s.buffer 0 k h
    rwa [Nat.zero_add] at hk
  · exact Memory.get?_setMany_outside bytes s.buffer (.inr (by omega))

/-- Settles O24: the address passes, and IDLE accepts the pair. -/
theorem addressCommandsAccepted : Obligations.AddressCommandsAccepted := by
  intro s dev sec b0 b1 acmd i hmode hdev hsec hi
  have hpair : ∀ code x y, ∃ t, addressCommand code dev sec [x, y] s = .next t ∧
      t =
        { s with
          buffer := t.buffer, fill := 2, offset := 0, acmd := code, status := 0, value := 0, mode := .async,
          out := { s.out with responses := .pending 0 :: s.out.responses } } ∧
      t.buffer.get? 0 = some x ∧ t.buffer.get? 1 = some y ∧ ∀ a, 2 ≤ a → t.buffer.get? a = s.buffer.get? a :=
    fun code x y => by
      rw [addressCommand_of_good code [x, y] ((goodAddress_iff dev sec).mpr ⟨hdev, hsec⟩)]
      obtain ⟨t, ht, heq, hin, hout⟩ := deferWithBytes_of_idle code [x, y] hmode
      exact ⟨t, ht, heq, hin 0 Nat.zero_lt_two, hin 1 Nat.one_lt_two, hout⟩
  obtain ⟨rfl, rfl, rfl, rfl⟩ | ⟨rfl, rfl, rfl, rfl⟩ | ⟨rfl, rfl, rfl, rfl⟩ | ⟨rfl, rfl, rfl, rfl⟩ := hi <;>
    exact hpair _ _ _

/-- Settles O25: IDLE accepts the byte. -/
theorem bracketEndsAccepted : Obligations.BracketEndsAccepted := by
  intro s b acmd i hmode hi
  have hone : ∀ code x, ∃ t, deferWithBytes code [x] s = .next t ∧
      t =
        { s with
          buffer := t.buffer, fill := 1, offset := 0, acmd := code, status := 0, value := 0, mode := .async,
          out := { s.out with responses := .pending 0 :: s.out.responses } } ∧
      t.buffer.get? 0 = some x ∧ ∀ a, 1 ≤ a → t.buffer.get? a = s.buffer.get? a := fun code x => by
    obtain ⟨t, ht, heq, hin, hout⟩ := deferWithBytes_of_idle code [x] hmode
    exact ⟨t, ht, heq, hin 0 Nat.zero_lt_one, hout⟩
  obtain ⟨rfl, rfl, rfl⟩ | ⟨rfl, rfl, rfl⟩ := hi <;> exact hone _ _

/-- A mask operand as IEC_WAIT stores it. -/
theorem byteOfMask_maskOf (b : Byte) : byteOfMask (maskOf b) = b &&& 0x0F := by
  refine BitVec.eq_of_getLsbD_eq fun i hi => ?_
  rw [byteOfMask_getLsbD, maskOf, BitVec.getLsbD_extractLsb', BitVec.getLsbD_and]
  interval_cases i <;> simp

/-- Settles O26: IDLE accepts IEC_WAIT and IRQ_PAUSE, every mode RESET. -/
theorem deferredControlsAccepted : Obligations.DeferredControlsAccepted := by
  refine fun s => ⟨fun mask state hmode => ?_, fun hmode => requireIdle_of_idle hmode _, rfl⟩
  obtain ⟨t, ht, heq, hin, hout⟩ := deferWithBytes_of_idle 17 [byteOfMask (maskOf mask), truthOf state] hmode
  refine ⟨t, ht, heq, ?_, hin 1 Nat.one_lt_two, hout⟩
  rw [hin 0 Nat.zero_lt_two, List.getElem_cons_zero, byteOfMask_maskOf]

/-! ## Refusals -/

/-- Settles O27: operands and protocol pass, and the mode refuses. -/
theorem busyRefusal : Obligations.BusyRefusal := by
  intro i s hi hmode
  have hbusy : ∀ r, requireIdle s r = .next (s.answer (.refuse .busy)) := requireIdle_of_busy hmode
  have hread : ∀ p n, goodLength s.cfg n.toNat = true → requestReadIn p n s = .next (s.answer (.refuse .busy)) :=
    fun p n hn => by rw [requestReadIn_of_good p hn, hbusy]
  have hwrite : ∀ p len, goodLength s.cfg len.toNat = true → writeIn p len s = .next (s.answer (.refuse .busy)) :=
    fun p len hn => by rw [writeIn_of_good p hn, hbusy]
  have haddress : ∀ code dev sec bytes, goodAddress dev sec = true →
      addressCommand code dev sec bytes s = .next (s.answer (.refuse .busy)) := fun code dev sec bytes ha => by
    rw [addressCommand_of_good code bytes ha]
    exact hbusy _
  have hsubRead : ∀ p n, (hasProto s.cfg p && goodLength s.cfg n.toNat) = true →
      requireProto p s (requestReadIn p n s) = .next (s.answer (.refuse .busy)) := fun p n h => by
    obtain ⟨hp, hn⟩ := Bool.and_eq_true_iff.mp h
    rw [requireProto_of_has hp, hread p n hn]
  have hsubWrite : ∀ p len, (hasProto s.cfg p && goodLength s.cfg len.toNat) = true →
      requireProto p s (writeIn p len s) = .next (s.answer (.refuse .busy)) := fun p len h => by
    obtain ⟨hp, hn⟩ := Bool.and_eq_true_iff.mp h
    rw [requireProto_of_has hp, hwrite p len hn]
  cases i
  case write len => exact hwrite .s1 len hi
  case requestRead n => exact hread .s1 n hi
  case talk dev sec => exact haddress _ _ _ _ hi
  case listen dev sec => exact haddress _ _ _ _ hi
  case openDev dev sec => exact haddress _ _ _ _ hi
  case closeDev dev sec => exact haddress _ _ _ _ hi
  case untalk => exact hbusy _
  case unlisten => exact hbusy _
  case iecWait mask state => exact hbusy _
  case irqPause => exact hbusy _
  case subS1Read n => exact hsubRead .s1 n hi
  case subS2Read n => exact hsubRead .s2 n hi
  case subPpRead n => exact hsubRead .pp n hi
  case subP2Read n => exact hsubRead .p2 n hi
  case subS1Write len => exact hsubWrite .s1 len hi
  case subS2Write len => exact hsubWrite .s2 len hi
  case subPpWrite len => exact hsubWrite .pp len hi
  case subP2Write len => exact hsubWrite .p2 len hi
  all_goals cases hi

/-- A sub-READ or sub-WRITE of an absent protocol (R201 (3)). -/
theorem exec_of_absent {i : Instr} {s : State} {p : Proto} (hi : namedProto i = some p)
    (hp : hasProto s.cfg p = false) : exec i s = .next (s.answer (.refuse .unimplemented)) := by
  cases i <;> cases hi <;> exact requireProto_of_absent hp _

/-- A bad length, the capability being there (R203). -/
theorem exec_of_badLength {i : Instr} {s : State} {n : Nat} (hi : lengthOperand i = some n)
    (hp : ∀ p, namedProto i = some p → hasProto s.cfg p = true) (hn : n = 0 ∨ s.cfg.bufSize < n) :
    exec i s = .next (s.answer (.refuse .badLength)) := by
  cases i <;> cases hi
  case read len => exact if_neg (not_goodLength hn)
  case write len => exact writeIn_of_bad .s1 hn
  case requestRead m => exact requestReadIn_of_bad .s1 hn
  case subS1Read m => exact (requireProto_of_has (hp _ rfl) _).trans (requestReadIn_of_bad .s1 hn)
  case subS2Read m => exact (requireProto_of_has (hp _ rfl) _).trans (requestReadIn_of_bad .s2 hn)
  case subPpRead m => exact (requireProto_of_has (hp _ rfl) _).trans (requestReadIn_of_bad .pp hn)
  case subP2Read m => exact (requireProto_of_has (hp _ rfl) _).trans (requestReadIn_of_bad .p2 hn)
  case subS1Write len => exact (requireProto_of_has (hp _ rfl) _).trans (writeIn_of_bad .s1 hn)
  case subS2Write len => exact (requireProto_of_has (hp _ rfl) _).trans (writeIn_of_bad .s2 hn)
  case subPpWrite len => exact (requireProto_of_has (hp _ rfl) _).trans (writeIn_of_bad .pp hn)
  case subP2Write len => exact (requireProto_of_has (hp _ rfl) _).trans (writeIn_of_bad .p2 hn)

/-- A device above 30 or a secondary address above 15 (R98). -/
theorem exec_of_badAddress {i : Instr} (s : State) {code dev sec : Byte}
    (hi : addressOperands i = some (code, dev, sec)) (h : 30 < dev.toNat ∨ 15 < sec.toNat) :
    exec i s = .next (s.answer (.refuse .badParam)) := by
  cases i <;> cases hi <;> exact addressCommand_of_bad _ _ h

/-- Settles O28, check by check in the dispatcher's order. -/
theorem operandRefusals : Obligations.OperandRefusals := fun _ s =>
  ⟨fun _ => exec_of_absent, fun _ => exec_of_badLength, fun _ _ _ => exec_of_badAddress s⟩

/-- Settles O29: no check precedes these refusals. -/
theorem unexecutedCodesRefused : Obligations.UnexecutedCodesRefused := fun _ _ _ _ _ =>
  ⟨rfl, rfl, rfl, rfl, rfl, rfl, rfl, rfl, rfl, rfl⟩

/-- Settles O30: READ's length passes, then the mode refuses; a chunk has the mode check alone. -/
theorem wrongModeAccessors : Obligations.WrongModeAccessors := fun _ _ _ =>
  ⟨fun hmode hlo hhi => (if_pos (goodLength_of_bounds hlo hhi)).trans (if_neg hmode), fun hmode => if_neg hmode⟩

/-! ## One response -/

/-- The code of a bus byte row is the byte it sends (R96, R97). -/
theorem exec_of_encode_busByte {i : Instr} {b : Byte} (h : encode i = .busByte b) (s : State) :
    exec i s = sendBusByte b s := by
  have hlisten : ∀ dev : BitVec 5, 0x20#8 ||| dev.zeroExtend 8 = 1#3 ++ dev := by decide
  have htalk : ∀ dev : BitVec 5, 0x40#8 ||| dev.zeroExtend 8 = 2#3 ++ dev := by decide
  have hsecond : ∀ sec : BitVec 4, 0x60#8 ||| sec.zeroExtend 8 = 6#4 ++ sec := by decide
  have hclose : ∀ sec : BitVec 4, 0xE0#8 ||| sec.zeroExtend 8 = 14#4 ++ sec := by decide
  have hopen : ∀ sec : BitVec 4, 0xF0#8 ||| sec.zeroExtend 8 = 15#4 ++ sec := by decide
  cases i <;> cases h
  case busListen dev => exact congrArg (sendBusByte · s) (hlisten dev)
  case busUnlisten => rfl
  case busTalk dev => exact congrArg (sendBusByte · s) (htalk dev)
  case busUntalk => rfl
  case busSecond sec => exact congrArg (sendBusByte · s) (hsecond sec)
  case busClose sec => exact congrArg (sendBusByte · s) (hclose sec)
  case busOpen sec => exact congrArg (sendBusByte · s) (hopen sec)

theorem encode_of_isBusByte {i : Instr} (h : isBusByte i = true) : ∃ b, encode i = .busByte b := by
  cases i <;> first | exact ⟨_, rfl⟩ | cases h

/-- What a bus byte leaves: the state its turn of the byte loop left, with the failure's status and count in the request
(R287). -/
theorem sendBusByte_next {b : Byte} {s t : State} (h : sendBusByte b s = .next t) :
    ∃ st n, t = { after (sendFramed false b) s with status := st, value := n } := by
  revert h
  unfold sendBusByte after
  cases sendFramed false b s with
  | ok _ u => rintro ⟨⟩; exact ⟨_, _, rfl⟩
  | error e u =>
    cases e with
    | failed st => rintro ⟨⟩; exact ⟨_, _, rfl⟩
    | fault f => rintro ⟨⟩

/-- Settles O31: of the dispatcher's answers only the refusals have a refusal for their response; a bus byte answers
nothing. -/
theorem refusalChangesNothing : Obligations.RefusalChangesNothing := by
  intro i s t reason hexec hresponse
  cases hi : isBusByte i with
  | true =>
    obtain ⟨b, hb⟩ := encode_of_isBusByte hi
    rw [exec_of_encode_busByte hb] at hexec
    obtain ⟨st, n, rfl⟩ := sendBusByte_next hexec
    have hframe := (Framed.sendFramed false b s).responses
    exact absurd (hframe.symm.trans hresponse) (List.cons_ne_self _ _).symm
  | false =>
    have hd := exec_dispatched s hi
    rw [hexec] at hd
    cases hd
    case refused r hext =>
      obtain ⟨rfl⟩ := hresponse
      exact ⟨fun _ => rfl, fun h => absurd (hext.symm.trans h) (by decide)⟩
    case forwarded w hext hw =>
      obtain ⟨rfl⟩ := hresponse
      exact ⟨fun h => absurd (h.symm.trans hext) (by decide), fun _ => ⟨w, hw, rfl⟩⟩
    all_goals cases hresponse

/-- Settles O32: each of the dispatcher's answers carries one response, and what `Frame` keeps includes the
responses. -/
theorem oneResponsePerEvent : Obligations.OneResponsePerEvent := by
  refine ⟨fun i s t hi hexec => ?_, fun s t ht => ?_⟩
  · have hd := exec_dispatched s hi
    rw [hexec] at hd
    cases hd
    case replied bytes u h _ => exact ⟨_, congrArg (List.cons _) h.frame.responses⟩
    all_goals exact ⟨_, rfl⟩
  · cases hp : pendingMode s.mode with
    | false =>
      rw [handle_of_not_pending hp] at ht
      cases ht
      rfl
    | true =>
      obtain ⟨st, n, u, rfl, hframe, -⟩ := handle_next hp ht
      rw [finished_out]
      exact hframe.responses

end Sys2Proof.Proofs.Commands
end

section
/-! PROOF. The invariant (44_async_handler.md R273; 10_state.md R34, R36, R37): every answer of the dispatcher, every
handler entry and the power-on of a watchdog expiry keep it, and from it no step stops. -/

namespace Sys2Proof.Proofs.Invariant

open Sys2Proof Sys2Proof.Machine Sys2Proof.Safety Sys2Proof.Proofs.Dispatcher Sys2Proof.Proofs.Handler
  Sys2Proof.Proofs.Commands

/-- The invariant inside a step: a noted watchdog expiry, which the end of the step answers, is left aside. -/
def Sound (s : State) : Prop := Inv { s with expiry := none }

theorem sound_of_inv {s : State} (h : Inv s) : Sound s :=
  ⟨h.config, h.request, h.buffer, h.log, ⟨h.quiet.1, h.quiet.2.1, rfl, h.quiet.2.2.2⟩, h.handled⟩

/-- The power-on state meets the invariant (R310). -/
theorem inv_powerOn {s : State} (e : WdtExpiry) (h : s.cfg.wf = true) : Inv (s.powerOn e) where
  config := h
  request := ⟨Nat.le_refl 0, Nat.zero_le _, rfl⟩
  buffer := ⟨rfl, fun _ ha => absurd ha (Nat.not_lt_zero _)⟩
  log := ⟨List.length_replicate, ((wf_iff _).mp h).2.1⟩
  quiet := ⟨rfl, rfl, rfl, Nat.le_refl _⟩
  handled := fun _ => rfl

/-- The end of a step answers an expiry with the power-on state (R286, R296). -/
theorem Sound.inv_endStep {s : State} (h : Sound s) : Inv s.endStep := by
  unfold State.endStep
  split
  · next he =>
    have : { s with expiry := none } = s := by rw [← he]
    exact this ▸ h
  · exact inv_powerOn _ h.config

/-- A response is no part of the invariant. -/
theorem Sound.answer {s : State} (h : Sound s) (r : Response) : Sound (s.answer r) :=
  ⟨h.config, h.request, h.buffer, h.log, h.quiet, h.handled⟩

theorem Sound.forward {s : State} (h : Sound s) (w : CmdWord) : Sound (s.forward w) :=
  ⟨h.config, h.request, h.buffer, h.log, h.quiet, h.handled⟩

/-- What acts at once leaves the request alone. -/
theorem Sound.actsAtOnce {s t : State} (h : Sound s) (k : ActsAtOnce s t) : Sound t where
  config := by show t.cfg.wf = true; rw [k.frame.cfg]; exact h.config
  request := by
    have hr := h.request
    simp only [requestOk] at hr ⊢
    rw [k.frame.offset, k.frame.fill, k.frame.mode, k.frame.cfg, k.frame.acmd]
    exact hr
  buffer := by
    have hb := h.buffer
    simp only [bufferOk, validBytes] at hb ⊢
    rw [k.frame.offset, k.frame.fill, k.frame.mode, k.frame.cfg, k.buffer]
    exact hb
  log := k.frame.log h.log
  quiet := ⟨k.irqOff.trans h.quiet.1, k.count.trans h.quiet.2.1, rfl, k.frame.wdtLast h.quiet.2.2.2⟩
  handled := by
    have hd := h.handled
    simp only [handledOk] at hd ⊢
    rw [k.frame.phase, k.frame.mode]
    exact hd

/-- A turn's beginning: no request waits, and the handler is next. -/
theorem sound_beginTurn {s : State} (h : Inv s) : Sound s.beginTurn :=
  ⟨h.config, h.request, h.buffer, h.log, ⟨h.quiet.1, h.quiet.2.1, rfl, Nat.le_refl _⟩, nofun⟩

/-! ## The dispatcher -/

/-- A cursor that stays inside the request. -/
theorem advance_of_lt {s : State} {k : Nat} {m : IoMode} (h : s.offset.toNat + k < s.fill.toNat) :
    s.advance k m = { s with offset := s.offset + byteOfCount k } := by
  have hne : ¬ s.offset + byteOfCount k = s.fill := fun e => by
    have := (cursor_eq_iff (Nat.le_of_lt h)).mp e
    omega
  rw [State.advance, if_neg hne]

/-- A cursor that reaches the end of the request. -/
theorem advance_of_end {s : State} {k : Nat} {m : IoMode} (h : s.offset.toNat + k = s.fill.toNat) :
    s.advance k m = { s with offset := s.fill, mode := m } := by
  have he : s.offset + byteOfCount k = s.fill := (cursor_eq_iff (Nat.le_of_eq h)).mpr h
  rw [State.advance, if_pos he, he]

section
variable {s : State} (hs : Sound s) (hphase : s.phase = .handler)
include hs hphase

/-- GET_RESULT empties the request. -/
theorem Sound.resultTaken (hmode : s.mode = .result) : Sound { s with mode := .idle } where
  config := hs.config
  request := by
    obtain ⟨h1, h2, h3⟩ := hs.request
    simp only [hmode] at h3
    exact ⟨h1, h2, h3.1.trans h3.2.symm⟩
  buffer := ⟨hs.buffer.1, fun _ ha => absurd ha (Nat.not_lt_zero _)⟩
  log := hs.log
  quiet := hs.quiet
  handled := fun h => absurd (hphase.symm.trans h) (by decide)

/-- A new read or write request has its cursor at 0 and a length in range. -/
theorem Sound.transfer {m : IoMode} {n : Byte} (p : Proto) (hm : m = .read ∨ m = .writePrepared)
    (hn : s.cfg.wf = true → goodLength s.cfg n.toNat = true) : Sound (s.beginTransfer m n p) where
  config := hs.config
  request := by
    obtain ⟨hlo, hhi⟩ := (goodLength_iff _ _).mp (hn hs.config)
    refine ⟨Nat.zero_le _, hhi, ?_⟩
    rcases hm with rfl | rfl
    · exact ⟨rfl, hlo⟩
    · exact hlo
  buffer := ⟨hs.buffer.1, fun a ha => absurd ha (by rcases hm with rfl | rfl <;> exact Nat.not_lt_zero a)⟩
  log := hs.log
  quiet := hs.quiet
  handled := fun h => absurd (hphase.symm.trans h) (by decide)

/-- A deferred command's bytes are in the buffer. -/
theorem Sound.deferred {code : Byte} {bytes : List Byte} (hcode : asyncBytes code = some bytes.length)
    (hlen : bytes.length ≤ 2) : Sound ((s.putBytes 0 bytes).beginAsync code (byteOfCount bytes.length)) := by
  obtain ⟨-, -, -, hcap, -⟩ := (wf_iff _).mp hs.config
  have hfill : (byteOfCount bytes.length).toNat = bytes.length := byteOfCount_toNat (by omega)
  change 2 ≤ s.cfg.bufSize at hcap
  refine ⟨hs.config, ⟨Nat.zero_le _, ?_, ?_⟩, ⟨?_, fun a ha => ?_⟩, hs.log, hs.quiet, fun h =>
    absurd (hphase.symm.trans h) (by decide)⟩
  · show (byteOfCount bytes.length).toNat ≤ s.cfg.bufSize
    omega
  · show asyncBytes code = some (byteOfCount bytes.length).toNat
    rw [hfill, hcode]
  · exact Memory.wf_setMany bytes _ 0 (by show 0 + _ ≤ s.cfg.bufSize; omega) hs.buffer.1
  · have ha' : a < bytes.length := hfill ▸ ha
    have hin := Memory.get?_setMany_inside bytes s.buffer 0 a ha'
    rw [Nat.zero_add] at hin
    exact Option.isSome_iff_exists.mpr ⟨_, hin⟩

/-- READ moves the cursor inside the fill. -/
theorem Sound.read (len : Nat) (hmode : s.mode = .readDone) : Sound (s.advance (readAmount len s) .idle) := by
  obtain ⟨h1, h2, h3⟩ := hs.request
  have hbuf := hs.buffer
  change s.offset.toNat ≤ s.fill.toNat at h1
  simp only [hmode] at h3
  have hk : s.offset.toNat + readAmount len s ≤ s.fill.toNat := by unfold readAmount; omega
  have hphase' : ∀ m : IoMode, s.phase = .takeEvent → pendingMode m = false := fun m h =>
    absurd (hphase.symm.trans h) (by decide)
  rcases Nat.lt_or_eq_of_le hk with hlt | hend
  · rw [advance_of_lt hlt]
    have hcursor := cursor_toNat hk
    refine ⟨hs.config, ⟨?_, h2, ?_⟩, ⟨hbuf.1, fun a ha => hbuf.2 a ?_⟩, hs.log, hs.quiet, hphase' _⟩
    · show (s.offset + _).toNat ≤ s.fill.toNat
      omega
    · simp only [hmode, hcursor]
      exact .inl hlt
    · simpa only [validBytes, hmode] using ha
  · rw [advance_of_end hend]
    exact ⟨hs.config, ⟨Nat.le_refl _, h2, rfl⟩, ⟨hbuf.1, fun a ha => absurd ha (Nat.not_lt_zero _)⟩, hs.log, hs.quiet,
      hphase' _⟩

/-- A chunk moves the cursor inside the fill, over bytes it has written. -/
theorem Sound.stored (bytes : List Byte) (hmode : s.mode = .writePrepared)
    (hroom : s.offset.toNat + (bytes.take (chunkAmount bytes s)).length ≤ s.cfg.bufSize) :
    Sound ((s.putBytes s.offset.toNat (bytes.take (chunkAmount bytes s))).advance (chunkAmount bytes s) .write) := by
  obtain ⟨h1, h2, h3⟩ := hs.request
  obtain ⟨hwf, hwritten⟩ := hs.buffer
  change s.offset.toNat ≤ s.fill.toNat at h1
  simp only [hmode] at h3
  simp only [validBytes, hmode] at hwritten
  have hk : s.offset.toNat + chunkAmount bytes s ≤ s.fill.toNat := by unfold chunkAmount; omega
  have hlen : (bytes.take (chunkAmount bytes s)).length = chunkAmount bytes s := by
    rw [List.length_take, chunkAmount]; omega
  have hphase' : ∀ m : IoMode, s.phase = .takeEvent → pendingMode m = false := fun m h =>
    absurd (hphase.symm.trans h) (by decide)
  have hwf' := Memory.wf_setMany (bytes.take (chunkAmount bytes s)) s.buffer s.offset.toNat hroom hwf
  have hwritten' : ∀ a, a < s.offset.toNat + chunkAmount bytes s →
      ((s.buffer.setMany s.offset.toNat (bytes.take (chunkAmount bytes s))).get? a).isSome = true := fun a ha => by
    by_cases hin : s.offset.toNat ≤ a
    · obtain ⟨j, rfl⟩ := Nat.exists_eq_add_of_le hin
      rw [Memory.get?_setMany_inside _ _ _ j (by omega)]
      rfl
    · exact Memory.isSome_get?_setMany _ _ _ (hwritten a (by show a < s.offset.toNat; omega))
  rcases Nat.lt_or_eq_of_le hk with hlt | hend
  · rw [advance_of_lt (s := s.putBytes _ _) hlt]
    have hcursor := cursor_toNat hk
    refine ⟨hs.config, ⟨?_, h2, ?_⟩, ⟨hwf', fun a ha => hwritten' a ?_⟩, hs.log, hs.quiet, hphase' _⟩
    · show (s.offset + _).toNat ≤ s.fill.toNat
      omega
    · simp only [State.putBytes_mode, hmode]
      show (s.offset + _).toNat < s.fill.toNat
      omega
    · simp only [validBytes, State.putBytes_mode, hmode] at ha
      exact hcursor ▸ ha
  · rw [advance_of_end (s := s.putBytes _ _) hend]
    exact ⟨hs.config, ⟨Nat.le_refl _, h2, rfl, Nat.lt_of_le_of_lt (Nat.zero_le _) h3⟩,
      ⟨hwf', fun a ha => hwritten' a (hend ▸ ha)⟩, hs.log, hs.quiet, hphase' _⟩

/-- Whatever the dispatcher answers, the next state is sound. -/
theorem Sound.dispatched {i : Instr} {t : State} (h : Dispatched s i (.next t)) : Sound t := by
  cases h
  case refused => exact hs.answer _
  case forwarded => exact (hs.forward _).answer _
  case replied u bytes k _ => exact (hs.actsAtOnce k).answer _
  case resultTaken bytes hmode => exact (Sound.resultTaken hs hphase hmode).answer _
  case transfer m n p k hmode hm hn => exact (Sound.transfer hs hphase p hm hn).answer _
  case deferred code bytes hcode hlen => exact (Sound.deferred hs hphase hcode hlen).answer _
  case read len bytes hmode hlen hread => exact (Sound.read hs hphase _ hmode).answer _
  case stored bytes hmode hroom => exact (Sound.stored hs hphase bytes hmode hroom).answer _

omit hphase in
/-- In a sound state no answer is a fault: the bytes between the cursor and the fill are the buffer's, and written. -/
theorem Sound.dispatched_next {i : Instr} {r : Result} (h : Dispatched s i r) : ∃ t, r = .next t := by
  obtain ⟨h1, h2, -⟩ := hs.request
  change s.offset.toNat ≤ s.fill.toNat at h1
  change s.fill.toNat ≤ s.cfg.bufSize at h2
  cases h
  case readFault len f hmode hread =>
    have hk : s.offset.toNat + readAmount len.toNat s ≤ s.fill.toNat := by unfold readAmount; omega
    have hwritten := hs.buffer.2
    simp only [validBytes, hmode] at hwritten
    obtain ⟨bytes, hok, -⟩ := State.memRead_written (s := s) (Nat.le_trans hk h2)
      fun a _ ha => hwritten a (by show a < s.fill.toNat; omega)
    cases hok.symm.trans hread
  case storeFault bytes hmode hroom =>
    refine absurd ?_ hroom
    rw [List.length_take, chunkAmount]
    omega
  all_goals exact ⟨_, rfl⟩

end

/-! ## The handler -/

/-- From the invariant a pending request's operation ends without a fault: a read with its counted bytes written, a
write or a deferred command with the buffer as it was. -/
theorem handle_pending_ends {s : State} (h : Inv s) (hp : pendingMode s.mode = true) :
    ∃ st n u, handle s = .next (finished s st n u) ∧ Frame s u ∧ u.irqOff = false ∧
      (s.mode = .read → Got 0 s.fill.toNat u) ∧ (s.mode ≠ .read → u.buffer = s.buffer) := by
  obtain ⟨hconfig, ⟨-, hfill, hreq⟩, ⟨-, hwritten⟩, -, ⟨hirq, -⟩, -⟩ := h
  cases hm : s.mode <;> simp only [hm, validBytes] at hreq hwritten
  case read =>
    obtain ⟨st, n, u, hu, hgot, hframe⟩ := handleRead_ends hfill hirq
    refine ⟨st, n, u, ?_, hframe, hgot.2.2.2, fun _ => hgot, fun hne => absurd rfl hne⟩
    rw [finished_of_read hm, handle, hm]
    exact hu
  case write =>
    obtain ⟨st, n, u, hu, ⟨hbuf, hi⟩, -, hframe⟩ := handleWrite_ends hfill hirq hwritten
    refine ⟨st, n, u, ?_, hframe, hi, nofun, fun _ => hbuf⟩
    rw [finished_of_write hm, handle, hm]
    exact hu
  case async =>
    obtain ⟨-, -, -, hcap, -⟩ := (wf_iff _).mp hconfig
    obtain ⟨st, n, u, hu, ⟨hbuf, hi⟩, hframe⟩ := handleAsync_ends hcap hirq hreq hwritten
    refine ⟨st, n, u, ?_, hframe, hi, nofun, fun _ => hbuf⟩
    rw [finished_of_async hm, handle, hm]
    exact hu
  all_goals
    rw [hm] at hp
    cases hp

/-- A finished request is sound: after a read its fill is the bytes counted, all of them written. -/
theorem sound_finished {s u : State} {st : Status} {n : Byte} (h : Inv s) (hframe : Frame s u) (hirq : u.irqOff = false)
    (hgot : s.mode = .read → Got 0 s.fill.toNat u) : Sound (finished s st n u).endTurn := by
  have hcfg : u.cfg = s.cfg := hframe.cfg
  have hfill := h.request.2.1
  have hcount : s.mode = .read → (byteOfCount u.count).toNat = u.count := fun hm =>
    byteOfCount_toNat (Nat.lt_of_le_of_lt (hgot hm).2.1 (by have := s.fill.isLt; omega))
  have hwf := hframe.bufferWf h.buffer.1
  have hlog := hframe.log h.log
  have hwdt := hframe.wdtLast h.quiet.2.2.2
  by_cases hm : s.mode = .read
  · rw [finished_of_read hm]
    have hle : u.count ≤ s.fill.toNat := by have := (hgot hm).2.1; omega
    refine ⟨hcfg ▸ h.config, ⟨Nat.zero_le _, ?_, ?_⟩, ⟨hwf, fun a ha => (hgot hm).2.2.1 a (hcount hm ▸ ha)⟩, hlog,
      ⟨hirq, rfl, rfl, hwdt⟩, fun _ => rfl⟩
    · show (byteOfCount u.count).toNat ≤ u.cfg.bufSize
      rw [hcount hm, hcfg]
      omega
    · show 0 < (byteOfCount u.count).toNat ∨ byteOfCount u.count = 0
      rcases Nat.eq_zero_or_pos u.count with h0 | hpos
      · exact .inr (by rw [h0]; rfl)
      · exact .inl (by rw [hcount hm]; exact hpos)
  · have hresult : finished s st n u = u.finishRequest .result 0 st n := by
      unfold finished
      split
      · next hr => exact absurd hr hm
      all_goals rfl
    rw [hresult]
    exact ⟨hcfg ▸ h.config, ⟨Nat.le_refl 0, Nat.zero_le _, rfl, rfl⟩,
      ⟨hwf, fun _ ha => absurd ha (Nat.not_lt_zero _)⟩, hlog, ⟨hirq, rfl, rfl, hwdt⟩, fun _ => rfl⟩

/-! ## The step -/

/-- A host event never decodes to a bus byte: those are the block's own (R96). -/
theorem isBusByte_of_decode_event {c : Config} {e : HostEvent} {i : Instr} (h : decode c e.code = .ok i) :
    isBusByte i = false := by
  cases e with
  | command w d =>
    cases h
    obtain ⟨w', hw, -⟩ := Codes.encode_decodeWord c w
    rw [Bool.eq_false_iff]
    intro hbus
    obtain ⟨b, hb⟩ := encode_of_isBusByte hbus
    cases hw.symm.trans hb
  | chunk bytes =>
    revert h
    simp only [HostEvent.code, decode]
    fun_cases decodeChunk c.usbChunk bytes <;> intro h <;> cases h
    rfl

/-- An event that the transport can deliver decodes (R86, R95). -/
theorem decode_of_eventOk {c : Config} {e : HostEvent} (h : eventOk c e = true) : ∃ i, decode c e.code = .ok i := by
  cases e with
  | command w d => exact ⟨_, rfl⟩
  | chunk bytes =>
    simp only [eventOk, Bool.and_eq_true, decide_eq_true_eq] at h
    exact ⟨.dataOut bytes, by rw [HostEvent.code, decode, decodeChunk, if_neg (by omega), if_neg (by omega)]⟩

theorem step_of_idle {s : State} (hphase : s.phase = .takeEvent) (he : s.waitingEvent = none) :
    step s = .next s.beginTurn.endStep := by rw [step, hphase]; simp only [he]

theorem step_of_event {s : State} {e : HostEvent} {i : Instr} (hphase : s.phase = .takeEvent)
    (he : s.waitingEvent = some e) (hi : decode s.cfg e.code = .ok i) :
    step s = onNext State.endStep (exec i s.beginTurn) := by rw [step, hphase]; simp only [he, hi]

theorem step_of_malformed {s : State} {e : HostEvent} {err : DecodeError} (hphase : s.phase = .takeEvent)
    (he : s.waitingEvent = some e) (hi : decode s.cfg e.code = .error err) :
    step s = .refused .malformedChunk := by rw [step, hphase]; simp only [he, hi]

theorem step_of_handler {s : State} (hphase : s.phase = .handler) :
    step s = onNext (fun t => t.endTurn.endStep) (handle s) := by rw [step, hphase]

theorem onNext_eq_next {f : State → State} {r : Result} {t : State} (h : onNext f r = .next t) :
    ∃ u, r = .next u ∧ t = f u := by
  cases r <;> cases h
  exact ⟨_, rfl, rfl⟩

/-- The handler's half turn keeps the invariant and never stops. -/
theorem handler_half {s : State} (h : Inv s) (hphase : s.phase = .handler) : ∃ t, step s = .next t ∧ Inv t := by
  rw [step_of_handler hphase]
  cases hp : pendingMode s.mode with
  | false =>
    rw [handle_of_not_pending hp]
    refine ⟨_, rfl, Sound.inv_endStep ?_⟩
    exact ⟨h.config, h.request, h.buffer, h.log, (sound_of_inv h).quiet, fun _ => hp⟩
  | true =>
    obtain ⟨st, n, u, hu, hframe, hirq, hgot, -⟩ := handle_pending_ends h hp
    rw [hu]
    exact ⟨_, rfl, (sound_finished h hframe hirq hgot).inv_endStep⟩

/-- The dispatcher's half turn keeps the invariant. -/
theorem dispatcher_half {s t : State} (h : Inv s) (hphase : s.phase = .takeEvent) (ht : step s = .next t) : Inv t := by
  cases he : s.waitingEvent with
  | none =>
    rw [step_of_idle hphase he] at ht
    cases ht
    exact (sound_beginTurn h).inv_endStep
  | some e =>
    cases hi : decode s.cfg e.code with
    | error err => cases (step_of_malformed hphase he hi).symm.trans ht
    | ok i =>
      rw [step_of_event hphase he hi] at ht
      obtain ⟨u, hu, rfl⟩ := onNext_eq_next ht
      have hd := exec_dispatched s.beginTurn (isBusByte_of_decode_event hi)
      rw [hu] at hd
      exact (Sound.dispatched (sound_beginTurn h) rfl hd).inv_endStep

/-- Settles O3, by the two halves of a turn. -/
theorem stepKeepsInvariant : Obligations.StepKeepsInvariant := by
  intro s t h ht
  cases hphase : s.phase with
  | takeEvent => exact dispatcher_half h hphase ht
  | handler =>
    obtain ⟨u, hu, hinv⟩ := handler_half h hphase
    cases hu.symm.trans ht
    exact hinv

/-- Settles O4: an event that the transport can deliver decodes, and neither half turn faults. -/
theorem stepNeverStops : Obligations.StepNeverStops := by
  intro s h hevents
  cases hphase : s.phase with
  | handler =>
    obtain ⟨t, ht, -⟩ := handler_half h hphase
    exact ⟨t, ht⟩
  | takeEvent =>
    cases he : s.waitingEvent with
    | none => exact ⟨_, step_of_idle hphase he⟩
    | some e =>
      obtain ⟨i, hi⟩ := decode_of_eventOk (hevents e he)
      obtain ⟨u, hu⟩ := Sound.dispatched_next (sound_beginTurn h)
        (exec_dispatched s.beginTurn (isBusByte_of_decode_event hi))
      exact ⟨_, by rw [step_of_event hphase he hi, hu]; rfl⟩

/-- Settles O5: the event is the one waiting. -/
theorem stepRunsDecodedInstruction : Obligations.StepRunsDecodedInstruction := fun _ _ _ hphase he hi =>
  ⟨step_of_event hphase he hi, rfl, fun t ht => by rw [State.endStep, ht]⟩

/-- Settles O6: no event waits, or the handler is next. -/
theorem mainLoopTurn : Obligations.MainLoopTurn :=
  ⟨fun _ hphase he => step_of_idle hphase (by rw [State.waitingEvent, he]; rfl), fun _ => step_of_handler⟩

/-- Settles O37: an entry with nothing pending does nothing; else it ends, and what `Frame` keeps is the host's. -/
theorem handlerFinishesRequest : Obligations.HandlerFinishesRequest := by
  refine ⟨fun s hm => handle_of_not_pending ?_, fun s h hp => ?_⟩
  · rcases hm with hm | hm | hm | hm <;> rw [hm] <;> rfl
  · obtain ⟨st, n, u, hu, hframe, hirq, -, hbuf⟩ := handle_pending_ends h hp
    refine ⟨_, hu, finished_mode .., finished_offset .., finished_count .., ?_, ?_, ?_, ?_, ?_, ?_, ?_, ?_, ?_,
      fun hm => ⟨?_, ?_⟩⟩
    · rw [finished_irqOff, hirq]
    · rw [finished_proto, hframe.proto]
    · rw [finished_acmd, hframe.acmd]
    · rw [finished_phase, hframe.phase]
    · rw [finished_cfg, hframe.cfg]
    · rw [finished_inp, hframe.host]
    · rw [finished_out, hframe.responses]
    · rw [finished_out, hframe.extCmds]
    · rw [finished_now]
      exact hframe.now
    · rw [finished_fill, if_neg hm]
    · rw [finished_buffer, hbuf hm]

/-- Settles O2: nothing is requested, written or logged. -/
theorem powerOnMeetsInvariant : Obligations.PowerOnMeetsInvariant where
  config := rfl
  request := ⟨Nat.le_refl 0, Nat.zero_le _, rfl⟩
  buffer := ⟨rfl, fun _ ha => absurd ha (Nat.not_lt_zero _)⟩
  log := ⟨List.length_replicate, by decide⟩
  quiet := ⟨rfl, rfl, rfl, Nat.le_refl _⟩
  handled := fun _ => rfl

/-- Settles O1: R310's table, value by value; the log's entries are all empty. -/
theorem powerOnValues : Obligations.PowerOnValues := by
  refine ⟨rfl, rfl, rfl, rfl, rfl, rfl, fun i => ?_, rfl, rfl, fun _ => rfl, rfl, rfl, rfl, rfl, rfl, rfl, rfl⟩
  rw [State.eventAt, List.getD_eq_getElem?_getD]
  show (List.replicate _ _)[i]?.getD _ = _
  rw [List.getElem?_replicate]
  split <;> rfl

/-! ## The configuration -/

/-- A watchdog expiry keeps the configuration. -/
theorem endStep_cfg (s : State) : s.endStep.cfg = s.cfg := by
  unfold State.endStep
  split <;> rfl

/-- What the dispatcher answers keeps the configuration. -/
theorem cfg_of_dispatched {s t : State} {i : Instr} (h : Dispatched s i (.next t)) : t.cfg = s.cfg := by
  cases h
  case replied u bytes h _ => exact h.frame.cfg
  all_goals rfl

/-- A handler entry keeps the configuration. -/
theorem cfg_of_handle {s t : State} (h : handle s = .next t) : t.cfg = s.cfg := by
  cases hp : pendingMode s.mode with
  | false =>
    rw [handle_of_not_pending hp] at h
    cases h
    rfl
  | true =>
    obtain ⟨st, n, u, rfl, hframe, -⟩ := handle_next hp h
    rw [finished_cfg, hframe.cfg]

/-- Settles O8, by the parts of a step; INFO reads nothing but the configuration. -/
theorem deviceInformationIsConstant : Obligations.DeviceInformationIsConstant := by
  refine ⟨fun s t ht => ?_, fun s u hcfg => ⟨_, rfl, by rw [hcfg]; rfl⟩⟩
  cases hphase : s.phase with
  | handler =>
    rw [step_of_handler hphase] at ht
    obtain ⟨u, hu, rfl⟩ := onNext_eq_next ht
    rw [endStep_cfg, State.endTurn_cfg]
    exact cfg_of_handle hu
  | takeEvent =>
    cases he : s.waitingEvent with
    | none =>
      rw [step_of_idle hphase he] at ht
      cases ht
      exact endStep_cfg _
    | some e =>
      cases hi : decode s.cfg e.code with
      | error err => cases (step_of_malformed hphase he hi).symm.trans ht
      | ok i =>
        rw [step_of_event hphase he hi] at ht
        obtain ⟨u, hu, rfl⟩ := onNext_eq_next ht
        have hd := exec_dispatched s.beginTurn (isBusByte_of_decode_event hi)
        rw [hu] at hd
        rw [endStep_cfg]
        exact (cfg_of_dispatched hd).trans (State.beginTurn_cfg s)

/-! ## The watchdog -/

/-- What a DELAY makes of the watchdog's expiry, as R33 and U9 have it. -/
theorem delay_expiry_ne_none {t : Nat} {s : State} (h : s.expiry = none) :
    (s.delay t).expiry ≠ none ↔ ¬ watchdogPremise s.cfg ∧ s.cfg.tWdt < (s.delay t).now - s.wdtLast := by
  rw [← wdtPremise_iff, State.delay_now]
  simp only [State.delay, h, State.wdtExpired, Bool.and_eq_true, Bool.not_eq_true', decide_eq_true_eq, ne_eq,
    ite_eq_right_iff, reduceCtorEq, imp_false, not_not, Bool.not_eq_true]

/-- A noted expiry stays. -/
theorem delay_expiry_of_ne_none {s : State} (u : Nat) (h : s.expiry ≠ none) : (s.delay u).expiry = s.expiry := by
  obtain ⟨e, he⟩ := Option.ne_none_iff_exists'.mp h
  rw [(Frame.delay u s).expiry e he, he]

/-- Under the premise nothing the machine runs notes an expiry (U9; log 26). -/
theorem expiry_of_run {run : State → Result} {s t : State} (hrun : run = handle ∨ ∃ i, run = exec i)
    (hpremise : watchdogPremise s.cfg) (ht : run s = .next t) : t.expiry = s.expiry := by
  have hp := (wdtPremise_iff s.cfg).mpr hpremise
  obtain rfl | ⟨i, rfl⟩ := hrun
  · cases hpend : pendingMode s.mode with
    | false =>
      rw [handle_of_not_pending hpend] at ht
      cases ht
      rfl
    | true =>
      obtain ⟨st, n, u, rfl, hframe, -⟩ := handle_next hpend ht
      rw [finished_expiry, hframe.noExpiry hp]
  · cases hbus : isBusByte i with
    | true =>
      obtain ⟨b, hb⟩ := encode_of_isBusByte hbus
      rw [exec_of_encode_busByte hb] at ht
      obtain ⟨st, n, rfl⟩ := sendBusByte_next ht
      exact (Framed.sendFramed false b s).noExpiry hp
    | false =>
      have hd := exec_dispatched s hbus
      rw [ht] at hd
      cases hd
      case replied u bytes h _ => exact h.frame.noExpiry hp
      all_goals rfl

/-- Settles O7: the delay's test, the premise carried through every run, and R310's table. -/
theorem watchdogForcesPowerOn : Obligations.WatchdogForcesPowerOn := by
  refine ⟨fun t s he => ⟨delay_expiry_ne_none he, fun hne u => delay_expiry_of_ne_none u hne⟩,
    fun run s t hrun hpremise ht => expiry_of_run hrun hpremise ht, fun s e he => ?_⟩
  have hend : s.endStep = s.powerOn e := by rw [State.endStep, he]
  rw [hend]
  exact ⟨rfl, rfl, rfl, rfl, rfl, rfl, rfl, rfl, rfl, rfl, rfl, rfl, rfl, rfl, rfl, rfl, rfl, rfl, rfl, rfl⟩

end Sys2Proof.Proofs.Invariant
end

section
/-! PROOF. The buffer accessors (43_dispatcher_commands.md R204, 44_async_handler.md R272): what one READ and one chunk
do, and, by induction, what any sequence of them does. -/

namespace Sys2Proof.Proofs.Accessors

open Sys2Proof Sys2Proof.Machine Sys2Proof.Safety Sys2Proof.Proofs.Dispatcher Sys2Proof.Proofs.Invariant

/-- The request's bytes from the cursor to the fill are `bytes`, inside the buffer. -/
structure Remaining (s : State) (bytes : List Byte) : Prop where
  fits : s.fill.toNat ≤ s.cfg.bufSize
  length : s.fill.toNat = s.offset.toNat + bytes.length
  bytes : ∀ k (h : k < bytes.length), s.buffer.get? (s.offset.toNat + k) = some bytes[k]

/-! ## READ -/

/-- The state after a READ of `len` when `bytes` remain. -/
def taken (len : Nat) (bytes : List Byte) (s : State) : State :=
  { s with
    offset := s.offset + byteOfCount (min len bytes.length)
    mode := if bytes.length ≤ len then .idle else .readDone }.answer (.dataIn (bytes.take len))

/-- One READ answers the next bytes and moves the cursor past them (R204). -/
theorem exec_read {s : State} {len : BitVec 16} {bytes : List Byte} (hmode : s.mode = .readDone)
    (hlen : 1 ≤ len.toNat ∧ len.toNat ≤ s.cfg.bufSize) (h : Remaining s bytes) :
    exec (.read len) s = .next (taken len.toNat bytes s) := by
  obtain ⟨hfits, hlength, hbytes⟩ := h
  have hamount : readAmount len.toNat s = min len.toNat bytes.length := by rw [readAmount]; omega
  have hread : s.memRead s.offset.toNat (readAmount len.toNat s) = .ok (bytes.take len.toNat) := by
    rw [hamount, State.memRead_ok_iff]
    refine ⟨by omega, List.length_take, fun i hi => ?_⟩
    rw [List.length_take] at hi
    rw [List.getElem_take, hbytes i (by omega)]
  have hend : s.offset + byteOfCount (min len.toNat bytes.length) = s.fill ↔ bytes.length ≤ len.toNat := by
    rw [cursor_eq_iff (by omega)]
    omega
  show execRead len s = _
  rw [execRead, if_pos (goodLength_of_bounds hlen.1 hlen.2), if_pos hmode, hread, hamount]
  simp only [State.advance, hend, hmode, taken]

/-- The bytes that remain are in the buffer. -/
theorem exists_remaining {s : State} (hle : s.offset.toNat ≤ s.fill.toNat) (hfits : s.fill.toNat ≤ s.cfg.bufSize)
    (hwritten : ∀ a, s.offset.toNat ≤ a → a < s.fill.toNat → (s.buffer.get? a).isSome = true) :
    ∃ bytes, Remaining s bytes := by
  obtain ⟨bytes, hread, hlength⟩ := State.memRead_written (s := s) (addr := s.offset.toNat)
    (n := s.fill.toNat - s.offset.toNat) (by omega) fun a h1 h2 => hwritten a h1 (by omega)
  exact ⟨bytes, hfits, by omega, ((State.memRead_ok_iff _ _ _ _).mp hread).2.2⟩

/-- Settles O33, by the one READ. -/
theorem readReturnsBufferBytes : Obligations.ReadReturnsBufferBytes := by
  intro s len hmode hlo hhi hle hfits hwritten
  obtain ⟨bytes, hrem⟩ := exists_remaining hle hfits hwritten
  have hlength := hrem.length
  have hend : s.offset + byteOfCount (min len.toNat bytes.length) = s.fill ↔ bytes.length ≤ len.toNat := by
    rw [cursor_eq_iff (by omega)]
    omega
  refine ⟨bytes.take len.toNat, s.offset + byteOfCount (min len.toNat bytes.length), ?_, fun k hk => ?_, ?_, ?_⟩
  · rw [List.length_take]
    omega
  · rw [List.length_take] at hk
    rw [List.getElem_take, hrem.bytes k (by omega)]
  · rw [cursor_toNat (f := s.fill) (by omega), List.length_take]
  · rw [exec_read hmode ⟨hlo, hhi⟩ hrem, taken]
    simp only [hend]

/-- The oldest response's bytes come first. -/
theorem dataReturned_append_dataIn (rs : List Response) (bytes : List Byte) :
    dataReturned (rs ++ [.dataIn bytes]) = bytes ++ dataReturned rs := by
  simp [dataReturned]

/-- READs that leave something before the last, and the last (R204, R61): the responses they add, and where they leave
the request. -/
theorem execAll_reads (lens : List (BitVec 16)) (last : BitVec 16) :
    ∀ (s : State) (bytes : List Byte), s.mode = .readDone → Remaining s bytes →
      (∀ len ∈ last :: lens, 1 ≤ len.toNat ∧ len.toNat ≤ s.cfg.bufSize) →
      (lens = [] ∨ (lens.map BitVec.toNat).sum < bytes.length) →
      ∃ t rs, execAll ((lens ++ [last]).map Instr.read) s = .next t ∧
        t.out.responses = rs ++ s.out.responses ∧ rs.length = lens.length + 1 ∧
        dataReturned rs = bytes.take ((lens.map BitVec.toNat).sum + last.toNat) ∧
        t.buffer = s.buffer ∧ t.fill = s.fill ∧
        t.offset.toNat = s.offset.toNat + min ((lens.map BitVec.toNat).sum + last.toNat) bytes.length ∧
        t.mode = if bytes.length ≤ (lens.map BitVec.toNat).sum + last.toNat then .idle else .readDone := by
  induction lens with
  | nil =>
    intro s bytes hmode hrem hlens _
    have hexec := exec_read hmode (hlens last List.mem_cons_self) hrem
    have hlength := hrem.length
    simp only [List.map_nil, List.sum_nil, Nat.zero_add]
    refine ⟨taken last.toNat bytes s, [.dataIn (bytes.take last.toNat)], ?_, rfl, rfl, ?_, rfl, rfl, ?_, rfl⟩
    · simp only [List.nil_append, List.map_cons, List.map_nil, execAll, hexec]
    · simp [dataReturned]
    · exact cursor_toNat (f := s.fill) (by omega)
  | cons len lens ih =>
    intro s bytes hmode hrem hlens hsum
    have hlt : (len.toNat + (lens.map BitVec.toNat).sum) < bytes.length := by
      simpa using hsum
    have hexec := exec_read hmode (hlens len (by simp)) hrem
    have hlength := hrem.length
    have hcursor : (taken len.toNat bytes s).offset.toNat = s.offset.toNat + len.toNat := by
      show (s.offset + byteOfCount (min len.toNat bytes.length)).toNat = _
      rw [Nat.min_eq_left (by omega)]
      exact cursor_toNat (f := s.fill) (by omega)
    have hrem' : Remaining (taken len.toNat bytes s) (bytes.drop len.toNat) := by
      refine ⟨hrem.fits, ?_, fun k hk => ?_⟩
      · rw [hcursor, List.length_drop]
        show s.fill.toNat = _
        omega
      · rw [List.length_drop] at hk
        rw [hcursor, List.getElem_drop, Nat.add_assoc]
        exact hrem.bytes _ (by omega)
    obtain ⟨t, rs, hrun, hresp, hn, hdata, hbuf, hfill, hoff, hm⟩ := ih (taken len.toNat bytes s)
      (bytes.drop len.toNat) (if_neg (by omega)) hrem' (fun l hl => hlens l (by simp at hl ⊢; tauto))
      (.inr (by rw [List.length_drop]; omega))
    rw [List.map_cons, List.sum_cons, Nat.add_assoc]
    refine ⟨t, rs ++ [.dataIn (bytes.take len.toNat)], ?_, ?_, ?_, ?_, hbuf, hfill, ?_, ?_⟩
    · rw [List.cons_append, List.map_cons, execAll, hexec]
      exact hrun
    · rw [hresp, List.append_assoc]
      rfl
    · rw [List.length_append, hn]
      rfl
    · rw [dataReturned_append_dataIn, hdata, ← List.take_add]
    · rw [hcursor, List.length_drop] at hoff
      omega
    · rw [hm, List.length_drop]
      exact if_congr (by omega) rfl rfl

/-- Settles O34: the responses of a run of READs are the newest ones. -/
theorem readsDrainToIdle : Obligations.ReadsDrainToIdle := by
  intro s lens last bytes hmode hfits hlength hbytes hlens hsum
  obtain ⟨t, rs, hrun, hresp, hn, hdata, hrest⟩ :=
    execAll_reads lens last s bytes hmode ⟨hfits, hlength, hbytes⟩ hlens hsum
  refine ⟨t, hrun, ?_, hrest⟩
  rw [hresp, ← hn, List.take_left, hdata]

/-! ## Chunks -/

/-- One chunk is stored at the cursor, as far as it fits (R272). -/
theorem exec_dataOut {s : State} (bytes : List Byte) (hmode : s.mode = .writePrepared)
    (hle : s.offset.toNat ≤ s.fill.toNat) (hfits : s.fill.toNat ≤ s.cfg.bufSize) :
    exec (.dataOut bytes) s =
      .next (((s.putBytes s.offset.toNat (bytes.take (chunkAmount bytes s))).advance (chunkAmount bytes s)
        .write).answer (.reply [])) := by
  have hroom : s.offset.toNat + (bytes.take (chunkAmount bytes s)).length ≤ s.cfg.bufSize := by
    rw [List.length_take, chunkAmount]
    omega
  show execDataOut bytes s = _
  rw [execDataOut, if_pos hmode, State.memWrite_in s hroom]

/-- Settles O35: the stored bytes and the others, read back. -/
theorem chunkIsStored : Obligations.ChunkIsStored := by
  intro s bytes hmode hle hfits
  have hk : s.offset.toNat + chunkAmount bytes s ≤ s.fill.toNat := by rw [chunkAmount]; omega
  have hcursor := cursor_toNat hk
  refine ⟨_, exec_dataOut bytes hmode hle hfits, hcursor, ?_, fun k hlen hroom => ?_, fun a ha => ?_⟩
  · simp only [State.answer, State.advance, State.putBytes, hmode]
  · have hin : k < (bytes.take (chunkAmount bytes s)).length := by rw [List.length_take, chunkAmount]; omega
    have hget := Memory.get?_setMany_inside _ s.buffer s.offset.toNat k hin
    rw [List.getElem_take] at hget
    exact hget
  · refine Memory.get?_setMany_outside _ s.buffer ?_
    rw [List.length_take, Nat.min_eq_left (by rw [chunkAmount]; omega)]
    exact ha.imp_right fun h => hcursor ▸ h

/-- A chunk that leaves something missing. -/
theorem exec_dataOut_of_lt {s : State} {bytes : List Byte} (hmode : s.mode = .writePrepared)
    (hlt : s.offset.toNat + bytes.length < s.fill.toNat) (hfits : s.fill.toNat ≤ s.cfg.bufSize) :
    exec (.dataOut bytes) s =
      .next ({ s with
        buffer := s.buffer.setMany s.offset.toNat bytes
        offset := s.offset + byteOfCount bytes.length }.answer (.reply [])) := by
  have hall : chunkAmount bytes s = bytes.length := by rw [chunkAmount]; omega
  rw [exec_dataOut bytes hmode (by omega) hfits, hall, List.take_length, advance_of_lt (s := s.putBytes _ _) hlt]
  rfl

/-- The chunk that completes the payload. -/
theorem exec_dataOut_of_end {s : State} {bytes : List Byte} (hmode : s.mode = .writePrepared)
    (hend : s.offset.toNat + bytes.length = s.fill.toNat) (hfits : s.fill.toNat ≤ s.cfg.bufSize) :
    exec (.dataOut bytes) s =
      .next ({ s with
        buffer := s.buffer.setMany s.offset.toNat bytes
        offset := s.fill
        mode := .write }.answer (.reply [])) := by
  have hall : chunkAmount bytes s = bytes.length := by rw [chunkAmount]; omega
  rw [exec_dataOut bytes hmode (by omega) hfits, hall, List.take_length, advance_of_end (s := s.putBytes _ _) hend]
  rfl

/-- Settles O36, by induction on the chunks: each but the last leaves something missing. -/
theorem chunkingDoesNotMatter : Obligations.ChunkingDoesNotMatter := by
  intro s chunks
  induction chunks generalizing s with
  | nil =>
    intro _ hlt _ _ hlength
    simp only [List.flatten_nil, List.length_nil] at hlength
    omega
  | cons c rest ih =>
    intro hmode hlt hfits hne hlength
    rw [List.flatten_cons, List.length_append] at hlength
    cases rest with
    | nil =>
      have hexec := exec_dataOut_of_end (bytes := c) hmode (by simp at hlength; omega) hfits
      simp only [List.map_cons, List.map_nil, execAll, hexec, List.flatten_cons, List.flatten_nil, List.append_nil]
      rfl
    | cons d rest =>
      have hd : 1 ≤ d.length := List.length_pos_iff.mpr (hne d (by simp))
      have hsplit : (d :: rest).flatten.length = d.length + rest.flatten.length := by
        rw [List.flatten_cons, List.length_append]
      have hroom : s.offset.toNat + c.length < s.fill.toNat := by omega
      have hcursor : (s.offset + byteOfCount c.length).toNat = s.offset.toNat + c.length :=
        cursor_toNat (Nat.le_of_lt hroom)
      rw [List.map_cons, execAll, exec_dataOut_of_lt hmode hroom hfits]
      have hrest := ih ({ s with
        buffer := s.buffer.setMany s.offset.toNat c
        offset := s.offset + byteOfCount c.length }.answer (.reply [])) hmode
        (by show (s.offset + byteOfCount c.length).toNat < s.fill.toNat; omega) hfits
        (fun x hx => hne x (List.mem_cons_of_mem c hx))
        (by show _ = s.fill.toNat - (s.offset + byteOfCount c.length).toNat; omega)
      refine hrest.trans ?_
      simp only [State.answer, hcursor, List.flatten_cons (l := c), Memory.setMany_append,
        List.length_cons (a := c), List.replicate_succ' (n := (d :: rest).length), List.append_assoc,
        List.cons_append, List.nil_append]

end Sys2Proof.Proofs.Accessors
end

section
/-! PROOF. The event log (40_line_primitives.md R128), WAIT (R125) and FAIL (R131; 60_exceptions.md R282, R290). -/

namespace Sys2Proof.Proofs.Primitives

open Sys2Proof Sys2Proof.Machine Sys2Proof.Safety Sys2Proof.Proofs.Commands

/-! ## The slots of the log's ring -/

/-- The slot of the entry of age `k`, when the newest stands at `head` (R241). -/
def slot (n head k : Nat) : Nat := (head + n - k) % n

theorem slot_eq {n head k : Nat} (hhead : head < n) (hk : k < n) :
    slot n head k = if k ≤ head then head - k else head + n - k := by
  unfold slot
  split
  · rw [show head + n - k = head - k + n by omega, Nat.add_mod_right, Nat.mod_eq_of_lt (by omega)]
  · rw [Nat.mod_eq_of_lt (by omega)]

theorem slot_zero {n head : Nat} (hhead : head < n) : slot n head 0 = head := by
  rw [slot_eq hhead (by omega), if_pos (by omega), Nat.sub_zero]

theorem slot_lt {n head : Nat} (hhead : head < n) (k : Nat) : slot n head k < n := Nat.mod_lt _ (by omega)

/-- No older entry stands where the newest does. -/
theorem slot_ne_head {n head k : Nat} (hhead : head < n) (hk : k < n) (hpos : 1 ≤ k) : slot n head k ≠ head := by
  rw [slot_eq hhead hk]
  split <;> omega

/-- The next slot. -/
theorem succ_mod_eq {n head : Nat} (hhead : head < n) :
    (head + 1) % n = if head + 1 = n then 0 else head + 1 := by
  split
  · next h => rw [h, Nat.mod_self]
  · rw [Nat.mod_eq_of_lt (by omega)]

/-- When the head moves on, every entry ages by one. -/
theorem slot_succ {n head k : Nat} (hhead : head < n) (hk : k + 1 < n) :
    slot n ((head + 1) % n) (k + 1) = slot n head k := by
  rw [slot_eq (Nat.mod_lt _ (by omega)) hk, slot_eq hhead (by omega), succ_mod_eq hhead]
  split <;> split <;> split <;> omega

/-! ## LOG -/

theorem eventByAge_eq_slot {s : State} {k : Nat} (hk : k < s.cfg.eventLogSize) :
    s.eventByAge k = s.evEntries.getD (slot s.cfg.eventLogSize s.evHead k) ⟨0, 0⟩ := eventByAge_of_inside hk

/-- The newest entry. -/
theorem eventByAge_zero {s : State} (h : logOk s) : s.eventByAge 0 = s.eventAt s.evHead := by
  rw [eventByAge_eq_slot (Nat.lt_of_le_of_lt (Nat.zero_le _) h.2), slot_zero h.2, State.eventAt]

/-- The log with one entry written, and the head moved to it. -/
def State.withEntry (head : Nat) (x : EventEntry) (s : State) : State :=
  { s with evHead := head, evEntries := s.evEntries.set head x }

theorem logOk_withEntry {s : State} {head : Nat} (x : EventEntry) (h : logOk s) (hhead : head < s.cfg.eventLogSize) :
    logOk (State.withEntry head x s) := ⟨by simpa [State.withEntry] using h.1, hhead⟩

/-- The entry written is the newest. -/
theorem eventByAge_zero_withEntry {s : State} {head : Nat} (x : EventEntry) (h : logOk s)
    (hhead : head < s.cfg.eventLogSize) : (State.withEntry head x s).eventByAge 0 = x := by
  rw [eventByAge_zero (logOk_withEntry x h hhead), State.eventAt]
  show (s.evEntries.set head x).getD head _ = x
  have hin : head < (s.evEntries.set head x).length := by rw [List.length_set, h.1]; exact hhead
  rw [List.getD_eq_getElem _ _ hin, List.getElem_set_self]

/-- Every other slot keeps its entry. -/
theorem eventByAge_withEntry {s : State} {head k : Nat} (x : EventEntry) (hhead : head < s.cfg.eventLogSize)
    (hk : k < s.cfg.eventLogSize) (hpos : 1 ≤ k) :
    (State.withEntry head x s).eventByAge k =
      s.evEntries.getD (slot s.cfg.eventLogSize head k) ⟨0, 0⟩ := by
  rw [eventByAge_eq_slot (s := State.withEntry head x s) hk]
  show (s.evEntries.set head x).getD (slot s.cfg.eventLogSize head k) _ = _
  rw [List.getD_eq_getElem?_getD, List.getD_eq_getElem?_getD,
    List.getElem?_set_ne (slot_ne_head hhead hk hpos).symm]

/-- Writing the newest entry again leaves the older ones (R128). -/
theorem eventByAge_withEntry_head {s : State} {k : Nat} (x : EventEntry) (h : logOk s) (hpos : 1 ≤ k) :
    (State.withEntry s.evHead x s).eventByAge k = s.eventByAge k := by
  by_cases hk : k < s.cfg.eventLogSize
  · rw [eventByAge_withEntry x h.2 hk hpos, eventByAge_eq_slot hk]
  · have hout := Nat.le_of_not_lt hk
    rw [eventByAge_of_outside hout, eventByAge_of_outside (s := State.withEntry s.evHead x s) hout]

theorem logEvent_of_empty {s : State} {e : Byte} (hne : (s.eventAt s.evHead).etype ≠ e)
    (h0 : (s.eventAt s.evHead).etype = 0) : s.logEvent e = State.withEntry s.evHead ⟨e, 1⟩ s := by
  rw [State.logEvent, if_neg hne, if_neg (fun h => h h0), State.withEntry]

theorem logEvent_of_other {s : State} {e : Byte} (hne : (s.eventAt s.evHead).etype ≠ e)
    (h0 : (s.eventAt s.evHead).etype ≠ 0) :
    s.logEvent e = State.withEntry ((s.evHead + 1) % s.cfg.eventLogSize) ⟨e, 1⟩ s := by
  rw [State.logEvent, if_neg hne, if_pos h0, State.withEntry]

/-- A repeated event counts up, to at most 255. -/
theorem logEvent_of_same {s : State} {e : Byte} (h : logOk s) (hsame : (s.eventAt s.evHead).etype = e) :
    ∃ x : EventEntry, x.etype = e ∧ x.count.toNat = min 255 ((s.eventAt s.evHead).count.toNat + 1) ∧
      s.logEvent e = State.withEntry s.evHead x s := by
  by_cases hc : (s.eventAt s.evHead).count < 255#8
  · refine ⟨⟨e, (s.eventAt s.evHead).count + 1⟩, rfl, ?_, ?_⟩
    · have hlt := BitVec.lt_def.mp hc
      change _ < 255 at hlt
      rw [BitVec.toNat_add]
      show ((s.eventAt s.evHead).count.toNat + 1) % 256 = _
      omega
    · rw [State.logEvent, if_pos hsame, if_pos hc, State.withEntry]
  · refine ⟨s.eventAt s.evHead, hsame, ?_, ?_⟩
    · have hge : ¬ (s.eventAt s.evHead).count.toNat < 255 := fun hlt => hc (BitVec.lt_def.mpr hlt)
      omega
    · have hin : s.evHead < s.evEntries.length := by rw [h.1]; exact h.2
      rw [State.logEvent, if_pos hsame, if_neg hc, State.withEntry, State.eventAt, List.getD_eq_getElem _ _ hin,
        List.set_getElem_self]

/-- Settles O59: each of LOG's cases writes one entry, over the newest or after it. -/
theorem eventLogIsARing : Obligations.EventLogIsARing := by
  intro s e h he
  have hzero := eventByAge_zero h
  by_cases hsame : (s.eventAt s.evHead).etype = e
  · obtain ⟨x, hx, hcount, hlog⟩ := logEvent_of_same h hsame
    rw [hlog, eventByAge_zero_withEntry x h h.2, hzero]
    exact ⟨logOk_withEntry x h h.2, hx, fun _ => ⟨hcount, fun k => eventByAge_withEntry_head x h⟩,
      fun h0 => absurd (hsame.symm.trans h0) he, fun hne => absurd hsame hne⟩
  · by_cases h0 : (s.eventAt s.evHead).etype = 0
    · rw [logEvent_of_empty hsame h0, eventByAge_zero_withEntry _ h h.2, hzero]
      exact ⟨logOk_withEntry _ h h.2, rfl, fun hs => absurd hs hsame, fun _ => ⟨rfl, fun k =>
        eventByAge_withEntry_head _ h⟩, fun _ hne => absurd h0 hne⟩
    · have hhead : (s.evHead + 1) % s.cfg.eventLogSize < s.cfg.eventLogSize :=
        Nat.mod_lt _ (Nat.lt_of_le_of_lt (Nat.zero_le _) h.2)
      rw [logEvent_of_other hsame h0, eventByAge_zero_withEntry _ h hhead, hzero]
      refine ⟨logOk_withEntry _ h hhead, rfl, fun hs => absurd hs hsame, fun hs => absurd hs h0, fun _ _ =>
        ⟨rfl, fun k hk => ?_⟩⟩
      rw [eventByAge_withEntry _ hhead hk (by omega), slot_succ h.2 hk, eventByAge_eq_slot (by omega)]

/-! ## WAIT -/

/-- The inputs after `l` line samples and `o` delays. -/
def usedUp (l o : Nat) (i : Inputs) : Inputs :=
  { i with
    lines := i.lines.drop l
    linesDrawn := i.linesDrawn + (l - i.lines.length)
    overs := i.overs.drop o
    oversDrawn := i.oversDrawn + (o - i.overs.length) }

theorem dropLines_eq_usedUp (i : Inputs) : i.dropLines = usedUp 1 0 i := by
  unfold Inputs.dropLines usedUp
  split <;> next h => simp [h]

theorem dropOver_eq_usedUp (i : Inputs) : i.dropOver = usedUp 0 1 i := by
  unfold Inputs.dropOver usedUp
  split <;> next h => simp [h]

theorem usedUp_usedUp (l o l' o' : Nat) (i : Inputs) : usedUp l' o' (usedUp l o i) = usedUp (l + l') (o + o') i := by
  simp only [usedUp, List.drop_drop, List.length_drop, Inputs.mk.injEq, true_and]
  refine ⟨?_, ?_⟩ <;> omega

/-- The state that a wait which ends in `u` leaves after `k` poll steps. -/
def waited (k : Nat) (u s : State) : State :=
  { s with
    now := u.now
    wdtLast := u.now
    expiry := u.expiry
    inp := usedUp (k + 1) k s.inp
    out := { s.out with wdtKicks := s.out.wdtKicks + k + 1 } }

/-- What a wait for `m` to read `v` from `s`, begun at `t0` with the limit `t`, leaves. -/
structure WaitEnds (m v : LineMask) (t t0 k : Nat) (s : State) (r : Bool × State) : Prop where
  earlier : ∀ j, j < k → (s.drive ||| peerAt s.inp j) &&& m ≠ v
  found : r.1 = true ↔ (s.drive ||| peerAt s.inp k) &&& m = v
  late : r.1 = false → t ≤ r.2.now - t0
  now : s.now + k * s.cfg.tPollStep ≤ r.2.now
  exact : k = 0 → r.2.now = s.now
  state : r.2 = waited k r.2 s

/-- The samples that are left. -/
theorem peerAt_usedUp (l o k : Nat) (i : Inputs) : peerAt (usedUp l o i) k = peerAt i (l + k) := by
  unfold peerAt usedUp
  simp only [List.getElem?_drop, List.length_drop]
  split
  · rfl
  · next h =>
    rw [List.getElem?_eq_none_iff] at h
    congr 1
    omega

/-- The inputs after one poll step that goes on. -/
theorem polled_inp (s : State) : (s.kick.sampled.delay s.cfg.tPollStep).inp = usedUp 1 1 s.inp := by
  show s.inp.dropLines.dropOver = _
  rw [dropLines_eq_usedUp, dropOver_eq_usedUp, usedUp_usedUp]

theorem waited_polled (k : Nat) (u s : State) :
    waited k u (s.kick.sampled.delay s.cfg.tPollStep) = waited (k + 1) u s := by
  have hkicks : s.out.wdtKicks + 1 + k + 1 = s.out.wdtKicks + (k + 1) + 1 := by omega
  have hinp : usedUp (k + 1) k (s.kick.sampled.delay s.cfg.tPollStep).inp = usedUp (k + 1 + 1) (k + 1) s.inp := by
    rw [polled_inp, usedUp_usedUp, Nat.add_comm 1 (k + 1), Nat.add_comm 1 k]
  simp only [waited, hinp, ← hkicks]
  rfl

/-- A poll step before the rest of a wait. -/
theorem WaitEnds.poll {m v : LineMask} {t t0 k : Nat} {s : State} {r : Bool × State}
    (hmiss : (s.drive ||| peerAt s.inp 0) &&& m ≠ v)
    (h : WaitEnds m v t t0 k (s.kick.sampled.delay s.cfg.tPollStep) r) : WaitEnds m v t t0 (k + 1) s r := by
  have hpeer : ∀ j, peerAt (s.kick.sampled.delay s.cfg.tPollStep).inp j = peerAt s.inp (j + 1) := fun j => by
    rw [polled_inp, peerAt_usedUp, Nat.add_comm]
  refine ⟨fun j hj => ?_, ?_, h.late, ?_, nofun, ?_⟩
  · cases j with
    | zero => exact hmiss
    | succ j => exact hpeer j ▸ h.earlier j (by omega)
  · exact hpeer k ▸ h.found
  · have hnow := h.now
    change s.now + s.cfg.tPollStep + _ + k * s.cfg.tPollStep ≤ _ at hnow
    rw [Nat.succ_mul]
    omega
  · exact h.state.trans (waited_polled k r.2 s)

/-- A sample reads the wired-AND of the block's drive and the peer's (R22, R121). -/
theorem sense_eq (s : State) : s.sense = s.drive ||| peerAt s.inp 0 := by rw [State.sense, peerAt_zero]

/-- A wait that ends at its first sample. -/
theorem WaitEnds.first {m v : LineMask} {t t0 : Nat} {s : State} {ok : Bool}
    (hok : ok = true ↔ s.kick.sense &&& m = v) (hlate : ok = false → t ≤ s.kick.sampled.now - t0) :
    WaitEnds m v t t0 0 s (ok, s.kick.sampled) := by
  have hsense : s.kick.sense = s.drive ||| peerAt s.inp 0 := sense_eq s
  refine ⟨fun j hj => absurd hj (Nat.not_lt_zero j), hsense ▸ hok, hlate, Nat.le_of_eq (by simp), fun _ => rfl, ?_⟩
  simp only [waited, Nat.zero_add, ← dropLines_eq_usedUp]
  rfl

/-- The loop of WAIT, with fuel for every poll step up to the deadline (R125; log 14). -/
theorem waitLoop_ends {m v : LineMask} {t t0 : Nat} (fuel : Nat) :
    ∀ s : State, t0 ≤ s.now → t ≤ s.now - t0 + fuel * s.cfg.tPollStep →
      ∃ k, k ≤ fuel ∧ WaitEnds m v t t0 k s (s.waitLoop m v t t0 (fuel + 1)) := by
  induction fuel with
  | zero =>
    intro s ht0 hfuel
    rw [State.waitLoop]
    have hdue : t ≤ s.kick.sampled.now - t0 := by simpa using hfuel
    by_cases hhit : s.kick.sense &&& m = v
    · rw [if_pos hhit]
      exact ⟨0, Nat.le_refl 0, .first (by simpa using hhit) nofun⟩
    · rw [if_neg hhit, if_pos hdue]
      exact ⟨0, Nat.le_refl 0, .first (by simpa using hhit) fun _ => hdue⟩
  | succ fuel ih =>
    intro s ht0 hfuel
    rw [State.waitLoop]
    by_cases hhit : s.kick.sense &&& m = v
    · rw [if_pos hhit]
      exact ⟨0, Nat.zero_le _, .first (by simpa using hhit) nofun⟩
    · rw [if_neg hhit]
      by_cases hdue : t ≤ s.kick.sampled.now - t0
      · rw [if_pos hdue]
        exact ⟨0, Nat.zero_le _, .first (by simpa using hhit) fun _ => hdue⟩
      · rw [if_neg hdue]
        have hnow : (s.kick.sampled.delay s.cfg.tPollStep).now =
          s.now + s.cfg.tPollStep + s.kick.sampled.inp.nextOver := rfl
        obtain ⟨k, hk, hends⟩ := ih (s.kick.sampled.delay s.cfg.tPollStep) (by omega) (by
          rw [hnow, State.delay_cfg, State.sampled_cfg, State.kick_cfg]
          rw [Nat.succ_mul] at hfuel
          omega)
        exact ⟨k + 1, by omega, hends.poll (sense_eq s ▸ hhit)⟩

/-- WAIT: the deadline is reached after at most `T / T_POLLSTEP + 1` poll steps. -/
theorem wait_ends (m v : LineMask) (t : Nat) {s : State} (hstep : 0 < s.cfg.tPollStep) :
    ∃ k, k ≤ t / s.cfg.tPollStep + 1 ∧ WaitEnds m v t s.now k s (s.wait m v t) := by
  refine waitLoop_ends (t / s.cfg.tPollStep + 1) s (Nat.le_refl _) ?_
  have hdiv := Nat.lt_div_mul_add (a := t) hstep
  rw [Nat.succ_mul]
  omega

/-- Settles O45. -/
theorem waitIsBounded : Obligations.WaitIsBounded := by
  intro m v t s hstep
  obtain ⟨k, hk, h⟩ := wait_ends m v t hstep
  exact ⟨k, _, rfl, hk, h.earlier, h.found, h.late, h.now, h.exact, h.state⟩

/-! ## FAIL -/

/-- The log of `n` slots, its entries and its head, after an event `e` (R128). -/
def logged (n : Nat) (entries : List EventEntry) (head : Nat) (e : Byte) : List EventEntry × Nat :=
  if (entries.getD head ⟨0, 0⟩).etype = e then
    if (entries.getD head ⟨0, 0⟩).count < 255#8 then
      (entries.set head ⟨e, (entries.getD head ⟨0, 0⟩).count + 1⟩, head)
    else (entries, head)
  else if (entries.getD head ⟨0, 0⟩).etype ≠ 0 then (entries.set ((head + 1) % n) ⟨e, 1⟩, (head + 1) % n)
  else (entries.set head ⟨e, 1⟩, head)

/-- `LOG` reads and writes the log alone. -/
theorem logEvent_eq (s : State) (e : Byte) :
    s.logEvent e =
      { s with
        evEntries := (logged s.cfg.eventLogSize s.evEntries s.evHead e).1
        evHead := (logged s.cfg.eventLogSize s.evEntries s.evHead e).2 } := by
  unfold State.logEvent logged State.eventAt
  split <;> [split; split] <;> rfl

/-- The pin entry of an interrupt unmasked by `FAIL` (R131). -/
def unmaskPins (s : State) : List Pins :=
  if s.irqOff then [⟨s.now, s.drive, if s.ppOe then some s.ppOut else none, false⟩] else []

/-- What `FAIL` does before the cleanup: the interrupt is unmasked and a timeout class logged (R131, R282). -/
def noted (st : Status) (s : State) : State :=
  { s with
    irqOff := false
    evEntries := if st.logged then (logged s.cfg.eventLogSize s.evEntries s.evHead st.code).1 else s.evEntries
    evHead := if st.logged then (logged s.cfg.eventLogSize s.evEntries s.evHead st.code).2 else s.evHead
    out := { s.out with pins := unmaskPins s ++ s.out.pins } }

theorem unmask_eq (s : State) :
    (if s.irqOff then s.irqUnmask else s) =
      { s with irqOff := false, out := { s.out with pins := unmaskPins s ++ s.out.pins } } := by
  unfold unmaskPins
  split
  · rfl
  · next h => rw [← Bool.eq_false_iff.mpr h]; rfl

theorem failWith_eq (st : Status) (s : State) : s.failWith st = ((noted st s).failLines st).failBusState st := by
  rw [State.failWith, unmask_eq, State.logIf, logEvent_eq, noted]
  cases st.logged <;> rfl

@[simp] theorem dropOver_lines (i : Inputs) : i.dropOver.lines = i.lines := by rw [Inputs.dropOver_eq]
@[simp] theorem dropOver_linesDrawn (i : Inputs) : i.dropOver.linesDrawn = i.linesDrawn := by rw [Inputs.dropOver_eq]
@[simp] theorem dropOver_port (i : Inputs) : i.dropOver.port = i.port := by rw [Inputs.dropOver_eq]
@[simp] theorem dropOver_portDrawn (i : Inputs) : i.dropOver.portDrawn = i.portDrawn := by rw [Inputs.dropOver_eq]

/-- Settles O44: the log part is `noted`'s, the lines, the port and `bus_state` are read off class by class. -/
theorem failureCleanup : Obligations.FailureCleanup := by
  intro st s hok hwait
  have hf := Frame.failWith st s
  obtain ⟨hcount, hbuffer⟩ := State.failWith_count_buffer st s
  refine ⟨rfl, State.failWith_irqOff st s, ?_, ?_, ?_, ?_, ?_, ?_, ?_, ?_, ?_, ?_, hbuffer, hcount, hf.mode, hf.status,
    hf.value, hf.fill, hf.offset, hf.proto, hf.acmd⟩ <;> rw [failWith_eq] <;> try rw [logEvent_eq]
  case refine_6 | refine_7 => 
    cases st <;>
      first | exact absurd rfl hok | exact absurd rfl hwait | exact dropOver_lines _ | exact dropOver_port _ | rfl
  all_goals cases st <;> first | exact absurd rfl hok | exact absurd rfl hwait | rfl

end Sys2Proof.Proofs.Primitives
end

section
/-! PROOF. The machine without time: what an engine operation does to everything but the counter, the watchdog and the
overshoots. A delay does nothing there, and an operation whose samples are known is a function (`Does`, `Fails`). -/

namespace Sys2Proof.Proofs.Timeless

open Sys2Proof Sys2Proof.Machine Sys2Proof.Safety Sys2Proof.Proofs.Primitives

/-- A pin entry but for its time. -/
def still (p : Pins) : Pins := { p with time := 0 }

/-- What an engine operation works on, time aside. -/
structure View where
  drive : LineMask
  ppOut : Byte
  ppOe : Bool
  eoi : Bool
  busState : BusState
  irqOff : Bool
  evEntries : List EventEntry
  evHead : Nat
  buffer : Memory
  count : Nat
  lines : List LineMask
  linesDrawn : Nat
  port : List PortSample
  portDrawn : Nat
  pins : List Pins
  cfg : Config

/-- The view of a state. -/
def view (s : State) : View :=
  ⟨s.drive, s.ppOut, s.ppOe, s.eoi, s.busState, s.irqOff, s.evEntries, s.evHead, s.buffer, s.count, s.inp.lines,
    s.inp.linesDrawn, s.inp.port, s.inp.portDrawn, s.out.pins.map still, s.cfg⟩

namespace View

/-- What the parallel port shows. -/
def portShown (v : View) : Option Byte := if v.ppOe then some v.ppOut else none

/-- Records the pins. -/
def shown (v : View) : View := { v with pins := ⟨0, v.drive, v.portShown, v.irqOff⟩ :: v.pins }

/-- New line drives. -/
def draw (d : LineMask) (v : View) : View := { v with drive := d }.shown

/-- The interrupt mask. -/
def mask (b : Bool) (v : View) : View := { v with irqOff := b }.shown

/-- The port made an input. -/
def portOff (v : View) : View := { v with ppOe := false }.shown

/-- The port driven. -/
def portOut (b : Byte) (v : View) : View := { v with ppOut := b, ppOe := true }.shown

/-- After `n` line samples. -/
def skip (n : Nat) (v : View) : View :=
  { v with lines := v.lines.drop n, linesDrawn := v.linesDrawn + (n - v.lines.length) }

/-- The peer's drives at the k-th sample from now. -/
def peer (v : View) (k : Nat) : LineMask :=
  match v.lines[k]? with
  | some p => p
  | none => Config.freePeerLines (v.linesDrawn + (k - v.lines.length))

/-- The port's next sample. -/
def nextPort (v : View) : PortSample :=
  match v.port with
  | p :: _ => p
  | [] => Config.freePortSample v.portDrawn

/-- After a port sample. -/
def dropPort (v : View) : View :=
  match v.port with
  | _ :: rest => { v with port := rest }
  | [] => { v with portDrawn := v.portDrawn + 1 }

/-- After `LOG`. -/
def log (e : Byte) (v : View) : View :=
  { v with
    evEntries := (logged v.cfg.eventLogSize v.evEntries v.evHead e).1
    evHead := (logged v.cfg.eventLogSize v.evEntries v.evHead e).2 }

/-- What `FAIL` does before the cleanup. -/
def noted (st : Status) (v : View) : View :=
  let v1 := if v.irqOff then v.mask false else v
  if st.logged then v1.log st.code else v1

theorem peer_skip (v : View) (n k : Nat) : (v.skip n).peer k = v.peer (n + k) := by
  unfold peer skip
  simp only [List.getElem?_drop, List.length_drop]
  split
  · rfl
  · next h =>
    rw [List.getElem?_eq_none_iff] at h
    congr 1
    omega

theorem skip_skip (v : View) (n k : Nat) : (v.skip n).skip k = v.skip (n + k) := by
  simp only [skip, List.drop_drop, List.length_drop, View.mk.injEq, true_and, and_true]
  omega

@[simp] theorem skip_zero (v : View) : v.skip 0 = v := by simp [skip]

theorem peer_of_lines {v : View} {l rest : List LineMask} (h : v.lines = l ++ rest) (k : Nat) (hk : k < l.length) :
    v.peer k = l[k] := by
  unfold peer
  rw [h, List.getElem?_append_left hk, List.getElem?_eq_getElem hk]

theorem skip_of_lines {v : View} {l rest : List LineMask} (h : v.lines = l ++ rest) :
    v.skip l.length = { v with lines := rest } := by
  simp [skip, h]

end View

theorem peerAt_eq (s : State) (k : Nat) : peerAt s.inp k = (view s).peer k := by
  unfold peerAt View.peer view
  rfl

theorem sense_eq_peer (s : State) : s.sense = (view s).drive ||| (view s).peer 0 := by
  rw [← peerAt_eq]
  exact sense_eq s

/-! ## The primitives -/

section
variable (s : State)

@[simp] theorem view_show : view s.show = (view s).shown := rfl
@[simp] theorem view_kick : view s.kick = view s := rfl
@[simp] theorem view_delay (t : Nat) : view (s.delay t) = view s := by simp [view]
@[simp] theorem view_assertLines (m : LineMask) : view (s.assertLines m) = (view s).draw (s.drive ||| m) := by
  rw [State.assertLines, view_delay]
  rfl
@[simp] theorem view_releaseLines (m : LineMask) : view (s.releaseLines m) = (view s).draw (s.drive &&& ~~~m) := by
  rw [State.releaseLines, view_delay]
  rfl
@[simp] theorem view_setRelease (a r : LineMask) :
    view (s.setRelease a r) = (view s).draw ((s.drive ||| a) &&& ~~~r) := by
  rw [State.setRelease, view_delay]
  rfl
@[simp] theorem view_sampled : view s.sampled = (view s).skip 1 := by
  simp [view, State.sampled, dropLines_eq_usedUp, usedUp, View.skip]
@[simp] theorem view_irqMask : view s.irqMask = (view s).mask true := rfl
@[simp] theorem view_irqUnmask : view s.irqUnmask = (view s).mask false := rfl
@[simp] theorem view_portOut (b : Byte) : view (s.portOut b) = (view s).portOut b := by
  rw [State.portOut, view_delay]
  rfl
@[simp] theorem view_portOff : view s.portOff = (view s).portOff := rfl
@[simp] theorem view_portToInput : view s.portToInput = (view s).portOff := by
  rw [State.portToInput, view_delay]
  rfl
@[simp] theorem view_portSampled : view s.portSampled = (view s).dropPort := by
  unfold State.portSampled Inputs.dropPort View.dropPort view
  split <;> next h => simp [h]
theorem view_logEvent (e : Byte) : view (s.logEvent e) = (view s).log e := by
  rw [logEvent_eq]
  rfl

/-- A wait changes nothing but the samples it has used up. -/
theorem view_waited (k : Nat) (u : State) : view (waited k u s) = (view s).skip (k + 1) := rfl

/-- A wait, whatever its time, uses up one sample or more. -/
theorem view_waitLoop (m v : LineMask) (t t0 : Nat) (fuel : Nat) :
    ∀ s, ∃ k, view (s.waitLoop m v t t0 fuel).2 = (view s).skip k := by
  induction fuel with
  | zero => exact fun s => ⟨0, (View.skip_zero _).symm⟩
  | succ fuel ih =>
    intro s
    have hk : view s.kick.sampled = (view s).skip 1 := by rw [view_sampled, view_kick]
    rw [State.waitLoop]
    split
    · exact ⟨1, hk⟩
    · split
      · exact ⟨1, hk⟩
      · obtain ⟨k, h⟩ := ih (s.kick.sampled.delay s.cfg.tPollStep)
        exact ⟨1 + k, by rw [h, view_delay, hk, View.skip_skip]⟩

theorem view_wait (m v : LineMask) (t : Nat) : ∃ k, view (s.wait m v t).2 = (view s).skip k :=
  view_waitLoop m v t _ _ s

end

/-- The cleanup of a failure: lines, port and `bus_state` (R290, R195). -/
def View.cleaned (st : Status) (v : View) : View :=
  match st with
  | .noDevice | .devNotPresent | .listenerTimeout | .eoiTimeout | .nak | .turnaroundTimeout | .readBitTimeout =>
    { v.draw (v.drive &&& ~~~(Line.clock ||| Line.data ||| Line.atn)) with busState := .unknown }
  | .hsTimeout =>
    { (v.draw (v.drive &&& ~~~(Line.clock ||| Line.data ||| Line.atn))).portOff with busState := .unknown }
  | .resetNotFree => { v with busState := .unknown }
  | .ok | .readStall | .waitTimeout => v

/-- What `FAIL` does. -/
def View.failed (st : Status) (v : View) : View := (v.noted st).cleaned st

theorem view_failWith (st : Status) (s : State) : view (s.failWith st) = (view s).failed st := by
  have hnoted : view ((if s.irqOff then s.irqUnmask else s).logIf st) = (view s).noted st := by
    have hmask : view (if s.irqOff then s.irqUnmask else s) =
        if (view s).irqOff then (view s).mask false else view s := by
      show _ = if s.irqOff then _ else _
      split <;> rfl
    rw [State.logIf, View.noted, ← hmask]
    cases st.logged
    · rfl
    · exact view_logEvent _ _
  rw [State.failWith, View.failed, ← hnoted]
  generalize (if s.irqOff then s.irqUnmask else s).logIf st = u
  have hrelease : ∀ m, view { u.releaseLines m with busState := .unknown } =
      { (view u).draw (u.drive &&& ~~~m) with busState := .unknown } := fun m => by
    rw [← view_releaseLines]
    rfl
  have hport : ∀ m, view { (u.releaseLines m).portOff with busState := .unknown } =
      { ((view u).draw (u.drive &&& ~~~m)).portOff with busState := .unknown } := fun m => by
    rw [← view_releaseLines, ← view_portOff]
    rfl
  cases st <;> first | exact hrelease _ | exact hport _ | rfl

/-! ## What an engine operation does, seen through `f` -/

section
variable {V α β : Type} {f : State → V}

/-- From every state that `f` maps to `v` the operation ends well with `Q`, or it fails with `E`. No pin entry is ever
taken back. -/
def Gives (f : State → V) (op : Engine α) (v : V) (Q : α → V → Prop) (E : Status → V → Prop) : Prop :=
  ∀ s, f s = v →
    (∃ a t, op s = .ok a t ∧ s.out.pins <:+ t.out.pins ∧ Q a (f t)) ∨
      ∃ st t, op s = .error (.failed st) t ∧ s.out.pins <:+ t.out.pins ∧ E st (f t)

theorem Gives.bind {op : Engine α} {k : α → Engine β} {v : V} {Q : α → V → Prop} {R : β → V → Prop}
    {E : Status → V → Prop} (h : Gives f op v Q E) (hk : ∀ a w, Q a w → Gives f (k a) w R E) :
    Gives f (op >>= k) v R E := by
  intro s hs
  obtain ⟨a, t, ht, hpins, hQ⟩ | ⟨st, t, ht, hpins, hE⟩ := h s hs
  · obtain ⟨b, u, hu, hpins', hR⟩ | ⟨st, u, hu, hpins', hE⟩ := hk a _ hQ t rfl
    · exact .inl ⟨b, u, engine_bind_ok ht hu, hpins.trans hpins', hR⟩
    · exact .inr ⟨st, u, engine_bind_ok ht hu, hpins.trans hpins', hE⟩
  · exact .inr ⟨st, t, engine_bind_error ht, hpins, hE⟩

theorem Gives.mono {op : Engine α} {v : V} {Q R : α → V → Prop} {E F : Status → V → Prop} (h : Gives f op v Q E)
    (hQ : ∀ a w, Q a w → R a w) (hE : ∀ st w, E st w → F st w) : Gives f op v R F := by
  intro s hs
  obtain ⟨a, t, ht, hpins, h⟩ | ⟨st, t, ht, hpins, h⟩ := h s hs
  · exact .inl ⟨a, t, ht, hpins, hQ _ _ h⟩
  · exact .inr ⟨st, t, ht, hpins, hE _ _ h⟩

/-- The operation ends with `a` and the view `w`. -/
def Does (f : State → V) (op : Engine α) (v : V) (a : α) (w : V) : Prop :=
  Gives f op v (fun a' w' => a' = a ∧ w' = w) fun _ _ => False

/-- The operation fails with `st` and the view `w`. -/
def Fails (f : State → V) (op : Engine α) (v : V) (st : Status) (w : V) : Prop :=
  Gives f op v (fun _ _ => False) fun st' w' => st' = st ∧ w' = w

variable {v v1 w : V} {a : α} {b : β} {st : Status} {op : Engine α} {k : α → Engine β}

theorem Does.run (h : Does f op v a w) {s : State} (hs : f s = v) :
    ∃ t, op s = .ok a t ∧ s.out.pins <:+ t.out.pins ∧ f t = w := by
  obtain ⟨a', t, ht, hpins, rfl, hw⟩ | ⟨_, _, _, _, h⟩ := h s hs
  · exact ⟨t, ht, hpins, hw⟩
  · exact h.elim

theorem Fails.run (h : Fails f op v st w) {s : State} (hs : f s = v) :
    ∃ t, op s = .error (.failed st) t ∧ s.out.pins <:+ t.out.pins ∧ f t = w := by
  obtain ⟨_, _, _, _, h⟩ | ⟨st', t, ht, hpins, rfl, hw⟩ := h s hs
  · exact h.elim
  · exact ⟨t, ht, hpins, hw⟩

theorem Does.of_run (h : ∀ s, f s = v → ∃ t, op s = .ok a t ∧ s.out.pins <:+ t.out.pins ∧ f t = w) :
    Does f op v a w := fun s hs => by
  obtain ⟨t, ht, hpins, hw⟩ := h s hs
  exact .inl ⟨a, t, ht, hpins, rfl, hw⟩

/-- What is known to happen is one of the things that may. -/
theorem Does.gives (h : Does f op v a w) {Q : α → V → Prop} {E : Status → V → Prop} (hQ : Q a w) : Gives f op v Q E :=
  Gives.mono h (fun _ _ h => by rw [h.1, h.2]; exact hQ) nofun

theorem Does.bind_gives (h : Does f op v a v1) {R : β → V → Prop} {E : Status → V → Prop}
    (hk : Gives f (k a) v1 R E) : Gives f (op >>= k) v R E :=
  (Gives.mono h (fun _ _ h => h) nofun).bind fun _ _ h => by rw [h.1, h.2]; exact hk

theorem Does.bind (h : Does f op v a v1) (hk : Does f (k a) v1 b w) : Does f (op >>= k) v b w := h.bind_gives hk

theorem Does.bind_fails (h : Does f op v a v1) (hk : Fails f (k a) v1 st w) : Fails f (op >>= k) v st w :=
  h.bind_gives hk

theorem Fails.bind (k : α → Engine β) (h : Fails f op v st w) : Fails f (op >>= k) v st w :=
  Gives.bind h nofun

theorem Does.pure (a : α) : Does f (Pure.pure a : Engine α) v a v :=
  .of_run fun s hs => ⟨s, rfl, List.suffix_rfl, hs⟩

theorem Does.act {g : State → State} (hpins : ∀ s, s.out.pins <:+ (g s).out.pins) (h : ∀ s, f s = v → f (g s) = w) :
    Does f (Machine.act g) v () w := .of_run fun s hs => ⟨g s, rfl, hpins s, h s hs⟩

/-- Reading the state: what follows is run from it. -/
theorem Gives.get_bind {k : State → Engine β} {R : β → V → Prop} {E : Status → V → Prop}
    (h : ∀ s, f s = v → Gives f (k s) v R E) : Gives f (MonadState.get >>= k) v R E := fun s hs => by
  obtain ⟨a, t, ht, hrest⟩ | ⟨st, t, ht, hrest⟩ := h s hs s hs
  · exact .inl ⟨a, t, engine_bind_ok (op := MonadState.get) rfl ht, hrest⟩
  · exact .inr ⟨st, t, engine_bind_ok (op := MonadState.get) rfl ht, hrest⟩

theorem Does.get_bind {k : State → Engine β} (h : ∀ s, f s = v → Does f (k s) v b w) :
    Does f (MonadState.get >>= k) v b w := Gives.get_bind h

theorem Does.doIf_true {op : Engine Unit} (h : Does f op v () w) : Does f (doIf true op) v () w := h
theorem Does.doIf_false (op : Engine Unit) : Does f (doIf false op) v () v := .pure ()

end

/-- The new pin entries, time aside. -/
theorem exists_new_pins {s t : State} {l : List Pins} (h : s.out.pins <:+ t.out.pins)
    (hv : (view t).pins = l ++ (view s).pins) : ∃ new, t.out.pins = new ++ s.out.pins ∧ new.map still = l := by
  obtain ⟨new, hnew⟩ := h
  refine ⟨new, hnew.symm, ?_⟩
  have : new.map still ++ s.out.pins.map still = l ++ s.out.pins.map still := by
    rw [← List.map_append, hnew]
    exact hv
  exact List.append_cancel_right this

/-! ## The primitives as engine operations -/

section
variable (v : View)

theorem Does.pause (t : Config → Nat) : Does view (pause t) v () v :=
  .act (fun _ => List.suffix_rfl) fun s hs => (view_delay s _).trans hs
theorem Does.assertLines (m : LineMask) :
    Does view (Machine.act (State.assertLines m)) v () (v.draw (v.drive ||| m)) :=
  .act (fun _ => List.suffix_cons _ _) fun s hs => by rw [view_assertLines, ← hs]; rfl
theorem Does.releaseLines (m : LineMask) :
    Does view (Machine.act (State.releaseLines m)) v () (v.draw (v.drive &&& ~~~m)) :=
  .act (fun _ => List.suffix_cons _ _) fun s hs => by rw [view_releaseLines, ← hs]; rfl
theorem Does.irqMask : Does view (Machine.act State.irqMask) v () (v.mask true) :=
  .act (fun _ => List.suffix_cons _ _) fun s hs => by rw [view_irqMask, hs]
theorem Does.irqUnmask : Does view (Machine.act State.irqUnmask) v () (v.mask false) :=
  .act (fun _ => List.suffix_cons _ _) fun s hs => by rw [view_irqUnmask, hs]
theorem Does.portOut (b : Byte) : Does view (Machine.act (State.portOut b)) v () (v.portOut b) :=
  .act (fun _ => List.suffix_cons _ _) fun s hs => by rw [view_portOut, hs]
theorem Does.portOff : Does view (Machine.act State.portOff) v () v.portOff :=
  .act (fun _ => List.suffix_cons _ _) fun s hs => by rw [view_portOff, hs]
theorem Does.kick : Does view (Machine.act State.kick) v () v := .act (fun _ => List.suffix_rfl) fun _ hs => hs
theorem Does.setEoi : Does view (Machine.act State.setEoi) v () { v with eoi := true } :=
  .act (fun _ => List.suffix_rfl) fun s hs => by rw [← hs]; rfl
theorem Does.setBusState (b : BusState) : Does view (setBusState b) v () { v with busState := b } :=
  .act (fun _ => List.suffix_rfl) fun s hs => by rw [← hs]; rfl
theorem Does.setCount (n : Nat) :
    Does view (Machine.act fun s => { s with count := n }) v () { v with count := n } :=
  .act (fun _ => List.suffix_rfl) fun s hs => by rw [← hs]; rfl
theorem Does.countByte : Does view countByte v () { v with count := v.count + 1 } :=
  .act (fun _ => List.suffix_rfl) fun s hs => by rw [← hs]; rfl
theorem Does.poll : Does view poll v (v.drive ||| v.peer 0) (v.skip 1) := .of_run fun s hs => by
  subst hs
  exact ⟨s.sampled, by rw [← sense_eq_peer]; rfl, List.suffix_rfl, view_sampled s⟩
theorem Does.getLine (l : LineMask) :
    Does view (getLine l) v (decide ((v.drive ||| v.peer 0) &&& l ≠ 0)) (v.skip 1) := .of_run fun s hs => by
  subst hs
  exact ⟨s.sampled, by rw [← sense_eq_peer]; rfl, List.suffix_rfl, view_sampled s⟩

/-- A port sample while the port is an input. -/
theorem Does.portSample (h : v.ppOe = false) : Does view portSample v v.nextPort.value v.dropPort :=
  .of_run fun s hs => by
    subst hs
    refine ⟨s.portSampled, ?_, List.suffix_rfl, view_portSampled s⟩
    have hin : s.portIn = s.inp.nextPort.value := by
      have hoe : s.ppOe = false := h
      rw [State.portIn, hoe]
      rfl
    rw [Machine.portSample, hin]
    rfl

theorem Does.portInput : Does view portInput v () v.portOff.dropPort :=
  (Does.act (w := v.portOff) (fun _ => List.suffix_cons _ _) fun s hs => by rw [view_portToInput, hs]).bind
    (.act (fun _ => List.suffix_rfl) fun s hs => by rw [view_portSampled, hs])

/-- `FAIL` shows at most three entries. -/
theorem pins_suffix_failWith (st : Status) (s : State) : s.out.pins <:+ (s.failWith st).out.pins := by
  rw [failWith_eq]
  have hnoted : s.out.pins <:+ (noted st s).out.pins := List.suffix_append _ _
  refine hnoted.trans ?_
  cases st <;> first | exact List.suffix_rfl | exact List.suffix_cons _ _ | exact ⟨[_, _], rfl⟩

theorem Fails.fail {α : Type} (st : Status) : Fails view (fail st : Engine α) v st (v.failed st) := fun s hs =>
  .inr ⟨st, s.failWith st, rfl, pins_suffix_failWith st s, rfl, by rw [view_failWith, hs]⟩

/-- A wait shows nothing. -/
theorem pins_suffix_wait (m x : LineMask) (t : Nat) (s : State) : s.out.pins <:+ (s.wait m x t).2.out.pins := by
  obtain ⟨-, -, -, -, -, -, -, -, -, -, hpins⟩ := State.wait_keeps m x t s
  exact hpins ▸ List.suffix_rfl

/-- A wait fails, or it ends after some samples. -/
theorem Gives.waitOr (m x : LineMask) (t : Config → Nat) (st : Status) {Q : Unit → View → Prop}
    {E : Status → View → Prop} (hQ : ∀ k, Q () (v.skip k)) (hE : ∀ k, E st ((v.skip k).failed st)) :
    Gives view (waitOr m x t st) v Q E := fun s hs => by
  obtain ⟨k, hk⟩ := view_wait s m x (t s.cfg)
  have hpins := pins_suffix_wait m x (t s.cfg) s
  subst hs
  rw [Machine.waitOr]
  split
  · next u hu =>
    rw [hu] at hk hpins
    exact .inl ⟨(), u, rfl, hpins, hk ▸ hQ k⟩
  · next u hu =>
    rw [hu] at hk hpins
    refine .inr ⟨st, _, rfl, hpins.trans (pins_suffix_failWith st u), ?_⟩
    rw [view_failWith]
    exact hk ▸ hE k

variable {v} {m x : LineMask}

/-- A wait whose first sample matches. -/
theorem Does.waitOr (t : Config → Nat) (st : Status) (h : (v.drive ||| v.peer 0) &&& m = x) :
    Does view (waitOr m x t st) v () (v.skip 1) := .of_run fun s hs => by
  subst hs
  exact ⟨_, waitOr_first t st (by rw [sense_eq_peer]; exact h), List.suffix_rfl, by rw [view_sampled, view_kick]⟩

/-- A wait for which no sample up to the deadline matches. -/
theorem Gives.waitOr_times_out (t : Config → Nat) (st : Status) (hstep : 0 < v.cfg.tPollStep)
    (h : ∀ k, k ≤ t v.cfg / v.cfg.tPollStep + 1 → (v.drive ||| v.peer k) &&& m ≠ x) :
    Gives view (Machine.waitOr m x t st) v (fun _ _ => False) fun st' w => st' = st ∧ ∃ k, w = (v.skip k).failed st :=
  fun s hs => by
    subst hs
    obtain ⟨k, hk, hends⟩ := wait_ends m x (t s.cfg) (s := s) hstep
    have hno : (s.wait m x (t s.cfg)).1 = false := by
      rw [Bool.eq_false_iff, ne_eq, hends.found, peerAt_eq]
      exact h k hk
    have hpins := pins_suffix_wait m x (t s.cfg) s
    rw [Machine.waitOr]
    split
    · next u hu => rw [hu] at hno; cases hno
    · next u hu =>
      have hview : view u = (view s).skip (k + 1) := by
        have := view_waited s k (s.wait m x (t s.cfg)).2
        rwa [← hends.state, hu] at this
      rw [hu] at hpins
      exact .inr ⟨st, _, rfl, hpins.trans (pins_suffix_failWith st u), rfl, k + 1, by rw [view_failWith, hview]⟩

end

end Sys2Proof.Proofs.Timeless
end

section
/-! PROOF. The deferred commands that move no line, IEC_WAIT and IRQ_PAUSE (43_dispatcher_commands.md R220, R242), the
read that EOI stops (42_bus_session.md R180), and which operations write EOI (10_state.md R24). -/

namespace Sys2Proof.Proofs.Deferred

open Sys2Proof Sys2Proof.Machine Sys2Proof.Safety Sys2Proof.Proofs.Handler Sys2Proof.Proofs.EoiFlag
open Sys2Proof.Proofs.Dispatcher Sys2Proof.Proofs.Timeless

/-! ## The operation of each code (R268) -/

/-- The start of every operation of a handler entry: its byte count is 0 (R42). -/
abbrev clearCount : Engine Unit := act fun s => { s with count := 0 }

theorem readOp_s1 (cap : Nat) : readOp .s1 cap = clearCount >>= fun _ => rawRead cap := rfl
theorem readOp_s2 (cap : Nat) : readOp .s2 cap = clearCount >>= fun _ => s2Read cap := rfl
theorem readOp_pp (cap : Nat) : readOp .pp cap = clearCount >>= fun _ => ppRead cap := rfl
theorem readOp_p2 (cap : Nat) : readOp .p2 cap = clearCount >>= fun _ => p2Read cap := rfl
theorem writeOp_s1 (bytes : List Byte) : writeOp .s1 bytes = clearCount >>= fun _ => rawWrite bytes false false := rfl
theorem writeOp_s2 (bytes : List Byte) : writeOp .s2 bytes = clearCount >>= fun _ => s2Write bytes := rfl
theorem writeOp_pp (bytes : List Byte) : writeOp .pp bytes = clearCount >>= fun _ => ppWrite bytes := rfl
theorem writeOp_p2 (bytes : List Byte) : writeOp .p2 bytes = clearCount >>= fun _ => p2Write bytes := rfl
theorem asyncOp_reset : asyncOp 9 = clearCount >>= fun _ => withCount busReset := rfl
theorem asyncOp_iecWait : asyncOp 17 = clearCount >>= fun _ => iecWaitOp := rfl
theorem asyncOp_irqPause : asyncOp 0xFD = clearCount >>= fun _ => withCount irqPauseOp := rfl

/-! ## EOI stops a read -/

/-- Settles O39: `raw_read` returns before its loop. -/
theorem eoiStopsReads : Obligations.EoiStopsReads := by
  intro s hmode hproto heoi
  have hread : readOp .s1 s.fill.toNat s = .ok () { s with count := 0 } :=
    engine_bind_ok (op := clearCount) rfl (rawRead_of_eoi _ heoi)
  rw [handle_of_ok (by rw [hmode]; rfl) (by rw [requestOp_of_read hmode, hproto]; exact withCount_of_ok hread),
    finished_of_read hmode]
  rfl

/-! ## IRQ_PAUSE -/

/-- What IRQ_PAUSE's operation leaves. -/
def paused (s : State) : State := (({ s with count := 0 }.irqMask).delay s.cfg.tIrqPause).irqUnmask

theorem irqPause_run (s : State) : asyncOp 0xFD s = .ok (.ok, 0) (paused s) := rfl

/-- Settles O42: mask, delay, unmask, one after the other. -/
theorem irqPauseOutcome : Obligations.IrqPauseOutcome := by
  intro s hmode hacmd
  refine ⟨finished s .ok 0 (paused s), handle_of_ok (by rw [hmode]; rfl) ?_, ?_⟩
  · rw [requestOp_of_async hmode, hacmd]
    exact irqPause_run s
  · rw [finished_of_async hmode]
    rfl

/-! ## IEC_WAIT -/

/-- The two bytes that IEC_WAIT has put in the buffer. -/
theorem readBuffer_pair {s : State} {b0 b1 : Byte} (hcap : 2 ≤ s.cfg.bufSize) (h0 : s.buffer.get? 0 = some b0)
    (h1 : s.buffer.get? 1 = some b1) : readBuffer 0 2 s = .ok [b0, b1] s := by
  have hread : s.memRead 0 2 = .ok [b0, b1] := by
    rw [State.memRead_ok_iff]
    refine ⟨hcap, rfl, fun i hi => ?_⟩
    match i, hi with
    | 0, _ => exact h0
    | 1, _ => exact h1
  rw [readBuffer, hread]

/-- IEC_WAIT's wait. -/
def iecWait (b0 b1 : Byte) (s : State) : Bool × State :=
  s.wait (b0.extractLsb' 0 4) (if b1 = 1 then b0.extractLsb' 0 4 else 0) s.cfg.tStall

/-- After the wait one sample is taken, and a wait in vain is logged (R220, R268). -/
theorem iecWaitOp_run {s : State} {b0 b1 : Byte} (hcap : 2 ≤ s.cfg.bufSize) (h0 : s.buffer.get? 0 = some b0)
    (h1 : s.buffer.get? 1 = some b1) :
    iecWaitOp s =
      if (iecWait b0 b1 s).1 then .ok (.ok, byteOfMask (iecWait b0 b1 s).2.sense) (iecWait b0 b1 s).2.sampled
      else .ok (.waitTimeout, byteOfMask (iecWait b0 b1 s).2.sense) ((iecWait b0 b1 s).2.sampled.logEvent 10) := by
  rw [iecWaitOp]
  refine engine_bind_ok (readBuffer_pair hcap h0 h1) (engine_bind_ok (t := (iecWait b0 b1 s).2)
    (a := (iecWait b0 b1 s).1) rfl (engine_bind_ok (op := poll) rfl ?_))
  cases (iecWait b0 b1 s).1 <;> rfl

/-- The same as a request's operation. -/
theorem requestOp_iecWait {s : State} {b0 b1 : Byte} (hcap : 2 ≤ s.cfg.bufSize) (hmode : s.mode = .async)
    (hacmd : s.acmd = 17) (hcount : s.count = 0) (h0 : s.buffer.get? 0 = some b0) (h1 : s.buffer.get? 1 = some b1) :
    requestOp s s =
      if (iecWait b0 b1 s).1 then .ok (.ok, byteOfMask (iecWait b0 b1 s).2.sense) (iecWait b0 b1 s).2.sampled
      else .ok (.waitTimeout, byteOfMask (iecWait b0 b1 s).2.sense) ((iecWait b0 b1 s).2.sampled.logEvent 10) := by
  have hcleared : clearCount s = .ok () s := by
    show EStateM.Result.ok () { s with count := 0 } = _
    rw [← hcount]
  rw [requestOp_of_async hmode, hacmd, asyncOp_iecWait]
  exact engine_bind_ok hcleared (iecWaitOp_run hcap h0 h1)

/-- Settles O41, by the outcome of the wait. -/
theorem iecWaitOutcome : Obligations.IecWaitOutcome := by
  intro s b0 b1 hcap hmode hacmd hcount h0 h1
  have hrun := requestOp_iecWait hcap hmode hacmd hcount h0 h1
  have hkeeps := State.wait_keeps (b0.extractLsb' 0 4) (if b1 = 1 then b0.extractLsb' 0 4 else 0) s.cfg.tStall s
  have hcfg := (Frame.wait (b0.extractLsb' 0 4) (if b1 = 1 then b0.extractLsb' 0 4 else 0) s.cfg.tStall s).cfg
  have hpending : pendingMode s.mode = true := by rw [hmode]; rfl
  unfold iecWait at hrun
  generalize s.wait (b0.extractLsb' 0 4) (if b1 = 1 then b0.extractLsb' 0 4 else 0) s.cfg.tStall = w at *
  obtain ⟨ok, u⟩ := w
  obtain ⟨-, hbuffer, hirq, hdrive, hppOut, hppOe, heoi, hbus, hentries, hhead, hpins⟩ := hkeeps
  have hsense : byteOfMask u.sense = (s.drive ||| peerAt u.inp 0).zeroExtend 8 := by
    rw [byteOfMask, Primitives.sense_eq]
    exact congrArg (fun d => BitVec.zeroExtend 8 (d ||| _)) hdrive
  refine ⟨finished s (if ok then .ok else .waitTimeout) (byteOfMask u.sense)
    (if ok then u.sampled else u.sampled.logEvent 10), (ok, u), rfl, handle_of_ok hpending ?_, ?_⟩
  · cases ok <;> exact hrun
  · rw [finished_of_async hmode]
    cases ok
    · rw [Primitives.logEvent_eq, Primitives.logEvent_eq, ← hentries, ← hhead, ← hcfg]
      exact ⟨rfl, rfl, hsense, rfl, rfl, rfl, hdrive, hppOut, hppOe, heoi, hbus, hirq, hbuffer, rfl, rfl, hpins⟩
    · exact ⟨rfl, rfl, hsense, rfl, hentries, hhead, hdrive, hppOut, hppOe, heoi, hbus, hirq, hbuffer, rfl, rfl, hpins⟩

/-! ## Who writes EOI (R24) -/

/-- `op` leaves `eoi` as it is, however it ends. -/
def KeepsEoi {α : Type} (op : Engine α) : Prop := ∀ s, (after op s).eoi = s.eoi

section
variable {α β : Type}

theorem KeepsEoi.bind {op : Engine α} {f : α → Engine β} (h : KeepsEoi op) (k : ∀ a, KeepsEoi (f a)) :
    KeepsEoi (op >>= f) := by
  intro s
  have hs := h s
  rw [after_bind]
  unfold after at hs
  cases hop : op s with
  | ok a t =>
    rw [hop] at hs
    exact (k a t).trans hs
  | error e t =>
    rw [hop] at hs
    exact hs

theorem KeepsEoi.pure (a : α) : KeepsEoi (Pure.pure a : Engine α) := fun _ => rfl
theorem KeepsEoi.get : KeepsEoi (MonadState.get : Engine State) := fun _ => rfl
theorem KeepsEoi.act {f : State → State} (h : ∀ s, (f s).eoi = s.eoi) : KeepsEoi (Machine.act f) := h

theorem failWith_eoi (st : Status) (s : State) : (s.failWith st).eoi = s.eoi := by
  rw [Primitives.failWith_eq]
  cases st <;> rfl

theorem KeepsEoi.fail (st : Status) : KeepsEoi (Machine.fail st : Engine α) := failWith_eoi st

theorem wait_eoi (m v : LineMask) (t : Nat) (s : State) : (s.wait m v t).2.eoi = s.eoi := by
  obtain ⟨-, -, -, -, -, -, heoi, -⟩ := State.wait_keeps m v t s
  exact heoi

theorem KeepsEoi.waitOr (m v : LineMask) (t : Config → Nat) (st : Status) : KeepsEoi (waitOr m v t st) := by
  intro s
  rw [after, Machine.waitOr, ← wait_eoi m v (t s.cfg) s]
  rcases s.wait m v (t s.cfg) with ⟨_ | _, u⟩
  · exact failWith_eoi st u
  · rfl

theorem KeepsEoi.storeByte (b : Byte) : KeepsEoi (storeByte b) := by
  intro s
  rw [after, Machine.storeByte]
  cases h : s.memWrite s.count [b] with
  | ok t =>
    obtain ⟨-, rfl⟩ := State.memWrite_ok h
    rfl
  | error f => rfl

theorem KeepsEoi.readBuffer (addr n : Nat) : KeepsEoi (readBuffer addr n) := by
  intro s
  rw [after, Machine.readBuffer]
  cases s.memRead addr n <;> rfl

theorem KeepsEoi.sendEach {send : Byte → Engine Unit} (h : ∀ b, KeepsEoi (send b)) (bytes : List Byte) :
    KeepsEoi (sendEach send bytes) := by
  induction bytes with
  | nil => exact .pure _
  | cons b rest ih => exact (h b).bind fun _ => .bind (.act fun _ => rfl) fun _ => ih

theorem KeepsEoi.receiveEach {receive : Engine Byte} (h : KeepsEoi receive) (n : Nat) :
    KeepsEoi (receiveEach receive n) := by
  induction n with
  | zero => exact .pure _
  | succ n ih => exact h.bind fun _ => (KeepsEoi.storeByte _).bind fun _ => ih

theorem KeepsEoi.withCount {op : Engine Unit} (h : KeepsEoi op) : KeepsEoi (withCount op) :=
  h.bind fun _ => KeepsEoi.get.bind fun _ => .pure _

end

theorem KeepsEoi.portInput : KeepsEoi portInput := .bind (.act fun _ => rfl) fun _ => .act fun _ => rfl

theorem toggleLine_eoi (l : LineMask) (s : State) : (s.toggleLine l).eoi = s.eoi := by
  rw [State.toggleLine]
  split <;> rfl

theorem atnEdge_eoi (k : Nat) (s : State) : (s.atnEdge k).eoi = s.eoi := by
  rw [State.atnEdge]
  split <;> rfl

theorem sendPair_eoi (b : Byte) (k : Nat) (s : State) : (s.sendPair b k).eoi = s.eoi := atnEdge_eoi k _

theorem sendPairs_eoi (b : Byte) (ks : List Nat) :
    ∀ s : State, (ks.foldl (fun t k => t.sendPair b k) s).eoi = s.eoi := by
  induction ks with
  | nil => exact fun _ => rfl
  | cons k ks ih => exact fun s => (ih _).trans (sendPair_eoi b k s)

theorem KeepsEoi.s2WriteByte (b : Byte) : KeepsEoi (s2WriteByte b) :=
  .act fun s => sendPairs_eoi b (List.range 4) s.irqMask

theorem KeepsEoi.s2Write (bytes : List Byte) : KeepsEoi (s2Write bytes) :=
  .bind (.act fun _ => rfl) fun _ => .sendEach .s2WriteByte bytes

theorem KeepsEoi.readPair (k : Nat) : KeepsEoi (readPair k) :=
  .bind (.act (atnEdge_eoi k)) fun _ => .bind (.act fun _ => rfl) fun _ => .bind (fun _ => rfl) fun _ =>
    .bind (.act fun _ => rfl) fun _ => .pure _

theorem KeepsEoi.s2ReadByte : KeepsEoi s2ReadByte :=
  .bind (.act fun _ => rfl) fun _ => (KeepsEoi.readPair 0).bind fun _ => (KeepsEoi.readPair 1).bind fun _ =>
    (KeepsEoi.readPair 2).bind fun _ => (KeepsEoi.readPair 3).bind fun _ => .bind (.act fun _ => rfl) fun _ => .pure _

theorem KeepsEoi.s2Read (cap : Nat) : KeepsEoi (s2Read cap) :=
  .bind (.act fun _ => rfl) fun _ => KeepsEoi.s2ReadByte.receiveEach cap

theorem KeepsEoi.ppWriteByte (b : Byte) : KeepsEoi (ppWriteByte b) :=
  .bind (.act fun _ => rfl) fun _ => .bind (.act fun _ => rfl) fun _ => (KeepsEoi.waitOr _ _ _ _).bind fun _ =>
    .bind (.act fun _ => rfl) fun _ => .waitOr _ _ _ _

theorem KeepsEoi.ppWrite (bytes : List Byte) : KeepsEoi (ppWrite bytes) :=
  .bind (.act fun _ => rfl) fun _ => (KeepsEoi.sendEach KeepsEoi.ppWriteByte bytes).bind fun _ => .act fun _ => rfl

theorem KeepsEoi.ppReadByte : KeepsEoi ppReadByte :=
  (KeepsEoi.waitOr _ _ _ _).bind fun _ => .bind (fun _ => rfl) fun _ => .bind (.act fun _ => rfl) fun _ =>
    (KeepsEoi.waitOr _ _ _ _).bind fun _ => .bind (.act fun _ => rfl) fun _ => .pure _

theorem KeepsEoi.ppRead (cap : Nat) : KeepsEoi (ppRead cap) :=
  .bind (.act fun _ => rfl) fun _ => KeepsEoi.portInput.bind fun _ => KeepsEoi.ppReadByte.receiveEach cap

theorem KeepsEoi.p2WriteByte (b : Byte) : KeepsEoi (p2WriteByte b) :=
  .bind (.act fun _ => rfl) fun _ => KeepsEoi.get.bind fun _ => .bind (.act (toggleLine_eoi _)) fun _ =>
    .waitOr _ _ _ _

theorem KeepsEoi.p2Write (bytes : List Byte) : KeepsEoi (p2Write bytes) :=
  .bind (.act fun _ => rfl) fun _ => (KeepsEoi.sendEach KeepsEoi.p2WriteByte bytes).bind fun _ => .act fun _ => rfl

theorem KeepsEoi.p2ReadByte : KeepsEoi p2ReadByte :=
  KeepsEoi.get.bind fun _ => (KeepsEoi.waitOr _ _ _ _).bind fun _ => .bind (fun _ => rfl) fun _ =>
    .bind (.act (toggleLine_eoi _)) fun _ => .pure _

theorem KeepsEoi.p2Read (cap : Nat) : KeepsEoi (p2Read cap) :=
  .bind (.act fun _ => rfl) fun _ => KeepsEoi.portInput.bind fun _ => KeepsEoi.p2ReadByte.receiveEach cap

theorem KeepsEoi.readOp {p : Proto} (hp : p ≠ .s1) (cap : Nat) : KeepsEoi (readOp p cap) := by
  cases p
  case s1 => exact absurd rfl hp
  case s2 => exact .bind (.act fun _ => rfl) fun _ => .s2Read cap
  case pp => exact .bind (.act fun _ => rfl) fun _ => .ppRead cap
  case p2 => exact .bind (.act fun _ => rfl) fun _ => .p2Read cap

theorem KeepsEoi.writeOp {p : Proto} (hp : p ≠ .s1) (bytes : List Byte) : KeepsEoi (writeOp p bytes) := by
  cases p
  case s1 => exact absurd rfl hp
  case s2 => exact .bind (.act fun _ => rfl) fun _ => .s2Write bytes
  case pp => exact .bind (.act fun _ => rfl) fun _ => .ppWrite bytes
  case p2 => exact .bind (.act fun _ => rfl) fun _ => .p2Write bytes

theorem KeepsEoi.probeFree : KeepsEoi probeFree := by
  refine .bind (.act fun _ => rfl) fun _ => .bind (.act fun _ => rfl) fun _ => .bind (fun _ => rfl) fun m => ?_
  split
  · exact .pure _
  · refine .bind (.act fun _ => rfl) fun _ => .bind (.act fun _ => rfl) fun _ => .bind (fun _ => rfl) fun answered =>
      .bind (.act fun _ => rfl) fun _ => ?_
    cases answered
    · exact .pure _
    · exact .bind (.act fun _ => rfl) fun _ => .bind (fun _ => rfl) fun _ => .pure _

theorem KeepsEoi.probeLoop (n : Nat) : KeepsEoi (probeLoop n) := by
  induction n with
  | zero => exact .fail _
  | succ n ih =>
    refine .bind (.act fun _ => rfl) fun _ => KeepsEoi.probeFree.bind fun free => ?_
    cases free
    · exact .bind (.act fun _ => rfl) fun _ => ih
    · exact .act fun _ => rfl

theorem KeepsEoi.busReset : KeepsEoi busReset :=
  .bind (.act fun _ => rfl) fun _ => .bind (.act fun _ => rfl) fun _ => .bind (.act fun _ => rfl) fun _ =>
    .bind (.act fun _ => rfl) fun _ => KeepsEoi.get.bind fun _ => .probeLoop _

theorem logEvent_eoi (e : Byte) (s : State) : (s.logEvent e).eoi = s.eoi := by rw [Primitives.logEvent_eq]

theorem KeepsEoi.iecWaitOp : KeepsEoi iecWaitOp := by
  refine (KeepsEoi.readBuffer _ _).bind fun _ => .bind (fun s => wait_eoi _ _ _ s) fun ok =>
    .bind (fun _ => rfl) fun _ => ?_
  cases ok
  · exact .bind (.act (logEvent_eoi _)) fun _ => .pure _
  · exact .pure _

/-- The deferred commands that are no ORIGINAL write. -/
theorem KeepsEoi.asyncOp {acmd : Byte} (h : acmd = 9 ∨ acmd = 17 ∨ acmd = 0xFD) : KeepsEoi (asyncOp acmd) := by
  rcases h with rfl | rfl | rfl
  · exact .bind (.act fun _ => rfl) fun _ => KeepsEoi.busReset.withCount
  · exact .bind (.act fun _ => rfl) fun _ => .iecWaitOp
  · exact fun s => by rw [after, irqPause_run]; rfl

/-- The requests that leave EOI alone. -/
theorem KeepsEoi.requestOp {s : State}
    (h : (s.mode = .read ∨ s.mode = .write) ∧ s.proto ≠ .s1 ∨
      s.mode = .async ∧ (s.acmd = 9 ∨ s.acmd = 17 ∨ s.acmd = 0xFD)) : KeepsEoi (requestOp s) := by
  obtain ⟨hmode | hmode, hproto⟩ | ⟨hmode, hacmd⟩ := h
  · rw [requestOp_of_read hmode]
    exact (KeepsEoi.readOp hproto _).withCount
  · rw [requestOp_of_write hmode]
    exact ((KeepsEoi.readBuffer _ _).bind fun _ => .writeOp hproto _).withCount
  · rw [requestOp_of_async hmode]
    exact .asyncOp hacmd

/-- A command that is answered keeps EOI, CLEAR_EOI aside. -/
theorem dispatched_eoi {i : Instr} {s t : State} {r : Result} (h : Dispatched s i r) (hi : i ≠ .clearEoi)
    (hr : r = .next t) : t.eoi = s.eoi := by
  cases h <;> cases hr
  case replied heoi => exact heoi hi
  all_goals rfl

/-- Settles O40: the commands by the dispatcher's answers, the handler's operations by what they are made of. -/
theorem eoiFlagFrame : Obligations.EoiFlagFrame := by
  refine ⟨fun i s t hi hne ht => dispatched_eoi (exec_dispatched s hi) hne ht, fun s t ht h => ?_⟩
  have hpending : pendingMode s.mode = true := by
    obtain ⟨hmode | hmode, -⟩ | ⟨hmode, -⟩ := h <;> rw [hmode] <;> rfl
  obtain ⟨st, n, u, rfl, -, hop⟩ := handle_next hpending ht
  have hkeeps := KeepsEoi.requestOp h s
  rw [finished_eoi, ← hkeeps, after]
  obtain hop | ⟨hop, -⟩ := hop <;> rw [hop]

end Sys2Proof.Proofs.Deferred
end

section
/-! PROOF. `bus_state` gates nothing (10_state.md R25, 42_bus_session.md R195, R196): nothing reads it, so whatever runs
does the same from every bus state, and leaves the one it sets or the one it found. -/

namespace Sys2Proof.Proofs.BusBlind

open Sys2Proof Sys2Proof.Machine Sys2Proof.Safety Sys2Proof.Proofs.Handler Sys2Proof.Proofs.Dispatcher
open Sys2Proof.Proofs.Commands

/-- The same state but for `bus_state`. -/
def withBus (v : BusState) (s : State) : State := { s with busState := v }

/-- A result with its state changed. -/
def mapState {α : Type} (f : State → State) : EStateM.Result Stop State α → EStateM.Result Stop State α
  | .ok a t => .ok a (f t)
  | .error e t => .error e (f t)

/-- What `bus_state` is after a run from `s` with `v` in its place, when the run from `s` leaves `t`: the value the run
sets, or else `v`. -/
def Left (v : BusState) (s t : State) (b : BusState) : Prop := b = t.busState ∨ t.busState = s.busState ∧ b = v

/-- `op` does the same from every bus state. -/
def Blind {α : Type} (op : Engine α) : Prop :=
  ∀ s v, ∃ b, op (withBus v s) = mapState (withBus b) (op s) ∧ Left v s (after op s) b

section
variable {α β : Type}

/-- Putting back the `bus_state` that stands there. -/
theorem mapState_withBus_self (op : Engine α) (s : State) : mapState (withBus (after op s).busState) (op s) = op s := by
  unfold after
  cases op s <;> rfl

theorem Blind.bind {op : Engine α} {k : α → Engine β} (h : Blind op) (hk : ∀ a, Blind (k a)) : Blind (op >>= k) := by
  intro s v
  obtain ⟨b, hb, hleft⟩ := h s v
  rw [after_bind]
  cases hop : op s with
  | ok a t =>
    rw [hop, mapState] at hb
    rw [after, hop] at hleft
    rw [engine_bind_ok (f := k) hb rfl, engine_bind_ok (f := k) hop rfl]
    obtain rfl | ⟨hsame, rfl⟩ := hleft
    · exact ⟨_, (mapState_withBus_self (k a) t).symm, .inl rfl⟩
    · obtain ⟨c, hc, hc'⟩ := hk a t b
      exact ⟨c, hc, hc'.imp_right fun h => ⟨h.1.trans hsame, h.2⟩⟩
  | error e t =>
    rw [hop, mapState] at hb
    rw [after, hop] at hleft
    exact ⟨b, by rw [engine_bind_error hb, engine_bind_error hop]; rfl, hleft⟩

theorem Blind.pure (a : α) : Blind (Pure.pure a : Engine α) := fun _ v => ⟨v, rfl, .inr ⟨rfl, rfl⟩⟩

/-- A micro-step that neither reads nor writes `bus_state`. -/
theorem Blind.act {f : State → State} (h : ∀ s v, f (withBus v s) = withBus v (f s))
    (hbus : ∀ s, (f s).busState = s.busState) : Blind (Machine.act f) := fun s v =>
  ⟨v, congrArg (EStateM.Result.ok ()) (h s v), .inr ⟨hbus s, rfl⟩⟩

/-- Reading the state, `bus_state` aside. -/
theorem Blind.get_bind {k : State → Engine β} (h : ∀ s, Blind (k s)) (hk : ∀ s v, k (withBus v s) = k s) :
    Blind (MonadState.get >>= k) := by
  intro s v
  obtain ⟨b, hb, hleft⟩ := h s s v
  refine ⟨b, ?_, ?_⟩
  · rw [engine_bind_ok (op := MonadState.get) (f := k) (s := withBus v s) rfl rfl, hk]
    exact hb
  · rw [after_bind]
    exact hleft

theorem Blind.setBusState (b : BusState) : Blind (setBusState b) := fun _ _ => ⟨b, rfl, .inl rfl⟩

theorem logEvent_withBus (e : Byte) (s : State) (v : BusState) :
    (withBus v s).logEvent e = withBus v (s.logEvent e) := by
  rw [Primitives.logEvent_eq, Primitives.logEvent_eq]
  rfl

theorem logEvent_busState (e : Byte) (s : State) : (s.logEvent e).busState = s.busState := by
  rw [Primitives.logEvent_eq]

theorem Blind.fail (st : Status) : Blind (Machine.fail st : Engine α) := fun s v => by
  have hnoted : Primitives.noted st (withBus v s) = withBus v (Primitives.noted st s) := rfl
  refine ⟨if st.logged = true ∧ st ≠ .readStall ∧ st ≠ .waitTimeout ∨ st = .devNotPresent then .unknown else v, ?_, ?_⟩
  · rw [Machine.fail, Machine.fail, mapState, Primitives.failWith_eq, Primitives.failWith_eq, hnoted]
    cases st <;> rfl
  · rw [Left, after, Machine.fail, Primitives.failWith_eq]
    cases st
    case ok | readStall | waitTimeout => exact .inr ⟨rfl, rfl⟩
    all_goals exact .inl rfl

theorem waitLoop_withBus (m x : LineMask) (t t0 : Nat) (v : BusState) (fuel : Nat) :
    ∀ s : State, (withBus v s).waitLoop m x t t0 fuel =
      ((s.waitLoop m x t t0 fuel).1, withBus v (s.waitLoop m x t t0 fuel).2) := by
  induction fuel with
  | zero => exact fun _ => rfl
  | succ fuel ih =>
    intro s
    rw [State.waitLoop, State.waitLoop]
    have hsense : (withBus v s).kick.sense = s.kick.sense := rfl
    have hnow : (withBus v s).kick.sampled.now = s.kick.sampled.now := rfl
    rw [hsense, hnow]
    split
    · rfl
    · split
      · rfl
      · exact ih (s.kick.sampled.delay s.cfg.tPollStep)

theorem wait_withBus (m x : LineMask) (t : Nat) (v : BusState) (s : State) :
    (withBus v s).wait m x t = ((s.wait m x t).1, withBus v (s.wait m x t).2) := waitLoop_withBus m x t _ v _ s

theorem wait_busState (m x : LineMask) (t : Nat) (s : State) : (s.wait m x t).2.busState = s.busState := by
  obtain ⟨-, -, -, -, -, -, -, hbus, -⟩ := State.wait_keeps m x t s
  exact hbus

theorem Blind.waitFor (m x : LineMask) (t : Config → Nat) : Blind (waitFor m x t) := fun s v =>
  ⟨v, by
    have hw := wait_withBus m x (t s.cfg) v s
    show EStateM.Result.ok ((withBus v s).wait m x (t s.cfg)).1 ((withBus v s).wait m x (t s.cfg)).2 = _
    rw [hw]
    rfl, .inr ⟨wait_busState m x _ s, rfl⟩⟩

/-- A wait that may fail is a wait and then the failure. -/
theorem waitOr_eq_bind (m x : LineMask) (t : Config → Nat) (st : Status) :
    waitOr m x t st = Machine.waitFor m x t >>= fun ok => if ok then Pure.pure () else Machine.fail st := by
  funext s
  show waitOr m x t st s = _
  rw [engine_bind_ok (op := Machine.waitFor m x t) (s := s) rfl rfl, Machine.waitOr]
  rcases s.wait m x (t s.cfg) with ⟨_ | _, u⟩ <;> rfl

theorem Blind.waitOr (m x : LineMask) (t : Config → Nat) (st : Status) : Blind (waitOr m x t st) := by
  rw [waitOr_eq_bind]
  refine (Blind.waitFor m x t).bind fun ok => ?_
  cases ok
  · exact .fail st
  · exact .pure ()

/-- A read of the state that changes at most the inputs. -/
theorem Blind.read {op : Engine α} (g : State → α) (f : State → State) (hop : ∀ s, op s = .ok (g s) (f s))
    (hg : ∀ s v, g (withBus v s) = g s) (hf : ∀ s v, f (withBus v s) = withBus v (f s))
    (hbus : ∀ s, (f s).busState = s.busState) : Blind op := fun s v =>
  ⟨v, by rw [hop, hop, hg, hf]; rfl, .inr ⟨by rw [after, hop]; exact hbus s, rfl⟩⟩

theorem Blind.poll : Blind poll :=
  .read State.sense State.sampled (fun _ => rfl) (fun _ _ => rfl) (fun _ _ => rfl) fun _ => rfl
theorem Blind.getLine (l : LineMask) : Blind (getLine l) :=
  .read (fun s => decide (s.sense &&& l ≠ 0)) State.sampled (fun _ => rfl) (fun _ _ => rfl) (fun _ _ => rfl)
    fun _ => rfl
theorem Blind.portSample : Blind portSample :=
  .read State.portIn State.portSampled (fun _ => rfl) (fun _ _ => rfl) (fun _ _ => rfl) fun _ => rfl

theorem Blind.readBuffer (addr n : Nat) : Blind (readBuffer addr n) := by
  intro s v
  have hread : (withBus v s).memRead addr n = s.memRead addr n := rfl
  refine ⟨v, ?_, ?_⟩
  · rw [Machine.readBuffer, Machine.readBuffer, hread]
    cases s.memRead addr n <;> rfl
  · rw [Left, after, Machine.readBuffer]
    cases s.memRead addr n <;> exact .inr ⟨rfl, rfl⟩

theorem Blind.storeByte (b : Byte) : Blind (storeByte b) := by
  intro s v
  have hcount : (withBus v s).count = s.count := rfl
  by_cases hroom : s.count + [b].length ≤ s.cfg.bufSize
  · have hwrite := State.memWrite_in (withBus v s) hroom
    refine ⟨v, ?_, ?_⟩
    · rw [Machine.storeByte, Machine.storeByte, hcount, hwrite, State.memWrite_in s hroom]
      rfl
    · rw [Left, after, Machine.storeByte, State.memWrite_in s hroom]
      exact .inr ⟨rfl, rfl⟩
  · have hno : ∀ u : State, u.cfg = s.cfg → u.memWrite s.count [b] = .error .bufferBounds := fun u hu => by
      rw [State.memWrite, hu, if_neg hroom]
    refine ⟨v, ?_, ?_⟩
    · rw [Machine.storeByte, Machine.storeByte, hcount, hno (withBus v s) rfl, hno s rfl]
      rfl
    · rw [Left, after, Machine.storeByte, hno s rfl]
      exact .inr ⟨rfl, rfl⟩

theorem Blind.doIf {c : Bool} {op : Engine Unit} (h : Blind op) : Blind (doIf c op) := by
  cases c
  · exact .pure _
  · exact h

/-! ## The wire modes -/

theorem Blind.pause (t : Config → Nat) : Blind (pause t) := .act (fun _ _ => rfl) fun _ => rfl
theorem Blind.countByte : Blind countByte := .act (fun _ _ => rfl) fun _ => rfl
theorem Blind.assertLines (m : LineMask) : Blind (Machine.act (State.assertLines m)) :=
  .act (fun _ _ => rfl) fun _ => rfl
theorem Blind.releaseLines (m : LineMask) : Blind (Machine.act (State.releaseLines m)) :=
  .act (fun _ _ => rfl) fun _ => rfl
theorem Blind.irqMask : Blind (Machine.act State.irqMask) := .act (fun _ _ => rfl) fun _ => rfl
theorem Blind.irqUnmask : Blind (Machine.act State.irqUnmask) := .act (fun _ _ => rfl) fun _ => rfl
theorem Blind.portOut (b : Byte) : Blind (Machine.act (State.portOut b)) := .act (fun _ _ => rfl) fun _ => rfl
theorem Blind.portOff : Blind (Machine.act State.portOff) := .act (fun _ _ => rfl) fun _ => rfl

end

theorem sendBit_withBus (bit : Bool) (s : State) (v : BusState) :
    (withBus v s).sendBit bit = withBus v (s.sendBit bit) := by cases bit <;> rfl

theorem sendBit_busState (bit : Bool) (s : State) : (s.sendBit bit).busState = s.busState := by cases bit <;> rfl

theorem sendBitList_withBus (f : Nat → Bool) (v : BusState) (is : List Nat) :
    ∀ s : State, is.foldl (fun t i => t.sendBit (f i)) (withBus v s) =
      withBus v (is.foldl (fun t i => t.sendBit (f i)) s) := by
  induction is with
  | nil => exact fun _ => rfl
  | cons i is ih =>
    intro s
    rw [List.foldl_cons, List.foldl_cons, sendBit_withBus]
    exact ih _

theorem sendBitList_busState (f : Nat → Bool) (is : List Nat) :
    ∀ s : State, (is.foldl (fun t i => t.sendBit (f i)) s).busState = s.busState := by
  induction is with
  | nil => exact fun _ => rfl
  | cons i is ih => exact fun s => (ih _).trans (sendBit_busState _ s)

theorem Blind.writeByte (b : Byte) : Blind (writeByte b) :=
  (Blind.act (f := State.sendBits b)
    (fun s v => congrArg State.irqUnmask (sendBitList_withBus b.getLsbD v (List.range 8) s.irqMask))
    fun s => sendBitList_busState b.getLsbD (List.range 8) s.irqMask).bind fun _ => .waitOr _ _ _ _

theorem Blind.readBits (n : Nat) : ∀ b, Blind (readBits n b) := by
  induction n with
  | zero => exact fun b => .pure b
  | succ n ih =>
    exact fun b => (Blind.waitOr _ _ _ _).bind fun _ => (Blind.getLine _).bind fun _ =>
      (Blind.waitOr _ _ _ _).bind fun _ => ih _

theorem Blind.acknowledgeEoi : Blind acknowledgeEoi :=
  (Blind.act (f := State.setEoi) (fun _ _ => rfl) fun _ => rfl).bind fun _ => (Blind.assertLines _).bind fun _ =>
    (Blind.pause _).bind fun _ => (Blind.releaseLines _).bind fun _ => .waitOr _ _ _ _

theorem Blind.readByte : Blind readByte :=
  Blind.irqMask.bind fun _ => (Blind.releaseLines _).bind fun _ => (Blind.waitFor _ _ _).bind fun _ =>
    Blind.acknowledgeEoi.doIf.bind fun _ => (Blind.readBits _ _).bind fun _ => Blind.irqUnmask.bind fun _ =>
      (Blind.assertLines _).bind fun _ => .pure _

theorem Blind.sendEach {send : Byte → Engine Unit} (h : ∀ b, Blind (send b)) (bytes : List Byte) :
    Blind (sendEach send bytes) := by
  induction bytes with
  | nil => exact .pure _
  | cons b rest ih => exact (h b).bind fun _ => Blind.countByte.bind fun _ => ih

theorem Blind.receiveEach {receive : Engine Byte} (h : Blind receive) (n : Nat) : Blind (receiveEach receive n) := by
  induction n with
  | zero => exact .pure _
  | succ n ih => exact h.bind fun _ => (Blind.storeByte _).bind fun _ => ih

theorem atnEdge_withBus (k : Nat) (s : State) (v : BusState) : (withBus v s).atnEdge k = withBus v (s.atnEdge k) := by
  rw [State.atnEdge, State.atnEdge]
  split <;> rfl

theorem atnEdge_busState (k : Nat) (s : State) : (s.atnEdge k).busState = s.busState := by
  rw [State.atnEdge]
  split <;> rfl

theorem sendPair_withBus (b : Byte) (k : Nat) (s : State) (v : BusState) :
    (withBus v s).sendPair b k = withBus v (s.sendPair b k) := by
  show ((withBus v ((s.setRelease (pairLines b k) _).delay _)).atnEdge k).delay _ = _
  rw [atnEdge_withBus]
  rfl

theorem sendPair_busState (b : Byte) (k : Nat) (s : State) : (s.sendPair b k).busState = s.busState :=
  atnEdge_busState k _

theorem sendPairs_withBus (b : Byte) (v : BusState) (ks : List Nat) :
    ∀ s : State, ks.foldl (fun t k => t.sendPair b k) (withBus v s) =
      withBus v (ks.foldl (fun t k => t.sendPair b k) s) := by
  induction ks with
  | nil => exact fun _ => rfl
  | cons k ks ih =>
    intro s
    rw [List.foldl_cons, List.foldl_cons, sendPair_withBus]
    exact ih _

theorem sendPairs_busState (b : Byte) (ks : List Nat) :
    ∀ s : State, (ks.foldl (fun t k => t.sendPair b k) s).busState = s.busState := by
  induction ks with
  | nil => exact fun _ => rfl
  | cons k ks ih => exact fun s => (ih _).trans (sendPair_busState b k s)

theorem Blind.s2WriteByte (b : Byte) : Blind (s2WriteByte b) :=
  .act (fun s v => congrArg (fun t : State => (t.releaseLines (Line.data ||| Line.clock)).irqUnmask)
    (sendPairs_withBus b v (List.range 4) s.irqMask)) fun s => sendPairs_busState b (List.range 4) s.irqMask

theorem Blind.readPair (k : Nat) : Blind (readPair k) :=
  (Blind.act (atnEdge_withBus k) (atnEdge_busState k)).bind fun _ => (Blind.pause _).bind fun _ =>
    Blind.poll.bind fun _ => (Blind.pause _).bind fun _ => .pure _

theorem Blind.s2ReadByte : Blind s2ReadByte :=
  Blind.irqMask.bind fun _ => (Blind.readPair 0).bind fun _ => (Blind.readPair 1).bind fun _ =>
    (Blind.readPair 2).bind fun _ => (Blind.readPair 3).bind fun _ => Blind.irqUnmask.bind fun _ => .pure _

theorem Blind.s2Write (bytes : List Byte) : Blind (s2Write bytes) :=
  (Blind.releaseLines _).bind fun _ => Blind.sendEach Blind.s2WriteByte bytes

theorem Blind.s2Read (cap : Nat) : Blind (s2Read cap) :=
  (Blind.releaseLines _).bind fun _ => Blind.s2ReadByte.receiveEach cap

theorem Blind.ppWriteByte (b : Byte) : Blind (ppWriteByte b) :=
  (Blind.portOut b).bind fun _ => (Blind.assertLines _).bind fun _ => (Blind.waitOr _ _ _ _).bind fun _ =>
    (Blind.releaseLines _).bind fun _ => .waitOr _ _ _ _

theorem Blind.ppReadByte : Blind ppReadByte :=
  (Blind.waitOr _ _ _ _).bind fun _ => Blind.portSample.bind fun _ => (Blind.assertLines _).bind fun _ =>
    (Blind.waitOr _ _ _ _).bind fun _ => (Blind.releaseLines _).bind fun _ => .pure _

theorem Blind.portInput : Blind portInput :=
  (Blind.act (f := State.portToInput) (fun _ _ => rfl) fun _ => rfl).bind fun _ =>
    .act (f := State.portSampled) (fun _ _ => rfl) fun _ => rfl

theorem Blind.ppWrite (bytes : List Byte) : Blind (ppWrite bytes) :=
  (Blind.releaseLines _).bind fun _ => (Blind.sendEach Blind.ppWriteByte bytes).bind fun _ => .portOff

theorem Blind.ppRead (cap : Nat) : Blind (ppRead cap) :=
  (Blind.releaseLines _).bind fun _ => Blind.portInput.bind fun _ => Blind.ppReadByte.receiveEach cap

theorem toggleLine_withBus (l : LineMask) (s : State) (v : BusState) :
    (withBus v s).toggleLine l = withBus v (s.toggleLine l) := by
  have hdrive : (withBus v s).drive = s.drive := rfl
  rw [State.toggleLine, State.toggleLine, hdrive]
  split <;> rfl

theorem toggleLine_busState (l : LineMask) (s : State) : (s.toggleLine l).busState = s.busState := by
  rw [State.toggleLine]
  split <;> rfl

theorem Blind.toggleLine (l : LineMask) : Blind (Machine.act (State.toggleLine l)) :=
  .act (toggleLine_withBus l) (toggleLine_busState l)

theorem Blind.p2WriteByte (b : Byte) : Blind (p2WriteByte b) :=
  (Blind.portOut b).bind fun _ => .get_bind (fun _ => (Blind.toggleLine _).bind fun _ => .waitOr _ _ _ _)
    fun _ _ => rfl

theorem Blind.p2ReadByte : Blind p2ReadByte :=
  .get_bind (fun _ => (Blind.waitOr _ _ _ _).bind fun _ => Blind.portSample.bind fun _ =>
    (Blind.toggleLine _).bind fun _ => .pure _) fun _ _ => rfl

theorem Blind.p2Write (bytes : List Byte) : Blind (p2Write bytes) :=
  (Blind.releaseLines _).bind fun _ => (Blind.sendEach Blind.p2WriteByte bytes).bind fun _ => .portOff

theorem Blind.p2Read (cap : Nat) : Blind (p2Read cap) :=
  (Blind.releaseLines _).bind fun _ => Blind.portInput.bind fun _ => Blind.p2ReadByte.receiveEach cap

/-! ## The bus session -/

theorem Blind.clearCount : Blind (Machine.act fun s => { s with count := 0 }) := .act (fun _ _ => rfl) fun _ => rfl

theorem Blind.beginRawWrite (atn : Bool) : Blind (beginRawWrite atn) :=
  (Blind.act (f := fun s => { s.clearEoi with count := 0 }) (fun _ _ => rfl) fun _ => rfl).bind fun _ =>
    (Blind.releaseLines _).bind fun _ => (Blind.assertLines _).bind fun _ => (Blind.setBusState _).doIf.bind fun _ =>
      .waitOr _ _ _ _

theorem Blind.eoiHold : Blind eoiHold := (Blind.waitOr _ _ _ _).bind fun _ => .waitOr _ _ _ _

theorem Blind.sendFramed (lastData : Bool) (b : Byte) : Blind (sendFramed lastData b) :=
  (Blind.pause _).bind fun _ => (Blind.getLine _).bind fun _ => (Blind.fail _).doIf.bind fun _ =>
    (Blind.releaseLines _).bind fun _ => (Blind.waitOr _ _ _ _).bind fun _ => Blind.eoiHold.doIf.bind fun _ =>
      (Blind.assertLines _).bind fun _ => (Blind.writeByte b).bind fun _ => Blind.countByte.bind fun _ => .pause _

theorem Blind.sendFramedEach (atn : Bool) (bytes : List Byte) : Blind (sendFramedEach atn bytes) := by
  induction bytes with
  | nil => exact .pure _
  | cons b rest ih => exact (Blind.sendFramed _ b).bind fun _ => ih

theorem Blind.turnAround : Blind turnAround :=
  (Blind.assertLines _).bind fun _ => (Blind.releaseLines _).bind fun _ => (Blind.releaseLines _).bind fun _ =>
    .waitOr _ _ _ _

theorem Blind.endRawWrite (talk : Bool) : Blind (endRawWrite talk) := by
  refine Blind.bind ?_ fun _ => .pause _
  cases talk
  · exact .releaseLines _
  · exact .turnAround

theorem Blind.rawWrite (bytes : List Byte) (atn talk : Bool) : Blind (rawWrite bytes atn talk) :=
  (Blind.beginRawWrite atn).bind fun _ => (Blind.sendFramedEach atn bytes).bind fun _ => .endRawWrite talk

theorem Blind.readLoop (cap : Nat) : Blind (readLoop cap) := by
  induction cap with
  | zero => exact .pure _
  | succ cap ih =>
    refine (Blind.waitOr _ _ _ _).bind fun _ => Blind.readByte.bind fun _ => (Blind.storeByte _).bind fun _ =>
      (Blind.pause _).bind fun _ => .get_bind (fun s => ?_) fun _ _ => rfl
    cases s.eoi
    · exact ih
    · exact .pure _

theorem Blind.rawRead (cap : Nat) : Blind (rawRead cap) := by
  refine .get_bind (fun s => ?_) fun _ _ => rfl
  cases s.eoi
  · exact .readLoop cap
  · exact .pure _

theorem Blind.probeFree : Blind probeFree := by
  refine (Blind.releaseLines _).bind fun _ => (Blind.pause _).bind fun _ => Blind.poll.bind fun m => ?_
  split
  · exact .pure _
  · refine (Blind.assertLines _).bind fun _ => (Blind.pause _).bind fun _ => (Blind.getLine _).bind fun answered =>
      (Blind.releaseLines _).bind fun _ => ?_
    cases answered
    · exact .pure _
    · exact (Blind.pause _).bind fun _ => (Blind.getLine _).bind fun _ => .pure _

theorem Blind.probeLoop (n : Nat) : Blind (probeLoop n) := by
  induction n with
  | zero => exact .fail _
  | succ n ih =>
    refine (Blind.act (f := State.kick) (fun _ _ => rfl) fun _ => rfl).bind fun _ => Blind.probeFree.bind fun free => ?_
    cases free
    · exact (Blind.pause _).bind fun _ => ih
    · exact .setBusState _

theorem Blind.busReset : Blind busReset :=
  (Blind.releaseLines _).bind fun _ => (Blind.assertLines _).bind fun _ => (Blind.pause _).bind fun _ =>
    (Blind.releaseLines _).bind fun _ => .get_bind (fun _ => .probeLoop _) fun _ _ => rfl

theorem Blind.addressListener (bytes : List Byte) : Blind (addressListener bytes) :=
  (Blind.rawWrite _ _ _).bind fun _ => .setBusState _

theorem Blind.addressTalker (bytes : List Byte) : Blind (addressTalker bytes) :=
  (Blind.rawWrite _ _ _).bind fun _ => .setBusState _

theorem Blind.endBracket (bytes : List Byte) : Blind (endBracket bytes) :=
  (Blind.rawWrite _ _ _).bind fun _ => (Blind.releaseLines _).bind fun _ => .setBusState _

/-! ## The handler's operations -/

theorem Blind.withCount {op : Engine Unit} (h : Blind op) : Blind (withCount op) :=
  h.bind fun _ => .get_bind (fun _ => .pure _) fun _ _ => rfl

theorem Blind.readOp (p : Proto) (cap : Nat) : Blind (readOp p cap) := by
  refine Blind.clearCount.bind fun _ => ?_
  cases p
  · exact .rawRead cap
  · exact .s2Read cap
  · exact .ppRead cap
  · exact .p2Read cap

theorem Blind.writeOp (p : Proto) (bytes : List Byte) : Blind (writeOp p bytes) := by
  refine Blind.clearCount.bind fun _ => ?_
  cases p
  · exact .rawWrite bytes _ _
  · exact .s2Write bytes
  · exact .ppWrite bytes
  · exact .p2Write bytes

theorem Blind.iecWaitOp : Blind iecWaitOp := by
  refine (Blind.readBuffer _ _).bind fun _ => (Blind.waitFor _ _ _).bind fun ok => Blind.poll.bind fun _ => ?_
  cases ok
  · exact (Blind.act (fun s v => logEvent_withBus _ s v) fun s => logEvent_busState _ s).bind fun _ => .pure _
  · exact .pure _

theorem Blind.irqPauseOp : Blind irqPauseOp :=
  Blind.irqMask.bind fun _ => (Blind.pause _).bind fun _ => .irqUnmask

theorem Blind.asyncOp (acmd : Byte) : Blind (asyncOp acmd) := by
  refine Blind.clearCount.bind fun _ => ?_
  split
  · exact (Blind.readBuffer _ _).bind fun _ => (Blind.addressTalker _).withCount
  · exact (Blind.readBuffer _ _).bind fun _ => (Blind.addressListener _).withCount
  · exact (Blind.readBuffer _ _).bind fun _ => (Blind.addressListener _).withCount
  · exact (Blind.readBuffer _ _).bind fun _ => (Blind.addressListener _).withCount
  · exact (Blind.readBuffer _ _).bind fun _ => (Blind.endBracket _).withCount
  · exact (Blind.readBuffer _ _).bind fun _ => (Blind.endBracket _).withCount
  · exact Blind.busReset.withCount
  · exact .iecWaitOp
  · exact Blind.irqPauseOp.withCount
  · exact fun s v => ⟨v, rfl, .inr ⟨rfl, rfl⟩⟩

theorem Blind.requestOp (s : State) : Blind (requestOp s) := by
  unfold Handler.requestOp
  split
  · exact (Blind.readOp _ _).withCount
  · exact ((Blind.readBuffer _ _).bind fun _ => Blind.writeOp _ _).withCount
  · exact .asyncOp _
  all_goals exact .pure _

/-! ## A handler entry and the table's rows -/

/-- `run` does the same from every bus state, and leaves the one it sets or the one it found. -/
def BlindRun (run : State → Result) : Prop :=
  ∀ s v, ∃ b, run (withBus v s) = onNext (withBus b) (run s) ∧
    ∀ t, run s = .next t → b = t.busState ∨ t.busState = s.busState ∧ b = v

theorem finished_withBus (s : State) (v b : BusState) (st : Status) (n : Byte) (t : State) :
    finished (withBus v s) st n (withBus b t) = withBus b (finished s st n t) := by
  have hmode : (withBus v s).mode = s.mode := rfl
  unfold finished
  rw [hmode]
  cases s.mode <;> rfl

theorem requestOp_withBus (v : BusState) (s : State) : requestOp (withBus v s) = requestOp s := rfl

theorem BlindRun.handle : BlindRun handle := by
  intro s v
  cases hp : pendingMode s.mode with
  | false =>
    refine ⟨v, ?_, ?_⟩
    · rw [handle_of_not_pending (s := withBus v s) hp, handle_of_not_pending hp]
      rfl
    · rw [handle_of_not_pending hp]
      rintro t ⟨⟩
      exact .inr ⟨rfl, rfl⟩
  | true =>
    obtain ⟨b, hb, hleft⟩ := Blind.requestOp s s v
    refine ⟨b, ?_, fun t ht => ?_⟩
    · rw [handle_of_pending (s := withBus v s) hp, handle_of_pending hp, requestOp_withBus, hb]
      cases requestOp s s with
      | ok r t => exact congrArg Host.Outcome.next (finished_withBus s v b r.1 r.2 t)
      | error e t =>
        cases e with
        | failed st => exact congrArg Host.Outcome.next (finished_withBus s v b st _ t)
        | fault f => rfl
    · obtain ⟨st, n, u, rfl, -, hop⟩ := handle_next hp ht
      rw [finished_busState]
      rw [after] at hleft
      obtain hop | ⟨hop, -⟩ := hop <;> rw [hop] at hleft <;> exact hleft

theorem BlindRun.sendBusByte (byte : Byte) : BlindRun (sendBusByte byte) := by
  intro s v
  obtain ⟨b, hb, hleft⟩ := Blind.sendFramed false byte s v
  refine ⟨b, ?_, fun t ht => ?_⟩
  · rw [Machine.sendBusByte, Machine.sendBusByte, hb]
    rcases sendFramed false byte s with ⟨_, t⟩ | ⟨⟨st⟩ | ⟨f⟩, t⟩ <;> rfl
  · obtain ⟨st, n, rfl⟩ := sendBusByte_next ht
    exact hleft

section
variable {s : State} {v : BusState} {r r' : Result}

theorem requireIdle_withBus (h : r' = onNext (withBus v) r) :
    requireIdle (withBus v s) r' = onNext (withBus v) (requireIdle s r) := by
  by_cases hmode : s.mode = .idle
  · rw [requireIdle_of_idle hmode, requireIdle_of_idle (s := withBus v s) hmode, h]
  · rw [requireIdle_of_busy hmode, requireIdle_of_busy (s := withBus v s) hmode]
    rfl

theorem requireProto_withBus {p : Proto} (h : r' = onNext (withBus v) r) :
    requireProto p (withBus v s) r' = onNext (withBus v) (requireProto p s r) := by
  cases hp : hasProto s.cfg p
  · rw [requireProto_of_absent hp, requireProto_of_absent (s := withBus v s) hp]
    rfl
  · rw [requireProto_of_has hp, requireProto_of_has (s := withBus v s) hp, h]

theorem requestReadIn_withBus (p : Proto) (n : Byte) :
    requestReadIn p n (withBus v s) = onNext (withBus v) (requestReadIn p n s) := by
  have hcfg : (withBus v s).cfg = s.cfg := rfl
  rw [requestReadIn, requestReadIn, hcfg]
  split
  · exact requireIdle_withBus rfl
  · rfl

theorem writeIn_withBus (p : Proto) (len : BitVec 16) :
    writeIn p len (withBus v s) = onNext (withBus v) (writeIn p len s) := by
  have hcfg : (withBus v s).cfg = s.cfg := rfl
  rw [writeIn, writeIn, hcfg]
  split
  · exact requireIdle_withBus rfl
  · rfl

theorem deferWithBytes_withBus (code : Byte) (bytes : List Byte) :
    deferWithBytes code bytes (withBus v s) = onNext (withBus v) (deferWithBytes code bytes s) :=
  requireIdle_withBus rfl

theorem addressCommand_withBus (code dev sec : Byte) (bytes : List Byte) :
    addressCommand code dev sec bytes (withBus v s) = onNext (withBus v) (addressCommand code dev sec bytes s) := by
  rw [addressCommand, addressCommand]
  split
  · exact deferWithBytes_withBus _ _
  · rfl

theorem execRead_withBus (len : BitVec 16) : execRead len (withBus v s) = onNext (withBus v) (execRead len s) := by
  have hcfg : (withBus v s).cfg = s.cfg := rfl
  have hmode : (withBus v s).mode = s.mode := rfl
  have hread : (withBus v s).memRead (withBus v s).offset.toNat (readAmount len.toNat (withBus v s)) =
      s.memRead s.offset.toNat (readAmount len.toNat s) := rfl
  rw [execRead, execRead, hcfg, hmode, hread]
  split
  · split
    · cases s.memRead s.offset.toNat (readAmount len.toNat s) <;> rfl
    · rfl
  · rfl

theorem memWrite_withBus (addr : Nat) (bytes : List Byte) :
    (withBus v s).memWrite addr bytes = (s.memWrite addr bytes).map (withBus v) := by
  have hcfg : (withBus v s).cfg = s.cfg := rfl
  rw [State.memWrite, State.memWrite, hcfg]
  split <;> rfl

theorem execDataOut_withBus (bytes : List Byte) :
    execDataOut bytes (withBus v s) = onNext (withBus v) (execDataOut bytes s) := by
  have hmode : (withBus v s).mode = s.mode := rfl
  have hwrite : (withBus v s).memWrite (withBus v s).offset.toNat (bytes.take (chunkAmount bytes (withBus v s))) =
      (s.memWrite s.offset.toNat (bytes.take (chunkAmount bytes s))).map (withBus v) := memWrite_withBus _ _
  rw [execDataOut, execDataOut, hmode, hwrite]
  split
  · cases s.memWrite s.offset.toNat (bytes.take (chunkAmount bytes s)) <;> rfl
  · rfl

theorem execGetResult_withBus : execGetResult (withBus v s) = onNext (withBus v) (execGetResult s) := by
  have hmode : (withBus v s).mode = s.mode := rfl
  rw [execGetResult, execGetResult, hmode]
  split <;> rfl

end

/-- A command of the host does the same in every bus state. -/
theorem exec_withBus {i : Instr} (s : State) (v : BusState) (hi : isBusByte i = false) :
    exec i (withBus v s) = onNext (withBus v) (exec i s) := by
  cases i
  case read len => exact execRead_withBus len
  case write len => exact writeIn_withBus .s1 len
  case talk dev sec => exact addressCommand_withBus _ _ _ _
  case listen dev sec => exact addressCommand_withBus _ _ _ _
  case untalk => exact deferWithBytes_withBus _ _
  case unlisten => exact deferWithBytes_withBus _ _
  case openDev dev sec => exact addressCommand_withBus _ _ _ _
  case closeDev dev sec => exact addressCommand_withBus _ _ _ _
  case requestRead n => exact requestReadIn_withBus .s1 n
  case getResult => exact execGetResult_withBus
  case iecWait mask state => exact deferWithBytes_withBus _ _
  case subS1Read n => exact requireProto_withBus (requestReadIn_withBus _ n)
  case subS1Write len => exact requireProto_withBus (writeIn_withBus _ len)
  case subS2Read n => exact requireProto_withBus (requestReadIn_withBus _ n)
  case subS2Write len => exact requireProto_withBus (writeIn_withBus _ len)
  case subPpRead n => exact requireProto_withBus (requestReadIn_withBus _ n)
  case subPpWrite len => exact requireProto_withBus (writeIn_withBus _ len)
  case subP2Read n => exact requireProto_withBus (requestReadIn_withBus _ n)
  case subP2Write len => exact requireProto_withBus (writeIn_withBus _ len)
  case irqPause => exact requireIdle_withBus rfl
  case dataOut bytes => exact execDataOut_withBus bytes
  case busListen | busUnlisten | busTalk | busUntalk | busSecond | busClose | busOpen => cases hi
  all_goals rfl

/-- No command of the host writes `bus_state`. -/
theorem dispatched_busState {i : Instr} {s t : State} {r : Result} (h : Dispatched s i r) (hr : r = .next t) :
    t.busState = s.busState := by
  cases h <;> cases hr
  case replied hacts _ => exact hacts.busState
  all_goals rfl

theorem BlindRun.exec (i : Instr) : BlindRun (exec i) := by
  cases hi : isBusByte i with
  | false =>
    exact fun s v => ⟨v, exec_withBus s v hi, fun t ht => .inr ⟨dispatched_busState (exec_dispatched s hi) ht, rfl⟩⟩
  | true =>
    obtain ⟨byte, hbyte⟩ := encode_of_isBusByte hi
    have hexec : Machine.exec i = Machine.sendBusByte byte := funext fun s => exec_of_encode_busByte hbyte s
    rw [hexec]
    exact .sendBusByte byte

/-- Settles O58: nothing that runs reads `bus_state`. -/
theorem busStateGatesNothing : Obligations.BusStateGatesNothing := by
  refine ⟨fun i s v hi => ⟨exec_withBus s v hi, fun t => dispatched_busState (exec_dispatched s hi)⟩, ?_⟩
  rintro run s v (rfl | ⟨i, rfl⟩)
  · exact BlindRun.handle s v
  · exact BlindRun.exec i s v

end Sys2Proof.Proofs.BusBlind
end

section
/-! PROOF. The bus reset (42_bus_session.md R185 to R187): the pulse step by step, then the probes, each read off the
samples it takes. First a normal form for what moves lines alone. -/

namespace Sys2Proof.Proofs.Timeless

open Sys2Proof Sys2Proof.Machine

namespace View

/-- After `n` samples, with the line drives `d` and the new pin entries `l`. -/
def moved (n : Nat) (d : LineMask) (l : List Pins) (v : View) : View :=
  { v with
    drive := d
    lines := v.lines.drop n
    linesDrawn := v.linesDrawn + (n - v.lines.length)
    pins := l ++ v.pins }

/-- A pin entry with other line drives. -/
def entry (d : LineMask) (v : View) : Pins := ⟨0, d, v.portShown, v.irqOff⟩

section
variable (n : Nat) (d : LineMask) (l : List Pins) (v : View)

@[simp] theorem moved_drive : (v.moved n d l).drive = d := rfl
@[simp] theorem moved_irqOff : (v.moved n d l).irqOff = v.irqOff := rfl
@[simp] theorem moved_cfg : (v.moved n d l).cfg = v.cfg := rfl
@[simp] theorem moved_count : (v.moved n d l).count = v.count := rfl
@[simp] theorem moved_eoi : (v.moved n d l).eoi = v.eoi := rfl
@[simp] theorem moved_portShown : (v.moved n d l).portShown = v.portShown := rfl
@[simp] theorem entry_moved (d' : LineMask) : (v.moved n d l).entry d' = v.entry d' := rfl
@[simp] theorem peer_moved (k : Nat) : (v.moved n d l).peer k = v.peer (n + k) := peer_skip v n k

theorem draw_eq : v.draw d = v.moved 0 d [v.entry d] := by simp [draw, shown, moved, entry, portShown]
theorem skip_eq : v.skip n = v.moved n v.drive [] := rfl

theorem moved_moved (n' : Nat) (d' : LineMask) (l' : List Pins) :
    (v.moved n d l).moved n' d' l' = v.moved (n + n') d' (l' ++ l) := by
  simp only [moved, List.drop_drop, List.length_drop, List.append_assoc, View.mk.injEq, true_and, and_true]
  omega

theorem skip_moved (k : Nat) : (v.moved n d l).skip k = v.moved (n + k) d l := moved_moved n d l v k d []

variable {v} in
/-- Samples that the script has. -/
theorem moved_of_lines {ls rest : List LineMask} (h : v.lines = ls ++ rest) :
    v.moved ls.length d l = { v with drive := d, lines := rest, pins := l ++ v.pins } := by
  simp [moved, h]

end

end View

theorem Does.of_eq {α : Type} {op : Engine α} {v w w' : View} {a : α} (h : Does view op v a w) (hw : w = w') :
    Does view op v a w' := hw ▸ h

end Sys2Proof.Proofs.Timeless

namespace Sys2Proof.Proofs.BusReset

open Sys2Proof Sys2Proof.Machine Sys2Proof.Safety Sys2Proof.Proofs.Handler Sys2Proof.Proofs.Timeless
open Sys2Proof.Proofs.Deferred

/-- A pin entry of a probe: nothing but ATN is asserted. -/
abbrev OnlyAtn (e : Pins) : Prop := e.drive &&& ~~~Line.atn = 0

/-- What a probe from released lines finds, in its `n` samples (R186). -/
structure Probe (v : View) (free : Bool) (n : Nat) (l : List Pins) : Prop where
  does : Does view probeFree v free (v.moved n 0 l)
  onlyAtn : ∀ e ∈ l, OnlyAtn e
  found : ∀ (i : Inputs) (k m : Nat), (∀ j, v.peer j = peerAt i (k + j)) →
    busFreeWithin i (m + 1) k = (free || busFreeWithin i m (k + n))

theorem zero_or (p : LineMask) : 0 ||| p = p := BitVec.zero_or

/-- The block's ATN is not DATA. -/
theorem atn_or_and_data (p : LineMask) : (Line.atn ||| p) &&& Line.data = p &&& Line.data := by
  revert p
  decide

theorem atn_released : Line.atn &&& ~~~Line.atn = 0 := rfl

theorem releaseAll_does {v : View} (h : v.drive = 0) :
    Does view (act (State.releaseLines Line.allLines)) v () (v.moved 0 0 [v.entry 0]) := by
  have hdoes := Does.releaseLines v Line.allLines
  rw [h, View.draw_eq] at hdoes
  exact hdoes

/-- A probe that sees a line asserted. -/
theorem probe_stops {v : View} (h : v.drive = 0) (h0 : v.peer 0 ≠ 0) :
    Does view probeFree v false (v.moved 1 0 [v.entry 0]) := by
  refine (releaseAll_does h).bind ((Does.pause _ _).bind ((Does.poll _).bind ?_))
  rw [if_pos (by simpa [zero_or] using h0)]
  exact (Does.pure false).of_eq (by simp [View.skip_eq, View.moved_moved])

/-- A probe that sees all lines released answers by DATA under ATN and after it. -/
theorem probe_goes_on {v : View} (h : v.drive = 0) (h0 : v.peer 0 = 0) :
    Does view probeFree v (decide (v.peer 1 &&& Line.data ≠ 0 ∧ v.peer 2 &&& Line.data = 0))
      (v.moved (if v.peer 1 &&& Line.data = 0 then 2 else 3) 0 [v.entry 0, v.entry Line.atn, v.entry 0]) := by
  refine (releaseAll_does h).bind ((Does.pause _ _).bind ((Does.poll _).bind ?_))
  rw [if_neg (by simpa [zero_or] using h0)]
  refine (Does.assertLines _ _).bind ((Does.pause _ _).bind ((Does.getLine _ _).bind ((Does.releaseLines _ _).bind ?_)))
  simp only [View.draw_eq, View.skip_eq, View.moved_moved, View.moved_drive, View.peer_moved, View.entry_moved,
    zero_or, List.nil_append, List.cons_append, Nat.zero_add, atn_or_and_data, atn_released]
  by_cases h1 : v.peer 1 &&& Line.data = 0
  · simp only [h1, ne_eq, not_true, decide_false, false_and, if_true, Bool.false_eq_true, if_false]
    exact Does.pure false
  · simp only [h1, ne_eq, not_false_iff, decide_true, true_and, if_true, if_false]
    refine (Does.pause _ _).bind ((Does.getLine _ _).bind ?_)
    simp only [View.skip_eq, View.moved_moved, View.moved_drive, View.peer_moved, zero_or, List.nil_append,
      ← decide_not, ne_eq, Decidable.not_not]
    exact Does.pure _

theorem probe_exists {v : View} (h : v.drive = 0) : ∃ free n l, Probe v free n l := by
  by_cases h0 : v.peer 0 = 0
  · refine ⟨_, _, _, probe_goes_on h h0, by simp [OnlyAtn, View.entry], fun i k m hpeer => ?_⟩
    rw [busFreeWithin, ← hpeer 1, ← hpeer 2, if_neg (by rw [← Nat.add_zero k, ← hpeer]; simpa using h0)]
    by_cases h1 : v.peer 1 &&& Line.data = 0
    · simp only [h1, if_true, ne_eq, not_true, false_and, decide_false, Bool.false_or]
    · by_cases h2 : v.peer 2 &&& Line.data = 0
      · simp only [h1, h2, if_false, ne_eq, not_true, not_false_iff, true_and, decide_true, Bool.true_or]
      · simp only [h1, h2, if_false, if_true, ne_eq, not_false_iff, true_and, decide_false, Bool.false_or]
  · refine ⟨_, _, _, probe_stops h h0, by simp [OnlyAtn, View.entry], fun i k m hpeer => ?_⟩
    rw [busFreeWithin, if_pos (by rw [← Nat.add_zero k, ← hpeer]; exact h0), Bool.false_or]

/-- The probe loop (R185): it ends well with the first probe that finds a free bus. -/
theorem probeLoop_gives (i : Inputs) (n : Nat) : ∀ (k : Nat) (v : View), v.drive = 0 →
    (∀ j, v.peer j = peerAt i (k + j)) →
    Gives view (probeLoop n) v
      (fun _ w => busFreeWithin i n k = true ∧
        ∃ m l, w = { v.moved m 0 l with busState := .free } ∧ ∀ e ∈ l, OnlyAtn e)
      (fun st w => busFreeWithin i n k = false ∧ st = .resetNotFree ∧
        ∃ m l, w = (v.moved m 0 l).failed .resetNotFree ∧ ∀ e ∈ l, OnlyAtn e) := by
  induction n with
  | zero =>
    intro k v hv _
    have hsame : v = v.moved 0 0 [] := by rw [← hv]; exact View.skip_eq 0 v ▸ (View.skip_zero v).symm
    refine Gives.mono (Fails.fail v .resetNotFree) (fun _ _ h => h.elim) fun st w hw => ?_
    exact ⟨rfl, hw.1, 0, [], hsame ▸ hw.2, by simp⟩
  | succ n ih =>
    intro k v hv hpeer
    obtain ⟨free, m, l, hprobe⟩ := probe_exists hv
    have hfree := hprobe.found i k n hpeer
    refine (Does.kick v).bind_gives (hprobe.does.bind_gives ?_)
    cases free with
    | true =>
      refine (Does.setBusState _ .free).gives ⟨?_, m, l, rfl, hprobe.onlyAtn⟩
      rw [hfree, Bool.true_or]
    | false =>
      rw [Bool.false_or] at hfree
      refine (Does.pause _ _).bind_gives (Gives.mono (ih (k + m) (v.moved m 0 l) rfl fun j => ?_) ?_ ?_)
      · rw [View.peer_moved, hpeer, Nat.add_assoc]
      · rintro - w ⟨hf, m', l', rfl, hl'⟩
        refine ⟨hfree.trans hf, m + m', l' ++ l, by rw [View.moved_moved], fun e he => ?_⟩
        exact (List.mem_append.mp he).elim (hl' e) (hprobe.onlyAtn e)
      · rintro st w ⟨hf, hst, m', l', rfl, hl'⟩
        refine ⟨hfree.trans hf, hst, m + m', l' ++ l, by rw [View.moved_moved], fun e he => ?_⟩
        exact (List.mem_append.mp he).elim (hl' e) (hprobe.onlyAtn e)

/-- The state after the pulse, before the first probe. -/
def pulsed (s : State) : State :=
  ((({ s with count := 0 }.releaseLines (Line.data ||| Line.atn ||| Line.clock)).assertLines Line.reset).delay
    s.cfg.tResetPulse).releaseLines Line.reset

theorem asyncOp_reset_run (s : State) : asyncOp 9 s = withCount (probeLoop s.cfg.nResetProbe) (pulsed s) := rfl

/-- The pulse on the line latches. -/
theorem pulse_drives (d : LineMask) :
    d &&& ~~~(Line.data ||| Line.atn ||| Line.clock) = d &&& Line.reset ∧
      (d &&& ~~~(Line.data ||| Line.atn ||| Line.clock)) ||| Line.reset = Line.reset ∧
      ((d &&& ~~~(Line.data ||| Line.atn ||| Line.clock)) ||| Line.reset) &&& ~~~Line.reset = 0 := by
  revert d
  decide

/-- The pins of the pulse (R185). -/
theorem pulsed_pins (s : State) : ∃ p0 p1 p2, (pulsed s).out.pins = p2 :: p1 :: p0 :: s.out.pins ∧
    p0.drive = s.drive &&& Line.reset ∧ p1.drive = Line.reset ∧ p2.drive = 0 ∧
    p1.time + s.cfg.tResetPulse ≤ p2.time := by
  obtain ⟨h0, h1, h2⟩ := pulse_drives s.drive
  refine ⟨_, _, _, rfl, h0, h1, h2, ?_⟩
  have hdelay : ∀ (t n : Nat) (u : State), u.now + n ≤ ((u.delay t).delay n).now := fun t n u => by
    show _ ≤ u.now + t + _ + n + _
    omega
  exact hdelay _ _ _

/-- The pulse takes no sample, and what it leaves of the rest. -/
theorem view_pulsed (s : State) : view (pulsed s) = { view s with
    count := 0, drive := 0, pins := (pulsed s).out.pins.map still } := by
  obtain ⟨-, -, h2⟩ := pulse_drives s.drive
  simp only [view, pulsed, State.releaseLines_inp, State.delay_inp, State.assertLines_inp,
    Primitives.dropOver_lines, Primitives.dropOver_linesDrawn, Primitives.dropOver_port, Primitives.dropOver_portDrawn]
  simp only [State.releaseLines_drive, State.delay_drive, State.assertLines_drive, h2]
  rfl

/-- The entries a reset shows after the pulse. -/
theorem onlyAtn_of_still {new l : List Pins} (hnew : new.map still = l) (h : ∀ e ∈ l, OnlyAtn e) :
    ∀ e ∈ new, OnlyAtn e := fun e he => h (still e) (hnew ▸ List.mem_map_of_mem he)

/-- A failed reset: the interrupt is unmasked, no line moves. -/
theorem failed_resetNotFree (v : View) : ∃ l, v.failed .resetNotFree =
    { (v.log 11) with irqOff := false, busState := .unknown, pins := l ++ v.pins } ∧ ∀ e ∈ l, e.drive = v.drive := by
  obtain ⟨d, o, oe, eoi, bus, _ | _⟩ := v
  · exact ⟨[], rfl, nofun⟩
  · exact ⟨[⟨0, d, if oe then some o else none, false⟩], rfl, by simp⟩

/-- Settles O43: the pulse's three entries, then the loop from released lines. -/
theorem busResetOutcome : Obligations.BusResetOutcome := by
  intro s hmode hacmd
  obtain ⟨p0, p1, p2, hpulse, hp0, hp1, hp2, htime⟩ := pulsed_pins s
  have hpending : pendingMode s.mode = true := by rw [hmode]; rfl
  have hop : requestOp s s = withCount (probeLoop s.cfg.nResetProbe) (pulsed s) := by
    rw [requestOp_of_async hmode, hacmd, asyncOp_reset_run]
  have hproto : (pulsed s).proto = s.proto := rfl
  have hcfg : (pulsed s).cfg = s.cfg := rfl
  have hpeer : ∀ j, (view (pulsed s)).peer j = peerAt s.inp (0 + j) := fun j => by
    rw [view_pulsed, Nat.zero_add, peerAt_eq]
    rfl
  have hdrive : (view (pulsed s)).drive = 0 := by rw [view_pulsed]
  have hframe := Framed.probeLoop s.cfg.nResetProbe (pulsed s)
  have hbefore := view_pulsed s
  obtain ⟨_, u, hu, hpins, hfree, m, l, hw, hl⟩ | ⟨st, u, hu, hpins, hfree, rfl, m, l, hw, hl⟩ :=
    probeLoop_gives s.inp s.cfg.nResetProbe 0 (view (pulsed s)) hdrive hpeer (pulsed s) rfl
  · obtain ⟨new, hnew, hstill⟩ := exists_new_pins hpins (congrArg View.pins hw)
    rw [after, hu] at hframe
    rw [hbefore] at hw
    have hcount : u.count = 0 := congrArg View.count hw
    refine ⟨_, new, p0, p1, p2, handle_of_ok hpending (hop.trans (withCount_of_ok hu)), ?_⟩
    simp only [finished_mode, hmode, finished_drive, finished_value, finished_out, finished_status, finished_busState,
      finished_evEntries, finished_evHead, finished_eoi, finished_ppOut, finished_ppOe, finished_buffer,
      finished_proto, finished_cfg]
    exact ⟨rfl, congrArg View.drive hw, by rw [hcount]; rfl, by rw [hnew, hpulse], hp0, hp1, hp2, htime,
      onlyAtn_of_still hstill hl, ⟨fun _ => hfree, fun _ => rfl⟩, .inl ⟨rfl, congrArg View.busState hw,
      congrArg View.evEntries hw, congrArg View.evHead hw⟩, congrArg View.eoi hw, congrArg View.ppOut hw,
      congrArg View.ppOe hw, congrArg View.buffer hw, hframe.proto, hframe.cfg⟩
  · obtain ⟨l', hfailed, hl'⟩ := failed_resetNotFree ((view (pulsed s)).moved m 0 l)
    rw [hfailed] at hw
    obtain ⟨new, hnew, hstill⟩ := exists_new_pins (l := l' ++ l) hpins (by
      rw [List.append_assoc]
      exact congrArg View.pins hw)
    rw [after, hu] at hframe
    rw [hbefore] at hw
    have hcount : u.count = 0 := congrArg View.count hw
    refine ⟨_, new, p0, p1, p2, handle_of_failed hpending (hop.trans (withCount_of_error hu)), ?_⟩
    simp only [finished_mode, hmode, finished_drive, finished_value, finished_out, finished_status, finished_busState,
      finished_evEntries, finished_evHead, finished_eoi, finished_ppOut, finished_ppOe, finished_buffer,
      finished_proto, finished_cfg, hfree]
    refine ⟨rfl, congrArg View.drive hw, by rw [hcount]; rfl, by rw [hnew, hpulse], hp0, hp1, hp2, htime,
      onlyAtn_of_still hstill fun e he => ?_, ⟨nofun, nofun⟩, .inr ⟨rfl, congrArg View.busState hw, ?_, ?_⟩,
      congrArg View.eoi hw, congrArg View.ppOut hw, congrArg View.ppOe hw, congrArg View.buffer hw, hframe.proto,
      hframe.cfg⟩
    · refine (List.mem_append.mp he).elim (fun h => ?_) (hl e)
      rw [OnlyAtn, hl' e h, View.moved_drive]
      rfl
    · rw [Primitives.logEvent_eq]
      exact congrArg View.evEntries hw
    · rw [Primitives.logEvent_eq]
      exact congrArg View.evHead hw

end Sys2Proof.Proofs.BusReset
end

section
/-! PROOF. Bytes of an ORIGINAL sender (41_wire_modes.md R141, 42_bus_session.md R172 to R178): one turn of the byte
loop, by the samples it takes, and the bits it shows. -/

namespace Sys2Proof.Proofs.Sender

open Sys2Proof Sys2Proof.Machine Sys2Proof.Safety Sys2Proof.Proofs.Timeless

/-! ## The bits of a stretch of the record -/

/-- The times of the entries do not matter. -/
theorem originalBits_still (ps : List Pins) : originalBits (ps.map still) = originalBits ps := by
  rw [originalBits_look, originalBits_look, List.map_map]
  rfl

theorem originalBits_append (new old : List Pins) :
    originalBits (new ++ old) = originalBits old ++ originalBits new := by
  rw [originalBits_look, originalBits_look, originalBits_look, List.map_append, lookBits_append]

/-- A stretch of the record that shows these bits, with ATN at that level in the masked sections. -/
structure OnWire (atn : LineMask) (bits : List Bool) (l : List Pins) : Prop where
  bits : originalBits l = bits
  atn : ∀ e ∈ l, e.irqOff = true → e.drive &&& Line.atn = atn

theorem OnWire.nil (atn : LineMask) : OnWire atn [] [] := ⟨rfl, nofun⟩

theorem OnWire.append {atn : LineMask} {bits bits' : List Bool} {old new : List Pins} (h : OnWire atn bits old)
    (h' : OnWire atn bits' new) : OnWire atn (bits ++ bits') (new ++ old) :=
  ⟨by rw [originalBits_append, h.bits, h'.bits], fun e he => (List.mem_append.mp he).elim (h'.atn e) (h.atn e)⟩

/-- An entry with the interrupt unmasked shows no bit. -/
theorem OnWire.entry {v : View} (h : v.irqOff = false) (atn d : LineMask) : OnWire atn [] [v.entry d] :=
  ⟨by simp [originalBits, View.entry, h], by simp [View.entry, h]⟩

theorem OnWire.cons_entry {v : View} {atn : LineMask} {bits : List Bool} {l : List Pins} (h : OnWire atn bits l)
    (hirq : v.irqOff = false) (d : LineMask) : OnWire atn bits (v.entry d :: l) := by
  have happend := h.append (.entry hirq atn d)
  rwa [List.append_nil] at happend

theorem OnWire.entries {v : View} (h : v.irqOff = false) (atn : LineMask) (ds : List LineMask) :
    OnWire atn [] (ds.map v.entry) := by
  induction ds with
  | nil => exact .nil atn
  | cons d ds ih => exact ih.append (.entry h atn d)

/-! ## The line levels of a sender -/

theorem clock_and (d : LineMask) : (d ||| Line.clock) &&& Line.clock ≠ 0 := by
  revert d
  decide

theorem clock_or_and_data {d : LineMask} (h : d &&& Line.data = 0) : (d ||| Line.clock) &&& Line.data = 0 := by
  revert d
  decide

theorem release_assert_clock (d : LineMask) : (d &&& ~~~Line.clock) ||| Line.clock = d ||| Line.clock := by
  revert d
  decide

theorem clock_or_and_atn (d : LineMask) : (d ||| Line.clock) &&& Line.atn = d &&& Line.atn := by
  revert d
  decide

theorem clock_or_clock (d : LineMask) : d ||| Line.clock ||| Line.clock = d ||| Line.clock := by
  revert d
  decide

/-- With DATA released by the block, a sample of DATA is the peer's. -/
theorem or_and_data {d : LineMask} (h : d &&& Line.data = 0) (p : LineMask) :
    (d ||| p) &&& Line.data = p &&& Line.data := by
  revert d p
  decide

theorem or_and_data_of_release {d : LineMask} (h : d &&& Line.data = 0) (p : LineMask) :
    ((d &&& ~~~Line.clock) ||| p) &&& Line.data = p &&& Line.data := by
  revert d p
  decide

theorem or_and_data_of_clock {d : LineMask} (h : d &&& Line.data = 0) (p : LineMask) :
    (d ||| Line.clock ||| p) &&& Line.data = p &&& Line.data := by
  revert d p
  decide

/-- What the peer asserts is asserted. -/
theorem or_and_data_ne (d : LineMask) {p : LineMask} (h : p &&& Line.data ≠ 0) : (d ||| p) &&& Line.data ≠ 0 := by
  revert d p
  decide

theorem and_data_eq_iff (d : LineMask) : d &&& Line.data = Line.data ↔ d &&& Line.data ≠ 0 := by
  revert d
  decide

/-! ## One byte -/

/-- Nothing but the pins moves from `v` to the view of a state that `Moves` reaches. -/
theorem view_of_moves {s t : State} {new : List Look} (h : Moves s t new) (hdrive : t.drive = s.drive)
    (hirq : t.irqOff = false) (hppOut : t.ppOut = s.ppOut) (hppOe : t.ppOe = s.ppOe) :
    ∃ l, s.out.pins <:+ t.out.pins ∧ l.map Pins.look = new ∧
      view t = { (view s).moved 0 s.drive l with irqOff := false } := by
  obtain ⟨ps, hps, hlook⟩ := h.pins
  refine ⟨ps.map still, ⟨ps, hps.symm⟩, ?_, ?_⟩
  · rw [List.map_map, ← hlook]
    rfl
  · have hview : view t = _ := congrArg view h.eq
    rw [hview, hdrive, hirq, hppOut, hppOe, hps]
    simp [view, View.moved]

/-- The eight bits of a byte (R141). -/
theorem sendBits_gives (b : Byte) {v : View} (hirq : v.irqOff = false) (hclock : v.drive &&& Line.clock ≠ 0)
    (hdata : v.drive &&& Line.data = 0) (E : Status → View → Prop) :
    Gives view (act (State.sendBits b)) v
      (fun _ w => ∃ l, w = v.moved 0 v.drive l ∧ OnWire (v.drive &&& Line.atn) (bitsOf b) l) E := by
  rintro s rfl
  obtain ⟨new, hmoves, hbits, hdrive, hmask, hppOut, hppOe, hatn⟩ := State.sendBits_moves b hclock hdata
  obtain ⟨l, hpins, hlook, hview⟩ := view_of_moves hmoves hdrive hmask hppOut hppOe
  refine .inl ⟨(), s.sendBits b, rfl, hpins, l, ?_, ?_, fun e he _ => ?_⟩
  · rw [hview, ← hirq]
    rfl
  · rw [originalBits_look, hlook, hbits]
  · exact hatn e.look (hlook ▸ List.mem_map_of_mem he)

/-- A byte whose listener acknowledges it at once (R141). -/
theorem writeByte_ok (b : Byte) {v : View} (hirq : v.irqOff = false) (hclock : v.drive &&& Line.clock ≠ 0)
    (hdata : v.drive &&& Line.data = 0) (hack : v.peer 0 &&& Line.data ≠ 0) (E : Status → View → Prop) :
    Gives view (writeByte b) v
      (fun _ w => ∃ l, w = v.moved 1 v.drive l ∧ OnWire (v.drive &&& Line.atn) (bitsOf b) l) E := by
  refine (sendBits_gives b hirq hclock hdata _).bind ?_
  rintro - w ⟨l, rfl, hl⟩
  refine (Does.waitOr (·.tAck) .nak ?_).gives ⟨l, ?_, hl⟩
  · rw [and_data_eq_iff, View.peer_moved]
    exact or_and_data_ne _ hack
  · rw [View.skip_eq, View.moved_moved]
    rfl

/-- A byte that nobody acknowledges (R178). -/
theorem writeByte_nak (b : Byte) {v : View} (hirq : v.irqOff = false) (hclock : v.drive &&& Line.clock ≠ 0)
    (hdata : v.drive &&& Line.data = 0) (hstep : 0 < v.cfg.tPollStep)
    (hnak : ∀ j, j ≤ v.cfg.tAck / v.cfg.tPollStep + 1 → v.peer j &&& Line.data = 0) :
    Gives view (writeByte b) v (fun _ _ => False)
      (fun st w => st = .nak ∧ ∃ k l, w = (v.moved k v.drive l).failed .nak ∧
        OnWire (v.drive &&& Line.atn) (bitsOf b) l) := by
  refine (sendBits_gives b hirq hclock hdata _).bind ?_
  rintro - w ⟨l, rfl, hl⟩
  refine (Gives.waitOr_times_out (v := v.moved 0 v.drive l) (·.tAck) .nak hstep fun k hk => ?_).mono (fun _ _ h => h) ?_
  · rw [ne_eq, and_data_eq_iff, View.peer_moved, View.moved_drive, or_and_data hdata, Nat.zero_add, not_not]
    exact hnak k hk
  · rintro st w ⟨rfl, k, rfl⟩
    exact ⟨rfl, k, l, by rw [View.skip_eq, View.moved_moved]; simp, hl⟩

/-- A byte, whatever the listener does. -/
theorem writeByte_gives (b : Byte) {v : View} (hirq : v.irqOff = false) (hclock : v.drive &&& Line.clock ≠ 0)
    (hdata : v.drive &&& Line.data = 0) :
    Gives view (writeByte b) v
      (fun _ w => ∃ k l, w = v.moved k v.drive l ∧ OnWire (v.drive &&& Line.atn) (bitsOf b) l)
      (fun st w => st = .nak ∧ ∃ k l, w = (v.moved k v.drive l).failed .nak ∧
        OnWire (v.drive &&& Line.atn) (bitsOf b) l) := by
  refine (sendBits_gives b hirq hclock hdata _).bind ?_
  rintro - w ⟨l, rfl, hl⟩
  refine Gives.waitOr _ _ _ _ _ (fun k => ⟨k, l, ?_, hl⟩) fun k => ⟨rfl, k, l, ?_, hl⟩ <;>
    rw [View.skip_eq, View.moved_moved] <;> simp

/-! ## One turn of the byte loop -/

/-- What the listener shows up to the bits: DATA asserted, then released, and in between the EOI pulse. -/
def holds (lastData : Bool) : Nat := if lastData then 4 else 2

/-- The listener is ready, and answers the EOI hold (R174, R175). -/
structure Ready (lastData : Bool) (v : View) : Prop where
  present : v.peer 0 &&& Line.data ≠ 0
  letsGo : v.peer 1 &&& Line.data = 0
  pulse : lastData = true → v.peer 2 &&& Line.data ≠ 0
  pulseEnds : lastData = true → v.peer 3 &&& Line.data = 0

/-- What follows once CLOCK is asserted again. -/
abbrev sendAndCount (b : Byte) : Engine Unit := do
  writeByte b
  countByte
  pause (·.tByteGapW)

/-- With a ready listener the turn comes to the byte's bits (R174, R175). -/
theorem sendFramed_of_ready {lastData : Bool} {b : Byte} {v : View} (hirq : v.irqOff = false)
    (hdata : v.drive &&& Line.data = 0) (hready : Ready lastData v) {Q : Unit → View → Prop} {E : Status → View → Prop}
    (h : ∀ l, OnWire (v.drive &&& Line.atn) [] l →
      Gives view (sendAndCount b) (v.moved (holds lastData) (v.drive ||| Line.clock) l) Q E) :
    Gives view (sendFramed lastData b) v Q E := by
  obtain ⟨hpresent, hletsGo, hpulse, hpulseEnds⟩ := hready
  refine (Does.pause v _).bind_gives ((Does.getLine v _).bind_gives ?_)
  rw [decide_eq_true (or_and_data_ne v.drive hpresent)]
  refine (Does.doIf_false _).bind_gives ((Does.releaseLines _ _).bind_gives ?_)
  simp only [View.draw_eq, View.skip_eq, View.moved_moved, View.moved_drive, View.entry_moved]
  refine (Does.waitOr _ _ ?_).bind_gives ?_
  · rw [View.moved_drive, View.peer_moved, or_and_data_of_release hdata]
    exact hletsGo
  have hhold : Does view (doIf lastData eoiHold)
      (v.moved 2 (v.drive &&& ~~~Line.clock) [v.entry (v.drive &&& ~~~Line.clock)]) ()
      (v.moved (holds lastData) (v.drive &&& ~~~Line.clock) [v.entry (v.drive &&& ~~~Line.clock)]) := by
    cases lastData with
    | false => exact Does.doIf_false _
    | true =>
      refine ((Does.waitOr _ _ ?_).bind (Does.waitOr _ _ ?_)).of_eq (by simp [View.skip_eq, View.moved_moved, holds])
      · rw [View.moved_drive, View.peer_moved, and_data_eq_iff]
        exact or_and_data_ne _ (hpulse rfl)
      · rw [View.skip_eq, View.moved_moved, View.moved_drive, View.peer_moved, View.moved_drive,
          or_and_data_of_release hdata]
        exact hpulseEnds rfl
  rw [View.skip_eq, View.moved_moved]
  refine hhold.bind_gives ?_
  refine (Does.assertLines _ _).bind_gives ?_
  rw [View.draw_eq, View.moved_moved, View.moved_drive, release_assert_clock, View.entry_moved]
  exact h _ (OnWire.entries hirq _ [_, _])

/-- A byte sent to a ready listener that acknowledges it. -/
theorem sendFramed_ok {lastData : Bool} (b : Byte) {v : View} (hirq : v.irqOff = false)
    (hdata : v.drive &&& Line.data = 0) (hready : Ready lastData v)
    (hack : v.peer (holds lastData) &&& Line.data ≠ 0) (E : Status → View → Prop) :
    Gives view (sendFramed lastData b) v
      (fun _ w => ∃ l, OnWire (v.drive &&& Line.atn) (bitsOf b) l ∧
        w = { v.moved (holds lastData + 1) (v.drive ||| Line.clock) l with count := v.count + 1 }) E := by
  refine sendFramed_of_ready hirq hdata hready fun l hl => ?_
  refine (writeByte_ok (v := v.moved _ _ l) b hirq (clock_and _) (clock_or_and_data hdata) ?_ _).bind ?_
  · rw [View.peer_moved]
    exact hack
  · rintro - w ⟨l', rfl, hl'⟩
    rw [View.moved_moved]
    refine (Does.countByte _).bind_gives ((Does.pause _ _).gives ⟨l' ++ l, ?_, ?_⟩)
    · rw [View.moved_drive, clock_or_and_atn] at hl'
      exact hl.append hl'
    · simp only [View.moved_drive]
      rfl

/-- A byte sent to a ready listener that does not acknowledge it (R178). -/
theorem sendFramed_nak {lastData : Bool} (b : Byte) {v : View} (hirq : v.irqOff = false)
    (hdata : v.drive &&& Line.data = 0) (hready : Ready lastData v) (hstep : 0 < v.cfg.tPollStep)
    (hnak : ∀ j, j ≤ v.cfg.tAck / v.cfg.tPollStep + 1 → v.peer (holds lastData + j) &&& Line.data = 0) :
    Gives view (sendFramed lastData b) v (fun _ _ => False)
      (fun st w => st = .nak ∧ ∃ k l, OnWire (v.drive &&& Line.atn) (bitsOf b) l ∧
        w = (v.moved k (v.drive ||| Line.clock) l).failed .nak) := by
  refine sendFramed_of_ready hirq hdata hready fun l hl => Gives.bind (Gives.mono
    (writeByte_nak (v := v.moved _ _ l) b hirq (clock_and _) (clock_or_and_data hdata) hstep fun j hj => ?_)
      (fun _ _ h => h) ?_) nofun
  · rw [View.peer_moved]
    exact hnak j hj
  · rintro st w ⟨rfl, k, l', rfl, hl'⟩
    rw [View.moved_drive, clock_or_and_atn] at hl'
    exact ⟨rfl, _, _, hl.append hl', by rw [View.moved_moved]; rfl⟩

/-! ## Failures -/

/-- The classes whose cleanup releases CLOCK, DATA and ATN and leaves the port (R290). -/
def releasesLines : Status → Bool
  | .noDevice | .devNotPresent | .listenerTimeout | .eoiTimeout | .nak | .turnaroundTimeout | .readBitTimeout => true
  | .ok | .readStall | .hsTimeout | .waitTimeout | .resetNotFree => false

theorem releaseThree (d : LineMask) : d &&& ~~~(Line.clock ||| Line.data ||| Line.atn) = d &&& Line.reset := by
  revert d
  decide

/-- A failure that releases the lines, the interrupt being unmasked. -/
theorem failed_of_releasesLines {st : Status} {v : View} (hst : releasesLines st = true) (hirq : v.irqOff = false) :
    v.failed st =
      { (if st.logged then v.log st.code else v).draw (v.drive &&& Line.reset) with busState := .unknown } := by
  obtain ⟨d, o, oe, eoi, bus, irq⟩ := v
  cases hirq
  rw [← releaseThree]
  cases st <;> cases hst <;> rfl

/-- The EOI hold, whatever the listener does: samples are taken, nothing else happens. -/
theorem eoiHold_gives (lastData : Bool) (v : View) (n : Nat) (d : LineMask) (l : List Pins) :
    Gives view (doIf lastData eoiHold) (v.moved n d l) (fun _ w => ∃ n', w = v.moved n' d l)
      (fun st w => st = .eoiTimeout ∧ ∃ n', w = (v.moved n' d l).failed st) := by
  cases lastData with
  | false => exact (Does.doIf_false _).gives ⟨n, rfl⟩
  | true =>
    refine Gives.bind (Q := fun _ w => ∃ n', w = v.moved n' d l) (Gives.waitOr _ _ _ _ _ (fun k =>
      ⟨n + k, View.skip_moved ..⟩) fun k => ⟨rfl, n + k, congrArg _ (View.skip_moved ..)⟩) ?_
    rintro - w ⟨n', rfl⟩
    exact Gives.waitOr _ _ _ _ _ (fun k => ⟨n' + k, View.skip_moved ..⟩) fun k =>
      ⟨rfl, n' + k, congrArg _ (View.skip_moved ..)⟩

/-- One turn, whatever the listener does: the byte's bits are shown when it acknowledges, or fails to. -/
theorem sendFramed_gives (lastData : Bool) (b : Byte) {v : View} (hirq : v.irqOff = false)
    (hdata : v.drive &&& Line.data = 0) :
    Gives view (sendFramed lastData b) v
      (fun _ w => ∃ n l, OnWire (v.drive &&& Line.atn) (bitsOf b) l ∧
        w = { v.moved n (v.drive ||| Line.clock) l with count := v.count + 1 })
      (fun st w => releasesLines st = true ∧ ∃ n d l, w = (v.moved n d l).failed st ∧
        OnWire (v.drive &&& Line.atn) (if st = .nak then bitsOf b else []) l) := by
  refine (Does.pause v _).bind_gives ((Does.getLine v _).bind_gives ?_)
  cases decide ((v.drive ||| v.peer 0) &&& Line.data ≠ 0) with
  | false =>
    refine Gives.bind (Gives.mono (Fails.fail (v.skip 1) .devNotPresent) (fun _ _ h => h) ?_) nofun
    rintro st w ⟨rfl, rfl⟩
    exact ⟨rfl, 1, _, [], rfl, .nil _⟩
  | true =>
    refine (Does.doIf_false _).bind_gives ((Does.releaseLines _ _).bind_gives ?_)
    rw [View.draw_eq, View.skip_eq, View.moved_moved]
    have hunmasked : ∀ ds : List LineMask, OnWire (v.drive &&& Line.atn) [] (ds.map v.entry) := OnWire.entries hirq _
    refine Gives.bind (Q := fun _ w => ∃ n, w = v.moved n (v.drive &&& ~~~Line.clock)
      [v.entry (v.drive &&& ~~~Line.clock)]) (Gives.waitOr _ _ _ _ _ (fun k => ⟨_, View.skip_moved ..⟩) fun k =>
        ⟨rfl, _, _, _, congrArg _ (View.skip_moved ..), hunmasked [v.drive &&& ~~~Line.clock]⟩) ?_
    rintro - w ⟨n, rfl⟩
    refine Gives.bind (Gives.mono (eoiHold_gives lastData v n _ _) (fun _ _ h => h) ?_) ?_
    · rintro st w ⟨rfl, n', rfl⟩
      exact ⟨rfl, n', _, _, rfl, hunmasked [_]⟩
    rintro - w ⟨n', rfl⟩
    refine (Does.assertLines _ _).bind_gives ?_
    rw [View.draw_eq, View.moved_moved, View.moved_drive, release_assert_clock, View.entry_moved]
    have hwrite := writeByte_gives (v := v.moved (n' + 0) (v.drive ||| Line.clock)
      ([v.entry (v.drive ||| Line.clock)] ++ [v.entry (v.drive &&& ~~~Line.clock)])) b hirq (clock_and _)
      (clock_or_and_data hdata)
    simp only [View.moved_moved, View.moved_drive, clock_or_and_atn] at hwrite
    refine Gives.bind (Gives.mono hwrite (fun _ _ h => h) ?_) ?_
    · rintro st w ⟨rfl, k, l, rfl, hl⟩
      exact ⟨rfl, _, _, _, rfl, (hunmasked [_, _]).append hl⟩
    rintro - w ⟨k, l, rfl, hl⟩
    exact (Does.countByte _).bind_gives ((Does.pause _ _).gives ⟨_, _, (hunmasked [_, _]).append hl, rfl⟩)

end Sys2Proof.Proofs.Sender
end

section
/-! PROOF. The bus command bytes as instructions (30_encoding.md R96; 41_wire_modes.md R141, 42_bus_session.md R174). -/

namespace Sys2Proof.Proofs.BusBytes

open Sys2Proof Sys2Proof.Machine Sys2Proof.Safety Sys2Proof.Proofs.Timeless Sys2Proof.Proofs.Sender
open Sys2Proof.Proofs.Commands

theorem delay_lines (s : State) (n : Nat) : (s.delay n).inp.lines = s.inp.lines := by simp

/-- The state in which CLOCK is released, when the device is present (R174). -/
def clockReleased (s : State) : State := (s.delay s.cfg.tPreByte).sampled.releaseLines Line.clock

/-- The state in which the byte's bits are sent, when the listener is ready at once (R174). -/
def announced (s : State) : State := (clockReleased s).kick.sampled.assertLines Line.clock

/-- The end of the turn, when the byte is acknowledged at once (R177). -/
def acknowledged (u : State) : State := { u.kick.sampled with count := u.count + 1 }.delay u.cfg.tByteGapW

theorem clockReleased_lines {s : State} {p : LineMask} {rest : List LineMask} (h : s.inp.lines = p :: rest) :
    (clockReleased s).inp.lines = rest := by
  rw [clockReleased, State.releaseLines, delay_lines]
  exact State.sampled_lines ((delay_lines s _).trans h)

theorem announced_lines {s : State} {p q : LineMask} {rest : List LineMask} (h : s.inp.lines = p :: q :: rest) :
    (announced s).inp.lines = rest := by
  rw [announced, State.assertLines, delay_lines]
  exact State.sampled_lines (s := (clockReleased s).kick) (clockReleased_lines h)

theorem announced_drive (s : State) : (announced s).drive = s.drive ||| Line.clock := release_assert_clock s.drive

section
variable {b : Byte} {s : State} {p q r : LineMask} {rest : List LineMask}

/-- The turn as one state after the other. -/
theorem sendFramed_run (hdata : s.drive &&& Line.data = 0) (hlines : s.inp.lines = p :: q :: r :: rest)
    (hp : p &&& Line.data ≠ 0) (hq : q &&& Line.data = 0) (hr : r &&& Line.data ≠ 0) :
    sendFramed false b s = .ok () (acknowledged ((announced s).sendBits b)) := by
  have hpresent : (s.delay s.cfg.tPreByte).sense &&& Line.data ≠ 0 := by
    rw [State.sense_cons ((delay_lines s _).trans hlines)]
    exact or_and_data_ne _ hp
  have hready : (clockReleased s).sense &&& Line.data = 0 := by
    rw [State.sense_cons (clockReleased_lines hlines)]
    exact (or_and_data_of_release hdata q).trans hq
  have hack : ((announced s).sendBits b).sense &&& Line.data = Line.data := by
    obtain ⟨_, hmoves, -⟩ := State.sendBits_moves b (s := announced s) (announced_drive s ▸ clock_and _)
      (announced_drive s ▸ clock_or_and_data hdata)
    have hinp := congrArg (fun t : State => t.inp.lines) hmoves.eq
    rw [State.sense_cons (hinp.trans (announced_lines hlines)), and_data_eq_iff]
    exact or_and_data_ne _ hr
  refine engine_bind_ok (op := pause _) rfl (engine_bind_ok (op := getLine _) (a := true) ?_
    (engine_bind_ok (op := doIf _ _) rfl (engine_bind_ok (op := act _) rfl (engine_bind_ok (waitOr_first _ _ hready)
    (engine_bind_ok (op := doIf _ _) rfl (engine_bind_ok (op := act _) rfl (engine_bind_ok (op := writeByte b)
    (engine_bind_ok (op := act _) rfl (waitOr_first _ _ hack)) rfl)))))))
  exact congrArg (EStateM.Result.ok · _) (decide_eq_true hpresent)

/-- The turn restarts the watchdog at its two waits. -/
theorem acknowledged_wdtKicks (hdata : s.drive &&& Line.data = 0) :
    (acknowledged ((announced s).sendBits b)).out.wdtKicks = s.out.wdtKicks + 2 := by
  obtain ⟨_, hmoves, -⟩ := State.sendBits_moves b (s := announced s) (announced_drive s ▸ clock_and _)
    (announced_drive s ▸ clock_or_and_data hdata)
  have hkicks := congrArg (fun t : State => t.out.wdtKicks) hmoves.eq
  exact congrArg (· + 1) hkicks

end

/-- A state is given by what `Frame` keeps, its view and what neither speaks of. -/
theorem state_eq {s t : State} {d : LineMask} {n : Nat} {ls : List LineMask} (hframe : Frame s t)
    (hview : view t = { view s with drive := d, count := n, lines := ls, pins := (view t).pins }) :
    t =
      { s with
        drive := d
        count := n
        now := t.now, wdtLast := t.wdtLast, expiry := t.expiry
        inp := { s.inp with lines := ls, overs := t.inp.overs, oversDrawn := t.inp.oversDrawn }
        out := { s.out with pins := t.out.pins, wdtKicks := t.out.wdtKicks } } := by
  obtain ⟨hmode, hfill, hoffset, hstatus, hvalue, hproto, hacmd, hphase, hcfg, hhost, hresponses, hext, -⟩ := hframe
  simp only [view, View.mk.injEq] at hview
  obtain ⟨hdrive, hppOut, hppOe, heoi, hbus, hirq, hentries, hhead, hbuffer, hcount, hlines, hdrawn, hport, hportDrawn,
    -, -⟩ := hview
  have hinp : t.inp =
      ⟨s.inp.host, ls, s.inp.linesDrawn, s.inp.port, s.inp.portDrawn, t.inp.overs, t.inp.oversDrawn⟩ := by
    rw [← hhost, ← hlines, ← hdrawn, ← hport, ← hportDrawn]
  have hout : t.out = ⟨t.out.pins, s.out.responses, s.out.extCmds, t.out.wdtKicks⟩ := by rw [← hresponses, ← hext]
  dsimp only
  rw [← hinp, ← hout, ← hdrive, ← hppOut, ← hppOe, ← heoi, ← hbus, ← hirq, ← hentries, ← hhead, ← hbuffer, ← hcount,
    ← hmode, ← hfill, ← hoffset, ← hstatus, ← hvalue, ← hproto, ← hacmd, ← hphase, ← hcfg]

/-- Settles O48: the turn runs with a ready listener, and its bits are those of the byte. -/
theorem busByteGoesOnTheWire : Obligations.BusByteGoesOnTheWire := by
  intro i b s p q r rest hi hirq hdata hlines hp hq hr
  have hpeer : ∀ k (h : k < 3), (view s).peer k = [p, q, r][k] :=
    View.peer_of_lines (v := view s) (l := [p, q, r]) hlines
  have hready : Ready false (view s) :=
    ⟨by rw [hpeer 0 (by decide)]; exact hp, by rw [hpeer 1 (by decide)]; exact hq, nofun, nofun⟩
  have hrun := sendFramed_run (b := b) hdata hlines hp hq hr
  obtain ⟨_, t, ht, hpins, l, hl, hview⟩ | ⟨_, _, _, _, h⟩ :=
    sendFramed_ok b hirq hdata hready ((hpeer 2 (by decide)).symm ▸ hr) (fun _ _ => False) s rfl
  · obtain ⟨new, hnew, hstill⟩ := exists_new_pins hpins (congrArg View.pins hview)
    have hframe := Framed.sendFramed false b s
    rw [after, ht] at hframe
    have hkicks := acknowledged_wdtKicks (b := b) hdata
    rw [(EStateM.Result.ok.inj (hrun.symm.trans ht)).2] at hkicks
    refine ⟨t, new, ?_, hnew, ?_, ?_⟩
    · rw [exec_of_encode_busByte hi, sendBusByte, ht]
    · rw [← hl.bits, ← hstill, originalBits_still]
    · rw [← hkicks]
      have hmoved := View.moved_of_lines (v := view s) (ls := [p, q, r]) (s.drive ||| Line.clock) l hlines
      refine state_eq hframe ?_
      rw [hview]
      exact congrArg (fun w : View => { w with count := s.count + 1 }) hmoved
  · exact h.elim

/-! ## Failures -/

/-- A turn from `v` that fails with `st` after showing `bits`, CLOCK being the one line moved. -/
def TurnFails (b : Byte) (v : View) (st : Status) (bits : List Bool) : Prop :=
  Gives view (sendFramed false b) v (fun _ _ => False) fun st' w =>
    st' = st ∧ ∃ n d l,
      w = (v.moved n d l).failed st ∧ d &&& Line.reset = v.drive &&& Line.reset ∧ originalBits l = bits

theorem clock_and_reset (d : LineMask) :
    (d &&& ~~~Line.clock) &&& Line.reset = d &&& Line.reset ∧ (d ||| Line.clock) &&& Line.reset = d &&& Line.reset := by
  revert d
  decide

section
variable {b : Byte} {v : View} (hirq : v.irqOff = false)

/-- DATA released at the top of the byte. -/
theorem turnFails_of_absent (b : Byte) (h : (v.drive ||| v.peer 0) &&& Line.data = 0) :
    TurnFails b v .devNotPresent [] := by
  refine (Does.pause v _).bind_gives ((Does.getLine v _).bind_gives ?_)
  rw [h]
  refine Gives.bind (Gives.mono (Fails.fail (v.skip 1) .devNotPresent) (fun _ _ h => h) ?_) nofun
  rintro st w ⟨rfl, rfl⟩
  exact ⟨rfl, 1, v.drive, [], rfl, rfl, rfl⟩

include hirq

/-- DATA asserted through T_LISTENER. -/
theorem turnFails_of_held (hstep : 0 < v.cfg.tPollStep)
    (h : ∀ j, j ≤ v.cfg.tListener / v.cfg.tPollStep + 2 → (v.drive ||| v.peer j) &&& Line.data ≠ 0) :
    TurnFails b v .listenerTimeout [] := by
  refine (Does.pause v _).bind_gives ((Does.getLine v _).bind_gives ?_)
  rw [decide_eq_true (h 0 (Nat.zero_le _))]
  refine (Does.doIf_false _).bind_gives ((Does.releaseLines _ _).bind_gives ?_)
  rw [View.draw_eq, View.skip_eq, View.moved_moved]
  refine Gives.bind (Gives.mono (Gives.waitOr_times_out _ _ hstep fun k hk => ?_) (fun _ _ h => h) ?_) nofun
  · have hsample := h (k + 1) (Nat.succ_le_succ hk)
    rw [View.moved_drive, View.moved_drive, View.peer_moved, Nat.add_zero, Nat.add_comm 1 k]
    revert hsample
    generalize v.drive = d
    generalize v.peer (k + 1) = p
    revert d p
    decide
  · rintro st w ⟨rfl, k, rfl⟩
    exact ⟨rfl, _, _, _, congrArg _ (View.skip_moved ..), (clock_and_reset _).1,
      (OnWire.entry hirq 0 (v.drive &&& ~~~Line.clock)).bits⟩

/-- A listener that does not acknowledge. -/
theorem turnFails_of_nak (hdata : v.drive &&& Line.data = 0) (hready : Ready false v) (hstep : 0 < v.cfg.tPollStep)
    (hnak : ∀ j, j ≤ v.cfg.tAck / v.cfg.tPollStep + 1 → v.peer (2 + j) &&& Line.data = 0) :
    TurnFails b v .nak (bitsOf b) := by
  refine Gives.mono (sendFramed_nak b hirq hdata hready hstep hnak) (fun _ _ h => h) ?_
  rintro st w ⟨rfl, k, l, hl, rfl⟩
  exact ⟨rfl, k, _, l, rfl, (clock_and_reset _).2, hl.bits⟩

end

/-- The new pin entries of a stretch that is known time aside. -/
theorem originalBits_of_view {s t : State} {new l : List Pins} (hnew : t.out.pins = new ++ s.out.pins)
    (hview : (view t).pins = l ++ (view s).pins) : originalBits new = originalBits l := by
  obtain ⟨new', hnew', hstill⟩ := exists_new_pins ⟨new, hnew.symm⟩ hview
  rw [← hstill, originalBits_still, List.append_cancel_right (hnew.symm.trans hnew')]

/-- What a bus byte row leaves when its turn fails. -/
theorem exec_of_turnFails {i : Instr} {b : Byte} {s t : State} {st : Status} {bits : List Bool} {new : List Pins}
    (hi : encode i = .busByte b) (hirq : s.irqOff = false) (hst : releasesLines st = true)
    (h : TurnFails b (view s) st bits) (ht : exec i s = .next t) (hnew : t.out.pins = new ++ s.out.pins) :
    t.status = st.code ∧ t.value = BitVec.ofNat 8 s.count ∧ t.drive = s.drive &&& Line.reset ∧
      t.busState = .unknown ∧
      t.evEntries = (if st.logged then (s.logEvent st.code).evEntries else s.evEntries) ∧
      t.evHead = (if st.logged then (s.logEvent st.code).evHead else s.evHead) ∧ originalBits new = bits := by
  obtain ⟨_, _, _, _, h⟩ | ⟨st', u, hu, -, rfl, n, d, l, hview, hd, rfl⟩ := h s rfl
  · exact h.elim
  rw [exec_of_encode_busByte hi, sendBusByte, hu] at ht
  rw [failed_of_releasesLines hst hirq] at hview
  have htu : t = { u with status := st'.code, value := byteOfCount u.count } := (Host.Outcome.next.inj ht).symm
  have hpins : (view t).pins = ((view s).entry (d &&& Line.reset) :: l) ++ (view s).pins := by
    rw [htu]
    refine (congrArg View.pins hview).trans ?_
    cases st'.logged <;> rfl
  refine ⟨by rw [htu], ?_, ?_, ?_, ?_, ?_, ?_⟩
  · rw [htu]
    refine congrArg byteOfCount ((congrArg View.count hview).trans ?_)
    cases st'.logged <;> rfl
  · rw [htu]
    exact (congrArg View.drive hview).trans hd
  · rw [htu]
    exact congrArg View.busState hview
  · rw [htu, Primitives.logEvent_eq]
    refine (congrArg View.evEntries hview).trans ?_
    cases st'.logged <;> rfl
  · rw [htu, Primitives.logEvent_eq]
    refine (congrArg View.evHead hview).trans ?_
    cases st'.logged <;> rfl
  · have hwire := (OnWire.nil 0).append (OnWire.entry (v := view s) hirq 0 (d &&& Line.reset))
    rw [originalBits_of_view hnew hpins, ← List.singleton_append, originalBits_append,
      (OnWire.entry (v := view s) hirq 0 (d &&& Line.reset)).bits, List.append_nil]

/-- `op` ends or fails, `eoi` and the buffer as they were. -/
def Leaves {α : Type} (op : Engine α) : Prop :=
  ∀ x, Gives (fun s => (s.eoi, s.buffer)) op x (fun _ y => y = x) fun _ y => y = x

section
variable {α β : Type}

theorem Leaves.bind {op : Engine α} {k : α → Engine β} (h : Leaves op) (hk : ∀ a, Leaves (k a)) : Leaves (op >>= k) :=
  fun x => (h x).bind fun a _ hy => hy ▸ hk a x

theorem Leaves.of_run {op : Engine α} (g : State → α) (f : State → State) (hop : ∀ s, op s = .ok (g s) (f s))
    (hpins : ∀ s, s.out.pins <:+ (f s).out.pins) (heoi : ∀ s, (f s).eoi = s.eoi)
    (hbuffer : ∀ s, (f s).buffer = s.buffer) : Leaves op := by
  rintro x s rfl
  exact .inl ⟨_, _, hop s, hpins s, Prod.ext (heoi s) (hbuffer s)⟩

theorem Leaves.act {f : State → State} (hpins : ∀ s, s.out.pins <:+ (f s).out.pins) (heoi : ∀ s, (f s).eoi = s.eoi)
    (hbuffer : ∀ s, (f s).buffer = s.buffer) : Leaves (Machine.act f) :=
  .of_run (fun _ => ()) f (fun _ => rfl) hpins heoi hbuffer

theorem Leaves.fail (st : Status) : Leaves (Machine.fail st : Engine α) := by
  rintro x s rfl
  exact .inr ⟨st, _, rfl, pins_suffix_failWith st s,
    Prod.ext (Deferred.failWith_eoi st s) (State.failWith_count_buffer st s).2⟩

theorem Leaves.waitOr (m v : LineMask) (t : Config → Nat) (st : Status) : Leaves (waitOr m v t st) := by
  rw [BusBlind.waitOr_eq_bind]
  refine Leaves.bind (.of_run (fun s => (s.wait m v (t s.cfg)).1) (fun s => (s.wait m v (t s.cfg)).2) (fun _ => rfl)
    (fun s => pins_suffix_wait m v _ s) (fun s => Deferred.wait_eoi m v _ s) fun s => ?_) fun ok => ?_
  · obtain ⟨-, hbuffer, -⟩ := State.wait_keeps m v (t s.cfg) s
    exact hbuffer
  · cases ok
    · exact .fail st
    · exact .act (f := id) (fun _ => List.suffix_rfl) (fun _ => rfl) fun _ => rfl

end

theorem Leaves.pause (t : Config → Nat) : Leaves (pause t) :=
  .act (fun _ => List.suffix_rfl) (fun _ => rfl) fun _ => rfl
theorem Leaves.countByte : Leaves countByte := .act (fun _ => List.suffix_rfl) (fun _ => rfl) fun _ => rfl
theorem Leaves.getLine (l : LineMask) : Leaves (getLine l) :=
  .of_run (fun s => decide (s.sense &&& l ≠ 0)) State.sampled (fun _ => rfl) (fun _ => List.suffix_rfl) (fun _ => rfl)
    fun _ => rfl
theorem Leaves.releaseLines (m : LineMask) : Leaves (Machine.act (State.releaseLines m)) :=
  .act (fun _ => List.suffix_cons _ _) (fun _ => rfl) fun _ => rfl
theorem Leaves.assertLines (m : LineMask) : Leaves (Machine.act (State.assertLines m)) :=
  .act (fun _ => List.suffix_cons _ _) (fun _ => rfl) fun _ => rfl

theorem sendBit_keeps_all (bit : Bool) (s : State) :
    s.out.pins <:+ (s.sendBit bit).out.pins ∧ (s.sendBit bit).eoi = s.eoi ∧ (s.sendBit bit).buffer = s.buffer := by
  cases bit
  · exact ⟨⟨[_, _, _], rfl⟩, rfl, rfl⟩
  · exact ⟨⟨[_, _], rfl⟩, rfl, rfl⟩

theorem sendBitList_keeps_all (f : Nat → Bool) (is : List Nat) : ∀ s : State,
    s.out.pins <:+ (is.foldl (fun t i => t.sendBit (f i)) s).out.pins ∧
      (is.foldl (fun t i => t.sendBit (f i)) s).eoi = s.eoi ∧
      (is.foldl (fun t i => t.sendBit (f i)) s).buffer = s.buffer := by
  induction is with
  | nil => exact fun s => ⟨List.suffix_rfl, rfl, rfl⟩
  | cons i is ih =>
    intro s
    obtain ⟨hpins, heoi, hbuffer⟩ := sendBit_keeps_all (f i) s
    obtain ⟨hpins', heoi', hbuffer'⟩ := ih (s.sendBit (f i))
    exact ⟨hpins.trans hpins', heoi'.trans heoi, hbuffer'.trans hbuffer⟩

theorem Leaves.writeByte (b : Byte) : Leaves (writeByte b) :=
  (Leaves.act (f := State.sendBits b)
    (fun s => ((List.suffix_cons _ _).trans (sendBitList_keeps_all b.getLsbD (List.range 8) s.irqMask).1).trans
      (List.suffix_cons _ _))
    (fun s => (sendBitList_keeps_all b.getLsbD (List.range 8) s.irqMask).2.1)
    fun s => (sendBitList_keeps_all b.getLsbD (List.range 8) s.irqMask).2.2).bind fun _ => .waitOr _ _ _ _

theorem Leaves.doIf {c : Bool} {op : Engine Unit} (h : Leaves op) : Leaves (doIf c op) := by
  cases c
  · exact .act (f := id) (fun _ => List.suffix_rfl) (fun _ => rfl) fun _ => rfl
  · exact h

/-- One turn of the byte loop, whatever lines the block holds. -/
theorem Leaves.sendFramed (lastData : Bool) (b : Byte) : Leaves (sendFramed lastData b) :=
  (Leaves.pause _).bind fun _ => (Leaves.getLine _).bind fun _ => (Leaves.fail _).doIf.bind fun _ =>
    (Leaves.releaseLines _).bind fun _ => (Leaves.waitOr _ _ _ _).bind fun _ =>
      ((Leaves.waitOr _ _ _ _).bind fun _ => Leaves.waitOr _ _ _ _).doIf.bind fun _ =>
        (Leaves.assertLines _).bind fun _ => (Leaves.writeByte b).bind fun _ =>
          Leaves.countByte.bind fun _ => .pause _

/-- A bus byte row always answers a next state. -/
theorem exec_busByte_next {i : Instr} {b : Byte} (hi : encode i = .busByte b) (s : State) :
    ∃ t new, t.out.pins = new ++ s.out.pins ∧ exec i s = .next t ∧ t.eoi = s.eoi ∧ t.mode = s.mode ∧
      t.buffer = s.buffer := by
  have hframe := (Framed.sendFramed false b s).mode
  rw [exec_of_encode_busByte hi, sendBusByte]
  rw [after] at hframe
  obtain ⟨_, t, ht, ⟨new, hnew⟩, hkeeps⟩ | ⟨st, t, ht, ⟨new, hnew⟩, hkeeps⟩ := Leaves.sendFramed false b _ s rfl <;>
    obtain ⟨heoi, hbuffer⟩ := Prod.mk.inj hkeeps <;> rw [ht] at hframe ⊢
  · exact ⟨t, new, hnew.symm, rfl, heoi, hframe, hbuffer⟩
  · exact ⟨{ t with status := st.code, value := byteOfCount t.count }, new, hnew.symm, rfl, heoi, hframe, hbuffer⟩

/-- Settles O49: the three ways a turn fails. -/
theorem busByteNeedsADevice : Obligations.BusByteNeedsADevice := by
  intro i b s hi hirq hstep
  obtain ⟨t, new, hnew, ht, hkeeps⟩ := exec_busByte_next hi s
  refine ⟨t, new, hnew, ht, fun habsent => ?_, fun hheld => ?_, fun hdata h0 h1 hnak => ?_, hkeeps⟩
  · rw [peerAt_eq] at habsent
    exact exec_of_turnFails hi hirq rfl (turnFails_of_absent b habsent) ht hnew
  · simp only [peerAt_eq] at hheld
    exact exec_of_turnFails hi hirq rfl (turnFails_of_held hirq hstep hheld) ht hnew
  · simp only [peerAt_eq] at h0 h1 hnak
    exact exec_of_turnFails hi hirq rfl (turnFails_of_nak hirq hdata ⟨h0, h1, nofun, nofun⟩ hstep hnak) ht hnew

end Sys2Proof.Proofs.BusBytes
end

section
/-! PROOF. Requests that write to the bus (42_bus_session.md R172 to R193, 44_async_handler.md R267, R268): from the
request's operation to what the handler entry leaves. -/

namespace Sys2Proof.Proofs.Requests

open Sys2Proof Sys2Proof.Machine Sys2Proof.Safety Sys2Proof.Proofs.Handler Sys2Proof.Proofs.Timeless
open Sys2Proof.Proofs.Deferred

/-- What the handler entry makes of the operation that a request runs. -/
theorem handle_of_gives {V : Type} {f : State → V} {s : State} {op : Engine Unit} {Q : Unit → V → Prop}
    {E : Status → V → Prop} (hp : pendingMode s.mode = true) (hop : requestOp s s = withCount op s)
    (h : Gives f op (f s) Q E) :
    ∃ st u, handle s = .next (finished s st (byteOfCount u.count) u) ∧ s.out.pins <:+ u.out.pins ∧
      (st = .ok ∧ Q () (f u) ∨ E st (f u)) := by
  obtain ⟨_, u, hu, hpins, hQ⟩ | ⟨st, u, hu, hpins, hE⟩ := h s rfl
  · exact ⟨.ok, u, handle_of_ok hp (hop.trans (withCount_of_ok hu)), hpins, .inl ⟨rfl, hQ⟩⟩
  · exact ⟨st, u, handle_of_failed hp (hop.trans (withCount_of_error hu)), hpins, .inr hE⟩

/-- Bytes that stand at the start of the buffer are read from it. -/
theorem readBuffer_of_bytes {s : State} {bytes : List Byte} {n : Nat} (hn : n = bytes.length)
    (hroom : n ≤ s.cfg.bufSize) (hbytes : ∀ k (h : k < bytes.length), s.buffer.get? k = some bytes[k]) :
    readBuffer 0 n s = .ok bytes s := by
  have hread : s.memRead 0 n = .ok bytes := by
    rw [State.memRead_ok_iff]
    exact ⟨by omega, hn.symm, fun i hi => by rw [Nat.zero_add]; exact hbytes i hi⟩
  rw [readBuffer, hread]

/-- The bytes that a request's operation may read. -/
theorem exists_bytes {s : State} (h : Inv s) {n : Nat} (hn : n ≤ s.cfg.bufSize) (hvalid : n ≤ validBytes s) :
    ∃ bytes : List Byte, bytes.length = n ∧ ∀ k (h : k < bytes.length), s.buffer.get? k = some bytes[k] := by
  obtain ⟨bytes, hread, hlen⟩ := State.memRead_written (s := s) (addr := 0) (n := n) (by omega) fun a _ ha =>
    h.buffer.2 a (by omega)
  refine ⟨bytes, hlen, fun k hk => ?_⟩
  obtain ⟨-, -, hget⟩ := (State.memRead_ok_iff _ _ _ _).mp hread
  rw [← hget k hk, Nat.zero_add]

/-- Between two steps the byte count is 0 already (R42). -/
theorem clearCount_of_inv {s : State} (h : Inv s) : clearCount s = .ok () s := by
  obtain ⟨-, hcount, -⟩ := h.quiet
  show EStateM.Result.ok () { s with count := 0 } = _
  rw [← hcount]

theorem view_of_inv {s : State} (h : Inv s) : (view s).irqOff = false ∧ (view s).count = 0 :=
  ⟨h.quiet.1, h.quiet.2.1⟩

theorem withCount_congr {op op' : Engine Unit} {s : State} (h : op s = op' s) : withCount op s = withCount op' s := by
  unfold withCount
  cases hop : op' s with
  | ok a t => rw [engine_bind_ok (h.trans hop) rfl, engine_bind_ok hop rfl]
  | error e t => rw [engine_bind_error (h.trans hop), engine_bind_error hop]

/-- The operation of a WRITE request on its payload (R267). -/
theorem requestOp_write {s : State} {bytes : List Byte} (h : Inv s) (hmode : s.mode = .write)
    (hfill : s.fill.toNat = bytes.length) (hbytes : ∀ k (h : k < bytes.length), s.buffer.get? k = some bytes[k]) :
    requestOp s s = withCount (writeOp s.proto bytes) s := by
  have hrun : writeRequest s s = writeOp s.proto bytes s :=
    engine_bind_ok (readBuffer_of_bytes hfill h.request.2.1 hbytes) rfl
  rw [requestOp_of_write hmode]
  exact withCount_congr hrun

/-- The same, the payload being whatever the buffer holds. -/
theorem exists_payload {s : State} (h : Inv s) (hmode : s.mode = .write) :
    ∃ bytes : List Byte, s.fill.toNat = bytes.length ∧ ∀ k (h : k < bytes.length), s.buffer.get? k = some bytes[k] := by
  obtain ⟨bytes, hlen, hget⟩ := exists_bytes h h.request.2.1 (by rw [validBytes, hmode])
  exact ⟨bytes, hlen.symm, hget⟩

/-- A deferred command that reads its `n` bytes and then runs `op` on them (R268). -/
theorem requestOp_deferred {s : State} {bytes : List Byte} {n : Nat} {op : List Byte → Engine Unit} (h : Inv s)
    (hmode : s.mode = .async) (hn : n = bytes.length) (hroom : n ≤ 2)
    (hbytes : ∀ k (h : k < bytes.length), s.buffer.get? k = some bytes[k])
    (hop : asyncOp s.acmd = clearCount >>= fun _ => readBuffer 0 n >>= fun bs => withCount (op bs)) :
    requestOp s s = withCount (op bytes) s := by
  obtain ⟨-, -, -, hcap, -⟩ := (wf_iff _).mp h.config
  rw [requestOp_of_async hmode, hop]
  exact engine_bind_ok (clearCount_of_inv h) (engine_bind_ok (readBuffer_of_bytes hn (by omega) hbytes) rfl)

/-- The addressing commands' codes: how many bytes they take and what they do with them (R268). -/
inductive Addressing : Byte → Nat → (List Byte → Engine Unit) → Prop
  | talk : Addressing 3 2 addressTalker
  | listen : Addressing 4 2 addressListener
  | untalk : Addressing 5 1 endBracket
  | unlisten : Addressing 6 1 endBracket
  | openDev : Addressing 7 2 addressListener
  | closeDev : Addressing 8 2 addressListener

section
variable {acmd : Byte} {n : Nat} {op : List Byte → Engine Unit}

theorem Addressing.asyncOp_eq (h : Addressing acmd n op) :
    asyncOp acmd = clearCount >>= fun _ => readBuffer 0 n >>= fun bs => withCount (op bs) := by
  cases h <;> rfl

theorem Addressing.asyncBytes_eq (h : Addressing acmd n op) : asyncBytes acmd = some n := by cases h <;> rfl

theorem Addressing.le_two (h : Addressing acmd n op) : n ≤ 2 := by cases h <;> decide

/-- Each of them is a write under ATN and something after it. -/
theorem Addressing.op_eq (h : Addressing acmd n op) :
    ∃ (talk : Bool) (k : Unit → Engine Unit), ∀ bytes, op bytes = rawWrite bytes true talk >>= k := by
  cases h <;> exact ⟨_, _, fun _ => rfl⟩

end

/-! ## The presence check (R173) -/

/-- The line drives of a sender at the presence check. -/
def startDrive (atn : Bool) (d : LineMask) : LineMask :=
  (d &&& ~~~Line.data) ||| (Line.clock ||| if atn then Line.atn else 0)

theorem startDrive_spec (atn : Bool) (d : LineMask) :
    startDrive atn d &&& Line.data = 0 ∧ startDrive atn d ||| Line.clock = startDrive atn d ∧
      startDrive atn d &&& Line.reset = d &&& Line.reset ∧
      startDrive atn d &&& Line.atn = (if atn then Line.atn else d &&& Line.atn) := by
  revert atn d
  decide

/-- The view at the presence check (R172). -/
def begun (atn : Bool) (v : View) : View :=
  { v.moved 0 (startDrive atn v.drive) [v.entry (startDrive atn v.drive), v.entry (v.drive &&& ~~~Line.data)] with
    eoi := false
    count := 0
    busState := if atn then .busyAtn else v.busState }

theorem peer_begun (atn : Bool) (v : View) (k : Nat) : (begun atn v).peer k = v.peer k :=
  (View.peer_moved 0 0 [] v k).trans (by rw [Nat.zero_add])

theorem beginRawWrite_of_wait {atn : Bool} {v : View} {Q : Unit → View → Prop} {E : Status → View → Prop}
    (h : Gives view (waitOr Line.data Line.data (·.tAck) .noDevice) (begun atn v) Q E) :
    Gives view (beginRawWrite atn) v Q E := by
  have hclear : Does view (act fun s => { s.clearEoi with count := 0 }) v () { v with eoi := false, count := 0 } :=
    Does.act (fun _ => List.suffix_rfl) fun s hs => by rw [← hs]; rfl
  refine hclear.bind_gives ((Does.releaseLines _ _).bind_gives ((Does.assertLines _ _).bind_gives ?_))
  rw [View.draw_eq, View.draw_eq, View.moved_moved]
  cases atn with
  | false => exact (Does.doIf_false _).bind_gives h
  | true => exact (Does.doIf_true (Does.setBusState _ .busyAtn)).bind_gives h

/-- Nobody answers the presence check (R178). -/
theorem rawWrite_noDevice {v : View} (bytes : List Byte) (atn talk : Bool) (hstep : 0 < v.cfg.tPollStep)
    (h : ∀ k, k ≤ v.cfg.tAck / v.cfg.tPollStep + 1 → v.peer k &&& Line.data = 0) :
    Gives view (rawWrite bytes atn talk) v (fun _ _ => False)
      fun st w => st = .noDevice ∧ ∃ k, w = ((begun atn v).skip k).failed .noDevice := by
  obtain ⟨hdata, -⟩ := startDrive_spec atn v.drive
  refine Gives.bind (beginRawWrite_of_wait (Gives.mono (Gives.waitOr_times_out (v := begun atn v) (·.tAck) .noDevice
    hstep fun k hk => ?_) (fun _ _ h => h) ?_)) nofun
  · rw [ne_eq, Sender.and_data_eq_iff, not_not, peer_begun]
    exact (Sender.or_and_data hdata _).trans (h k hk)
  · rintro st w ⟨rfl, k, rfl⟩
    exact ⟨rfl, k, rfl⟩

/-- The codes of the addressing commands. -/
theorem exists_addressing {acmd : Byte}
    (h : acmd = 3 ∨ acmd = 4 ∨ acmd = 5 ∨ acmd = 6 ∨ acmd = 7 ∨ acmd = 8) : ∃ n op, Addressing acmd n op := by
  rcases h with rfl | rfl | rfl | rfl | rfl | rfl
  · exact ⟨_, _, .talk⟩
  · exact ⟨_, _, .listen⟩
  · exact ⟨_, _, .untalk⟩
  · exact ⟨_, _, .unlisten⟩
  · exact ⟨_, _, .openDev⟩
  · exact ⟨_, _, .closeDev⟩

/-- An ORIGINAL write is a `raw_write` without ATN (R142). -/
theorem requestOp_rawWrite {s : State} {bytes : List Byte} (h : Inv s) (hmode : s.mode = .write)
    (hproto : s.proto = .s1) (hfill : s.fill.toNat = bytes.length)
    (hbytes : ∀ k (h : k < bytes.length), s.buffer.get? k = some bytes[k]) :
    requestOp s s = withCount (rawWrite bytes false false) s := by
  rw [requestOp_write h hmode hfill hbytes, hproto, writeOp_s1]
  exact withCount_congr (engine_bind_ok (clearCount_of_inv h) rfl)

/-- The requests that start with a write to the bus. -/
theorem exists_rawWrite {s : State} (h : Inv s)
    (hreq : s.mode = .async ∧ (s.acmd = 3 ∨ s.acmd = 4 ∨ s.acmd = 5 ∨ s.acmd = 6 ∨ s.acmd = 7 ∨ s.acmd = 8) ∨
      s.mode = .write ∧ s.proto = .s1) :
    ∃ (bytes : List Byte) (atn talk : Bool) (k : Unit → Engine Unit),
      requestOp s s = withCount (rawWrite bytes atn talk >>= k) s := by
  obtain ⟨hmode, hacmd⟩ | ⟨hmode, hproto⟩ := hreq
  · obtain ⟨n, op, haddr⟩ := exists_addressing hacmd
    have hreq := h.request.2.2
    rw [hmode] at hreq
    have hn : n = s.fill.toNat := Option.some.inj (haddr.asyncBytes_eq.symm.trans hreq)
    obtain ⟨bytes, hlen, hget⟩ := exists_bytes h (n := n) (hn ▸ h.request.2.1) (by rw [validBytes, hmode, hn])
    obtain ⟨talk, k, hop⟩ := haddr.op_eq
    exact ⟨bytes, true, talk, k,
      hop bytes ▸ requestOp_deferred h hmode hlen.symm haddr.le_two hget haddr.asyncOp_eq⟩
  · obtain ⟨bytes, hfill, hbytes⟩ := exists_payload h hmode
    exact ⟨bytes, false, false, pure, by rw [bind_pure]; exact requestOp_rawWrite h hmode hproto hfill hbytes⟩

/-- Settles O46: the operation ends at its presence check. -/
theorem noDeviceOnTheBus : Obligations.NoDeviceOnTheBus := by
  intro s h hreq hpeer
  obtain ⟨hstep, -⟩ := (wf_iff _).mp h.config
  obtain ⟨hirq, -⟩ := view_of_inv h
  obtain ⟨bytes, atn, talk, k, hop⟩ := exists_rawWrite h hreq
  have hmode : pendingMode s.mode = true ∧ s.mode ≠ .read := by
    obtain ⟨hmode, -⟩ | ⟨hmode, -⟩ := hreq <;> rw [hmode] <;> exact ⟨rfl, nofun⟩
  simp only [peerAt_eq] at hpeer
  have hgives : Gives view (rawWrite bytes atn talk >>= k) (view s) (fun _ _ => False) _ :=
    Gives.bind (rawWrite_noDevice bytes atn talk hstep hpeer) nofun
  obtain ⟨st, u, hu, -, ⟨-, hno⟩ | ⟨rfl, n, hview⟩⟩ := handle_of_gives hmode.1 hop hgives
  · exact hno.elim
  rw [Sender.failed_of_releasesLines rfl (by exact hirq)] at hview
  obtain ⟨-, -, hreset, -⟩ := startDrive_spec atn s.drive
  refine ⟨_, hu, ?_⟩
  simp only [finished_mode, if_neg hmode.2, finished_status, finished_value, finished_drive, finished_busState,
    finished_eoi, finished_evEntries, finished_evHead, finished_buffer, Primitives.logEvent_eq]
  refine ⟨trivial, rfl, ?_, ?_, congrArg View.busState hview, congrArg View.eoi hview,
    congrArg View.evEntries hview, congrArg View.evHead hview, congrArg View.buffer hview⟩
  · exact congrArg byteOfCount (congrArg View.count hview)
  · exact (congrArg View.drive hview).trans hreset

end Sys2Proof.Proofs.Requests
end

section
/-! PROOF. The byte loop of `raw_write` with a ready listener (42_bus_session.md R172 to R178), and what a write request
or an addressing command leaves then. -/

namespace Sys2Proof.Proofs.Writes

open Sys2Proof Sys2Proof.Machine Sys2Proof.Safety Sys2Proof.Proofs.Handler Sys2Proof.Proofs.Timeless
open Sys2Proof.Proofs.Sender Sys2Proof.Proofs.Requests

/-- After `n` samples, the line drives `d`, the entries `l` and a byte count. -/
abbrev counted (n : Nat) (d : LineMask) (l : List Pins) (c : Nat) (v : View) : View := { v.moved n d l with count := c }

theorem counted_counted (n n' : Nat) (d d' : LineMask) (l l' : List Pins) (c c' : Nat) (v : View) :
    counted n' d' l' c' (counted n d l c v) = counted (n + n') d' (l' ++ l) c' v :=
  congrArg (fun w : View => { w with count := c' }) (View.moved_moved n d l v n' d' l')

theorem peer_counted (n : Nat) (d : LineMask) (l : List Pins) (c : Nat) (v : View) (k : Nat) :
    (counted n d l c v).peer k = v.peer (n + k) := View.peer_moved n d l v k

/-- The listener takes the byte whose turn begins with sample `k` (R174). -/
def Takes (v : View) (k : Nat) : Prop :=
  v.peer k &&& Line.data ≠ 0 ∧ v.peer (k + 1) &&& Line.data = 0 ∧ v.peer (k + 2) &&& Line.data ≠ 0

/-- Bytes that the listener takes, before others or under ATN, so that none of them carries EOI. -/
theorem sendFramedEach_append {atn : Bool} {rest : List Byte} (hlast : atn = true ∨ rest ≠ [])
    {Q : Unit → View → Prop} {E : Status → View → Prop} (bytes : List Byte) :
    ∀ {v : View}, v.irqOff = false → v.drive &&& Line.data = 0 → v.drive ||| Line.clock = v.drive →
      (∀ i, i < bytes.length → Takes v (3 * i)) →
      (∀ l, OnWire (v.drive &&& Line.atn) (bytes.flatMap bitsOf) l →
        Gives view (sendFramedEach atn rest) (counted (3 * bytes.length) v.drive l (v.count + bytes.length) v) Q E) →
      Gives view (sendFramedEach atn (bytes ++ rest)) v Q E := by
  induction bytes with
  | nil =>
    intro v _ _ _ _ h
    exact View.skip_zero v ▸ h [] (.nil _)
  | cons b bytes ih =>
    intro v hirq hdata hclock htakes h
    have hfalse : ((bytes ++ rest).isEmpty && !atn) = false := by
      obtain rfl | hne := hlast
      · simp
      · cases bytes <;> cases rest <;> simp at hne ⊢
    obtain ⟨hpresent, hgo, hack⟩ := htakes 0 (Nat.succ_pos _)
    rw [List.cons_append, sendFramedEach, hfalse]
    refine (sendFramed_ok (lastData := false) b hirq hdata ⟨hpresent, hgo, nofun, nofun⟩ hack E).bind ?_
    rintro - w ⟨l, hl, rfl⟩
    rw [hclock]
    have hdrive : (counted 3 v.drive l (v.count + 1) v).drive = v.drive := rfl
    refine ih (v := counted 3 v.drive l (v.count + 1) v) hirq hdata hclock (fun i hi => ?_) fun l' hl' => ?_
    · have htake := htakes (i + 1) (Nat.succ_lt_succ hi)
      simp only [Takes, peer_counted]
      rwa [Takes, Nat.mul_succ, Nat.add_comm (3 * i) 3] at htake
    · have hgoal := h (l' ++ l) (by rw [List.flatMap_cons]; exact hl.append hl')
      rw [counted_counted]
      rw [List.length_cons] at hgoal
      rw [hdrive]
      have hcount : v.count + 1 + bytes.length = v.count + (bytes.length + 1) := by omega
      show Gives view _ (counted _ _ _ (v.count + 1 + bytes.length) v) Q E
      rw [hcount, Nat.add_comm 3]
      exact hgoal

/-- Bytes under ATN. -/
theorem sendFramedEach_ok {v : View} {bytes : List Byte} (hirq : v.irqOff = false) (hdata : v.drive &&& Line.data = 0)
    (hclock : v.drive ||| Line.clock = v.drive) (htakes : ∀ i, i < bytes.length → Takes v (3 * i))
    (E : Status → View → Prop) :
    Gives view (sendFramedEach true bytes) v (fun _ w => ∃ l, OnWire (v.drive &&& Line.atn) (bytes.flatMap bitsOf) l ∧
      w = counted (3 * bytes.length) v.drive l (v.count + bytes.length) v) E := by
  have h := sendFramedEach_append (rest := []) (.inl rfl) bytes hirq hdata hclock htakes fun l hl =>
    (Does.pure ()).gives (E := E) (Q := fun _ w => ∃ l, OnWire (v.drive &&& Line.atn) (bytes.flatMap bitsOf) l ∧
      w = counted (3 * bytes.length) v.drive l (v.count + bytes.length) v) ⟨l, hl, rfl⟩
  rwa [List.append_nil] at h

theorem ready_counted {lastData : Bool} {n : Nat} {v : View} (h : Ready lastData (v.skip n)) (d : LineMask)
    (l : List Pins) (c : Nat) : Ready lastData (counted n d l c v) := ⟨h.present, h.letsGo, h.pulse, h.pulseEnds⟩

/-- Data bytes, the EOI hold before the last. -/
theorem sendFramedEach_eoi_ok {v : View} {bytes : List Byte} (b : Byte) (hirq : v.irqOff = false)
    (hdata : v.drive &&& Line.data = 0) (hclock : v.drive ||| Line.clock = v.drive)
    (htakes : ∀ i, i < bytes.length → Takes v (3 * i))
    (hready : Ready true (v.skip (3 * bytes.length))) (hack : v.peer (3 * bytes.length + 4) &&& Line.data ≠ 0)
    (E : Status → View → Prop) :
    Gives view (sendFramedEach false (bytes ++ [b])) v (fun _ w => ∃ l,
      OnWire (v.drive &&& Line.atn) ((bytes ++ [b]).flatMap bitsOf) l ∧
        w = counted (3 * bytes.length + 5) v.drive l (v.count + (bytes.length + 1)) v) E := by
  refine sendFramedEach_append (.inr (by simp)) bytes hirq hdata hclock htakes fun l hl => ?_
  have hlast := sendFramed_ok (lastData := true)
    (v := counted (3 * bytes.length) v.drive l (v.count + bytes.length) v) b hirq hdata
    (ready_counted hready _ _ _) (by rw [peer_counted]; exact hack) E
  refine hlast.bind ?_
  rintro - w ⟨l', hl', rfl⟩
  refine (Does.pure ()).gives ⟨l' ++ l, ?_, ?_⟩
  · rw [List.flatMap_append, List.flatMap_singleton]
    exact hl.append hl'
  · show counted 5 _ l' _ (counted _ _ _ _ v) = _
    rw [counted_counted]
    show counted _ (v.drive ||| Line.clock) _ _ v = _
    rw [hclock]
    rfl

/-- The view after a write that ended well. -/
abbrev written (n : Nat) (d : LineMask) (l : List Pins) (c : Nat) (bus : BusState) (v : View) : View :=
  { v.moved n d l with eoi := false, count := c, busState := bus }

/-- The device has answered the presence check (R173). -/
theorem rawWrite_of_present {v : View} {buf : List Byte} {atn talk : Bool} {Q : Unit → View → Prop}
    {E : Status → View → Prop} (hpresent : v.peer 0 &&& Line.data ≠ 0)
    (h : Gives view (sendFramedEach atn buf >>= fun _ => endRawWrite talk) ((begun atn v).skip 1) Q E) :
    Gives view (rawWrite buf atn talk) v Q E := by
  refine Gives.bind (Q := fun _ w => w = (begun atn v).skip 1)
    (beginRawWrite_of_wait ((Does.waitOr _ _ ?_).gives rfl)) ?_
  · rw [and_data_eq_iff, peer_begun]
    exact or_and_data_ne _ hpresent
  · rintro - w rfl
    exact h

theorem release_atn_drive (atn : Bool) (d : LineMask) :
    startDrive atn d &&& ~~~Line.atn = (d &&& Line.reset) ||| Line.clock := by
  revert atn d
  decide

/-- The entries of the start of a write. -/
abbrev startEntries (atn : Bool) (v : View) : List Pins :=
  [startDrive atn v.drive, v.drive &&& ~~~Line.data].map v.entry

theorem counted_begun (atn : Bool) (v : View) (n : Nat) (d : LineMask) (l : List Pins) (c : Nat) :
    counted n d l c ((begun atn v).skip 1) =
      written (1 + n) d (l ++ startEntries atn v) c (if atn then .busyAtn else v.busState) v :=
  congrArg (fun w : View => { w with eoi := false, count := c, busState := if atn then .busyAtn else v.busState })
    ((congrArg (View.moved n d l) (View.skip_moved 0 (startDrive atn v.drive) (startEntries atn v) v 1)).trans
      (View.moved_moved _ _ _ v n d l))

/-- Line drives of a finished write. -/
theorem draw_written (n : Nat) (d d' : LineMask) (l : List Pins) (c : Nat) (bus : BusState) (v : View) :
    (written n d l c bus v).draw d' = written n d' (v.entry d' :: l) c bus v :=
  congrArg (fun w : View => { w with eoi := false, count := c, busState := bus })
    ((View.draw_eq d' (v.moved n d l)).trans (View.moved_moved _ _ _ v 0 d' _))

theorem releaseLines_written (m : LineMask) (n : Nat) (d : LineMask) (l : List Pins) (c : Nat) (bus : BusState)
    (v : View) : Does view (act (State.releaseLines m)) (written n d l c bus v) ()
      (written n (d &&& ~~~m) (v.entry (d &&& ~~~m) :: l) c bus v) :=
  (Does.releaseLines _ _).of_eq (draw_written n d _ l c bus v)

theorem skip_written (n k : Nat) (d : LineMask) (l : List Pins) (c : Nat) (bus : BusState) (v : View) :
    (written n d l c bus v).skip k = written (n + k) d l c bus v :=
  congrArg (fun w : View => { w with eoi := false, count := c, busState := bus }) (View.skip_moved n d l v k)

/-- The bytes have been sent: what the end of the write adds (R176). -/
theorem rawWrite_of_sent {v : View} {buf : List Byte} {atn talk : Bool} {n c : Nat} {bits : List Bool}
    {Q : Unit → View → Prop} {E : Status → View → Prop} (hirq : v.irqOff = false)
    (hpresent : v.peer 0 &&& Line.data ≠ 0)
    (hsent : Gives view (sendFramedEach atn buf) ((begun atn v).skip 1) (fun _ w => ∃ l,
      OnWire (startDrive atn v.drive &&& Line.atn) bits l ∧
        w = counted n (startDrive atn v.drive) l c ((begun atn v).skip 1)) E)
    (hend : ∀ l, OnWire (startDrive atn v.drive &&& Line.atn) bits l →
      Gives view (endRawWrite talk)
        (written (1 + n) (startDrive atn v.drive) l c (if atn then .busyAtn else v.busState) v) Q E) :
    Gives view (rawWrite buf atn talk) v Q E := by
  refine rawWrite_of_present hpresent (hsent.bind ?_)
  rintro - w ⟨l, hl, rfl⟩
  rw [counted_begun]
  exact hend _ ((OnWire.entries hirq _ _).append hl)

/-- Nothing is handed over: ATN is released. -/
theorem endRawWrite_ok {v : View} (hirq : v.irqOff = false) {n c : Nat} {atn : Bool} {bus : BusState} {bits : List Bool}
    {l : List Pins} (hl : OnWire (startDrive atn v.drive &&& Line.atn) bits l) (E : Status → View → Prop) :
    Gives view (endRawWrite false) (written n (startDrive atn v.drive) l c bus v) (fun _ w => ∃ l,
      OnWire (startDrive atn v.drive &&& Line.atn) bits l ∧
        w = written n ((v.drive &&& Line.reset) ||| Line.clock) l c bus v) E := by
  have hrelease := releaseLines_written Line.atn n (startDrive atn v.drive) l c bus v
  rw [release_atn_drive] at hrelease
  exact hrelease.bind_gives ((Does.pause _ _).gives ⟨_, hl.cons_entry hirq _, rfl⟩)

theorem turnAround_drive (d : LineMask) :
    ((startDrive true d ||| Line.data) &&& ~~~Line.atn) &&& ~~~Line.clock = (d &&& Line.reset) ||| Line.data := by
  revert d
  decide

theorem or_and_clock (d : LineMask) {p : LineMask} (h : p &&& Line.clock ≠ 0) :
    (d ||| p) &&& Line.clock = Line.clock := by
  revert d p
  decide

/-- The talk turnaround, the device taking CLOCK (R176). -/
theorem turnAround_ok {v : View} (hirq : v.irqOff = false) {n c : Nat} {bus : BusState} {bits : List Bool}
    {l : List Pins} (hl : OnWire (startDrive true v.drive &&& Line.atn) bits l) (hclock : v.peer n &&& Line.clock ≠ 0)
    (E : Status → View → Prop) :
    Gives view (endRawWrite true) (written n (startDrive true v.drive) l c bus v) (fun _ w => ∃ l,
      OnWire (startDrive true v.drive &&& Line.atn) bits l ∧
        w = written (n + 1) ((v.drive &&& Line.reset) ||| Line.data) l c bus v) E := by
  have hpeer : ∀ d l, (written n d l c bus v).peer 0 = v.peer n := fun d l => View.peer_moved n d l v 0
  have hdoes : Does view turnAround (written n (startDrive true v.drive) l c bus v) ()
      (written (n + 1) ((v.drive &&& Line.reset) ||| Line.data)
        (v.entry ((v.drive &&& Line.reset) ||| Line.data) ::
          v.entry ((startDrive true v.drive ||| Line.data) &&& ~~~Line.atn) ::
            v.entry (startDrive true v.drive ||| Line.data) :: l) c bus v) := by
    refine ((Does.assertLines _ _).bind ((Does.releaseLines _ _).bind ((Does.releaseLines _ _).bind
      (Does.waitOr _ _ ?_)))).of_eq ?_
    · simp only [draw_written, hpeer]
      exact or_and_clock _ hclock
    · simp only [draw_written, skip_written, View.moved_drive, turnAround_drive]
  exact Gives.bind (hdoes.gives (Q := fun _ w => w = _) rfl) fun _ w hw => (Does.pause w _).gives
    ⟨_, ((hl.cons_entry hirq _).cons_entry hirq _).cons_entry hirq _, hw⟩

end Sys2Proof.Proofs.Writes
end

section
/-! PROOF. Addressing commands and ORIGINAL writes carried out, and a NAK (42_bus_session.md R172 to R193). -/

namespace Sys2Proof.Proofs.Listener

open Sys2Proof Sys2Proof.Machine Sys2Proof.Safety Sys2Proof.Proofs.Handler Sys2Proof.Proofs.Timeless
open Sys2Proof.Proofs.Sender Sys2Proof.Proofs.Requests Sys2Proof.Proofs.Writes

/-! ## The listener's script -/

/-- An element of a list repeated. -/
theorem getD_flatten_replicate {α : Type} (xs : List α) (d : α) {j : Nat} (hj : j < xs.length) (n : Nat) :
    ∀ i, i < n → (List.replicate n xs).flatten.getD (xs.length * i + j) d = xs.getD j d := by
  induction n with
  | zero => exact fun i hi => absurd hi (Nat.not_lt_zero i)
  | succ n ih =>
    intro i hi
    rw [List.replicate_succ, List.flatten_cons]
    cases i with
    | zero => rw [Nat.mul_zero, Nat.zero_add, List.getD_append _ _ _ _ hj]
    | succ i =>
      rw [List.getD_append_right _ _ _ _ (by rw [Nat.mul_succ]; omega), Nat.mul_succ,
        show xs.length * i + xs.length + j - xs.length = xs.length * i + j by omega]
      exact ih i (Nat.lt_of_succ_lt_succ hi)

theorem readyListener_length (n : Nat) : (readyListener n).length = 1 + 3 * n := by
  simp [readyListener, List.length_flatten, Nat.add_comm, Nat.mul_comm]

theorem readyListener_getD {n i j : Nat} (hi : i < n) (hj : j < 3) :
    (readyListener n).getD (1 + 3 * i + j) 0 = [Line.data, 0, Line.data].getD j 0 := by
  rw [readyListener, show 1 + 3 * i + j = (3 * i + j) + 1 by omega, List.getD_cons_succ]
  exact getD_flatten_replicate [Line.data, 0, Line.data] 0 hj n i hi

/-- What the script says of the presence check and of `n` bytes (R173, R174). -/
structure Listens (v : View) (n : Nat) : Prop where
  present : v.peer 0 &&& Line.data ≠ 0
  takes : ∀ i, i < n → Takes v (1 + 3 * i)

theorem listens_of_script {v : View} {n m : Nat} (hm : 1 + 3 * n ≤ m) {ls : List LineMask}
    (hls : ∀ j, j < 1 + 3 * n → ls.getD j 0 = (readyListener n).getD j 0) (h : ∀ j, j < m → v.peer j = ls.getD j 0) :
    Listens v n := by
  have hpeer : ∀ j, j < 1 + 3 * n → v.peer j = (readyListener n).getD j 0 := fun j hj =>
    (h j (by omega)).trans (hls j hj)
  refine ⟨?_, fun i hi => ⟨?_, ?_, ?_⟩⟩
  · rw [hpeer 0 (by omega)]
    show Line.data &&& Line.data ≠ 0
    decide
  · rw [hpeer _ (by omega), ← Nat.add_zero (1 + 3 * i), readyListener_getD hi (by omega)]
    show Line.data &&& Line.data ≠ 0
    decide
  · rw [hpeer _ (by omega), readyListener_getD hi (by omega)]
    rfl
  · rw [hpeer _ (by omega), readyListener_getD hi (by omega)]
    show Line.data &&& Line.data ≠ 0
    decide

/-- The samples that a script begins with. -/
theorem peer_of_script {s : State} {ls rest : List LineMask} (h : s.inp.lines = ls ++ rest) (j : Nat)
    (hj : j < ls.length) : (view s).peer j = ls.getD j 0 := by
  rw [View.peer_of_lines (v := view s) h j hj, List.getD_eq_getElem _ _ hj]

/-! ## The addressing commands -/

/-- The samples after the presence check. -/
theorem takes_begun {v : View} {atn : Bool} {k : Nat} (h : Takes v (1 + k)) : Takes ((begun atn v).skip 1) k := by
  unfold Takes
  simp only [View.peer_skip, peer_begun, ← Nat.add_assoc]
  exact h

theorem begun_skip_spec (atn : Bool) (v : View) :
    ((begun atn v).skip 1).drive &&& Line.data = 0 ∧
      ((begun atn v).skip 1).drive ||| Line.clock = ((begun atn v).skip 1).drive := by
  obtain ⟨hdata, hclock, -⟩ := startDrive_spec atn v.drive
  exact ⟨hdata, hclock⟩

theorem release_clock_drive (d : LineMask) :
    ((d &&& Line.reset) ||| Line.clock) &&& ~~~Line.clock = (d &&& Line.reset) ||| 0 := by
  revert d
  decide

section
variable {v : View} {bytes : List Byte} (hirq : v.irqOff = false) (hlistens : Listens v bytes.length)
include hirq hlistens

/-- The byte loop under ATN, after the presence check. -/
theorem sent_under_atn (E : Status → View → Prop) :
    Gives view (sendFramedEach true bytes) ((begun true v).skip 1) (fun _ w => ∃ l,
      OnWire (startDrive true v.drive &&& Line.atn) (bytes.flatMap bitsOf) l ∧
        w = counted (3 * bytes.length) (startDrive true v.drive) l bytes.length ((begun true v).skip 1)) E := by
  obtain ⟨hdata, hclock⟩ := begun_skip_spec true v
  have h := sendFramedEach_ok (v := (begun true v).skip 1) (bytes := bytes) hirq hdata hclock
    (fun i hi => takes_begun (hlistens.takes i hi)) E
  rwa [show ((begun true v).skip 1).count = 0 from rfl, Nat.zero_add] at h

/-- LISTEN, OPEN and CLOSE (R188, R192, R193). -/
theorem addressListener_ok (E : Status → View → Prop) :
    Gives view (addressListener bytes) v (fun _ w => ∃ l,
      OnWire (startDrive true v.drive &&& Line.atn) (bytes.flatMap bitsOf) l ∧
        w = written (1 + 3 * bytes.length) ((v.drive &&& Line.reset) ||| Line.clock) l bytes.length .listening v)
      E := by
  refine (rawWrite_of_sent hirq hlistens.present (sent_under_atn hirq hlistens E) fun l hl =>
    endRawWrite_ok hirq hl E).bind ?_
  rintro - w ⟨l, hl, rfl⟩
  exact (Does.setBusState _ .listening).gives ⟨l, hl, rfl⟩

/-- TALK (R189). -/
theorem addressTalker_ok (hclock : v.peer (1 + 3 * bytes.length) &&& Line.clock ≠ 0) (E : Status → View → Prop) :
    Gives view (addressTalker bytes) v (fun _ w => ∃ l,
      OnWire (startDrive true v.drive &&& Line.atn) (bytes.flatMap bitsOf) l ∧
        w = written (1 + 3 * bytes.length + 1) ((v.drive &&& Line.reset) ||| Line.data) l bytes.length .talking v)
      E := by
  refine (rawWrite_of_sent hirq hlistens.present (sent_under_atn hirq hlistens E) fun l hl =>
    turnAround_ok hirq hl hclock E).bind ?_
  rintro - w ⟨l, hl, rfl⟩
  exact (Does.setBusState _ .talking).gives ⟨l, hl, rfl⟩

/-- UNTALK and UNLISTEN (R190, R191). -/
theorem endBracket_ok (E : Status → View → Prop) :
    Gives view (endBracket bytes) v (fun _ w => ∃ l,
      OnWire (startDrive true v.drive &&& Line.atn) (bytes.flatMap bitsOf) l ∧
        w = written (1 + 3 * bytes.length) ((v.drive &&& Line.reset) ||| 0) l bytes.length .free v) E := by
  refine (rawWrite_of_sent hirq hlistens.present (sent_under_atn hirq hlistens E) fun l hl =>
    endRawWrite_ok hirq hl E).bind ?_
  rintro - w ⟨l, hl, rfl⟩
  have hrelease := releaseLines_written Line.clock (1 + 3 * bytes.length) ((v.drive &&& Line.reset) ||| Line.clock) l
    bytes.length .busyAtn v
  rw [release_clock_drive] at hrelease
  exact hrelease.bind_gives ((Does.setBusState _ .free).gives ⟨_, hl.cons_entry hirq _, rfl⟩)

end

/-- What a request leaves whose bytes have all been taken. -/
theorem sent_outcome {s u : State} {n c : Nat} {d : LineMask} {l : List Pins} {bus : BusState} {bits : List Bool}
    {atn : LineMask} (hview : view u = written n d l c bus (view s)) (hpins : s.out.pins <:+ u.out.pins)
    (hl : OnWire atn bits l) :
    u.count = c ∧ u.eoi = false ∧ u.busState = bus ∧ u.drive = d ∧ u.inp.lines = s.inp.lines.drop n ∧
      u.buffer = s.buffer ∧ u.evEntries = s.evEntries ∧ ∃ new, u.out.pins = new ++ s.out.pins ∧
        originalBits new = bits ∧ ∀ e ∈ new, e.irqOff = true → e.drive &&& Line.atn = atn := by
  obtain ⟨new, hnew, hstill⟩ := exists_new_pins hpins (congrArg View.pins hview)
  refine ⟨congrArg View.count hview, congrArg View.eoi hview, congrArg View.busState hview, congrArg View.drive hview,
    congrArg View.lines hview, congrArg View.buffer hview, congrArg View.evEntries hview, new, hnew, ?_, fun e he => ?_⟩
  · rw [← hl.bits, ← hstill, originalBits_still]
  · exact hl.atn (still e) (hstill ▸ List.mem_map_of_mem he)

/-- The addressing command of a code, its script and what it leaves. -/
theorem addressing_ok {s : State} {bytes : List Byte} {extra rest : List LineMask} {lines : LineMask} {bus : BusState}
    (hirq : s.irqOff = false) (hlines : s.inp.lines = readyListener bytes.length ++ extra ++ rest)
    (hcmd : (s.acmd = 4 ∨ s.acmd = 7 ∨ s.acmd = 8) ∧ bytes.length = 2 ∧ extra = [] ∧ lines = Line.clock ∧
        bus = .listening ∨
      s.acmd = 3 ∧ bytes.length = 2 ∧ extra = [Line.clock] ∧ lines = Line.data ∧ bus = .talking ∨
      (s.acmd = 5 ∨ s.acmd = 6) ∧ bytes.length = 1 ∧ extra = [] ∧ lines = 0 ∧ bus = .free) :
    ∃ op, Addressing s.acmd bytes.length op ∧ Gives view (op bytes) (view s) (fun _ w => ∃ l,
      OnWire (startDrive true s.drive &&& Line.atn) (bytes.flatMap bitsOf) l ∧
        w = written (readyListener bytes.length ++ extra).length ((s.drive &&& Line.reset) ||| lines) l bytes.length bus
          (view s)) (fun _ _ => False) := by
  have hpeer := peer_of_script hlines
  have hlistens : Listens (view s) bytes.length := listens_of_script
    (by rw [List.length_append, readyListener_length]; omega)
    (fun j hj => List.getD_append _ _ _ _ (by rw [readyListener_length]; exact hj)) hpeer
  have hlength : (readyListener bytes.length ++ extra).length = 1 + 3 * bytes.length + extra.length := by
    rw [List.length_append, readyListener_length]
  rw [hlength]
  obtain ⟨hacmd, hn, rfl, rfl, rfl⟩ | ⟨hacmd, hn, rfl, rfl, rfl⟩ | ⟨hacmd, hn, rfl, rfl, rfl⟩ := hcmd
  · refine ⟨addressListener, ?_, addressListener_ok hirq hlistens _⟩
    rw [hn]
    rcases hacmd with h | h | h <;> rw [h] <;> constructor
  · refine ⟨addressTalker, ?_, addressTalker_ok hirq hlistens ?_ _⟩
    · rw [hn, hacmd]
      constructor
    · rw [hpeer _ (by rw [hlength]; exact Nat.lt_succ_self _), List.getD_append_right _ _ _ _
        (by rw [readyListener_length]), readyListener_length, Nat.sub_self]
      show Line.clock &&& Line.clock ≠ 0
      decide
  · refine ⟨endBracket, ?_, endBracket_ok hirq hlistens _⟩
    rw [hn]
    rcases hacmd with h | h <;> rw [h] <;> constructor

/-- Settles O50. -/
theorem commandBytesReachTheBus : Obligations.CommandBytesReachTheBus := by
  intro s bytes extra rest lines bus h hmode hbytes hlines hcmd
  obtain ⟨op, haddr, hgives⟩ := addressing_ok h.quiet.1 hlines hcmd
  have hop := requestOp_deferred h hmode rfl haddr.le_two hbytes haddr.asyncOp_eq
  obtain ⟨st, u, hu, hpins, ⟨rfl, l, hl, hview⟩ | hno⟩ := handle_of_gives (by rw [hmode]; rfl) hop hgives
  · obtain ⟨hcount, heoi, hbus, hdrive, hrest, hbuffer, hlog, new, hnew, hbits, hatn⟩ := sent_outcome hview hpins hl
    obtain ⟨-, -, -, hlevel⟩ := startDrive_spec true s.drive
    refine ⟨_, new, hu, ?_⟩
    simp only [finished_mode, hmode, finished_status, finished_value, finished_eoi, finished_busState, finished_drive,
      finished_inp, finished_out, finished_buffer, finished_evEntries]
    refine ⟨rfl, rfl, ?_, heoi, hbus, hdrive, ?_, hnew, hbits, fun e he hirq => ?_, hbuffer, hlog⟩
    · rw [hcount, byteOfCount_toNat (Nat.lt_of_le_of_lt haddr.le_two (by decide))]
    · rw [hrest, hlines, List.drop_left]
    · rw [hatn e he hirq, hlevel]
      show Line.atn ≠ 0
      decide
  · exact hno.elim

/-! ## ORIGINAL writes -/

theorem readyListenerEoi_length (n : Nat) : (readyListenerEoi n).length = 1 + 3 * n + 5 := by
  rw [readyListenerEoi, List.length_append, readyListener_length]
  rfl

/-- The script of the EOI hold (R175). -/
theorem readyListenerEoi_getD (n j : Nat) :
    (readyListenerEoi n).getD (1 + 3 * n + j) 0 = [Line.data, 0, Line.data, 0, Line.data].getD j 0 := by
  rw [readyListenerEoi, List.getD_append_right _ _ _ _ (by rw [readyListener_length]; omega), readyListener_length,
    Nat.add_sub_cancel_left]

theorem readyListenerEoi_getD_of_lt {n j : Nat} (hj : j < 1 + 3 * n) :
    (readyListenerEoi n).getD j 0 = (readyListener n).getD j 0 :=
  List.getD_append _ _ _ _ (by rw [readyListener_length]; exact hj)

/-- A listener that answers the EOI hold. -/
theorem ready_of_script {v : View} {n : Nat} (h : ∀ j, j < 1 + 3 * n + 4 → v.peer j = (readyListenerEoi n).getD j 0) :
    Ready true (((begun false v).skip 1).skip (3 * n)) := by
  have hpeer : ∀ j, j < 4 → (((begun false v).skip 1).skip (3 * n)).peer j =
      [Line.data, 0, Line.data, 0, Line.data].getD j 0 := fun j hj => by
    rw [View.peer_skip, View.peer_skip, peer_begun, ← Nat.add_assoc, h _ (by omega), readyListenerEoi_getD]
  refine ⟨?_, ?_, fun _ => ?_, fun _ => ?_⟩ <;> rw [hpeer _ (by decide)] <;> decide

/-- A payload sent to a listener that takes every byte of it (R172, R175). -/
theorem rawWrite_eoi_ok {v : View} {bytes : List Byte} {b : Byte} (hirq : v.irqOff = false)
    (h : ∀ j, j < 1 + 3 * bytes.length + 5 → v.peer j = (readyListenerEoi bytes.length).getD j 0)
    (E : Status → View → Prop) :
    Gives view (rawWrite (bytes ++ [b]) false false) v (fun _ w => ∃ l,
      OnWire (startDrive false v.drive &&& Line.atn) ((bytes ++ [b]).flatMap bitsOf) l ∧
        w = written (1 + 3 * bytes.length + 5) ((v.drive &&& Line.reset) ||| Line.clock) l (bytes.length + 1)
          v.busState v) E := by
  have hlistens : Listens v bytes.length := listens_of_script (by omega) (fun j hj => readyListenerEoi_getD_of_lt hj) h
  obtain ⟨hdata, hclock⟩ := begun_skip_spec false v
  have hsent := sendFramedEach_eoi_ok (v := (begun false v).skip 1) b hirq hdata hclock
    (fun i hi => takes_begun (hlistens.takes i hi)) (ready_of_script fun j hj => h j (by omega)) (by
      rw [View.peer_skip, peer_begun, ← Nat.add_assoc, h _ (by omega), readyListenerEoi_getD]
      decide) E
  rw [show ((begun false v).skip 1).count = 0 from rfl, Nat.zero_add] at hsent
  exact rawWrite_of_sent hirq hlistens.present hsent fun l hl => endRawWrite_ok hirq hl E

/-- Settles O51. -/
theorem writeReachesTheBus : Obligations.WriteReachesTheBus := by
  intro s bytes rest h hmode hproto hfill hbytes hlines
  have hop := requestOp_rawWrite h hmode hproto hfill hbytes
  have hrequest := h.request.2.2
  rw [hmode] at hrequest
  obtain ⟨-, hpos⟩ := hrequest
  have hcap : bytes.length ≤ 255 := by
    have := s.fill.isLt
    omega
  obtain ⟨init, b, rfl⟩ : ∃ init b, bytes = init ++ [b] := ⟨_, _,
    (List.dropLast_append_getLast (List.ne_nil_of_length_pos (by omega : 0 < bytes.length))).symm⟩
  rw [List.length_append, List.length_singleton, Nat.add_sub_cancel] at hlines
  have hgives := rawWrite_eoi_ok (v := view s) (b := b) h.quiet.1
    (fun j hj => peer_of_script hlines j (by rw [readyListenerEoi_length]; exact hj)) fun _ _ => False
  obtain ⟨st, u, hu, hpins, ⟨rfl, l, hl, hview⟩ | hno⟩ := handle_of_gives (by rw [hmode]; rfl) hop hgives
  · obtain ⟨hcount, heoi, hbus, hdrive, hrest, -, -, new, hnew, hbits, -⟩ := sent_outcome hview hpins hl
    refine ⟨_, new, hu, ?_⟩
    simp only [finished_mode, hmode, finished_status, finished_value, finished_eoi, finished_busState, finished_drive,
      finished_inp, finished_out]
    refine ⟨rfl, rfl, ?_, heoi, hbus, hdrive, ?_, hnew, hbits⟩
    · rw [List.length_append, List.length_singleton] at hcap ⊢
      rw [hcount, byteOfCount_toNat (by omega)]
    · rw [hrest, hlines, ← readyListenerEoi_length, List.drop_left]
  · exact hno.elim

/-! ## A NAK -/

/-- The listener takes `bytes` and not the byte after them (R178). -/
theorem sendFramedEach_nak {v : View} {bytes rest : List Byte} {b : Byte} (hirq : v.irqOff = false)
    (hdata : v.drive &&& Line.data = 0) (hclock : v.drive ||| Line.clock = v.drive)
    (htakes : ∀ i, i < bytes.length → Takes v (3 * i)) (hready : Ready rest.isEmpty (v.skip (3 * bytes.length)))
    (hstep : 0 < v.cfg.tPollStep)
    (hnak : ∀ j, j ≤ v.cfg.tAck / v.cfg.tPollStep + 1 →
      v.peer (3 * bytes.length + holds rest.isEmpty + j) &&& Line.data = 0) :
    Gives view (sendFramedEach false (bytes ++ b :: rest)) v (fun _ _ => False) (fun st w => st = .nak ∧
      ∃ n l, w = (counted n v.drive l (v.count + bytes.length) v).failed .nak) := by
  refine sendFramedEach_append (.inr (by simp)) bytes hirq hdata hclock htakes fun l hl => ?_
  have hlast := sendFramed_nak (v := counted (3 * bytes.length) v.drive l (v.count + bytes.length) v) b hirq hdata
    (ready_counted hready _ _ _) hstep fun j hj => by
      rw [peer_counted, ← Nat.add_assoc]
      exact hnak j hj
  rw [sendFramedEach, Bool.not_false, Bool.and_true]
  refine Gives.bind (Gives.mono hlast (fun _ _ h => h) ?_) nofun
  rintro st w ⟨rfl, k, l', -, rfl⟩
  refine ⟨rfl, 3 * bytes.length + k, l' ++ l, congrArg _ ?_⟩
  show (counted _ _ _ _ v).moved k (v.drive ||| Line.clock) l' = _
  rw [hclock]
  exact counted_counted _ _ _ _ _ _ _ _ v

/-- A payload of which the listener takes `bytes` and no more. -/
theorem rawWrite_nak {v : View} {bytes rest : List Byte} {b : Byte} (hirq : v.irqOff = false)
    (hlistens : Listens v bytes.length)
    (hready : Ready rest.isEmpty (((begun false v).skip 1).skip (3 * bytes.length))) (hstep : 0 < v.cfg.tPollStep)
    (hnak : ∀ j, j ≤ v.cfg.tAck / v.cfg.tPollStep + 1 →
      v.peer (1 + 3 * bytes.length + holds rest.isEmpty + j) &&& Line.data = 0) :
    Gives view (rawWrite (bytes ++ b :: rest) false false) v (fun _ _ => False) (fun st w => st = .nak ∧
      ∃ n l, w = (written n (startDrive false v.drive) l bytes.length v.busState v).failed .nak) := by
  obtain ⟨hdata, hclock⟩ := begun_skip_spec false v
  have hsent := sendFramedEach_nak (v := (begun false v).skip 1) (b := b) hirq hdata hclock
    (fun i hi => takes_begun (hlistens.takes i hi)) hready hstep fun j hj => by
      rw [View.peer_skip, peer_begun, ← Nat.add_assoc, ← Nat.add_assoc]
      exact hnak j hj
  rw [show ((begun false v).skip 1).count = 0 from rfl, Nat.zero_add] at hsent
  refine rawWrite_of_present hlistens.present (Gives.bind (Gives.mono hsent (fun _ _ h => h) ?_) nofun)
  rintro st w ⟨rfl, n, l, rfl⟩
  exact ⟨rfl, _, _, congrArg _ (counted_begun false v n _ l _)⟩

theorem readyListener_succ_getD_of_lt {n j : Nat} (hj : j < 1 + 3 * n) :
    (readyListener (n + 1)).getD j 0 = (readyListener n).getD j 0 := by
  have hsucc : readyListener (n + 1) = readyListener n ++ [Line.data, 0, Line.data] := by
    simp [readyListener, List.replicate_succ', List.flatten_append]
  rw [hsucc, List.getD_append _ _ _ _ (by rw [readyListener_length]; exact hj)]

/-- The listener is ready for one more byte, not the last. -/
theorem ready_of_listener {v : View} {n : Nat}
    (h : ∀ j, j < 1 + 3 * n + 2 → v.peer j = (readyListener (n + 1)).getD j 0) :
    Ready false (((begun false v).skip 1).skip (3 * n)) := by
  have hpeer : ∀ j, j < 2 → (((begun false v).skip 1).skip (3 * n)).peer j = [Line.data, 0, Line.data].getD j 0 :=
    fun j hj => by
      rw [View.peer_skip, View.peer_skip, peer_begun, ← Nat.add_assoc, h _ (by omega),
        readyListener_getD (Nat.lt_succ_self n) (by omega)]
  refine ⟨?_, ?_, nofun, nofun⟩ <;> rw [hpeer _ (by decide)] <;> decide

/-- Settles O47. -/
theorem nakReportsExactCount : Obligations.NakReportsExactCount := by
  intro s k n h hmode hproto hscript hnak
  obtain ⟨hstep, -⟩ := (wf_iff _).mp h.config
  obtain ⟨bytes, hfill, hbytes⟩ := exists_payload h hmode
  have hop := requestOp_rawWrite h hmode hproto hfill hbytes
  simp only [peerAt_eq] at hscript hnak
  have hk : k < bytes.length := by omega
  have hsplit : bytes = bytes.take k ++ bytes[k] :: bytes.drop (k + 1) := by
    rw [← List.drop_eq_getElem_cons hk, List.take_append_drop]
  have hlen : (bytes.take k).length = k := List.length_take_of_le (by omega)
  obtain ⟨hlistens, hready, hn⟩ : Listens (view s) k ∧
      Ready (bytes.drop (k + 1)).isEmpty (((begun false (view s)).skip 1).skip (3 * k)) ∧
      n = 1 + 3 * k + holds (bytes.drop (k + 1)).isEmpty := by
    obtain ⟨hmore, rfl, hpeer⟩ | ⟨hlast, rfl, hpeer⟩ := hscript
    · have hrest : (bytes.drop (k + 1)).isEmpty = false := by
        rw [List.isEmpty_eq_false_iff, ne_eq, List.drop_eq_nil_iff]
        omega
      rw [hrest]
      exact ⟨listens_of_script (by omega) (fun j hj => readyListener_succ_getD_of_lt hj) hpeer,
        ready_of_listener fun j hj => hpeer j (by omega), by show 3 * k + 3 = 1 + 3 * k + 2; omega⟩
    · have hrest : (bytes.drop (k + 1)).isEmpty = true := by
        rw [List.isEmpty_iff, List.drop_eq_nil_iff]
        omega
      rw [hrest]
      exact ⟨listens_of_script (by omega) (fun j hj => readyListenerEoi_getD_of_lt hj) hpeer,
        ready_of_script fun j hj => hpeer j (by omega), by show 3 * k + 5 = 1 + 3 * k + 4; omega⟩
  subst hn
  have hgives := rawWrite_nak (v := view s) (bytes := bytes.take k) (b := bytes[k]) (rest := bytes.drop (k + 1))
    h.quiet.1 (by rwa [hlen]) (by rwa [hlen]) hstep (by rwa [hlen])
  rw [← hsplit, hlen] at hgives
  obtain ⟨st, u, hu, -, ⟨-, hno⟩ | ⟨rfl, m, l, hview⟩⟩ := handle_of_gives (by rw [hmode]; rfl) hop hgives
  · exact hno.elim
  rw [failed_of_releasesLines rfl (by exact h.quiet.1)] at hview
  obtain ⟨-, -, hreset, -⟩ := startDrive_spec false s.drive
  refine ⟨_, hu, ?_⟩
  simp only [finished_mode, hmode, finished_status, finished_value, finished_drive, finished_busState]
  refine ⟨rfl, rfl, ?_, (congrArg View.drive hview).trans hreset, congrArg View.busState hview⟩
  rw [show u.count = k from congrArg View.count hview]
  exact BitVec.eq_of_toNat_eq (by
    have hlt : k < 256 := by
      have := s.fill.isLt
      omega
    rw [byteOfCount_toNat hlt, BitVec.toNat_ofNat, Nat.mod_eq_of_lt hlt])

end Sys2Proof.Proofs.Listener
end

section
/-! PROOF. Blocks of bytes without framing (41_wire_modes.md R152, R153, R157, R158, R161, R162): what is read off the
record, the store of a received byte, and the two loops, whatever a byte does. -/

namespace Sys2Proof.Proofs.Blocks

open Sys2Proof Sys2Proof.Machine Sys2Proof.Safety Sys2Proof.Proofs.Handler Sys2Proof.Proofs.Timeless
open Sys2Proof.Proofs.Deferred Sys2Proof.Proofs.Requests

/-! ## Readings of the record -/

section
variable {β : Type} {f : Bool → List Pins → List β} {a b c : Bool} {old new : List Pins} {x y : List β}

/-- In this stretch of the record the reading `f` finds `out`, going from one level to another. -/
def Reads (f : Bool → List Pins → List β) (a : Bool) (l : List Pins) (b : Bool) (out : List β) : Prop :=
  ∀ later, f a (l.reverse ++ later) = out ++ f b later

theorem Reads.nil : Reads f a [] a [] := fun _ => rfl

theorem Reads.append (h : Reads f a old b x) (h' : Reads f b new c y) : Reads f a (new ++ old) c (x ++ y) :=
  fun later => by rw [List.reverse_append, List.append_assoc, h, h', List.append_assoc]

theorem Reads.cons {p : Pins} (h : Reads f a old b x) (h' : Reads f b [p] c y) : Reads f a (p :: old) c (x ++ y) :=
  h.append h'

theorem Reads.all (h : Reads f a old b x) (hnil : f b [] = []) : f a old.reverse = x := by
  rw [← List.append_nil old.reverse, h, hnil, List.append_nil]

end

section
variable {p : Pins}

theorem rises_low (h : p.drive &&& Line.clock = 0) (a : Bool) : Reads risesFrom a [p] false [] := fun later => by
  show (if _ then _ else _) = _
  rw [if_pos h]
  rfl

theorem rises_high (h : p.drive &&& Line.clock ≠ 0) : Reads risesFrom false [p] true [p.port] := fun later => by
  show (if _ then _ else if _ then _ else _) = _
  rw [if_neg h]
  rfl

theorem changes_same {a : Bool} (h : decide (p.drive &&& Line.clock ≠ 0) = a) : Reads changesFrom a [p] a [] :=
  fun _ => if_pos h

theorem changes_other {a : Bool} (h : decide (p.drive &&& Line.clock ≠ 0) ≠ a) :
    Reads changesFrom a [p] (!a) [p.port] := fun _ => if_neg h

theorem edges_same {a : Bool} (h : decide (p.drive &&& Line.atn ≠ 0) = a) : Reads edgesFrom a [p] a [] :=
  fun _ => if_pos h

theorem edges_other {a : Bool} (h : decide (p.drive &&& Line.atn ≠ 0) ≠ a) :
    Reads edgesFrom a [p] (!a) [decide (p.drive &&& Line.data ≠ 0), decide (p.drive &&& Line.clock ≠ 0)] :=
  fun _ => if_neg h

/-- The changes of a line in the entries that count. -/
def levels (l : LineMask) (keep : Pins → Bool) (a : Bool) (ps : List Pins) : List Bool :=
  levelChanges a ((ps.filter keep).map fun p => decide (p.drive &&& l ≠ 0))

theorem lineChanges_filter (l : LineMask) (keep : Pins → Bool) (a : Bool) (pins : List Pins) :
    lineChanges l a (pins.filter keep) = levels l keep a pins.reverse := by
  rw [lineChanges, levels, List.filter_reverse]

theorem lineChanges_eq (l : LineMask) (a : Bool) (pins : List Pins) :
    lineChanges l a pins = levels l (fun _ => true) a pins.reverse := by
  rw [lineChanges, levels, List.filter_true]

theorem levels_skip {l : LineMask} {keep : Pins → Bool} (h : keep p = false) (a : Bool) :
    Reads (levels l keep) a [p] a [] := fun later => by
  simp [levels, h]

theorem levels_same {l : LineMask} {keep : Pins → Bool} {a : Bool} (hkeep : keep p = true)
    (h : decide (p.drive &&& l ≠ 0) = a) : Reads (levels l keep) a [p] a [] := fun later => by
  rw [levels, List.reverse_singleton, List.singleton_append, List.filter_cons_of_pos hkeep, List.map_cons, h]
  exact if_pos rfl

theorem levels_other {l : LineMask} {keep : Pins → Bool} {a : Bool} (hkeep : keep p = true)
    (h : decide (p.drive &&& l ≠ 0) = !a) : Reads (levels l keep) a [p] (!a) [!a] := fun later => by
  rw [levels, List.reverse_singleton, List.singleton_append, List.filter_cons_of_pos hkeep, List.map_cons, h]
  exact if_neg (by simp)

/-- Readings that do not look at the time. -/
theorem risesFrom_still (ps : List Pins) : ∀ a, risesFrom a (ps.map still) = risesFrom a ps := by
  induction ps with
  | nil => exact fun _ => rfl
  | cons p ps ih =>
    intro a
    simp only [List.map_cons, risesFrom, ih]
    rfl

theorem changesFrom_still (ps : List Pins) : ∀ a, changesFrom a (ps.map still) = changesFrom a ps := by
  induction ps with
  | nil => exact fun _ => rfl
  | cons p ps ih =>
    intro a
    simp only [List.map_cons, changesFrom, ih]
    rfl

theorem edgesFrom_still (ps : List Pins) : ∀ a, edgesFrom a (ps.map still) = edgesFrom a ps := by
  induction ps with
  | nil => exact fun _ => rfl
  | cons p ps ih =>
    intro a
    simp only [List.map_cons, edgesFrom, ih]
    rfl

theorem levels_still (l : LineMask) {keep : Pins → Bool} (hkeep : ∀ p, keep (still p) = keep p) (a : Bool)
    (ps : List Pins) : levels l keep a (ps.map still) = levels l keep a ps := by
  rw [levels, levels, List.filter_map, List.map_map, show keep ∘ still = keep from funext hkeep]
  rfl

end

/-! ## Received bytes -/

/-- The view with these bytes received, and nothing else. -/
abbrev taken (bytes : List Byte) (v : View) : View :=
  { v with buffer := v.buffer.setMany 0 bytes, count := bytes.length }

theorem clear_of_count {v : View} (h : v.count = 0) : { v with count := ([] : List Byte).length } = v := by
  obtain ⟨⟩ := v
  cases h
  rfl

theorem taken_nil {v : View} (h : v.count = 0) : taken [] v = v := clear_of_count h

theorem Does.storeByte {v : View} {bytes : List Byte} (b : Byte) (hroom : bytes.length < v.cfg.bufSize) :
    Does view (Machine.storeByte b) (taken bytes v) () (taken (bytes ++ [b]) v) := .of_run fun s hs => by
  have hcount : s.count = bytes.length := congrArg View.count hs
  have hcfg : s.cfg = v.cfg := congrArg View.cfg hs
  have hin : s.count + [b].length ≤ s.cfg.bufSize := by
    rw [hcount, hcfg]
    exact hroom
  refine ⟨{ s.putBytes s.count [b] with count := s.count + 1 }, ?_, List.suffix_rfl, ?_⟩
  · rw [Machine.storeByte, State.memWrite_in s hin]
  · have hstored : (s.putBytes s.count [b]).buffer = (v.buffer.setMany 0 bytes).setMany bytes.length [b] := by
      rw [State.putBytes_buffer, hcount]
      exact congrArg (Memory.setMany · bytes.length [b]) (congrArg View.buffer hs)
    rw [taken, Memory.setMany_append, Nat.zero_add, List.length_append, ← hstored, List.length_singleton, ← hcount]
    exact congrArg (fun w : View =>
      { w with buffer := (s.putBytes s.count [b]).buffer, count := s.count + 1 }) hs

/-- The loop of a receiver, whatever a byte does: `J` says what is left after the bytes received. -/
theorem receiveEach_gives {receive : Engine Byte} {cap : Nat} {J : List Byte → View → Prop}
    {E : List Byte → Status → View → Prop} (hroom : ∀ bytes v, J bytes v → cap ≤ v.cfg.bufSize)
    (h : ∀ bytes v, bytes.length < cap → J bytes v →
      Gives view receive (taken bytes v) (fun b w => ∃ w', w = taken bytes w' ∧ J (bytes ++ [b]) w') (E bytes))
    (n : Nat) :
    ∀ {bytes v}, bytes.length + n = cap → J bytes v →
      Gives view (receiveEach receive n) (taken bytes v)
        (fun _ w => ∃ bytes w', bytes.length = cap ∧ w = taken bytes w' ∧ J bytes w')
        (fun st w => ∃ bytes, bytes.length < cap ∧ E bytes st w) := by
  induction n with
  | zero => exact fun {bytes v} hn hJ => (Does.pure ()).gives ⟨bytes, v, hn, rfl, hJ⟩
  | succ n ih =>
    intro bytes v hn hJ
    refine (Gives.mono (h bytes v (by omega) hJ) (fun _ _ h => h) fun st w hE => ⟨bytes, by omega, hE⟩).bind ?_
    rintro b w ⟨w', rfl, hJ'⟩
    have hcap := hroom _ _ hJ'
    refine (Does.storeByte b (by omega)).bind_gives (ih ?_ hJ')
    rw [List.length_append, List.length_singleton]
    omega

/-- The loop of a sender, whatever a byte does: `J` says what is left after the bytes sent. -/
theorem sendEach_gives {send : Byte → Engine Unit} {all : List Byte} {J : List Byte → View → Prop}
    {E : List Byte → Byte → Status → View → Prop}
    (h : ∀ done b rest v, done ++ b :: rest = all → J done v →
      Gives view (send b) { v with count := done.length }
        (fun _ w => ∃ w', w = { w' with count := done.length } ∧ J (done ++ [b]) w') (E done b)) (todo : List Byte) :
    ∀ {done v}, done ++ todo = all → J done v →
      Gives view (sendEach send todo) { v with count := done.length }
        (fun _ w => ∃ w', w = { w' with count := all.length } ∧ J all w')
        (fun st w => ∃ done b rest, done ++ b :: rest = all ∧ E done b st w) := by
  induction todo with
  | nil =>
    intro done v hall hJ
    rw [List.append_nil] at hall
    subst hall
    exact (Does.pure ()).gives ⟨v, rfl, hJ⟩
  | cons b todo ih =>
    intro done v hall hJ
    refine (Gives.mono (h done b todo v hall hJ) (fun _ _ h => h) fun st w hE => ⟨done, b, todo, hall, hE⟩).bind ?_
    rintro - w ⟨w', rfl, hJ'⟩
    have hcount : (done ++ [b]).length = done.length + 1 := by rw [List.length_append, List.length_singleton]
    refine Does.countByte _ |>.bind_gives ?_
    have htail := ih (done := done ++ [b]) (by rw [List.append_assoc]; exact hall) hJ'
    rwa [hcount] at htail

/-! ## Waits -/

/-- A wait, whatever the peer does; it takes one sample where the first one matches. -/
theorem Gives.waitOr_either (v : View) (m x : LineMask) (t : Config → Nat) (st : Status) :
    Gives view (Machine.waitOr m x t st) v (fun _ w => ∃ k, w = v.skip k ∧ ((v.drive ||| v.peer 0) &&& m = x → k = 1))
      (fun st' w => st' = st ∧ (v.drive ||| v.peer 0) &&& m ≠ x ∧ ∃ k, w = (v.skip k).failed st) := by
  by_cases h : (v.drive ||| v.peer 0) &&& m = x
  · exact (Does.waitOr t st h).gives ⟨1, rfl, fun _ => rfl⟩
  · exact Gives.waitOr v m x t st (fun k => ⟨k, rfl, fun h' => absurd h' h⟩) fun k => ⟨rfl, h, k, rfl⟩

/-! ## The start of a block -/

theorem three_released (d : LineMask) : d &&& ~~~Line.threeLines = d &&& Line.reset ∧
    d &&& Line.reset &&& Line.threeLines = 0 := by
  revert d
  decide

/-- The three lines are released, RESET keeps its level (R152, R153). -/
theorem releaseThree_does (v : View) :
    Does view (act (State.releaseLines Line.threeLines)) v ()
      (v.moved 0 (v.drive &&& Line.reset) [v.entry (v.drive &&& Line.reset)]) := by
  have h := Does.releaseLines v Line.threeLines
  obtain ⟨hdrive, -⟩ := three_released v.drive
  rw [hdrive, View.draw_eq] at h
  exact h

/-! ## The requests -/

/-- The operation of a READ request (R266). -/
theorem requestOp_read {s : State} {op : Engine Unit} (h : Inv s) (hmode : s.mode = .read)
    (hop : readOp s.proto s.fill.toNat = clearCount >>= fun _ => op) : requestOp s s = withCount op s := by
  rw [requestOp_of_read hmode, hop]
  exact withCount_congr (engine_bind_ok (clearCount_of_inv h) rfl)

/-- The operation of a WRITE request (R267). -/
theorem requestOp_write_of {s : State} {bytes : List Byte} {op : Engine Unit} (h : Inv s) (hmode : s.mode = .write)
    (hfill : s.fill.toNat = bytes.length) (hbytes : ∀ k (h : k < bytes.length), s.buffer.get? k = some bytes[k])
    (hop : writeOp s.proto bytes = clearCount >>= fun _ => op) : requestOp s s = withCount op s := by
  rw [requestOp_write h hmode hfill hbytes, hop]
  exact withCount_congr (engine_bind_ok (clearCount_of_inv h) rfl)

theorem byteOfCount_fill {s : State} {n : Nat} (h : s.fill.toNat = n) : byteOfCount n = s.fill := by
  subst h
  exact BitVec.eq_of_toNat_eq (byteOfCount_toNat s.fill.isLt)

/-- Received bytes stand in the buffer in order, the rest of it is as before. -/
theorem get?_taken {m : Memory} {bytes : List Byte} {k : Nat} (hk : k < bytes.length) :
    (m.setMany 0 bytes).get? k = some bytes[k] := by
  have h := Memory.get?_setMany_inside bytes m 0 k hk
  rwa [Nat.zero_add] at h

end Sys2Proof.Proofs.Blocks
end

section
/-! PROOF. SERIAL2 (41_wire_modes.md R150 to R153): a byte in each direction, and the two requests. -/

namespace Sys2Proof.Proofs.Serial2

open Sys2Proof Sys2Proof.Machine Sys2Proof.Safety Sys2Proof.Proofs.Handler Sys2Proof.Proofs.Timeless
open Sys2Proof.Proofs.Deferred Sys2Proof.Proofs.Requests Sys2Proof.Proofs.Blocks

/-! ## Line levels -/

/-- Two bits on DATA and CLOCK. -/
def pair (i j : Bool) : LineMask := (if i then Line.data else 0) ||| (if j then Line.clock else 0)

theorem pairLines_eq (b : Byte) (k : Nat) : pairLines b k = pair (b.getLsbD (2 * k)) (b.getLsbD (2 * k + 1)) := rfl

theorem start_pair (i j : Bool) {d : LineMask} (h : d &&& Line.threeLines = 0) :
    (d ||| pair i j) &&& ~~~((Line.data ||| Line.clock) &&& ~~~pair i j) = d ||| pair i j := by
  revert i j d
  decide

theorem next_pair (i j i' j' : Bool) {d : LineMask} (h : d &&& Line.threeLines = 0) :
    ((d ||| pair i j) ||| pair i' j') &&& ~~~((Line.data ||| Line.clock) &&& ~~~pair i' j') = d ||| pair i' j' := by
  revert i j i' j' d
  decide

theorem next_pair_atn (i j i' j' : Bool) {d : LineMask} (h : d &&& Line.threeLines = 0) :
    ((d ||| pair i j ||| Line.atn) ||| pair i' j') &&& ~~~((Line.data ||| Line.clock) &&& ~~~pair i' j') =
      d ||| pair i' j' ||| Line.atn := by
  revert i j i' j' d
  decide

theorem pair_atn_released (i j : Bool) {d : LineMask} (h : d &&& Line.threeLines = 0) :
    (d ||| pair i j ||| Line.atn) &&& ~~~Line.atn = d ||| pair i j := by
  revert i j d
  decide

theorem pair_released (i j : Bool) {d : LineMask} (h : d &&& Line.threeLines = 0) :
    (d ||| pair i j) &&& ~~~(Line.data ||| Line.clock) = d := by
  revert i j d
  decide

/-! ## A byte sent (R150) -/

/-- Half-cycle k, time aside. -/
def halfCycle (b : Byte) (k : Nat) (v : View) : View :=
  let d := (v.drive ||| pairLines b k) &&& ~~~((Line.data ||| Line.clock) &&& ~~~pairLines b k)
  (v.draw d).draw (if k % 2 = 0 then d ||| Line.atn else d &&& ~~~Line.atn)

theorem view_sendPair (b : Byte) (k : Nat) (s : State) : view (s.sendPair b k) = halfCycle b k (view s) := by
  rw [State.sendPair, view_delay, State.atnEdge, halfCycle]
  split
  · rw [view_assertLines, view_delay, view_setRelease]
    rfl
  · rw [view_releaseLines, view_delay, view_setRelease]
    rfl

theorem pins_suffix_sendPair (b : Byte) (k : Nat) (s : State) : s.out.pins <:+ (s.sendPair b k).out.pins := by
  rw [State.sendPair, State.atnEdge]
  split <;> exact ⟨[_, _], rfl⟩

theorem halfCycle_moved (b : Byte) (k n : Nat) (l : List Pins) (v : View) {d d' e : LineMask}
    (hd' : (d ||| pairLines b k) &&& ~~~((Line.data ||| Line.clock) &&& ~~~pairLines b k) = d')
    (he : (if k % 2 = 0 then d' ||| Line.atn else d' &&& ~~~Line.atn) = e) :
    halfCycle b k (v.moved n d l) = v.moved n e (v.entry e :: v.entry d' :: l) := by
  rw [halfCycle]
  simp only [View.draw_eq, View.moved_drive, View.moved_moved, View.entry_moved, hd', he]
  rfl

/-- The line levels that a byte shows, the newest first, up to the release of the pair. -/
def pairLevels (b : Byte) (d : LineMask) : List LineMask :=
  [d, d ||| pairLines b 3, d ||| pairLines b 3 ||| Line.atn, d ||| pairLines b 2 ||| Line.atn, d ||| pairLines b 2,
    d ||| pairLines b 1, d ||| pairLines b 1 ||| Line.atn, d ||| pairLines b 0 ||| Line.atn, d ||| pairLines b 0, d]

/-- The entries of a byte: the interrupt is masked in all but the last. -/
def pairPins (b : Byte) (v : View) : List Pins :=
  ⟨0, v.drive, v.portShown, false⟩ :: (pairLevels b v.drive).map fun d => ⟨0, d, v.portShown, true⟩

theorem fourHalfCycles (b : Byte) {w : View} (h : w.drive &&& Line.threeLines = 0) :
    halfCycle b 3 (halfCycle b 2 (halfCycle b 1 (halfCycle b 0 w))) =
      w.moved 0 (w.drive ||| pairLines b 3) ((pairLevels b w.drive).tail.dropLast.map w.entry) := by
  have hstart : w = w.moved 0 w.drive [] := (View.skip_zero w).symm
  calc halfCycle b 3 (halfCycle b 2 (halfCycle b 1 (halfCycle b 0 w)))
      = halfCycle b 3 (halfCycle b 2 (halfCycle b 1 (halfCycle b 0 (w.moved 0 w.drive [])))) := by rw [← hstart]
    _ = _ := by
      rw [halfCycle_moved b 0 _ _ _ (start_pair _ _ h) (if_pos rfl),
        halfCycle_moved b 1 _ _ _ (next_pair_atn _ _ _ _ h) ((if_neg (by decide)).trans (pair_atn_released _ _ h)),
        halfCycle_moved b 2 _ _ _ (next_pair _ _ _ _ h) (if_pos rfl),
        halfCycle_moved b 3 _ _ _ (next_pair_atn _ _ _ _ h) ((if_neg (by decide)).trans (pair_atn_released _ _ h))]
      rfl

theorem pins_suffix_sendPairs (b : Byte) (ks : List Nat) :
    ∀ s : State, s.out.pins <:+ (ks.foldl (fun t k => t.sendPair b k) s).out.pins := by
  induction ks with
  | nil => exact fun s => List.suffix_rfl
  | cons k ks ih => exact fun s => (pins_suffix_sendPair b k s).trans (ih _)

theorem s2WriteByte_does (b : Byte) {v : View} (h : v.drive &&& Line.threeLines = 0) :
    Does view (s2WriteByte b) v () { v.moved 0 v.drive (pairPins b v) with irqOff := false } := by
  refine .act (fun s => ?_) fun s hs => ?_
  · exact ((List.suffix_cons _ _).trans (pins_suffix_sendPairs b (List.range 4) s.irqMask)).trans ⟨[_, _], rfl⟩
  · subst hs
    have hpairs : view ((List.range 4).foldl (fun t k => t.sendPair b k) s.irqMask) =
        ((view s).mask true).moved 0 ((view s).drive ||| pairLines b 3)
          ((pairLevels b (view s).drive).tail.dropLast.map ((view s).mask true).entry) := by
      simp only [List.range, List.range.loop, List.foldl, view_sendPair, view_irqMask]
      exact fourHalfCycles b (w := (view s).mask true) h
    generalize (List.range 4).foldl (fun t k => t.sendPair b k) s.irqMask = u at hpairs ⊢
    have hdrive : u.drive = (view s).drive ||| pairLines b 3 := congrArg View.drive hpairs
    rw [view_irqUnmask, view_releaseLines, hpairs, hdrive, pairLines_eq, pair_released _ _ h, View.draw_eq,
      View.moved_moved]
    simp [View.mask, View.shown, View.moved, pairPins, pairLevels, View.entry, View.portShown, pairLines_eq]

/-! ## What a byte shows -/

theorem atn_of_level {d : LineMask} (h : d &&& Line.threeLines = 0) : decide (d &&& Line.atn ≠ 0) = false := by
  revert d
  decide

theorem atn_of_pair (i j : Bool) {d : LineMask} (h : d &&& Line.threeLines = 0) :
    decide ((d ||| pair i j) &&& Line.atn ≠ 0) = false ∧
      decide ((d ||| pair i j ||| Line.atn) &&& Line.atn ≠ 0) = true := by
  revert i j d
  decide

theorem bits_of_pair (i j : Bool) {d : LineMask} (h : d &&& Line.threeLines = 0) :
    decide ((d ||| pair i j) &&& Line.data ≠ 0) = i ∧ decide ((d ||| pair i j) &&& Line.clock ≠ 0) = j ∧
      decide ((d ||| pair i j ||| Line.atn) &&& Line.data ≠ 0) = i ∧
      decide ((d ||| pair i j ||| Line.atn) &&& Line.clock ≠ 0) = j := by
  revert i j d
  decide

section
variable {d : LineMask} (h : d &&& Line.threeLines = 0) (b : Byte) (k : Nat) (port : Option Byte) (irq : Bool)
include h

/-- The pair is set while ATN is released, then the edge asserts ATN. -/
theorem edges_rising : Reads edgesFrom false
    [⟨0, d ||| pairLines b k ||| Line.atn, port, irq⟩, ⟨0, d ||| pairLines b k, port, irq⟩] true
    [b.getLsbD (2 * k), b.getLsbD (2 * k + 1)] := by
  obtain ⟨hlow, hhigh⟩ := atn_of_pair (b.getLsbD (2 * k)) (b.getLsbD (2 * k + 1)) h
  obtain ⟨-, -, hdata, hclock⟩ := bits_of_pair (b.getLsbD (2 * k)) (b.getLsbD (2 * k + 1)) h
  have hedge := edges_other (p := ⟨0, d ||| pairLines b k ||| Line.atn, port, irq⟩) (a := false)
    (by rw [pairLines_eq, hhigh]; nofun)
  rw [pairLines_eq] at hedge
  simp only [hdata, hclock] at hedge
  exact (edges_same hlow).cons hedge

/-- The pair is set while ATN is asserted, then the edge releases ATN. -/
theorem edges_falling : Reads edgesFrom true
    [⟨0, d ||| pairLines b k, port, irq⟩, ⟨0, d ||| pairLines b k ||| Line.atn, port, irq⟩] false
    [b.getLsbD (2 * k), b.getLsbD (2 * k + 1)] := by
  obtain ⟨hlow, hhigh⟩ := atn_of_pair (b.getLsbD (2 * k)) (b.getLsbD (2 * k + 1)) h
  obtain ⟨hdata, hclock, -, -⟩ := bits_of_pair (b.getLsbD (2 * k)) (b.getLsbD (2 * k + 1)) h
  have hedge := edges_other (p := ⟨0, d ||| pairLines b k, port, irq⟩) (a := true)
    (by rw [pairLines_eq, hlow]; nofun)
  rw [pairLines_eq] at hedge
  simp only [hdata, hclock] at hedge
  exact (edges_same hhigh).cons hedge

end

theorem pairPins_edges (b : Byte) {v : View} (h : v.drive &&& Line.threeLines = 0) :
    Reads edgesFrom false (pairPins b v) false (bitsOf b) := by
  have hlevel := fun irq => edges_same (p := ⟨0, v.drive, v.portShown, irq⟩) (atn_of_level h)
  have hpairs := ((((hlevel true).append (edges_rising h b 0 v.portShown true)).append
    (edges_falling h b 1 v.portShown true)).append (edges_rising h b 2 v.portShown true)).append
      (edges_falling h b 3 v.portShown true)
  exact (hpairs.append (hlevel true)).append (hlevel false)

/-! ## A byte received (R151) -/

/-- The lines at the edge k of a receiver. -/
def edgeDrive (k : Nat) (d : LineMask) : LineMask := if k % 2 = 0 then d ||| Line.atn else d &&& ~~~Line.atn

theorem readPair_does (k : Nat) (v : View) :
    Does view (readPair k) v (edgeDrive k v.drive ||| v.peer 0)
      (v.moved 1 (edgeDrive k v.drive) [v.entry (edgeDrive k v.drive)]) := by
  have hedge : Does view (act (State.atnEdge k)) v () (v.draw (edgeDrive k v.drive)) := by
    have hact : State.atnEdge k = if k % 2 = 0 then State.assertLines Line.atn else State.releaseLines Line.atn := by
      funext s
      rw [State.atnEdge]
      split <;> rfl
    rw [hact, edgeDrive]
    split
    · exact Does.assertLines _ _
    · exact Does.releaseLines _ _
  refine hedge.bind ((Does.pause _ _).bind ((Does.poll _).bind ((Does.pause _ _).bind ((Does.pure _).of_eq ?_))))
  rw [View.draw_eq, View.skip_moved]

/-- What the block drives on a receiver's ATN is not on the pair. -/
theorem extract_pair (p : LineMask) {d : LineMask} (h : d &&& (Line.data ||| Line.clock) = 0) :
    (d ||| p).extractLsb' 0 2 = p.extractLsb' 0 2 := by
  revert p d
  decide

theorem edgeDrive_clear (k : Nat) {d : LineMask} (h : d &&& (Line.data ||| Line.clock) = 0) :
    edgeDrive k d &&& (Line.data ||| Line.clock) = 0 := by
  rw [edgeDrive]
  split <;> (revert d; decide)

/-- The byte whose pairs the peer shows at four samples, the first of them being the k-th. -/
def pairByte (v : View) (k : Nat) : Byte := byteOfPairs (v.peer k) (v.peer (k + 1)) (v.peer (k + 2)) (v.peer (k + 3))

theorem byteOfPairs_drives {d0 d1 d2 d3 : LineMask} (p0 p1 p2 p3 : LineMask)
    (h0 : d0 &&& (Line.data ||| Line.clock) = 0) (h1 : d1 &&& (Line.data ||| Line.clock) = 0)
    (h2 : d2 &&& (Line.data ||| Line.clock) = 0) (h3 : d3 &&& (Line.data ||| Line.clock) = 0) :
    byteOfPairs (d0 ||| p0) (d1 ||| p1) (d2 ||| p2) (d3 ||| p3) = byteOfPairs p0 p1 p2 p3 := by
  simp only [byteOfPairs, extract_pair _ h0, extract_pair _ h1, extract_pair _ h2, extract_pair _ h3]

theorem pair_of_three {d : LineMask} (h : d &&& Line.threeLines = 0) : d &&& (Line.data ||| Line.clock) = 0 := by
  revert d
  decide

/-- After four edges ATN is released again. -/
theorem fourEdges {d : LineMask} (h : d &&& Line.threeLines = 0) :
    edgeDrive 3 (edgeDrive 2 (edgeDrive 1 (edgeDrive 0 d))) = d := by
  revert d
  decide

/-- The entries of a received byte: the interrupt is masked in all but the last. -/
def edgePins (v : View) : List Pins :=
  ⟨0, v.drive, v.portShown, false⟩ :: [edgeDrive 3 (edgeDrive 2 (edgeDrive 1 (edgeDrive 0 v.drive))),
    edgeDrive 2 (edgeDrive 1 (edgeDrive 0 v.drive)), edgeDrive 1 (edgeDrive 0 v.drive), edgeDrive 0 v.drive,
    v.drive].map fun d => ⟨0, d, v.portShown, true⟩

theorem s2ReadByte_does {v : View} (h : v.drive &&& Line.threeLines = 0) :
    Does view s2ReadByte v (pairByte v 0) { v.moved 4 v.drive (edgePins v) with irqOff := false } := by
  have h0 := edgeDrive_clear 0 (pair_of_three h)
  have h1 := edgeDrive_clear 1 h0
  have h2 := edgeDrive_clear 2 h1
  have h3 := edgeDrive_clear 3 h2
  refine (Does.irqMask v).bind ((readPair_does 0 _).bind ((readPair_does 1 _).bind ((readPair_does 2 _).bind
    ((readPair_does 3 _).bind ((Does.irqUnmask _).bind ?_)))))
  have hdrive : (v.mask true).drive = v.drive := rfl
  have hpeer : ∀ k, (v.mask true).peer k = v.peer k := fun _ => rfl
  simp only [View.peer_moved, View.moved_drive, View.moved_moved, hdrive, hpeer]
  rw [byteOfPairs_drives _ _ _ _ h0 h1 h2 h3]
  refine (Does.pure _).of_eq ?_
  simp [View.mask, View.shown, View.moved, View.entry, View.portShown, edgePins, fourEdges h]

/-! ## The requests -/

section
variable {v : View} (hirq : v.irqOff = false) (h : v.drive &&& Line.threeLines = 0)
include hirq h

theorem sendEach_s2 (bytes : List Byte) (hcount : v.count = 0) :
    Gives view (sendEach s2WriteByte bytes) v (fun _ w => ∃ l, w = { v.moved 0 v.drive l with count := bytes.length } ∧
      Reads edgesFrom false l false (bytes.flatMap bitsOf)) (fun _ _ => False) := by
  have heach := sendEach_gives (send := s2WriteByte) (all := bytes) (E := fun _ _ _ _ => False)
    (J := fun done w => ∃ l, w = v.moved 0 v.drive l ∧ Reads edgesFrom false l false (done.flatMap bitsOf))
    (fun done b rest w _ hJ => ?_) bytes (done := []) (v := v) rfl ⟨[], (View.skip_zero v).symm, .nil⟩
  · rw [clear_of_count hcount] at heach
    refine heach.mono ?_ (by simp)
    rintro - _ ⟨_, rfl, l, rfl, hl⟩
    exact ⟨l, rfl, hl⟩
  · obtain ⟨l, rfl, hl⟩ := hJ
    refine (s2WriteByte_does b (v := { v.moved 0 v.drive l with count := done.length }) h).gives ?_
    refine ⟨v.moved 0 v.drive (pairPins b v ++ l), ?_, pairPins b v ++ l, rfl, ?_⟩
    · rw [← hirq]
      exact congrArg (fun w : View => { w with count := done.length }) (View.moved_moved 0 v.drive l v 0 v.drive _)
    · rw [List.flatMap_append, List.flatMap_singleton]
      exact hl.append (pairPins_edges b h)

theorem receiveEach_s2 {cap : Nat} (hroom : cap ≤ v.cfg.bufSize) (hcount : v.count = 0) :
    Gives view (receiveEach s2ReadByte cap) v (fun _ w => ∃ l,
      w = taken ((List.range cap).map fun a => pairByte v (4 * a)) (v.moved (4 * cap) v.drive l))
      (fun _ _ => False) := by
  have heach := receiveEach_gives (receive := s2ReadByte) (cap := cap) (E := fun _ _ _ => False)
    (J := fun bytes w => bytes = ((List.range bytes.length).map fun a => pairByte v (4 * a)) ∧
      ∃ l, w = v.moved (4 * bytes.length) v.drive l)
    (by rintro _ _ ⟨-, _, rfl⟩; exact hroom) (fun bytes w hlen hJ => ?_) cap (bytes := []) (v := v) (Nat.zero_add _)
    ⟨rfl, [], (View.skip_zero v).symm⟩
  · rw [taken_nil hcount] at heach
    refine heach.mono ?_ (by simp)
    rintro - _ ⟨bytes, _, hlen, rfl, hbytes, l, rfl⟩
    rw [hlen] at hbytes
    exact ⟨l, by rw [← hbytes, hlen]⟩
  · obtain ⟨hbytes, l, rfl⟩ := hJ
    refine (s2ReadByte_does (v := taken bytes (v.moved (4 * bytes.length) v.drive l)) h).gives ?_
    refine ⟨v.moved (4 * bytes.length + 4) v.drive (edgePins v ++ l), ?_, ?_, edgePins v ++ l, ?_⟩
    · rw [← hirq]
      exact congrArg (taken bytes) (View.moved_moved (4 * bytes.length) v.drive l v 4 v.drive _)
    · rw [List.length_append, List.length_singleton, List.range_succ, List.map_append, ← hbytes]
      refine congrArg (fun b => bytes ++ [b]) ?_
      show pairByte (v.moved (4 * bytes.length) v.drive l) 0 = _
      simp only [pairByte, View.peer_moved, Nat.add_zero]
    · rw [List.length_append, List.length_singleton]
      rfl

end

/-- A SERIAL2 write request (R152). -/
theorem s2Write_gives {v : View} (hirq : v.irqOff = false) (hcount : v.count = 0) (bytes : List Byte) :
    Gives view (s2Write bytes) v (fun _ w => ∃ l,
      w = { v.moved 0 (v.drive &&& Line.reset) l with count := bytes.length } ∧
        Reads edgesFrom false l false (bytes.flatMap bitsOf)) (fun _ _ => False) := by
  obtain ⟨-, hthree⟩ := three_released v.drive
  refine (releaseThree_does v).bind_gives
    ((sendEach_s2 (v := v.moved 0 _ _) hirq hthree bytes hcount).mono ?_ fun _ _ h => h)
  rintro - _ ⟨l, rfl, hl⟩
  refine ⟨l ++ [v.entry (v.drive &&& Line.reset)], ?_, ?_⟩
  · exact congrArg (fun w : View => { w with count := bytes.length }) (View.moved_moved 0 _ _ v 0 _ l)
  · exact Reads.append (edges_same (atn_of_level hthree)) hl

/-- A SERIAL2 read request (R153). -/
theorem s2Read_gives {v : View} {cap : Nat} (hirq : v.irqOff = false) (hcount : v.count = 0)
    (hroom : cap ≤ v.cfg.bufSize) :
    Gives view (s2Read cap) v (fun _ w => ∃ l,
      w = taken ((List.range cap).map fun a => pairByte v (4 * a)) (v.moved (4 * cap) (v.drive &&& Line.reset) l))
      (fun _ _ => False) := by
  obtain ⟨-, hthree⟩ := three_released v.drive
  refine (releaseThree_does v).bind_gives
    ((receiveEach_s2 (v := v.moved 0 _ _) hirq hthree hroom hcount).mono ?_ fun _ _ h => h)
  rintro - _ ⟨l, rfl⟩
  refine ⟨l ++ [v.entry (v.drive &&& Line.reset)], ?_⟩
  have hbytes : ∀ k,
      pairByte (v.moved 0 (v.drive &&& Line.reset) [v.entry (v.drive &&& Line.reset)]) k = pairByte v k :=
    fun k => by simp only [pairByte, View.peer_moved, Nat.zero_add]
  simp only [hbytes]
  rw [← Nat.zero_add (4 * cap), ← View.moved_moved]
  rw [Nat.zero_add]
  rfl

/-! ## What the two directions say to each other (R164) -/

theorem byteOfPairs_pairLines (b : Byte) :
    byteOfPairs (pairLines b 0) (pairLines b 1) (pairLines b 2) (pairLines b 3) = b := by
  revert b
  decide

theorem driveTrace_still (ps : List Pins) : driveTrace (ps.map still) = driveTrace ps := by
  rw [driveTrace, driveTrace, List.map_reverse, List.map_reverse, List.map_map]
  rfl

theorem driveTrace_pairPins {v : View} (h : v.drive = 0) (b : Byte) :
    driveTrace (pairPins b v) = [0, pairLines b 0, pairLines b 0 ||| Line.atn, pairLines b 1 ||| Line.atn,
      pairLines b 1, pairLines b 2, pairLines b 2 ||| Line.atn, pairLines b 3 ||| Line.atn, pairLines b 3, 0, 0] := by
  simp [driveTrace, pairPins, pairLevels, h]

/-- A byte shown by one block is what another reads. -/
theorem byte_round_trip (s u : State) (b : Byte) (rest : List LineMask) (hs : s.drive = 0) (hu : u.drive = 0) :
    ∃ t new m0 m1 m2 m3,
      s2WriteByte b s = .ok () t ∧ t.out.pins = new ++ s.out.pins ∧ t.drive = 0 ∧ t.eoi = s.eoi ∧
        driveTrace new = [0, m0, m0 ||| Line.atn, m1 ||| Line.atn, m1, m2, m2 ||| Line.atn, m3 ||| Line.atn, m3, 0, 0] ∧
        (u.inp.lines = m0 :: m1 :: m2 :: m3 :: rest →
          ∃ v, s2ReadByte u = .ok b v ∧ v.drive = 0 ∧ v.eoi = u.eoi ∧ v.inp.lines = rest) := by
  obtain ⟨t, ht, hpins, hview⟩ := (s2WriteByte_does b (v := view s) (by
    show s.drive &&& _ = 0
    rw [hs]
    rfl)).run rfl
  obtain ⟨new, hnew, hstill⟩ := exists_new_pins (l := pairPins b (view s)) hpins (congrArg View.pins hview)
  refine ⟨t, new, pairLines b 0, pairLines b 1, pairLines b 2, pairLines b 3, ht, hnew,
    (congrArg View.drive hview).trans hs, congrArg View.eoi hview, ?_, fun hlines => ?_⟩
  · rw [← driveTrace_still, hstill]
    exact driveTrace_pairPins hs b
  · obtain ⟨w, hw, -, hview⟩ := (s2ReadByte_does (v := view u) (by
      show u.drive &&& _ = 0
      rw [hu]
      rfl)).run rfl
    have hpeer := View.peer_of_lines (v := view u)
      (l := [pairLines b 0, pairLines b 1, pairLines b 2, pairLines b 3]) (rest := rest) hlines
    have hbyte : pairByte (view u) 0 = b := by
      rw [pairByte, hpeer 0 (by simp), hpeer (0 + 1) (by simp), hpeer (0 + 2) (by simp),
        hpeer (0 + 3) (by simp)]
      exact byteOfPairs_pairLines b
    refine ⟨w, by rw [hw, hbyte], (congrArg View.drive hview).trans hu, congrArg View.eoi hview, ?_⟩
    refine (congrArg View.lines hview).trans ?_
    show u.inp.lines.drop 4 = rest
    rw [hlines]
    rfl

/-- Settles O54. -/
theorem serial2RoundTrip : Obligations.Serial2RoundTrip := by
  refine ⟨byte_round_trip, fun s bytes h hmode hproto hfill hbytes => ?_⟩
  have hop := requestOp_write_of h hmode hfill hbytes (by rw [hproto, writeOp_s2])
  obtain ⟨hirq, hcount⟩ := view_of_inv h
  obtain ⟨st, u, hu, hpins, ⟨rfl, l, hview, hl⟩ | hno⟩ :=
    handle_of_gives (by rw [hmode]; rfl) hop (s2Write_gives hirq hcount bytes)
  · obtain ⟨new, hnew, hstill⟩ := exists_new_pins (l := l) hpins (congrArg View.pins hview)
    refine ⟨_, new, hu, ?_⟩
    simp only [finished_mode, hmode, finished_status, finished_value, finished_eoi, finished_busState, finished_drive,
      finished_inp, finished_out]
    refine ⟨rfl, rfl, ?_, congrArg View.drive hview, congrArg View.eoi hview, congrArg View.busState hview,
      congrArg View.lines hview, hnew, ?_⟩
    · rw [show u.count = bytes.length from congrArg View.count hview,
        byteOfCount_toNat (by have := s.fill.isLt; omega)]
    · rw [edgeBits, ← edgesFrom_still, List.map_reverse, hstill]
      exact hl.all rfl
  · exact hno.elim

/-- The bits of a received byte. -/
theorem byteOfPairs_bits (m0 m1 m2 m3 : LineMask) {k : Nat} (hk : k < 4) :
    (byteOfPairs m0 m1 m2 m3).getLsbD (2 * k) = ([m0, m1, m2, m3].getD k 0).getLsbD 0 ∧
      (byteOfPairs m0 m1 m2 m3).getLsbD (2 * k + 1) = ([m0, m1, m2, m3].getD k 0).getLsbD 1 := by
  obtain rfl | rfl | rfl | rfl : k = 0 ∨ k = 1 ∨ k = 2 ∨ k = 3 := by omega
  all_goals
    simp only [byteOfPairs, BitVec.getLsbD_append, BitVec.getLsbD_extractLsb']
    exact ⟨rfl, rfl⟩

theorem getLsbD_lines (m : LineMask) :
    m.getLsbD 0 = decide (m &&& Line.data ≠ 0) ∧ m.getLsbD 1 = decide (m &&& Line.clock ≠ 0) := by
  revert m
  decide

theorem pairByte_bits (v : View) (a : Nat) {k : Nat} (hk : k < 4) :
    (pairByte v a).getLsbD (2 * k) = decide (v.peer (a + k) &&& Line.data ≠ 0) ∧
      (pairByte v a).getLsbD (2 * k + 1) = decide (v.peer (a + k) &&& Line.clock ≠ 0) := by
  obtain ⟨hdata, hclock⟩ := byteOfPairs_bits (v.peer a) (v.peer (a + 1)) (v.peer (a + 2)) (v.peer (a + 3)) hk
  have hpeer : [v.peer a, v.peer (a + 1), v.peer (a + 2), v.peer (a + 3)].getD k 0 = v.peer (a + k) := by
    obtain rfl | rfl | rfl | rfl : k = 0 ∨ k = 1 ∨ k = 2 ∨ k = 3 := by omega
    all_goals rfl
  obtain ⟨h0, h1⟩ := getLsbD_lines (v.peer (a + k))
  rw [← h0, ← h1, pairByte, hdata, hclock, hpeer]
  exact ⟨rfl, rfl⟩

/-- Silence reads as zero. -/
theorem pairByte_silent {v : View} {a : Nat} (h : ∀ k, k < 4 → v.peer (a + k) &&& (Line.data ||| Line.clock) = 0) :
    pairByte v a = 0 := by
  have hpair : ∀ p : LineMask, p &&& (Line.data ||| Line.clock) = 0 → p.extractLsb' 0 2 = 0 := by decide
  rw [pairByte, byteOfPairs, hpair (v.peer a) (h 0 (by decide)), hpair _ (h 1 (by decide)), hpair _ (h 2 (by decide)),
    hpair _ (h 3 (by decide))]
  rfl

/-- Settles O55. -/
theorem serial2ReadFromSilence : Obligations.Serial2ReadFromSilence := by
  intro s h hmode hproto
  have hop := requestOp_read h hmode (by rw [hproto, readOp_s2])
  obtain ⟨hirq, hcount⟩ := view_of_inv h
  obtain ⟨st, u, hu, -, ⟨rfl, l, hview⟩ | hno⟩ :=
    handle_of_gives (by rw [hmode]; rfl) hop (s2Read_gives hirq hcount h.request.2.1)
  · have hfill : byteOfCount u.count = s.fill := by
      have hlength : u.count = ((List.range s.fill.toNat).map fun a => pairByte (view s) (4 * a)).length :=
        congrArg View.count hview
      rw [hlength, List.length_map, List.length_range, byteOfCount_fill rfl]
    have hget : ∀ a, a < s.fill.toNat → u.buffer.get? a = some (pairByte (view s) (4 * a)) := fun a ha => by
      rw [show u.buffer = _ from congrArg View.buffer hview, get?_taken (by simpa using ha)]
      simp
    refine ⟨_, hu, ?_⟩
    simp only [finished_mode, hmode, finished_status, finished_value, finished_fill, finished_eoi, finished_busState,
      finished_drive, finished_inp, finished_buffer, hfill, peerAt_eq]
    refine ⟨rfl, rfl, rfl, trivial, congrArg View.drive hview, congrArg View.eoi hview, congrArg View.busState hview,
      congrArg View.lines hview, congrArg View.linesDrawn hview, fun a ha => ⟨_, hget a ha, fun k hk =>
        pairByte_bits _ _ hk⟩, fun hsilent a ha => ?_⟩
    rw [hget a ha, pairByte_silent fun k hk => hsilent _ (by omega)]
  · exact hno.elim

end Sys2Proof.Proofs.Serial2
end

section
/-! PROOF. The parallel port in a block of bytes, and PARALLEL (41_wire_modes.md R155 to R158). -/

namespace Sys2Proof.Proofs.Ports

open Sys2Proof Sys2Proof.Machine Sys2Proof.Safety Sys2Proof.Proofs.Handler Sys2Proof.Proofs.Timeless
open Sys2Proof.Proofs.Deferred Sys2Proof.Proofs.Requests Sys2Proof.Proofs.Blocks

/-! ## A normal form for what moves lines and the port -/

/-- The block's side of the port, and the samples that wait for it. -/
structure PortState where
  out : Byte
  oe : Bool
  samples : List PortSample
  drawn : Nat

namespace PortState

/-- The port driven. -/
def driven (b : Byte) (q : PortState) : PortState := { q with out := b, oe := true }

/-- The port made an input. -/
def off (q : PortState) : PortState := { q with oe := false }

/-- The next sample. -/
def next (q : PortState) : PortSample :=
  match q.samples with
  | p :: _ => p
  | [] => Config.freePortSample q.drawn

/-- After a sample. -/
def dropped (q : PortState) : PortState :=
  match q.samples with
  | _ :: rest => { q with samples := rest }
  | [] => { q with drawn := q.drawn + 1 }

theorem dropped_oe (q : PortState) : q.dropped.oe = q.oe := by
  unfold dropped
  split <;> rfl

end PortState

/-- The port's side of a view. -/
def portState (v : View) : PortState := ⟨v.ppOut, v.ppOe, v.port, v.portDrawn⟩

/-- After `n` samples, with the line drives `d`, the port `q` and the new pin entries `l`. -/
def ran (n : Nat) (d : LineMask) (q : PortState) (l : List Pins) (v : View) : View :=
  { v.moved n d l with ppOut := q.out, ppOe := q.oe, port := q.samples, portDrawn := q.drawn }

/-- A pin entry with these line drives and this port. -/
def pin (d : LineMask) (q : PortState) (v : View) : Pins := ⟨0, d, if q.oe then some q.out else none, v.irqOff⟩

section
variable (n : Nat) (d : LineMask) (q : PortState) (l : List Pins) (v : View)

theorem ran_start : ran 0 v.drive (portState v) [] v = v := View.skip_zero v

theorem drive_ran : (ran n d q l v).drive = d := rfl

theorem draw_ran (d' : LineMask) : (ran n d q l v).draw d' = ran n d' q (pin d' q v :: l) v := rfl

theorem skip_ran (k : Nat) : (ran n d q l v).skip k = ran (n + k) d q l v :=
  congrArg (fun w : View => { w with ppOut := q.out, ppOe := q.oe, port := q.samples, portDrawn := q.drawn })
    (View.skip_moved n d l v k)

theorem peer_ran (k : Nat) : (ran n d q l v).peer k = v.peer (n + k) := View.peer_moved n d l v k

theorem portOut_ran (b : Byte) :
    (ran n d q l v).portOut b = ran n d (q.driven b) (pin d (q.driven b) v :: l) v := rfl

theorem portOff_ran : (ran n d q l v).portOff = ran n d q.off (pin d q.off v :: l) v := rfl

theorem nextPort_ran : (ran n d q l v).nextPort = q.next := rfl

theorem dropPort_ran : (ran n d q l v).dropPort = ran n d q.dropped l v := by
  obtain ⟨out, oe, samples, drawn⟩ := q
  cases samples <;> rfl

/-- A wait of a block. -/
theorem waitOr_ran (m x : LineMask) (t : Config → Nat) (st : Status) :
    Gives view (Machine.waitOr m x t st) (ran n d q l v)
      (fun _ w => ∃ k, w = ran (n + k) d q l v ∧ ((d ||| v.peer n) &&& m = x → k = 1))
      (fun st' w => st' = st ∧ (d ||| v.peer n) &&& m ≠ x ∧ ∃ k, w = (ran (n + k) d q l v).failed st) := by
  have h := Gives.waitOr_either (ran n d q l v) m x t st
  simpa only [skip_ran, peer_ran, Nat.add_zero, drive_ran] using h

theorem assertLines_ran (m : LineMask) : Does view (act (State.assertLines m)) (ran n d q l v) ()
    (ran n (d ||| m) q (pin (d ||| m) q v :: l) v) := Does.assertLines _ _

theorem releaseLines_ran (m : LineMask) : Does view (act (State.releaseLines m)) (ran n d q l v) ()
    (ran n (d &&& ~~~m) q (pin (d &&& ~~~m) q v :: l) v) := Does.releaseLines _ _

theorem portSample_ran (h : q.oe = false) :
    Does view portSample (ran n d q l v) q.next.value (ran n d q.dropped l v) :=
  (Does.portSample _ h).of_eq (dropPort_ran n d q l v)

theorem portInput_ran : Does view portInput (ran n d q l v) () (ran n d q.off.dropped (pin d q.off v :: l) v) :=
  (Does.portInput _).of_eq (dropPort_ran n d q.off (pin d q.off v :: l) v)

end

/-- The cleanup of a handshake timeout: two entries, all released but RESET, the port an input (R290). -/
theorem failed_hsTimeout {v : View} (hirq : v.irqOff = false) :
    v.failed .hsTimeout =
      { ((v.log Status.hsTimeout.code).draw (v.drive &&& ~~~(Line.clock ||| Line.data ||| Line.atn))).portOff with
        busState := .unknown } := by
  obtain ⟨d, o, oe, eoi, bus, irq⟩ := v
  cases hirq
  rfl

theorem failed_hsTimeout_spec {n : Nat} {d : LineMask} {q : PortState} {l : List Pins} {v : View}
    (hirq : v.irqOff = false) :
    ∃ e e', e.drive &&& Line.clock = 0 ∧ e'.drive &&& Line.clock = 0 ∧
      ((ran n d q l v).failed .hsTimeout).pins = e' :: e :: l ++ v.pins ∧
      ((ran n d q l v).failed .hsTimeout).count = v.count ∧ ((ran n d q l v).failed .hsTimeout).buffer = v.buffer := by
  have hclock : ∀ d : LineMask, d &&& ~~~(Line.clock ||| Line.data ||| Line.atn) &&& Line.clock = 0 := by decide
  rw [failed_hsTimeout (by exact hirq)]
  exact ⟨_, _, hclock d, hclock d, rfl, rfl, rfl⟩

/-! ## A sender's block -/

/-- Byte number `i` is announced, whatever the peer does: the reading `f` finds it in what the byte shows. It takes `m`
samples where the peer answers (`answers i`); else it may fail. -/
def Announces (send : Byte → Engine Unit) (f : Bool → List Pins → List (Option Byte)) (m : Nat) (level : Nat → Bool)
    (drive : Nat → LineMask) (answers : Nat → Prop) (v : View) : Prop :=
  ∀ (b : Byte) (i n c : Nat) (q : PortState) (l : List Pins),
    Gives view (send b) (ran n (drive i) q l { v with count := c })
      (fun _ w => ∃ k q' l', w = ran (n + k) (drive (i + 1)) q' (l' ++ l) { v with count := c } ∧
        Reads f (level i) l' (level (i + 1)) [some b] ∧ (n = m * i → answers i → k = m))
      (fun st w => st = .hsTimeout ∧ ¬ (n = m * i ∧ answers i) ∧ ∃ n' d q' l' a, Reads f (level i) l' a [some b] ∧
        w = (ran n' d q' (l' ++ l) { v with count := c }).failed .hsTimeout)

/-- The peer answers the first `k` bytes. -/
def AnswersAll (answers : Nat → Prop) (k : Nat) : Prop := ∀ i, i < k → answers i

theorem AnswersAll.of_succ {answers : Nat → Prop} {k : Nat} (h : AnswersAll answers (k + 1)) : AnswersAll answers k :=
  fun i hi => h i (Nat.lt_succ_of_lt hi)

/-- A failed block: the bytes before it are counted, `b` has been announced. -/
def GaveUp (f : Bool → List Pins → List (Option Byte)) (answers : Nat → Prop) (bytes : List Byte) (a : Bool)
    (l : List Pins) (v : View) (st : Status) (w : View) : Prop :=
  st = .hsTimeout ∧ ∃ done b rest, done ++ b :: rest = bytes ∧ ¬ AnswersAll answers bytes.length ∧
    ∃ n d q l' c, Reads f a l' c ((done ++ [b]).map some) ∧
      w = View.failed .hsTimeout (ran n d q (l' ++ l) { v with count := done.length })

theorem sendEach_announces {send : Byte → Engine Unit} {f : Bool → List Pins → List (Option Byte)} {m : Nat}
    {level : Nat → Bool} {drive : Nat → LineMask} {answers : Nat → Prop} {v : View} {q : PortState} {l : List Pins}
    (h : Announces send f m level drive answers v) (hcount : v.count = 0) (bytes : List Byte) :
    Gives view (sendEach send bytes) (ran 0 (drive 0) q l v)
      (fun _ w => ∃ n q' l', w = ran n (drive bytes.length) q' (l' ++ l) { v with count := bytes.length } ∧
        Reads f (level 0) l' (level bytes.length) (bytes.map some) ∧
          (AnswersAll answers bytes.length → n = m * bytes.length))
      (GaveUp f answers bytes (level 0) l v) := by
  have heach := sendEach_gives (send := send) (all := bytes) (E := fun _ _ => GaveUp f answers bytes (level 0) l v)
    (J := fun done w => ∃ n q' l', w = ran n (drive done.length) q' (l' ++ l) v ∧
      Reads f (level 0) l' (level done.length) (done.map some) ∧ (AnswersAll answers done.length → n = m * done.length))
    (fun done b rest w hall hJ => ?_) bytes (done := []) (v := ran 0 (drive 0) q l v) rfl
    ⟨0, q, [], rfl, .nil, fun _ => rfl⟩
  · have hstart : Gives view _ (ran 0 (drive 0) q l { v with count := ([] : List Byte).length }) _ _ := heach
    rw [clear_of_count hcount] at hstart
    refine hstart.mono ?_ ?_
    · rintro - _ ⟨_, rfl, n, q', l', rfl, hl⟩
      exact ⟨n, q', l', rfl, hl⟩
    · rintro st w ⟨-, -, -, -, hrest⟩
      exact hrest
  · obtain ⟨n, q', l', rfl, hl, hn⟩ := hJ
    refine (h b done.length n done.length q' (l' ++ l)).mono ?_ ?_
    · rintro - _ ⟨k, q'', l'', rfl, hl'', hk⟩
      refine ⟨ran (n + k) (drive (done.length + 1)) q'' (l'' ++ (l' ++ l)) v, rfl, n + k, q'', l'' ++ l', ?_⟩
      rw [List.length_append, List.length_singleton, List.map_append]
      refine ⟨by rw [List.append_assoc], hl.append hl'', fun hanswers => ?_⟩
      have hn := hn hanswers.of_succ
      rw [hk hn (hanswers _ (Nat.lt_succ_self _)), hn, Nat.mul_succ]
    · rintro st _ ⟨rfl, hno, n', d, q'', l'', a, hl'', rfl⟩
      refine ⟨rfl, done, b, rest, hall, fun hanswers => hno ?_, n', d, q'', l'' ++ l', a, ?_, by rw [List.append_assoc]⟩
      · have hlt : done.length < bytes.length := by
          rw [← hall, List.length_append, List.length_cons]
          omega
        exact ⟨hn fun i hi => hanswers i (Nat.lt_trans hi hlt), hanswers _ hlt⟩
      · rw [List.map_append]
        exact hl.append hl''

/-! ## A receiver's block -/

/-- Byte number `i` is received, whatever the peer does: it is the port's next sample, and `size` of the changes that it
shows is 1. It takes `m` samples where the peer offers it (`offers i`); else it may fail, nothing being counted. -/
def Receives (receive : Engine Byte) (f : Bool → List Pins → List Bool) (size : List Bool → Nat) (m : Nat)
    (level : Nat → Bool) (drive : Nat → LineMask) (offers : Nat → Prop) (v : View) : Prop :=
  ∀ (i n c : Nat) (buffer : Memory) (q : PortState) (l : List Pins), q.oe = false →
    Gives view receive (ran n (drive i) q l { v with buffer := buffer, count := c })
      (fun b w => b = q.next.value ∧ ∃ k l' x,
        w = ran (n + k) (drive (i + 1)) q.dropped (l' ++ l) { v with buffer := buffer, count := c } ∧
          Reads f (level i) l' (level (i + 1)) x ∧ size x = 1 ∧ (n = m * i → offers i → k = m))
      (fun st w => st = .hsTimeout ∧ ¬ (n = m * i ∧ offers i) ∧ ∃ n' d l' a x, Reads f (level i) l' a x ∧ size x = 0 ∧
        ∃ q', w = (ran n' d q' (l' ++ l) { v with buffer := buffer, count := c }).failed .hsTimeout)

/-- What has been taken from the port: its samples in order, as long as there are any. -/
def Drained (bytes : List Byte) (q start : PortState) : Prop :=
  bytes.length ≤ start.samples.length → bytes ++ q.samples.map (·.value) = start.samples.map (·.value)

theorem Drained.next {bytes : List Byte} {q start : PortState} (h : Drained bytes q start) :
    Drained (bytes ++ [q.next.value]) q.dropped start := by
  intro hlen
  rw [List.length_append, List.length_singleton] at hlen
  have hbytes := h (by omega)
  cases hsamples : q.samples with
  | nil =>
    have hall := congrArg List.length hbytes
    rw [hsamples, List.map_nil, List.append_nil, List.length_map] at hall
    omega
  | cons p rest =>
    rw [hsamples] at hbytes
    rw [PortState.next, PortState.dropped, hsamples, List.append_assoc]
    exact hbytes

theorem Drained.all {bytes all : List Byte} {q start : PortState} (h : Drained bytes q start)
    (hall : start.samples.map (·.value) = all) (hlen : bytes.length = all.length) : bytes = all := by
  have hsamples : start.samples.length = all.length := by rw [← hall, List.length_map]
  have hbytes := h (by omega)
  rw [hall] at hbytes
  exact (List.append_inj (hbytes.trans (List.append_nil all).symm) hlen).1

/-- A failed block: the bytes before it are stored and counted. -/
def Broke (f : Bool → List Pins → List Bool) (size : List Bool → Nat) (offers : Nat → Prop) (cap : Nat) (a : Bool)
    (l : List Pins) (v : View) (st : Status) (w : View) : Prop :=
  st = .hsTimeout ∧ ¬ AnswersAll offers cap ∧ ∃ bytes n d q l' c x, bytes.length < cap ∧ Reads f a l' c x ∧
    size x = bytes.length ∧ w = View.failed .hsTimeout (ran n d q (l' ++ l) (taken bytes v))

theorem receiveEach_receives {receive : Engine Byte} {f : Bool → List Pins → List Bool} {size : List Bool → Nat}
    {m cap : Nat} {level : Nat → Bool} {drive : Nat → LineMask} {offers : Nat → Prop} {v : View} {q : PortState}
    {l : List Pins} (h : Receives receive f size m level drive offers v) (hnil : size [] = 0)
    (hsize : ∀ x y, size (x ++ y) = size x + size y) (hroom : cap ≤ v.cfg.bufSize) (hcount : v.count = 0)
    (hoe : q.oe = false) :
    Gives view (receiveEach receive cap) (ran 0 (drive 0) q l v)
      (fun _ w => ∃ bytes n q' l' x, bytes.length = cap ∧ w = ran n (drive cap) q' (l' ++ l) (taken bytes v) ∧
        q'.oe = false ∧ Drained bytes q' q ∧ Reads f (level 0) l' (level cap) x ∧ size x = cap ∧
          (AnswersAll offers cap → n = m * cap))
      (Broke f size offers cap (level 0) l v) := by
  have heach := receiveEach_gives (receive := receive) (cap := cap)
    (E := fun _ => Broke f size offers cap (level 0) l v)
    (J := fun bytes w => ∃ n q' l' x, w = ran n (drive bytes.length) q' (l' ++ l) v ∧ q'.oe = false ∧
      Drained bytes q' q ∧ Reads f (level 0) l' (level bytes.length) x ∧ size x = bytes.length ∧
        (AnswersAll offers bytes.length → n = m * bytes.length))
    (by rintro _ _ ⟨_, _, _, _, rfl, -⟩; exact hroom) (fun bytes w hlen hJ => ?_) cap (bytes := [])
    (v := ran 0 (drive 0) q l v) (Nat.zero_add _) ⟨0, q, [], [], rfl, hoe, fun _ => rfl, .nil, hnil, fun _ => rfl⟩
  · have hstart : Gives view _ (ran 0 (drive 0) q l (taken [] v)) _ _ := heach
    rw [taken_nil hcount] at hstart
    refine hstart.mono ?_ ?_
    · rintro - _ ⟨bytes, _, rfl, rfl, n, q', l', x, rfl, hrest⟩
      exact ⟨bytes, n, q', l', x, rfl, rfl, hrest⟩
    · rintro st w ⟨-, -, hrest⟩
      exact hrest
  · obtain ⟨n, q', l', x, rfl, hoe', hdrained, hl, hx, hn⟩ := hJ
    refine (h bytes.length n bytes.length (v.buffer.setMany 0 bytes) q' (l' ++ l) hoe').mono ?_ ?_
    · rintro b _ ⟨rfl, k, l'', y, rfl, hl'', hy, hk⟩
      refine ⟨ran (n + k) (drive (bytes.length + 1)) q'.dropped (l'' ++ (l' ++ l)) v, rfl, n + k, q'.dropped, l'' ++ l',
        x ++ y, ?_⟩
      rw [List.length_append, List.length_singleton]
      refine ⟨by rw [List.append_assoc], q'.dropped_oe.trans hoe', hdrained.next, hl.append hl'', by rw [hsize, hx, hy],
        fun hoffers => ?_⟩
      have hn := hn hoffers.of_succ
      rw [hk hn (hoffers _ (Nat.lt_succ_self _)), hn, Nat.mul_succ]
    · rintro st _ ⟨rfl, hno, n', d, l'', a, y, hl'', hy, q'', rfl⟩
      refine ⟨rfl, fun hoffers => hno ?_, bytes, n', d, q'', l'' ++ l', a, x ++ y, hlen, hl.append hl'',
        by rw [hsize, hx, hy]; rfl, by rw [List.append_assoc]⟩
      exact ⟨hn fun i hi => hoffers i (Nat.lt_trans hi hlen), hoffers _ hlen⟩

/-! ## Requests that end well -/

theorem lines_ran_of_script {n : Nat} {d : LineMask} {q : PortState} {l : List Pins} {v : View}
    {script rest : List LineMask} (h : v.lines = script ++ rest) (hn : n = script.length) :
    (ran n d q l v).lines = rest := by
  show v.lines.drop n = rest
  rw [h, hn, List.drop_left]

theorem no_failure {f : Bool → List Pins → List (Option Byte)} {answers : Nat → Prop} {bytes : List Byte} {a : Bool}
    {l : List Pins} {v : View} {st : Status} {w : View} (h : AnswersAll answers bytes.length) :
    ¬ GaveUp f answers bytes a l v st w := fun ⟨_, _, _, _, _, hno, _⟩ => hno h

/-- What is left of a WRITE request whose bytes the peer has all answered. -/
theorem write_outcome {s u : State} {n c : Nat} {d : LineMask} {q : PortState} {l : List Pins}
    {script rest : List LineMask} (hview : view u = ran n d q l { view s with count := c })
    (hpins : s.out.pins <:+ u.out.pins) (hlines : s.inp.lines = script ++ rest) (hn : n = script.length) :
    u.count = c ∧ u.drive = d ∧ u.ppOe = q.oe ∧ u.inp.lines = rest ∧
      ∃ new, u.out.pins = new ++ s.out.pins ∧ new.map still = l :=
  ⟨congrArg View.count hview, congrArg View.drive hview, congrArg View.ppOe hview,
    (congrArg View.lines hview).trans (lines_ran_of_script (v := { view s with count := c }) hlines hn),
    exists_new_pins hpins (congrArg View.pins hview)⟩

/-- What is left of a READ request whose bytes the peer has all offered. -/
theorem read_outcome {s u : State} {n : Nat} {d : LineMask} {q : PortState} {l : List Pins} {bytes all : List Byte}
    {x : PortSample} {script rest : List LineMask} (hview : view u = ran n d q l (taken bytes (view s)))
    (hlen : bytes.length = all.length) (hport : s.inp.port = x :: all.map fun b => ⟨b, false⟩)
    (hdrained : Drained bytes q (portState (view s)).off.dropped) (hlines : s.inp.lines = script ++ rest)
    (hn : n = script.length) :
    u.count = all.length ∧ u.drive = d ∧ u.ppOe = q.oe ∧ u.inp.lines = rest ∧
      ∀ k (h : k < all.length), u.buffer.get? k = some all[k] := by
  have hbytes : bytes = all := by
    refine hdrained.all ?_ hlen
    have hport' : (portState (view s)).off.samples = x :: all.map fun b => ⟨b, false⟩ := hport
    rw [PortState.dropped, hport', List.map_map]
    exact List.map_id all
  subst hbytes
  refine ⟨congrArg View.count hview, congrArg View.drive hview, congrArg View.ppOe hview,
    (congrArg View.lines hview).trans (lines_ran_of_script (v := taken bytes (view s)) hlines hn), fun k hk => ?_⟩
  rw [show u.buffer = _ from congrArg View.buffer hview]
  exact get?_taken hk

end Sys2Proof.Proofs.Ports
end

section
/-! PROOF. PARALLEL (41_wire_modes.md R155 to R158). -/

namespace Sys2Proof.Proofs.Parallel

open Sys2Proof Sys2Proof.Machine Sys2Proof.Safety Sys2Proof.Proofs.Handler Sys2Proof.Proofs.Timeless
open Sys2Proof.Proofs.Deferred Sys2Proof.Proofs.Requests Sys2Proof.Proofs.Blocks Sys2Proof.Proofs.Ports

/-! ## Line levels of PARALLEL -/

section
variable {d : LineMask} (h : d &&& Line.threeLines = 0)
include h

theorem three_spec : d &&& Line.data = 0 ∧ d &&& Line.clock = 0 ∧ (d ||| Line.clock) &&& Line.clock ≠ 0 ∧
    (d ||| Line.data) &&& Line.data ≠ 0 ∧ (d ||| Line.clock) &&& ~~~Line.clock = d ∧
    (d ||| Line.data) &&& ~~~Line.data = d := by
  revert d
  decide

theorem data_of_peer (p : LineMask) :
    (d ||| p) &&& Line.data = p &&& Line.data ∧ ((d ||| Line.clock) ||| p) &&& Line.data = p &&& Line.data := by
  revert d p
  decide

theorem clock_of_peer (p : LineMask) :
    (d ||| p) &&& Line.clock = p &&& Line.clock ∧ ((d ||| Line.data) ||| p) &&& Line.clock = p &&& Line.clock := by
  revert d p
  decide

end

/-! ## A byte in each direction (R155, R156) -/

/-- The peer asserts a line and releases it again, for byte number `i`. -/
def Pulses (l : LineMask) (v : View) (i : Nat) : Prop := v.peer (2 * i) &&& l = l ∧ v.peer (2 * i + 1) &&& l = 0

section
variable {d : LineMask} (h : d &&& Line.threeLines = 0) (v : View)
include h

theorem ppWriteByte_announces :
    Announces ppWriteByte risesFrom 2 (fun _ => false) (fun _ => d) (Pulses Line.data v) v := by
  intro b i n c q l
  obtain ⟨-, hlow, hhigh, -, hback, -⟩ := three_spec h
  have hrise : Reads risesFrom false [pin (d ||| Line.clock) (q.driven b) v, pin d (q.driven b) v] true [some b] :=
    (rises_low hlow false).append (rises_high hhigh)
  refine (Does.portOut _ b).bind_gives ?_
  rw [portOut_ran]
  refine (assertLines_ran _ _ _ _ _ _).bind_gives ?_
  refine Gives.bind (Gives.mono (waitOr_ran _ _ _ _ _ _ _ _ _) (fun _ _ h => h) ?_) ?_
  · rintro st w ⟨rfl, hno, k, rfl⟩
    refine ⟨rfl, ?_, _, _, _, _, _, hrise, rfl⟩
    rintro ⟨rfl, hanswers, -⟩
    exact hno ((data_of_peer h _).2.trans hanswers)
  rintro - w ⟨k, rfl, hk⟩
  rw [(data_of_peer h _).2] at hk
  refine (releaseLines_ran _ _ _ _ _ _).bind_gives ?_
  rw [hback]
  have hfall : Reads risesFrom false _ false [some b] := hrise.append (rises_low (p := pin d (q.driven b) v) hlow true)
  refine Gives.mono (waitOr_ran _ _ _ _ _ _ _ _ _) ?_ ?_
  · rintro - w ⟨k', rfl, hk'⟩
    refine ⟨k + k', q.driven b, _, by rw [← Nat.add_assoc]; rfl, hfall, ?_⟩
    rintro rfl ⟨hanswers, hdone⟩
    obtain rfl := hk hanswers
    rw [hk' ((data_of_peer h _).1.trans hdone)]
  · rintro st w ⟨rfl, hno, k', rfl⟩
    refine ⟨rfl, ?_, _, _, _, _, _, hfall, rfl⟩
    rintro ⟨rfl, hanswers, hdone⟩
    rw [hk hanswers] at hno
    exact hno ((data_of_peer h _).1.trans hdone)

theorem ppReadByte_receives : Receives ppReadByte (levels Line.data fun _ => true) (List.count false) 2
    (fun _ => false) (fun _ => d) (Pulses Line.clock v) v := by
  intro i n c buffer q l hoe
  obtain ⟨hlow, -, -, hhigh, -, hback⟩ := three_spec h
  refine Gives.bind (Gives.mono (waitOr_ran _ _ _ _ _ _ _ _ _) (fun _ _ h => h) ?_) ?_
  · rintro st w ⟨rfl, hno, k, rfl⟩
    refine ⟨rfl, ?_, _, d, [], _, [], .nil, rfl, q, rfl⟩
    rintro ⟨rfl, hoffers, -⟩
    exact hno ((clock_of_peer h _).1.trans hoffers)
  rintro - w ⟨k, rfl, hk⟩
  rw [(clock_of_peer h _).1] at hk
  refine (portSample_ran _ _ _ _ _ hoe).bind_gives ((assertLines_ran _ _ _ _ _ _).bind_gives ?_)
  have htake : Reads (levels Line.data fun _ => true) false [pin (d ||| Line.data) q.dropped v] true [true] :=
    levels_other rfl (decide_eq_true hhigh)
  refine Gives.bind (Gives.mono (waitOr_ran _ _ _ _ _ _ _ _ _) (fun _ _ h => h) ?_) ?_
  · rintro st w ⟨rfl, hno, k', rfl⟩
    refine ⟨rfl, ?_, _, _, _, _, _, htake, rfl, q.dropped, rfl⟩
    rintro ⟨rfl, hoffers, hdone⟩
    rw [hk hoffers] at hno
    exact hno ((clock_of_peer h _).2.trans hdone)
  rintro - w ⟨k', rfl, hk'⟩
  refine (releaseLines_ran _ _ _ _ _ _).bind_gives ((Does.pure _).gives ⟨rfl, k + k', _, _, ?_,
    htake.append (levels_other (p := pin d q.dropped v) rfl (decide_eq_false (not_not.mpr hlow))), rfl, ?_⟩)
  · rw [hback, ← Nat.add_assoc]
    rfl
  · rintro rfl ⟨hoffers, hdone⟩
    obtain rfl := hk hoffers
    rw [hk' ((clock_of_peer h _).2.trans hdone)]

end

/-! ## The blocks (R157, R158) -/

/-- A PARALLEL write request, whatever the peer does. -/
theorem ppWrite_gives {v : View} (hcount : v.count = 0) (bytes : List Byte) :
    Gives view (ppWrite bytes) v
      (fun _ w => ∃ n q l, w = ran n (v.drive &&& Line.reset) q l { v with count := bytes.length } ∧ q.oe = false ∧
        Reads risesFrom true l false (bytes.map some) ∧
          (AnswersAll (Pulses Line.data v) bytes.length → n = 2 * bytes.length))
      (fun st w => ∃ l, Reads risesFrom true l false [] ∧
        GaveUp risesFrom (Pulses Line.data v) bytes false l v st w) := by
  obtain ⟨-, hthree⟩ := three_released v.drive
  obtain ⟨-, hlow, -⟩ := three_spec hthree
  have hstart := rises_low (p := pin (v.drive &&& Line.reset) (portState v) v) hlow true
  have heach := sendEach_announces (q := portState v) (l := [pin (v.drive &&& Line.reset) (portState v) v])
    (ppWriteByte_announces hthree v) hcount bytes
  refine (releaseThree_does v).bind_gives (Gives.bind (Gives.mono heach (fun _ _ h => h)
    fun st w hgave => ⟨_, hstart, hgave⟩) ?_)
  rintro - _ ⟨n, q, l, rfl, hl, hn⟩
  refine (Does.portOff _).gives ⟨n, q.off, pin (v.drive &&& Line.reset) q.off v :: (l ++ _), rfl, rfl, ?_, hn⟩
  have hend := (hstart.append hl).cons (rises_low (p := pin (v.drive &&& Line.reset) q.off v) hlow false)
  rwa [List.append_nil] at hend

/-- A PARALLEL read request, whatever the peer does. -/
theorem ppRead_gives {v : View} {cap : Nat} (hcount : v.count = 0) (hroom : cap ≤ v.cfg.bufSize) :
    Gives view (ppRead cap) v
      (fun _ w => ∃ bytes n q l x, bytes.length = cap ∧ w = ran n (v.drive &&& Line.reset) q l (taken bytes v) ∧
        q.oe = false ∧ Drained bytes q (portState v).off.dropped ∧
          Reads (levels Line.data fun _ => true) false l false x ∧ x.count false = cap ∧
            (AnswersAll (Pulses Line.clock v) cap → n = 2 * cap))
      (fun st w => ∃ l, Reads (levels Line.data fun _ => true) false l false [] ∧
        Broke (levels Line.data fun _ => true) (List.count false) (Pulses Line.clock v) cap false l v st w) := by
  obtain ⟨-, hthree⟩ := three_released v.drive
  obtain ⟨hlow, -⟩ := three_spec hthree
  have hlevel : ∀ q : PortState,
      Reads (levels Line.data fun _ => true) false [pin (v.drive &&& Line.reset) q v] false [] := fun q =>
    levels_same rfl (decide_eq_false (not_not.mpr hlow))
  have hstart := (hlevel (portState v)).append (hlevel (portState v).off)
  have heach := receiveEach_receives (l := [pin (v.drive &&& Line.reset) (portState v).off v,
    pin (v.drive &&& Line.reset) (portState v) v]) (ppReadByte_receives hthree v) rfl (fun x y => List.count_append)
    hroom hcount (PortState.dropped_oe (portState v).off)
  refine (releaseThree_does v).bind_gives ((portInput_ran 0 (v.drive &&& Line.reset) (portState v) [_] v).bind_gives
    (Gives.mono heach ?_ fun st w hbroke => ⟨_, hstart, hbroke⟩))
  rintro - _ ⟨bytes, n, q, l, x, hlen, rfl, hoe, hdrained, hl, hx, hn⟩
  exact ⟨bytes, n, q, _, x, hlen, rfl, hoe, hdrained, hstart.append hl, hx, hn⟩

/-- A peer that answers, or offers, every byte. -/
theorem pulses_of_script {s : State} {l : LineMask} {n : Nat} {rest : List LineMask}
    (h : s.inp.lines = (List.replicate n [l, 0]).flatten ++ rest) :
    AnswersAll (Pulses l (view s)) n ∧ 2 * n = (List.replicate n [l, 0]).flatten.length := by
  have hlength : 2 * n = (List.replicate n [l, 0]).flatten.length := by
    simp [List.length_flatten, Nat.mul_comm]
  have hpeer : ∀ i j, i < n → j < 2 → (view s).peer (2 * i + j) = [l, 0].getD j 0 := fun i j hi hj => by
    rw [Listener.peer_of_script h _ (by omega)]
    exact Listener.getD_flatten_replicate [l, 0] 0 hj n i hi
  refine ⟨fun i hi => ⟨?_, ?_⟩, hlength⟩
  · rw [← Nat.add_zero (2 * i), hpeer i 0 hi (by decide)]
    exact BitVec.and_self
  · rw [hpeer i 1 hi (by decide)]
    exact BitVec.zero_and

theorem clockRises_still (ps : List Pins) : clockRises (ps.map still) = clockRises ps := by
  rw [clockRises, clockRises, ← List.map_reverse, risesFrom_still]

/-- Settles O56. -/
theorem parallelTransfersPortBytes : Obligations.ParallelTransfersPortBytes := by
  refine ⟨fun s bytes x rest h hmode hproto hfill hlines hport => ?_,
    fun s bytes rest h hmode hproto hfill hbytes hlines => ?_⟩
  · have hop := requestOp_read h hmode (by rw [hproto, readOp_pp])
    obtain ⟨-, hcount⟩ := view_of_inv h
    obtain ⟨hoffers, hlength⟩ := pulses_of_script hlines
    obtain ⟨st, u, hu, -, ⟨rfl, got, n, q, l, y, hlen, hview, hoe, hdrained, -, -, hn⟩ | ⟨-, -, -, hno, -⟩⟩ :=
      handle_of_gives (by rw [hmode]; rfl) hop (ppRead_gives hcount h.request.2.1)
    · rw [hfill] at hlen hn
      obtain ⟨hcount', hdrive, hppOe, hrest, hbuffer⟩ :=
        read_outcome hview hlen hport hdrained hlines ((hn hoffers).trans hlength)
      refine ⟨_, hu, ?_⟩
      simp only [finished_mode, hmode, finished_status, finished_fill, finished_drive, finished_ppOe, finished_inp,
        finished_buffer]
      exact ⟨rfl, rfl, by rw [if_pos trivial, hcount', byteOfCount_fill hfill], hdrive, hppOe.trans hoe, hrest, hbuffer⟩
    · rw [hfill] at hno
      exact absurd hoffers hno
  · have hop := requestOp_write_of h hmode hfill hbytes (by rw [hproto, writeOp_pp])
    obtain ⟨-, hcount⟩ := view_of_inv h
    obtain ⟨hanswers, hlength⟩ := pulses_of_script hlines
    obtain ⟨st, u, hu, hpins, ⟨rfl, n, q, l, hview, hoe, hl, hn⟩ | ⟨l, -, hno⟩⟩ :=
      handle_of_gives (by rw [hmode]; rfl) hop (ppWrite_gives hcount bytes)
    · obtain ⟨hcount', hdrive, hppOe, -, new, hnew, hstill⟩ :=
        write_outcome hview hpins hlines ((hn hanswers).trans hlength)
      refine ⟨_, new, hu, ?_⟩
      simp only [finished_mode, hmode, finished_status, finished_value, finished_drive, finished_ppOe, finished_out]
      refine ⟨rfl, rfl, ?_, hdrive, hppOe.trans hoe, hnew, ?_⟩
      · rw [hcount', byteOfCount_toNat (by have := s.fill.isLt; omega)]
      · rw [← clockRises_still, hstill]
        exact hl.all rfl
    · exact absurd hno (no_failure hanswers)

end Sys2Proof.Proofs.Parallel
end

section
/-! PROOF. PARALLEL2 (41_wire_modes.md R159 to R162). -/

namespace Sys2Proof.Proofs.Parallel2

open Sys2Proof Sys2Proof.Machine Sys2Proof.Safety Sys2Proof.Proofs.Handler Sys2Proof.Proofs.Timeless
open Sys2Proof.Proofs.Deferred Sys2Proof.Proofs.Requests Sys2Proof.Proofs.Blocks Sys2Proof.Proofs.Ports

/-! ## The phase of a flag line -/

/-- The level of a flag that is toggled for each byte, before byte number `i`. -/
def phase (a : Bool) : Nat → Bool
  | 0 => a
  | i + 1 => !phase a i

theorem phase_not (a : Bool) (i : Nat) : phase (!a) i = phase a (i + 1) := by
  induction i with
  | zero => rfl
  | succ i ih =>
    rw [phase, ih]
    rfl

theorem phase_eq (a : Bool) (i : Nat) : phase a i = decide ((i + if a then 1 else 0) % 2 = 1) := by
  induction i with
  | zero => cases a <;> rfl
  | succ i ih =>
    rw [phase, ih, Bool.eq_iff_iff, Bool.not_eq_true', decide_eq_false_iff_not, decide_eq_true_iff]
    omega

/-- The lines of a block: a RESET that was asserted, and the flag. -/
def flag (f d : LineMask) (a : Bool) : LineMask := (d &&& Line.reset) ||| if a then f else 0

/-- The peer's line follows the flag for byte number `i`. -/
def Follows (g : LineMask) (a : Bool) (v : View) (i : Nat) : Prop := v.peer i &&& g = if phase a i then 0 else g

theorem flag_start (d : LineMask) :
    d &&& ~~~(Line.data ||| Line.atn) = flag Line.clock d (decide (d &&& Line.clock ≠ 0)) ∧
      d &&& ~~~(Line.clock ||| Line.atn) = flag Line.data d (decide (d &&& Line.data ≠ 0)) := by
  revert d
  decide

section
variable {f g : LineMask} (hfg : f = Line.clock ∧ g = Line.data ∨ f = Line.data ∧ g = Line.clock) (d : LineMask)
  (a : Bool)
include hfg

theorem flag_level : decide (flag f d a &&& f ≠ 0) = a ∧ (flag f d a &&& f = 0 ↔ a = false) := by
  obtain ⟨rfl, rfl⟩ | ⟨rfl, rfl⟩ := hfg <;> (revert d a; decide)

theorem flag_other (p : LineMask) : (flag f d a ||| p) &&& g = p &&& g := by
  obtain ⟨rfl, rfl⟩ | ⟨rfl, rfl⟩ := hfg <;> (revert d a p; decide)

theorem flag_toggled :
    (if flag f d a &&& f = 0 then flag f d a ||| f else flag f d a &&& ~~~f) = flag f d (!a) := by
  obtain ⟨rfl, rfl⟩ | ⟨rfl, rfl⟩ := hfg <;> (revert d a; decide)

theorem toggleLine_ran (n : Nat) (q : PortState) (l : List Pins) (v : View) :
    Does view (act (State.toggleLine f)) (ran n (flag f d a) q l v) ()
      (ran n (flag f d (!a)) q (pin (flag f d (!a)) q v :: l) v) := by
  refine .act (fun s => ?_) fun s hs => ?_
  · rw [State.toggleLine]
    split <;> exact List.suffix_cons _ _
  · have hdrive : s.drive = flag f d a := congrArg View.drive hs
    rw [← flag_toggled hfg d a, State.toggleLine, hdrive]
    split
    · rw [view_assertLines, hs, hdrive]
      rfl
    · rw [view_releaseLines, hs, hdrive]
      rfl

/-- What the block waits for. -/
theorem wanted_eq {s : State} {n : Nat} {q : PortState} {l : List Pins} {v : View}
    (hs : view s = ran n (flag f d a) q l v) :
    (if s.drive &&& f = 0 then g else 0) = if a then 0 else g := by
  obtain ⟨-, hlow⟩ := flag_level hfg d a
  have hdrive : s.drive = flag f d a := congrArg View.drive hs
  cases a
  · exact if_pos (by rw [hdrive, hlow])
  · exact if_neg (by rw [hdrive, hlow]; nofun)

end

/-! ## A byte in each direction (R159, R160) -/

section
variable (d : LineMask) (a : Bool) (v : View)

theorem p2WriteByte_announces : Announces p2WriteByte changesFrom 1 (phase a) (fun i => flag Line.clock d (phase a i))
    (Follows Line.data a v) v := by
  intro b i n c q l
  have hfg : Line.clock = Line.clock ∧ Line.data = Line.data ∨ Line.clock = Line.data ∧ Line.data = Line.clock :=
    .inl ⟨rfl, rfl⟩
  obtain ⟨hlevel, -⟩ := flag_level hfg d (phase a i)
  obtain ⟨hlevel', -⟩ := flag_level hfg d (!phase a i)
  have hshown : Reads changesFrom (phase a i) [pin (flag Line.clock d (!phase a i)) (q.driven b) v,
      pin (flag Line.clock d (phase a i)) (q.driven b) v] (!phase a i) [some b] :=
    (changes_same hlevel).append (changes_other (by rw [pin, hlevel']; cases phase a i <;> nofun))
  refine (Does.portOut _ b).bind_gives (Gives.get_bind fun s hs => ?_)
  rw [portOut_ran] at hs ⊢
  refine (toggleLine_ran hfg d (phase a i) _ _ _ _).bind_gives (Gives.mono (waitOr_ran _ _ _ _ _ _ _ _ _) ?_ ?_)
  · rintro - w ⟨k, rfl, hk⟩
    refine ⟨k, q.driven b, _, rfl, hshown, ?_⟩
    rintro rfl hfollows
    refine hk ?_
    rw [wanted_eq hfg d _ hs, flag_other hfg, Nat.one_mul]
    exact hfollows
  · rintro st w ⟨rfl, hno, k, rfl⟩
    refine ⟨rfl, ?_, _, _, _, _, _, hshown, rfl⟩
    rintro ⟨rfl, hfollows⟩
    refine hno ?_
    rw [wanted_eq hfg d _ hs, flag_other hfg, Nat.one_mul]
    exact hfollows

theorem p2ReadByte_receives : Receives p2ReadByte (levels Line.data fun _ => true) List.length 1 (phase a)
    (fun i => flag Line.data d (phase a i)) (Follows Line.clock a v) v := by
  intro i n c buffer q l hoe
  have hfg : Line.data = Line.clock ∧ Line.clock = Line.data ∨ Line.data = Line.data ∧ Line.clock = Line.clock :=
    .inr ⟨rfl, rfl⟩
  obtain ⟨hlevel, -⟩ := flag_level hfg d (!phase a i)
  refine Gives.get_bind fun s hs => Gives.bind (Gives.mono (waitOr_ran _ _ _ _ _ _ _ _ _) (fun _ _ h => h) ?_) ?_
  · rintro st w ⟨rfl, hno, k, rfl⟩
    refine ⟨rfl, ?_, _, _, [], _, [], .nil, rfl, q, rfl⟩
    rintro ⟨rfl, hfollows⟩
    refine hno ?_
    rw [wanted_eq hfg d _ hs, flag_other hfg, Nat.one_mul]
    exact hfollows
  · rintro - w ⟨k, rfl, hk⟩
    refine (portSample_ran _ _ _ _ _ hoe).bind_gives ((toggleLine_ran hfg d (phase a i) _ _ _ _).bind_gives
      ((Does.pure _).gives ⟨rfl, k, _, _, rfl, levels_other rfl hlevel, rfl, ?_⟩))
    rintro rfl hfollows
    refine hk ?_
    rw [wanted_eq hfg d _ hs, flag_other hfg, Nat.one_mul]
    exact hfollows

end

/-! ## The blocks (R161, R162) -/

theorem clock_flag :
    Line.clock = Line.clock ∧ Line.data = Line.data ∨ Line.clock = Line.data ∧ Line.data = Line.clock :=
  .inl ⟨rfl, rfl⟩

theorem data_flag :
    Line.data = Line.clock ∧ Line.clock = Line.data ∨ Line.data = Line.data ∧ Line.clock = Line.clock :=
  .inr ⟨rfl, rfl⟩

/-- A PARALLEL2 write request, whatever the peer does; `a` is CLOCK's level before it. -/
theorem p2Write_gives {v : View} {a : Bool} (ha : a = decide (v.drive &&& Line.clock ≠ 0)) (hcount : v.count = 0)
    (bytes : List Byte) :
    Gives view (p2Write bytes) v
      (fun _ w => ∃ n q l, w = ran n (flag Line.clock v.drive (phase a bytes.length)) q l
          { v with count := bytes.length } ∧ q.oe = false ∧
        Reads changesFrom a l (phase a bytes.length) (bytes.map some) ∧
          (AnswersAll (Follows Line.data a v) bytes.length → n = bytes.length))
      (fun st w => ∃ l, Reads changesFrom a l a [] ∧ GaveUp changesFrom (Follows Line.data a v) bytes a l v st w) := by
  have hlevel : ∀ c q, Reads changesFrom c [pin (flag Line.clock v.drive c) q v] c [] := fun c q =>
    changes_same (flag_level clock_flag v.drive c).1
  have heach := sendEach_announces (q := portState v) (l := [pin (flag Line.clock v.drive a) (portState v) v])
    (p2WriteByte_announces v.drive a v) hcount bytes
  have hrelease : Does view (act (State.releaseLines (Line.data ||| Line.atn))) v ()
      (ran 0 (flag Line.clock v.drive a) (portState v) [pin (flag Line.clock v.drive a) (portState v) v] v) := by
    have h := Does.releaseLines v (Line.data ||| Line.atn)
    rw [(flag_start v.drive).1, ← ha, View.draw_eq] at h
    exact h
  refine hrelease.bind_gives (Gives.bind (Gives.mono heach (fun _ _ h => h)
    fun st w hgave => ⟨_, hlevel a (portState v), hgave⟩) ?_)
  rintro - _ ⟨n, q, l, rfl, hl, hn⟩
  refine (Does.portOff _).gives
    ⟨n, q.off, pin (flag Line.clock v.drive (phase a bytes.length)) q.off v :: (l ++ _), rfl, rfl, ?_, ?_⟩
  · have hend := ((hlevel a (portState v)).append hl).cons (hlevel (phase a bytes.length) q.off)
    rwa [List.append_nil] at hend
  · rwa [Nat.one_mul] at hn

/-- A PARALLEL2 read request, whatever the peer does; `a` is DATA's level before it. -/
theorem p2Read_gives {v : View} {a : Bool} {cap : Nat} (ha : a = decide (v.drive &&& Line.data ≠ 0))
    (hcount : v.count = 0) (hroom : cap ≤ v.cfg.bufSize) :
    Gives view (p2Read cap) v
      (fun _ w => ∃ bytes n q l x, bytes.length = cap ∧
        w = ran n (flag Line.data v.drive (phase a cap)) q l (taken bytes v) ∧ q.oe = false ∧
          Drained bytes q (portState v).off.dropped ∧ Reads (levels Line.data fun _ => true) a l (phase a cap) x ∧
            x.length = cap ∧ (AnswersAll (Follows Line.clock a v) cap → n = cap))
      (fun st w => ∃ l, Reads (levels Line.data fun _ => true) a l a [] ∧
        Broke (levels Line.data fun _ => true) List.length (Follows Line.clock a v) cap a l v st w) := by
  have hlevel : ∀ q, Reads (levels Line.data fun _ => true) a [pin (flag Line.data v.drive a) q v] a [] := fun q =>
    levels_same rfl (flag_level data_flag v.drive a).1
  have hstart := (hlevel (portState v)).append (hlevel (portState v).off)
  have heach := receiveEach_receives (l := [pin (flag Line.data v.drive a) (portState v).off v,
    pin (flag Line.data v.drive a) (portState v) v]) (p2ReadByte_receives v.drive a v) rfl
    (fun x y => List.length_append) hroom hcount (PortState.dropped_oe (portState v).off)
  have hrelease : Does view (act (State.releaseLines (Line.clock ||| Line.atn))) v ()
      (ran 0 (flag Line.data v.drive a) (portState v) [pin (flag Line.data v.drive a) (portState v) v] v) := by
    have h := Does.releaseLines v (Line.clock ||| Line.atn)
    rw [(flag_start v.drive).2, ← ha, View.draw_eq] at h
    exact h
  refine hrelease.bind_gives ((portInput_ran 0 _ (portState v) _ v).bind_gives
    (Gives.mono heach ?_ fun st w hbroke => ⟨_, hstart, hbroke⟩))
  rintro - _ ⟨bytes, n, q, l, x, hlen, rfl, hoe, hdrained, hl, hx, hn⟩
  rw [Nat.one_mul] at hn
  exact ⟨bytes, n, q, _, x, hlen, rfl, hoe, hdrained, hstart.append hl, hx, hn⟩

/-! ## A peer that follows -/

theorem following_spec (g : LineMask) (n : Nat) :
    ∀ a, (following g a n).length = n ∧ ∀ i, i < n → (following g a n).getD i 0 = if phase a i then 0 else g := by
  induction n with
  | zero => exact fun a => ⟨rfl, fun i hi => absurd hi (Nat.not_lt_zero i)⟩
  | succ n ih =>
    intro a
    obtain ⟨hlength, hget⟩ := ih (!a)
    refine ⟨congrArg (· + 1) hlength, fun i hi => ?_⟩
    cases i with
    | zero => rfl
    | succ i =>
      rw [following, List.getD_cons_succ, hget i (Nat.lt_of_succ_lt_succ hi), phase_not]

theorem follows_of_script {s : State} {g : LineMask} {a : Bool} {n : Nat} {rest : List LineMask}
    (h : s.inp.lines = following g a n ++ rest) :
    AnswersAll (Follows g a (view s)) n ∧ n = (following g a n).length := by
  obtain ⟨hlength, hget⟩ := following_spec g n a
  refine ⟨fun i hi => ?_, hlength.symm⟩
  rw [Follows, Listener.peer_of_script h i (by omega), hget i hi]
  split
  · exact BitVec.zero_and
  · exact BitVec.and_self

theorem clockChanges_still (a : Bool) (ps : List Pins) : clockChanges a (ps.map still) = clockChanges a ps := by
  rw [clockChanges, clockChanges, ← List.map_reverse, changesFrom_still]

/-- The flag's level at the end is the parity of the toggles. -/
theorem flag_phase (f d e : LineMask) (n : Nat) :
    flag f d (phase (decide (e ≠ 0)) n) =
      (d &&& Line.reset) ||| if (n + if e ≠ 0 then 1 else 0) % 2 = 1 then f else 0 := by
  rw [flag, phase_eq]
  simp only [decide_eq_true_eq]

/-- Settles O57. -/
theorem parallel2TogglesClock : Obligations.Parallel2TogglesClock := by
  refine ⟨fun s bytes rest h hmode hproto hfill hbytes hlines => ?_,
    fun s bytes x rest h hmode hproto hfill hlines hport => ?_⟩
  · have hop := requestOp_write_of h hmode hfill hbytes (by rw [hproto, writeOp_p2])
    obtain ⟨-, hcount⟩ := view_of_inv h
    obtain ⟨hanswers, hlength⟩ := follows_of_script hlines
    obtain ⟨st, u, hu, hpins, ⟨rfl, n, q, l, hview, hoe, hl, hn⟩ | ⟨l, -, hno⟩⟩ :=
      handle_of_gives (by rw [hmode]; rfl) hop (p2Write_gives rfl hcount bytes)
    · obtain ⟨hcount', hdrive, hppOe, hrest, new, hnew, hstill⟩ :=
        write_outcome hview hpins hlines ((hn hanswers).trans hlength)
      refine ⟨_, new, hu, ?_⟩
      simp only [finished_mode, hmode, finished_status, finished_value, finished_drive, finished_ppOe, finished_out,
        finished_inp]
      refine ⟨rfl, rfl, ?_, hppOe.trans hoe, hrest, hnew, ?_, hdrive.trans (flag_phase _ _ _ _)⟩
      · rw [hcount', byteOfCount_toNat (by have := s.fill.isLt; omega)]
      · rw [← clockChanges_still, hstill]
        exact hl.all rfl
    · exact absurd hno (no_failure hanswers)
  · have hop := requestOp_read h hmode (by rw [hproto, readOp_p2])
    obtain ⟨-, hcount⟩ := view_of_inv h
    obtain ⟨hoffers, hlength⟩ := follows_of_script hlines
    obtain ⟨st, u, hu, -, ⟨rfl, got, n, q, l, y, hlen, hview, hoe, hdrained, -, -, hn⟩ | ⟨-, -, -, hno, -⟩⟩ :=
      handle_of_gives (by rw [hmode]; rfl) hop (p2Read_gives rfl hcount h.request.2.1)
    · rw [hfill] at hlen hn
      obtain ⟨hcount', hdrive, hppOe, hrest, hbuffer⟩ :=
        read_outcome hview hlen hport hdrained hlines ((hn hoffers).trans hlength)
      have hcounted : byteOfCount u.count = s.fill := by rw [hcount', byteOfCount_fill hfill]
      refine ⟨_, hu, ?_⟩
      simp only [finished_mode, hmode, finished_status, finished_fill, finished_value, finished_drive, finished_ppOe,
        finished_inp, finished_buffer, if_true, hcounted]
      rw [hfill] at hdrive
      exact ⟨trivial, rfl, trivial, trivial, hppOe.trans hoe, hrest, hdrive.trans (flag_phase _ _ _ _), hbuffer⟩
    · rw [hfill] at hno
      exact absurd hoffers hno

end Sys2Proof.Proofs.Parallel2
end

section
/-! PROOF. Bytes received in ORIGINAL (41_wire_modes.md R143) from a talker: what the samples say is read. The view is
extended by the overshoots, for the silence that means EOI. -/

namespace Sys2Proof.Proofs.Talker

open Sys2Proof Sys2Proof.Machine Sys2Proof.Safety Sys2Proof.Proofs.Primitives Sys2Proof.Proofs.Timeless
open Sys2Proof.Proofs.Blocks

/-! ## The view with the overshoots -/

/-- The view and the overshoots to come. -/
def timed (s : State) : View × List Nat := (view s, s.inp.overs)

section
variable {α : Type} {op : Engine α} {v w : View} {a : α} {o : List Nat}

/-- What is known of the view is known of the view with the overshoots. -/
theorem gives_timed {Q : α → View → Prop} {E : Status → View → Prop} (h : Gives view op v Q E) :
    Gives timed op (v, o) (fun a w => Q a w.1) (fun st w => E st w.1) := fun s hs => h s (congrArg Prod.fst hs)

/-- An operation that takes `k` overshoots. -/
theorem does_timed (k : Nat) (h : Does view op v a w)
    (hovers : ∀ s a t, op s = .ok a t → t.inp.overs = s.inp.overs.drop k) :
    Does timed op (v, o) a (w, o.drop k) := .of_run fun s hs => by
  obtain ⟨t, ht, hpins, hw⟩ := h.run (congrArg Prod.fst hs)
  refine ⟨t, ht, hpins, Prod.ext hw ?_⟩
  exact (hovers s a t ht).trans (congrArg (List.drop k) (congrArg Prod.snd hs))

/-- A micro-step that takes `k` overshoots. -/
theorem act_timed {g : State → State} (k : Nat) (h : Does view (act g) v () w)
    (hovers : ∀ s, (g s).inp.overs = s.inp.overs.drop k) : Does timed (act g) (v, o) () (w, o.drop k) :=
  does_timed k h fun s _ t ht => by
    obtain ⟨-, rfl⟩ : () = () ∧ g s = t := by
      have := EStateM.Result.ok.inj ht
      exact this
    exact hovers s

end

theorem overs_dropOver (i : Inputs) : i.dropOver.overs = i.overs.drop 1 := by rw [dropOver_eq_usedUp]; rfl

theorem overs_dropLines (i : Inputs) : i.dropLines.overs = i.overs := by rw [dropLines_eq_usedUp]; rfl

theorem timed_sampled (s : State) : timed s.kick.sampled = ((view s).skip 1, s.inp.overs) :=
  Prod.ext (view_sampled s.kick) (overs_dropLines s.inp)

section
variable (v : View) (o : List Nat) (m x : LineMask)

theorem assertLines_timed : Does timed (act (State.assertLines m)) (v, o) () (v.draw (v.drive ||| m), o.drop 1) :=
  act_timed 1 (Does.assertLines v m) fun s => overs_dropOver s.inp

theorem releaseLines_timed :
    Does timed (act (State.releaseLines m)) (v, o) () (v.draw (v.drive &&& ~~~m), o.drop 1) :=
  act_timed 1 (Does.releaseLines v m) fun s => overs_dropOver s.inp

theorem irqMask_timed : Does timed (act State.irqMask) (v, o) () (v.mask true, o) :=
  act_timed 0 (Does.irqMask v) fun _ => rfl

theorem irqUnmask_timed : Does timed (act State.irqUnmask) (v, o) () (v.mask false, o) :=
  act_timed 0 (Does.irqUnmask v) fun _ => rfl

theorem setEoi_timed : Does timed (act State.setEoi) (v, o) () ({ v with eoi := true }, o) :=
  act_timed 0 (Does.setEoi v) fun _ => rfl

theorem pause_timed (t : Config → Nat) : Does timed (pause t) (v, o) () (v, o.drop 1) :=
  act_timed 1 (Does.pause v t) fun s => overs_dropOver s.inp

theorem getLine_timed : Does timed (getLine m) (v, o) (decide ((v.drive ||| v.peer 0) &&& m ≠ 0)) (v.skip 1, o) :=
  does_timed 0 (Does.getLine v m) fun s a t ht => by
    obtain ⟨-, rfl⟩ := EStateM.Result.ok.inj ht
    exact overs_dropLines s.inp

variable {v m x}

/-- A wait whose first sample matches. -/
theorem waitOr_timed (t : Config → Nat) (st : Status) (h : (v.drive ||| v.peer 0) &&& m = x) :
    Does timed (waitOr m x t st) (v, o) () (v.skip 1, o) := .of_run fun s hs => by
  obtain ⟨hv, ho⟩ := Prod.mk.inj hs
  subst hv ho
  exact ⟨_, waitOr_first t st (by rw [sense_eq_peer]; exact h), List.suffix_rfl, timed_sampled s⟩

theorem waitFor_timed (t : Config → Nat) (h : (v.drive ||| v.peer 0) &&& m = x) :
    Does timed (waitFor m x t) (v, o) true (v.skip 1, o) := .of_run fun s hs => by
  obtain ⟨hv, ho⟩ := Prod.mk.inj hs
  subst hv ho
  rw [← sense_eq_peer] at h
  exact ⟨s.kick.sampled, by rw [waitFor, State.wait_first _ h], List.suffix_rfl, timed_sampled s⟩

end

/-! ## A silence of exactly the time waited for (R125, R126) -/

/-- No sample up to the deadline matches, and no delay overshoots. -/
theorem waitLoop_silent {m x : LineMask} {t t0 : Nat} {o : List Nat} (n : Nat) :
    ∀ {fuel : Nat} {s : State}, n < fuel → t0 ≤ s.now → s.now - t0 + n * s.cfg.tPollStep = t → 0 < s.cfg.tPollStep →
      s.inp.overs = List.replicate n 0 ++ o → (∀ j, j ≤ n → (s.drive ||| (view s).peer j) &&& m ≠ x) →
      ∃ u, s.waitLoop m x t t0 fuel = (false, u) ∧ u.out.pins = s.out.pins ∧ timed u = ((view s).skip (n + 1), o) := by
  induction n with
  | zero =>
    intro fuel s hfuel hstart ht _ ho hmiss
    obtain ⟨fuel, rfl⟩ := Nat.exists_eq_succ_of_ne_zero (Nat.ne_of_gt hfuel)
    refine ⟨s.kick.sampled, ?_, rfl, ?_⟩
    · have hnow : t ≤ s.kick.sampled.now - t0 := by
        show t ≤ s.now - t0
        omega
      rw [State.waitLoop, if_neg, if_pos hnow]
      rw [sense_eq_peer]
      exact hmiss 0 (Nat.le_refl 0)
    · rw [timed, view_sampled, view_kick]
      exact Prod.ext rfl ((overs_dropLines _).trans ho)
  | succ n ih =>
    intro fuel s hfuel hstart ht hstep ho hmiss
    obtain ⟨fuel, rfl⟩ := Nat.exists_eq_succ_of_ne_zero (Nat.ne_of_gt (Nat.lt_of_le_of_lt (Nat.zero_le _) hfuel))
    have hover : s.kick.sampled.inp.nextOver = 0 := by
      rw [Inputs.nextOver, show s.kick.sampled.inp.overs = _ from (overs_dropLines s.inp).trans ho]
      rfl
    have hlate : ¬ t ≤ s.kick.sampled.now - t0 := by
      show ¬ t ≤ s.now - t0
      rw [Nat.succ_mul] at ht
      omega
    have hview : view (s.kick.sampled.delay s.cfg.tPollStep) = (view s).skip 1 := by
      rw [view_delay, view_sampled, view_kick]
    have hnow : (s.kick.sampled.delay s.cfg.tPollStep).now = s.now + s.cfg.tPollStep :=
      congrArg (s.now + s.cfg.tPollStep + ·) hover
    have ht' : (s.kick.sampled.delay s.cfg.tPollStep).now - t0 + n * s.cfg.tPollStep = t := by
      rw [hnow]
      rw [Nat.succ_mul] at ht
      omega
    have hovers : (s.kick.sampled.delay s.cfg.tPollStep).inp.overs = List.replicate n 0 ++ o := by
      show s.kick.sampled.inp.dropOver.overs = _
      rw [overs_dropOver, State.sampled, overs_dropLines]
      show s.inp.overs.drop 1 = _
      rw [ho]
      rfl
    obtain ⟨u, hu, hpins, hend⟩ := ih (fuel := fuel) (s := s.kick.sampled.delay s.cfg.tPollStep) (by omega) (by omega)
      ht' hstep hovers fun j hj => by
        rw [hview, View.peer_skip, Nat.add_comm]
        exact hmiss (j + 1) (by omega)
    refine ⟨u, ?_, hpins, ?_⟩
    · rw [State.waitLoop, if_neg, if_neg hlate]
      · exact hu
      · rw [sense_eq_peer]
        exact hmiss 0 (Nat.zero_le _)
    · rw [hend, hview, View.skip_skip, Nat.add_comm 1]

theorem waitFor_silent {v : View} {m x : LineMask} {t : Config → Nat} {n : Nat} {o : List Nat}
    (ht : t v.cfg = n * v.cfg.tPollStep) (hstep : 0 < v.cfg.tPollStep)
    (hmiss : ∀ j, j ≤ n → (v.drive ||| v.peer j) &&& m ≠ x) :
    Does timed (waitFor m x t) (v, List.replicate n 0 ++ o) false (v.skip (n + 1), o) := .of_run fun s hs => by
  obtain ⟨hv, ho⟩ := Prod.mk.inj hs
  subst hv
  have hfuel : n < t s.cfg / s.cfg.tPollStep + 2 := by
    rw [show t s.cfg = _ from ht]
    show n < n * s.cfg.tPollStep / s.cfg.tPollStep + 2
    rw [Nat.mul_div_cancel n (show 0 < s.cfg.tPollStep from hstep)]
    omega
  obtain ⟨u, hu, hpins, hend⟩ := waitLoop_silent (t := t s.cfg) (t0 := s.now) n hfuel (Nat.le_refl _)
    (by rw [Nat.sub_self, Nat.zero_add]; exact ht.symm) hstep ho hmiss
  exact ⟨u, by rw [waitFor, State.wait, hu], by rw [hpins], hend⟩

/-! ## A byte of a talker (R143) -/

section
variable {v : View} {p : LineMask} {ls : List LineMask}

theorem peer_of_cons (h : v.lines = p :: ls) : v.peer 0 = p := View.peer_of_lines (l := [p]) h 0 Nat.one_pos

theorem skip_of_cons (h : v.lines = p :: ls) : v.skip 1 = { v with lines := ls } := View.skip_of_lines (l := [p]) h

end

/-- The byte that bits are shifted into, the first bit first (R132, R143). -/
def assembled (bits : List Bool) (b : Byte) : Byte := bits.foldl (fun b bit => shiftIn b (!bit)) b

theorem assembled_bitsOf (b : Byte) : assembled (bitsOf b) 0 = b := by
  revert b
  decide

theorem clock_of_talker {d : LineMask} (h : d &&& Line.clock = 0) :
    (d ||| 0) &&& Line.clock = 0 ∧ (d ||| Line.clock) &&& Line.clock = Line.clock := by
  revert d
  decide

theorem data_of_talker {d : LineMask} (h : d &&& Line.data = 0) (bit : Bool) :
    decide ((d ||| if bit then 0 else Line.data) &&& Line.data ≠ 0) = !bit := by
  revert d bit
  decide

theorem readBits_talker (bits : List Bool) :
    ∀ {v : View} {o : List Nat} {b : Byte} {rest : List LineMask}, v.drive &&& Line.clock = 0 →
      v.drive &&& Line.data = 0 → v.lines = talkerSamples bits ++ rest →
      Does timed (readBits bits.length b) (v, o) (assembled bits b) ({ v with lines := rest }, o) := by
  induction bits with
  | nil =>
    intro v o b rest _ _ hlines
    obtain ⟨⟩ := v
    cases hlines
    exact Does.pure _
  | cons bit bits ih =>
    intro v o b rest hclock hdata hlines
    obtain ⟨hlow, hhigh⟩ := clock_of_talker hclock
    have hlines : v.lines = 0 :: (if bit then 0 else Line.data) :: Line.clock :: (talkerSamples bits ++ rest) := hlines
    refine (waitOr_timed _ _ _ (by rw [peer_of_cons hlines]; exact hlow)).bind ?_
    rw [skip_of_cons hlines]
    refine (getLine_timed _ _ _).bind ?_
    rw [peer_of_cons (v := { v with lines := _ }) rfl, skip_of_cons (v := { v with lines := _ }) rfl,
      data_of_talker hdata]
    refine (waitOr_timed _ _ _ (by rw [peer_of_cons (v := { v with lines := _ }) rfl]; exact hhigh)).bind ?_
    rw [skip_of_cons (v := { v with lines := _ }) rfl]
    exact ih hclock hdata rfl

theorem readByte_drive (d : LineMask) : (d &&& ~~~Line.data) &&& Line.data = 0 ∧
    (d &&& ~~~Line.data) ||| Line.data = d ||| Line.data ∧
      ((d &&& ~~~Line.data) ||| Line.data) &&& ~~~Line.data = d &&& ~~~Line.data ∧
        (d &&& Line.clock = 0 → (d &&& ~~~Line.data) &&& Line.clock = 0) := by
  revert d
  decide

/-- The block listens: the interrupt masked, DATA released. -/
def listening (v : View) : View := (v.mask true).draw (v.drive &&& ~~~Line.data)

/-- The block has listened for a while. -/
abbrev hearing (eoi : Bool) (ls : List LineMask) (l : List Pins) (v : View) : View :=
  { listening v with eoi := eoi, lines := ls, pins := l ++ (listening v).pins }

/-- After a byte: DATA asserted, the interrupt unmasked, the samples used up. -/
abbrev heard (eoi : Bool) (rest : List LineMask) (l : List Pins) (v : View) : View :=
  { v with drive := v.drive ||| Line.data, eoi := eoi, irqOff := false, lines := rest, pins := l ++ v.pins }

/-- The entries of a byte, `l` while the block listens: first DATA is released with the interrupt masked, at the end it
is asserted with the interrupt unmasked. -/
def heardPins (l : List Pins) (v : View) : List Pins :=
  [⟨0, v.drive ||| Line.data, v.portShown, false⟩, ⟨0, v.drive &&& ~~~Line.data, v.portShown, false⟩] ++ l ++
    [⟨0, v.drive &&& ~~~Line.data, v.portShown, true⟩, ⟨0, v.drive, v.portShown, true⟩]

/-- The entries of an acknowledged EOI. -/
def eoiPins (v : View) : List Pins :=
  [⟨0, v.drive &&& ~~~Line.data, v.portShown, true⟩, ⟨0, v.drive ||| Line.data, v.portShown, true⟩]

theorem Does.to {α V : Type} {f : State → V} {op : Engine α} {v w w' : V} {a : α} (h : Does f op v a w) (hw : w = w') :
    Does f op v a w' := hw ▸ h

/-- The bits and the acknowledgement of a byte. -/
theorem readByte_tail {v : View} {o : List Nat} {rest : List LineMask} (b : Byte) (eoi : Bool) (l : List Pins)
    (hclock : v.drive &&& Line.clock = 0) :
    Does timed (readBits 8 0 >>= fun b => act State.irqUnmask >>= fun _ =>
        act (State.assertLines Line.data) >>= fun _ => Pure.pure b)
      (hearing eoi (talkerSamples (bitsOf b) ++ rest) l v, o) b (heard eoi rest (heardPins l v) v, o.drop 1) := by
  obtain ⟨hdata, hassert, -, hclock'⟩ := readByte_drive v.drive
  have hbits := readBits_talker (bitsOf b) (v := hearing eoi (talkerSamples (bitsOf b) ++ rest) l v) (o := o) (b := 0)
    (hclock' hclock) hdata rfl
  rw [assembled_bitsOf] at hbits
  have hend : ∀ d, d = v.drive ||| Line.data →
      (((hearing eoi rest l v).mask false).draw d, o.drop 1) = (heard eoi rest (heardPins l v) v, o.drop 1) := by
    rintro _ rfl
    simp [View.mask, View.draw, View.shown, listening, heardPins, View.portShown]
  exact hbits.bind ((irqUnmask_timed _ _).bind
    ((Does.to (assertLines_timed _ _ _) (hend _ hassert)).bind (Does.pure b)))

/-- What follows once the block listens. -/
abbrev hear : Engine Byte := do
  let clocked ← waitFor Line.clock Line.clock (·.tEoiDetect)
  doIf (!clocked) acknowledgeEoi
  let b ← readBits 8 0
  act State.irqUnmask
  act (State.assertLines Line.data)
  Pure.pure b

theorem readByte_of_hear {v : View} {w : View × List Nat} {o : List Nat} {b : Byte}
    (h : Does timed hear (listening v, o.drop 1) b w) : Does timed readByte (v, o) b w :=
  (irqMask_timed _ _).bind ((releaseLines_timed _ _ _).bind h)

/-- A talker that takes CLOCK at once. -/
theorem readByte_clocked {v : View} {o : List Nat} {rest : List LineMask} (b : Byte)
    (hclock : v.drive &&& Line.clock = 0) (hlines : v.lines = Line.clock :: talkerSamples (bitsOf b) ++ rest) :
    Does timed readByte (v, o) b (heard v.eoi rest (heardPins [] v) v, o.drop 2) := by
  obtain ⟨-, -, -, hclock'⟩ := readByte_drive v.drive
  obtain ⟨-, hhigh⟩ := clock_of_talker (hclock' hclock)
  have hlines' : (listening v).lines = Line.clock :: (talkerSamples (bitsOf b) ++ rest) := hlines
  refine readByte_of_hear ((waitFor_timed _ _ (by rw [peer_of_cons hlines']; exact hhigh)).bind
    (Does.bind (Does.doIf_false _) ?_))
  rw [skip_of_cons hlines']
  have htail := readByte_tail (v := v) (o := o.drop 1) (rest := rest) b v.eoi [] hclock
  rw [List.drop_drop] at htail
  exact htail

theorem silent_of_lines {d : LineMask} (hclock : d &&& Line.clock = 0) {v : View} {n : Nat} {ls : List LineMask}
    (hlines : v.lines = List.replicate n 0 ++ ls) : ∀ j, j < n → (d ||| v.peer j) &&& Line.clock ≠ Line.clock := by
  intro j hj
  obtain ⟨hlow, -⟩ := clock_of_talker hclock
  rw [View.peer_of_lines hlines j (by rwa [List.length_replicate]), List.getElem_replicate, hlow]
  decide

/-- The acknowledgement of an EOI by a pulse. -/
theorem acknowledgeEoi_timed {v : View} {o : List Nat} {ls : List LineMask} (hclock : v.drive &&& Line.clock = 0) :
    Does timed acknowledgeEoi (hearing v.eoi (Line.clock :: ls) [] v, o) ()
      (hearing true ls (eoiPins v) v, o.drop 3) := by
  obtain ⟨-, hassert, hback, hclock'⟩ := readByte_drive v.drive
  obtain ⟨-, hhigh⟩ := clock_of_talker (hclock' hclock)
  have hpulse : ∀ d e, d = v.drive ||| Line.data → e = v.drive &&& ~~~Line.data →
      ((hearing true (Line.clock :: ls) [] v).draw d).draw e = hearing true (Line.clock :: ls) (eoiPins v) v := by
    rintro _ _ rfl rfl
    rfl
  refine (setEoi_timed _ _).bind ((assertLines_timed _ _ _).bind ((pause_timed _ _ _).bind
    ((Does.to (releaseLines_timed _ _ _) (congrArg (·, ((o.drop 1).drop 1).drop 1) (hpulse _ _ hassert hback))).bind
      ?_)))
  have hwait := waitOr_timed (o.drop 3) (v := hearing true (Line.clock :: ls) (eoiPins v) v) (m := Line.clock)
    (x := Line.clock) (·.tAck) .readBitTimeout (by rw [peer_of_cons rfl]; exact hhigh)
  rw [skip_of_cons rfl] at hwait
  rw [List.drop_drop, List.drop_drop]
  exact hwait

/-- A talker that leaves CLOCK released for T_EOI_DETECT first. -/
theorem readByte_silent {v : View} {o : List Nat} {rest : List LineMask} {n : Nat} (b : Byte)
    (hclock : v.drive &&& Line.clock = 0) (hstep : 0 < v.cfg.tPollStep)
    (hdetect : v.cfg.tEoiDetect = n * v.cfg.tPollStep)
    (hlines : v.lines = List.replicate (n + 1) 0 ++ Line.clock :: talkerSamples (bitsOf b) ++ rest) :
    Does timed readByte (v, List.replicate (n + 1) 0 ++ o) b
      (heard true rest (heardPins (eoiPins v) v) v, o.drop 4) := by
  obtain ⟨-, -, -, hclock'⟩ := readByte_drive v.drive
  have hlines' : (listening v).lines =
      List.replicate (n + 1) 0 ++ (Line.clock :: (talkerSamples (bitsOf b) ++ rest)) := by
    rw [List.append_assoc] at hlines
    exact hlines
  have hsilent := silent_of_lines (hclock' hclock) hlines'
  have hskip : (listening v).skip (n + 1) = hearing v.eoi (Line.clock :: (talkerSamples (bitsOf b) ++ rest)) [] v := by
    have := View.skip_of_lines hlines'
    rwa [List.length_replicate] at this
  have htail := readByte_tail (v := v) (o := o.drop 3) (rest := rest) b true (eoiPins v) hclock
  rw [List.drop_drop] at htail
  refine readByte_of_hear ((waitFor_silent (v := listening v) hdetect hstep fun j hj => hsilent j (by omega)).bind ?_)
  rw [hskip]
  exact Does.bind (Does.doIf_true (acknowledgeEoi_timed hclock)) htail

/-- Settles O52. -/
theorem originalReadDecodesTalker : Obligations.OriginalReadDecodesTalker := by
  refine ⟨fun s b rest hclock hlines => ?_, fun s b k rest overs hstep hdetect hclock hovers hlines => ?_⟩
  · obtain ⟨t, ht, -, hend⟩ := (readByte_clocked (v := view s) (o := s.inp.overs) b hclock hlines).run rfl
    have hview : view t = heard s.eoi rest _ (view s) := congrArg Prod.fst hend
    exact ⟨t, ht, congrArg View.eoi hview, congrArg View.irqOff hview, congrArg View.drive hview,
      congrArg View.lines hview, congrArg View.buffer hview⟩
  · obtain ⟨t, ht, -, hend⟩ := (readByte_silent (v := view s) (o := overs) b hclock hstep hdetect hlines).run (s := s)
      (Prod.ext rfl hovers)
    have hview : view t = heard true rest _ (view s) := congrArg Prod.fst hend
    exact ⟨t, ht, congrArg View.eoi hview, congrArg View.irqOff hview, congrArg View.drive hview,
      congrArg View.lines hview, congrArg View.buffer hview⟩

end Sys2Proof.Proofs.Talker
end

section
/-! PROOF. An ORIGINAL read request (42_bus_session.md R180): the talker's bytes, then the capacity, an EOI or a
stall. -/

namespace Sys2Proof.Proofs.ReadLoop

open Sys2Proof Sys2Proof.Machine Sys2Proof.Safety Sys2Proof.Proofs.Handler Sys2Proof.Proofs.Timeless
open Sys2Proof.Proofs.Deferred Sys2Proof.Proofs.Requests Sys2Proof.Proofs.Blocks Sys2Proof.Proofs.Talker

theorem storeByte_timed {v : View} {o : List Nat} {bytes : List Byte} (b : Byte)
    (hroom : bytes.length < v.cfg.bufSize) :
    Does timed (storeByte b) (taken bytes v, o) () (taken (bytes ++ [b]) v, o) :=
  does_timed 0 (Does.storeByte b hroom) fun s _ t ht => by
    rw [storeByte] at ht
    split at ht
    · next u hu =>
      obtain ⟨-, rfl⟩ := State.memWrite_ok hu
      obtain ⟨-, rfl⟩ := EStateM.Result.ok.inj ht
      rfl
    · cases ht

section
variable {v w : View} {o o' : List Nat} {got : List Byte} {ls rest : List LineMask} {cap extra : Nat}
  {Q : Unit → View × List Nat → Prop} {E : Status → View × List Nat → Prop}

/-- One turn of the loop, the talker being ready (R180). -/
theorem readLoop_turn (hclock : v.drive &&& Line.clock = 0) (hlines : v.lines = 0 :: ls) {b : Byte}
    (hbyte : Does timed readByte (taken got { v with lines := ls }, o) b (taken got w, o'))
    (hroom : got.length < w.cfg.bufSize)
    (h : Gives timed (if w.eoi then pure () else readLoop cap) (taken (got ++ [b]) w, o'.drop 1) Q E) :
    Gives timed (readLoop (cap + 1)) (taken got v, o) Q E := by
  obtain ⟨hlow, -⟩ := clock_of_talker hclock
  have hwait := waitOr_timed o (v := taken got v) (m := Line.clock) (x := 0) (·.tStall) .readStall
    (by rw [peer_of_cons (v := taken got v) hlines]; exact hlow)
  rw [skip_of_cons (v := taken got v) hlines] at hwait
  refine hwait.bind_gives (hbyte.bind_gives ((storeByte_timed b hroom).bind_gives ((pause_timed _ _ _).bind_gives
    (Gives.get_bind fun s hs => ?_))))
  have heoi : s.eoi = w.eoi := congrArg (fun p : View × List Nat => p.1.eoi) hs
  rw [heoi]
  exact h

/-- DATA after some bytes: asserted as the acknowledgement of the last. -/
def acked (bytes : List Byte) (d : LineMask) : LineMask := if bytes = [] then d else d ||| Line.data

theorem or_data_clock {d : LineMask} (h : d &&& Line.clock = 0) : (d ||| Line.data) &&& Line.clock = 0 := by
  revert d
  decide

theorem acked_cons (b : Byte) (bytes : List Byte) (d : LineMask) :
    acked bytes (d ||| Line.data) = acked (b :: bytes) d := by
  rw [acked, acked, if_neg (List.cons_ne_nil b bytes)]
  split
  · rfl
  · rw [BitVec.or_assoc, BitVec.or_self]

/-- After some bytes of a talker that did not announce the end. -/
abbrev after (bytes : List Byte) (rest : List LineMask) (l : List Pins) (v : View) : View :=
  { v with drive := acked bytes v.drive, eoi := false, irqOff := false, lines := rest, pins := l ++ v.pins }

theorem after_nil (hirq : v.irqOff = false) (heoi : v.eoi = false) : after [] v.lines [] v = v := by
  obtain ⟨⟩ := v
  cases hirq
  cases heoi
  rfl

theorem after_heard (b : Byte) (bytes : List Byte) (l l' : List Pins) :
    after bytes rest l (heard false ls l' v) = after (b :: bytes) rest (l ++ l') v := by
  show View.mk (acked bytes (v.drive ||| Line.data)) _ _ _ _ _ _ _ _ _ _ _ _ _ _ _ = _
  rw [acked_cons b, ← List.append_assoc]

/-- The bytes that a talker presents, before whatever follows. -/
theorem readLoop_bytes (bytes : List Byte) :
    ∀ {got : List Byte} {v : View} {o : List Nat}, v.irqOff = false → v.eoi = false → v.drive &&& Line.clock = 0 →
      v.lines = bytes.flatMap talkerByte ++ rest → got.length + bytes.length ≤ v.cfg.bufSize →
      (∀ l, Gives timed (readLoop extra) (taken (got ++ bytes) (after bytes rest l v), o.drop (3 * bytes.length)) Q E) →
      Gives timed (readLoop (bytes.length + extra)) (taken got v, o) Q E := by
  induction bytes with
  | nil =>
    intro got v o hirq heoi hclock hlines hroom h
    have hlines : v.lines = rest := hlines
    have hnil := h []
    rw [← hlines, after_nil hirq heoi, List.append_nil] at hnil
    rw [List.length_nil, Nat.zero_add]
    exact hnil
  | cons b bytes ih =>
    intro got v o hirq heoi hclock hlines hroom h
    rw [List.length_cons] at hroom ⊢
    rw [Nat.succ_add]
    have hlines : v.lines = 0 :: (Line.clock :: talkerSamples (bitsOf b) ++ (bytes.flatMap talkerByte ++ rest)) := by
      rw [hlines, List.flatMap_cons, List.append_assoc]
      rfl
    have hroom' : got.length < v.cfg.bufSize := by omega
    have hbyte := readByte_clocked (v := taken got { v with lines := _ }) (o := o)
      (rest := bytes.flatMap talkerByte ++ rest) b hclock rfl
    refine readLoop_turn (w := heard v.eoi (bytes.flatMap talkerByte ++ rest) (heardPins [] v) v) hclock hlines hbyte
      hroom' ?_
    rw [show (heard v.eoi (bytes.flatMap talkerByte ++ rest) (heardPins [] v) v).eoi = v.eoi from rfl, heoi,
      if_neg Bool.false_ne_true, List.drop_drop]
    refine ih (got := got ++ [b]) rfl rfl (or_data_clock hclock) rfl ?_ fun l => ?_
    · rw [List.length_append, List.length_singleton]
      show got.length + 1 + bytes.length ≤ v.cfg.bufSize
      omega
    · have hgoal := h (l ++ heardPins [] v)
      rw [after_heard b, List.append_assoc, List.drop_drop, Nat.add_comm 3]
      exact hgoal

end

/-! ## The three ends of a read request -/

/-- A READ request of ORIGINAL runs the loop. -/
theorem requestOp_rawRead {s : State} (h : Inv s) (hmode : s.mode = .read) (hproto : s.proto = .s1)
    (heoi : s.eoi = false) : requestOp s s = withCount (readLoop s.fill.toNat) s := by
  rw [requestOp_read h hmode (by rw [hproto, readOp_s1])]
  have hrun : rawRead s.fill.toNat s = (if s.eoi then pure () else readLoop s.fill.toNat : Engine Unit) s := rfl
  rw [heoi] at hrun
  exact withCount_congr hrun

theorem acked_or_data (bytes : List Byte) (d : LineMask) : acked bytes d ||| Line.data = d ||| Line.data := by
  rw [acked]
  split
  · rfl
  · rw [BitVec.or_assoc, BitVec.or_self]

theorem acked_clock (bytes : List Byte) {d : LineMask} (h : d &&& Line.clock = 0) :
    acked bytes d &&& Line.clock = 0 := by
  rw [acked]
  split
  · exact h
  · exact or_data_clock h

theorem heard_after {rest : List LineMask} (b : Byte) (bytes : List Byte) (ls : List LineMask) (l l' : List Pins)
    (v : View) : heard true rest l' (after bytes ls l v) = { after [b] rest (l' ++ l) v with eoi := true } := by
  show View.mk (acked bytes v.drive ||| Line.data) _ _ _ _ _ _ _ _ _ _ _ _ _ _ _ = _
  rw [acked_or_data, ← List.append_assoc]
  rfl

section
variable {v : View} {o : List Nat} {bytes : List Byte} {rest : List LineMask} (hirq : v.irqOff = false)
  (heoi : v.eoi = false) (hcount : v.count = 0) (hclock : v.drive &&& Line.clock = 0)
include hirq heoi hcount hclock

/-- The capacity is reached. -/
theorem readLoop_full (hlines : v.lines = bytes.flatMap talkerByte ++ rest) (hroom : bytes.length ≤ v.cfg.bufSize) :
    Gives timed (readLoop bytes.length) (v, o) (fun _ w => ∃ l, w.1 = taken bytes (after bytes rest l v))
      (fun _ _ => False) := by
  have h := readLoop_bytes (extra := 0) (got := []) (o := o)
    (Q := fun _ w => ∃ l, w.1 = taken bytes (after bytes rest l v)) (E := fun _ _ => False) bytes hirq heoi hclock
    hlines (by rwa [List.length_nil, Nat.zero_add]) fun l => (Does.pure ()).gives ⟨l, rfl⟩
  rwa [taken_nil hcount] at h

/-- The talker is silent for T_EOI_DETECT before one more byte. -/
theorem readLoop_eoi {b : Byte} {n extra : Nat} {overs : List Nat} (hstep : 0 < v.cfg.tPollStep)
    (hdetect : v.cfg.tEoiDetect = n * v.cfg.tPollStep)
    (hlines : v.lines = bytes.flatMap talkerByte ++
      (0 :: (List.replicate (n + 1) 0 ++ Line.clock :: talkerSamples (bitsOf b) ++ rest)))
    (hovers : o = List.replicate (3 * bytes.length + n + 1) 0 ++ overs) (hroom : bytes.length + 1 ≤ v.cfg.bufSize) :
    Gives timed (readLoop (bytes.length + (extra + 1))) (v, o) (fun _ w => ∃ l,
      w.1 = taken (bytes ++ [b]) { after [b] rest l v with eoi := true }) (fun _ _ => False) := by
  have h := readLoop_bytes (extra := extra + 1) (got := []) (o := o) (rest := 0 :: (List.replicate (n + 1) 0 ++
      Line.clock :: talkerSamples (bitsOf b) ++ rest))
    (Q := fun _ w => ∃ l, w.1 = taken (bytes ++ [b]) { after [b] rest l v with eoi := true })
    (E := fun _ _ => False) bytes hirq heoi hclock hlines (by rw [List.length_nil]; omega) fun l => ?_
  · rwa [taken_nil hcount] at h
  · have hdrop : o.drop (3 * bytes.length) = List.replicate (n + 1) 0 ++ overs := by
      rw [hovers, Nat.add_assoc, List.replicate_add, List.append_assoc]
      exact List.drop_left' List.length_replicate
    rw [hdrop]
    have hbyte := readByte_silent (v := taken bytes (after bytes (List.replicate (n + 1) 0 ++
      Line.clock :: talkerSamples (bitsOf b) ++ rest) l v)) (o := overs) (rest := rest) b (acked_clock bytes hclock)
      hstep hdetect rfl
    refine readLoop_turn (w := heard true rest _ (after bytes [] l v)) (acked_clock bytes hclock) rfl hbyte hroom ?_
    exact (Does.pure ()).gives ⟨_, congrArg (taken (bytes ++ [b])) (heard_after b bytes [] l _ v)⟩

/-- The talker keeps CLOCK asserted. -/
theorem readLoop_stall {extra : Nat} (hstep : 0 < v.cfg.tPollStep) (hlines : v.lines = bytes.flatMap talkerByte ++ rest)
    (hroom : bytes.length ≤ v.cfg.bufSize)
    (hstall : ∀ j, j ≤ v.cfg.tStall / v.cfg.tPollStep + 1 →
      v.peer ((bytes.flatMap talkerByte).length + j) &&& Line.clock ≠ 0) :
    Gives timed (readLoop (bytes.length + (extra + 1))) (v, o) (fun _ _ => False) (fun st w => st = .readStall ∧
      ∃ l k, w.1 = (taken bytes ((after bytes rest l v).skip k)).failed .readStall) := by
  have h := readLoop_bytes (extra := extra + 1) (got := []) (o := o) (Q := fun _ _ => False)
    (E := fun st w => st = .readStall ∧ ∃ l k, w.1 = (taken bytes ((after bytes rest l v).skip k)).failed .readStall)
    bytes hirq heoi hclock hlines (by rwa [List.length_nil, Nat.zero_add]) fun l => ?_
  · rwa [taken_nil hcount] at h
  · have hwait : Gives view (waitOr Line.clock 0 (·.tStall) .readStall) (taken bytes (after bytes rest l v))
        (fun _ _ => False)
        (fun st w => st = .readStall ∧ ∃ k, w = (taken bytes ((after bytes rest l v).skip k)).failed .readStall) := by
      refine Gives.waitOr_times_out (·.tStall) .readStall hstep fun j hj => ?_
      have hpeer : (after bytes rest l v).peer j = v.peer ((bytes.flatMap talkerByte).length + j) := by
        rw [← View.peer_skip, View.skip_of_lines hlines]
        rfl
      have hasserted : ∀ d p : LineMask, p &&& Line.clock ≠ 0 → (d ||| p) &&& Line.clock ≠ 0 := by decide
      refine hasserted _ _ ?_
      show (after bytes rest l v).peer j &&& Line.clock ≠ 0
      rw [hpeer]
      exact hstall j hj
    refine Gives.bind (Gives.mono (gives_timed hwait) (fun _ _ h => h) ?_) fun _ _ h => False.elim h
    rintro st w ⟨rfl, k, hw⟩
    exact ⟨rfl, l, k, hw⟩

end

section
variable {s : State} {bytes : List Byte} {rest : List LineMask} (h : Inv s) (hmode : s.mode = .read)
  (hproto : s.proto = .s1) (heoi : s.eoi = false) (hclock : s.drive &&& Line.clock = 0)
include h hmode hproto heoi hclock

/-- O53, the capacity being reached. -/
theorem originalRead_full (hfill : s.fill.toNat = bytes.length)
    (hlines : s.inp.lines = bytes.flatMap talkerByte ++ rest) :
    ∃ t, handle s = .next t ∧ t.mode = .readDone ∧ t.status = 0 ∧ t.fill = s.fill ∧ t.value = s.fill ∧
      t.eoi = false ∧ t.drive = s.drive ||| Line.data ∧ t.busState = s.busState ∧ t.inp.lines = rest ∧
      ∀ k (h : k < bytes.length), t.buffer.get? k = some bytes[k] := by
  have hop := requestOp_rawRead h hmode hproto heoi
  obtain ⟨hirq, hcount⟩ := view_of_inv h
  have hrequest := h.request.2.2
  have hroom := h.request.2.1
  rw [hmode] at hrequest
  obtain ⟨-, hpos⟩ := hrequest
  rw [hfill] at hop hroom
  obtain ⟨st, u, hu, -, ⟨rfl, l, hview⟩ | hno⟩ := handle_of_gives (by rw [hmode]; rfl) hop
    (readLoop_full (o := s.inp.overs) hirq heoi hcount hclock hlines hroom)
  · have hview : view u = taken bytes (after bytes rest l (view s)) := hview
    have hcounted : byteOfCount u.count = s.fill := by
      rw [show u.count = bytes.length from congrArg View.count hview, byteOfCount_fill hfill]
    have hdrive : u.drive = s.drive ||| Line.data := by
      refine (congrArg View.drive hview).trans (if_neg ?_)
      rintro rfl
      rw [hfill] at hpos
      exact absurd hpos (by decide)
    refine ⟨_, hu, ?_⟩
    simp only [finished_mode, hmode, finished_status, finished_fill, finished_value, finished_eoi, finished_drive,
      finished_busState, finished_inp, finished_buffer, if_true, hcounted]
    refine ⟨trivial, rfl, trivial, trivial, congrArg View.eoi hview, hdrive, congrArg View.busState hview,
      congrArg View.lines hview, fun k hk => ?_⟩
    rw [show u.buffer = _ from congrArg View.buffer hview]
    exact get?_taken hk
  · exact hno.elim

/-- O53, the talker announcing the end. -/
theorem originalRead_eoi {b : Byte} {n : Nat} {overs : List Nat} (hfill : bytes.length + 1 ≤ s.fill.toNat)
    (hdetect : s.cfg.tEoiDetect = n * s.cfg.tPollStep)
    (hovers : s.inp.overs = List.replicate (3 * bytes.length + n + 1) 0 ++ overs)
    (hlines : s.inp.lines =
      bytes.flatMap talkerByte ++ List.replicate (n + 2) 0 ++ Line.clock :: talkerSamples (bitsOf b) ++ rest) :
    ∃ t, handle s = .next t ∧ t.mode = .readDone ∧ t.status = 0 ∧ t.fill.toNat = bytes.length + 1 ∧
      t.value = t.fill ∧ t.eoi = true ∧ t.drive = s.drive ||| Line.data ∧ t.busState = s.busState ∧
      t.inp.lines = rest ∧ t.buffer.get? bytes.length = some b ∧
      ∀ k (h : k < bytes.length), t.buffer.get? k = some bytes[k] := by
  have hop := requestOp_rawRead h hmode hproto heoi
  obtain ⟨hirq, hcount⟩ := view_of_inv h
  obtain ⟨hstep, -⟩ := (wf_iff _).mp h.config
  have hroom := h.request.2.1
  have hlines' : s.inp.lines = bytes.flatMap talkerByte ++
      (0 :: (List.replicate (n + 1) 0 ++ Line.clock :: talkerSamples (bitsOf b) ++ rest)) := by
    rw [hlines, List.replicate_succ]
    simp only [List.append_assoc, List.cons_append]
  obtain ⟨extra, hextra⟩ : ∃ extra, s.fill.toNat = bytes.length + (extra + 1) :=
    ⟨s.fill.toNat - (bytes.length + 1), by omega⟩
  rw [hextra] at hop
  obtain ⟨st, u, hu, -, ⟨rfl, l, hview⟩ | hno⟩ := handle_of_gives (by rw [hmode]; rfl) hop
    (readLoop_eoi hirq heoi hcount hclock hstep hdetect hlines' hovers (Nat.le_trans hfill hroom))
  · have hview : view u = taken (bytes ++ [b]) { after [b] rest l (view s) with eoi := true } := hview
    have hlength : u.count = bytes.length + 1 := by
      rw [show u.count = _ from congrArg View.count hview]
      exact List.length_append
    have hbyte : ∀ k (hk : k < (bytes ++ [b]).length), u.buffer.get? k = some (bytes ++ [b])[k] := fun k hk => by
      rw [show u.buffer = _ from congrArg View.buffer hview]
      exact get?_taken hk
    refine ⟨_, hu, ?_⟩
    simp only [finished_mode, hmode, finished_status, finished_fill, finished_value, finished_eoi, finished_drive,
      finished_busState, finished_inp, finished_buffer, if_true]
    refine ⟨trivial, rfl, ?_, trivial, congrArg View.eoi hview, congrArg View.drive hview, congrArg View.busState hview,
      congrArg View.lines hview, ?_, fun k hk => ?_⟩
    · rw [hlength, byteOfCount_toNat (by have := s.fill.isLt; omega)]
    · rw [hbyte bytes.length (by simp), List.getElem_concat_length rfl]
    · rw [hbyte k (by rw [List.length_append]; omega), List.getElem_append_left hk]
  · exact hno.elim

/-- O53, the talker stalling. -/
theorem originalRead_stall (hfill : bytes.length < s.fill.toNat)
    (hlines : s.inp.lines = bytes.flatMap talkerByte ++ rest)
    (hstall : ∀ j, j ≤ s.cfg.tStall / s.cfg.tPollStep + 1 →
      peerAt s.inp ((bytes.flatMap talkerByte).length + j) &&& Line.clock ≠ 0) :
    ∃ t, handle s = .next t ∧ t.mode = .readDone ∧ t.status = 7 ∧ t.fill.toNat = bytes.length ∧
      t.value = t.fill ∧ t.eoi = false ∧ t.busState = s.busState ∧
      t.drive = (if bytes = [] then s.drive else s.drive ||| Line.data) ∧
      t.evEntries = (s.logEvent 7).evEntries ∧ t.evHead = (s.logEvent 7).evHead ∧
      ∀ k (h : k < bytes.length), t.buffer.get? k = some bytes[k] := by
  have hop := requestOp_rawRead h hmode hproto heoi
  obtain ⟨hirq, hcount⟩ := view_of_inv h
  obtain ⟨hstep, -⟩ := (wf_iff _).mp h.config
  have hroom := h.request.2.1
  simp only [peerAt_eq] at hstall
  obtain ⟨extra, hextra⟩ : ∃ extra, s.fill.toNat = bytes.length + (extra + 1) :=
    ⟨s.fill.toNat - (bytes.length + 1), by omega⟩
  rw [hextra] at hop
  obtain ⟨st, u, hu, -, ⟨-, hno⟩ | ⟨rfl, l, k, hview⟩⟩ := handle_of_gives (by rw [hmode]; rfl) hop
    (readLoop_stall (o := s.inp.overs) hirq heoi hcount hclock hstep hlines (by
      show bytes.length ≤ s.cfg.bufSize
      omega) hstall)
  · exact hno.elim
  · have hview : view u = (taken bytes ((after bytes rest l (view s)).skip k)).log 7 := hview
    refine ⟨_, hu, ?_⟩
    simp only [finished_mode, hmode, finished_status, finished_fill, finished_value, finished_eoi, finished_drive,
      finished_busState, finished_buffer, finished_evEntries, finished_evHead, Primitives.logEvent_eq, if_true]
    refine ⟨trivial, rfl, ?_, trivial, congrArg View.eoi hview, congrArg View.busState hview, congrArg View.drive hview,
      congrArg View.evEntries hview, congrArg View.evHead hview, fun k hk => ?_⟩
    · rw [show u.count = bytes.length from congrArg View.count hview, byteOfCount_toNat (by
        have := s.fill.isLt
        omega)]
    · rw [show u.buffer = _ from congrArg View.buffer hview]
      exact get?_taken hk

end

/-- Settles O53. -/
theorem originalReadFillsBuffer : Obligations.OriginalReadFillsBuffer :=
  fun _ _ _ h hmode hproto heoi hclock =>
    ⟨originalRead_full h hmode hproto heoi hclock,
      fun _ _ _ hfill hdetect hovers hlines => originalRead_eoi h hmode hproto heoi hclock hfill hdetect hovers hlines,
      originalRead_stall h hmode hproto heoi hclock⟩

end Sys2Proof.Proofs.ReadLoop
end

section
/-! PROOF. What a WRITE request reports (44_async_handler.md R267; D8, D46), whatever the peer does: the bytes shown and
acknowledged. -/

namespace Sys2Proof.Proofs.WriteCount

open Sys2Proof Sys2Proof.Machine Sys2Proof.Safety Sys2Proof.Proofs.Handler Sys2Proof.Proofs.Timeless
open Sys2Proof.Proofs.Deferred Sys2Proof.Proofs.Requests Sys2Proof.Proofs.Blocks Sys2Proof.Proofs.Sender
open Sys2Proof.Proofs.Writes Sys2Proof.Proofs.Ports

/-! ## ORIGINAL (R172 to R178) -/

/-- The bytes shown when `k` have been acknowledged: after a NAK one more. -/
def shownBytes (bytes : List Byte) (k : Nat) (st : Status) : List Byte := bytes.take (k + if st = .nak then 1 else 0)

theorem shownBytes_cons (b : Byte) (bytes : List Byte) (k : Nat) (st : Status) :
    shownBytes (b :: bytes) (k + 1) st = b :: shownBytes bytes k st := by
  rw [shownBytes, Nat.add_right_comm]
  rfl

theorem shownBytes_first (b : Byte) (bytes : List Byte) (st : Status) :
    (shownBytes (b :: bytes) 0 st).flatMap bitsOf = if st = .nak then bitsOf b else [] := by
  rw [shownBytes]
  split
  · exact List.append_nil _
  · rfl

/-- The byte loop without ATN. -/
theorem sendFramedEach_gives (bytes : List Byte) :
    ∀ {v : View}, v.irqOff = false → v.drive &&& Line.data = 0 → v.drive ||| Line.clock = v.drive →
      Gives view (sendFramedEach false bytes) v
        (fun _ w => ∃ n l, OnWire (v.drive &&& Line.atn) (bytes.flatMap bitsOf) l ∧
          w = counted n v.drive l (v.count + bytes.length) v)
        (fun st w => releasesLines st = true ∧ ∃ k n d l, k < bytes.length ∧
          OnWire (v.drive &&& Line.atn) ((shownBytes bytes k st).flatMap bitsOf) l ∧
            w = (counted n d l (v.count + k) v).failed st) := by
  induction bytes with
  | nil => exact fun _ _ _ => (Does.pure ()).gives ⟨0, [], .nil _, (View.skip_zero _).symm⟩
  | cons b bytes ih =>
    intro v hirq hdata hclock
    refine Gives.bind (Gives.mono (sendFramed_gives (bytes.isEmpty && !false) b hirq hdata) (fun _ _ h => h) ?_) ?_
    · rintro st w ⟨hst, n, d, l, rfl, hl⟩
      exact ⟨hst, 0, n, d, l, Nat.succ_pos _, by rwa [shownBytes_first], rfl⟩
    rintro - w ⟨n, l, hl, rfl⟩
    rw [hclock]
    refine (ih (v := counted n v.drive l (v.count + 1) v) hirq hdata hclock).mono ?_ ?_
    · rintro - w ⟨n', l', hl', rfl⟩
      refine ⟨n + n', l' ++ l, hl.append hl', ?_⟩
      rw [counted_counted, List.length_cons, Nat.add_assoc, Nat.add_comm 1]
      rfl
    · rintro st w ⟨hst, k, n', d, l', hk, hl', rfl⟩
      refine ⟨hst, k + 1, n + n', d, l' ++ l, Nat.succ_lt_succ hk, ?_, ?_⟩
      · rw [shownBytes_cons]
        exact hl.append hl'
      · rw [counted_counted, Nat.add_assoc, Nat.add_comm 1]

/-- What a failure adds: one entry, with the interrupt unmasked. -/
theorem failed_spec {st : Status} {v : View} (hst : releasesLines st = true) (hirq : v.irqOff = false) :
    (v.failed st).count = v.count ∧ ∃ e : Pins, (v.failed st).pins = e :: v.pins ∧ e.irqOff = false := by
  rw [failed_of_releasesLines hst hirq]
  split <;> exact ⟨rfl, _, rfl, hirq⟩

theorem originalBits_cons {e : Pins} (h : e.irqOff = false) (l : List Pins) :
    originalBits (e :: l) = originalBits l := by
  have hnone : originalBits [e] = [] := by simp [originalBits, h]
  rw [← List.singleton_append, originalBits_append, hnone, List.append_nil]

theorem ne_ok_of_releasesLines {st : Status} (h : releasesLines st = true) : st ≠ .ok := by
  rintro rfl
  cases h

/-- What is left when a write fails after `k` bytes, from a view that is `v` but for the start of the write. -/
def Failed (bytes : List Byte) (v : View) (st : Status) (w : View) : Prop :=
  st ≠ .ok ∧ ∃ k l, k < bytes.length ∧ w.count = k ∧ w.pins = l ++ v.pins ∧
    originalBits l = (shownBytes bytes k st).flatMap bitsOf

theorem failed_of_shown {bytes : List Byte} {v w : View} {st : Status} {k : Nat} {l : List Pins} {atn : LineMask}
    (hst : releasesLines st = true) (hirq : w.irqOff = false) (hk : k < bytes.length) (hcount : w.count = k)
    (hpins : w.pins = l ++ v.pins) (hl : OnWire atn ((shownBytes bytes k st).flatMap bitsOf) l) :
    Failed bytes v st (w.failed st) := by
  obtain ⟨hcount', e, hpins', he⟩ := failed_spec hst hirq
  refine ⟨ne_ok_of_releasesLines hst, k, e :: l, hk, hcount'.trans hcount, ?_, ?_⟩
  · rw [hpins', hpins]
    rfl
  · rw [originalBits_cons he, hl.bits]

/-- An ORIGINAL write, whatever the listener does. -/
theorem rawWrite_gives {v : View} {bytes : List Byte} (hirq : v.irqOff = false) (hpos : 0 < bytes.length) :
    Gives view (rawWrite bytes false false) v
      (fun _ w => w.count = bytes.length ∧ ∃ l, w.pins = l ++ v.pins ∧ originalBits l = bytes.flatMap bitsOf)
      (Failed bytes v) := by
  obtain ⟨hdata, hclock, -⟩ := startDrive_spec false v.drive
  have hstart : OnWire (startDrive false v.drive &&& Line.atn) [] (startEntries false v) := OnWire.entries hirq _ _
  refine Gives.bind (Q := fun _ w => ∃ k, w = (begun false v).skip k) (beginRawWrite_of_wait (Gives.waitOr _ _ _ _ _
    (fun k => ⟨k, rfl⟩) fun k => failed_of_shown rfl hirq hpos rfl rfl (hstart.append (.nil _)))) ?_
  rintro - w ⟨k, rfl⟩
  refine Gives.bind (Gives.mono (sendFramedEach_gives bytes (v := (begun false v).skip k) hirq hdata hclock)
    (fun _ _ h => h) ?_) ?_
  · rintro st w ⟨hst, i, n, d, l, hi, hl, rfl⟩
    exact failed_of_shown (l := l ++ startEntries false v) hst hirq hi (Nat.zero_add i)
      (List.append_assoc _ _ _).symm (hstart.append hl)
  rintro - w ⟨n, l, hl, rfl⟩
  refine (Does.releaseLines _ _).bind_gives ((Does.pause _ _).gives ⟨Nat.zero_add _,
    v.entry (startDrive false v.drive &&& ~~~Line.atn) :: (l ++ startEntries false v), ?_, ?_⟩)
  · show v.entry (startDrive false v.drive &&& ~~~Line.atn) :: (l ++ (startEntries false v ++ v.pins)) = _
    rw [List.cons_append, List.append_assoc]
  · rw [originalBits_cons (by exact hirq)]
    exact (hstart.append hl).bits

/-! ## The report -/

/-- What the pins show of a write that ended with `st`, having counted `k` bytes. -/
structure Shown (s : State) (bytes : List Byte) (st : Status) (k : Nat) (cleanup new : List Pins) : Prop where
  original : s.proto = .s1 → cleanup = [] ∧
    originalBits new = (bytes.take (k + if st = .nak then 1 else 0)).flatMap bitsOf
  cleaned : s.proto ≠ .s1 → cleanup.length = if st = .ok then 0 else 2
  parallel : s.proto = .pp →
    clockRises (cleanup ++ new) = (bytes.take (k + if st = .ok then 0 else 1)).map some
  parallel2 : s.proto = .p2 → clockChanges (decide (s.drive &&& Line.clock ≠ 0)) new =
    (bytes.take (k + if st = .ok then 0 else 1)).map some

/-- What a write leaves for its report. -/
structure Report (s : State) (bytes : List Byte) (st : Status) (u : State) : Prop where
  count : u.count ≤ bytes.length
  complete : st = .ok ↔ u.count = bytes.length
  shown : ∃ cleanup new, u.out.pins = cleanup ++ new ++ s.out.pins ∧ Shown s bytes st u.count cleanup new

theorem code_spec (st : Status) : (st.code = 0 ↔ st = .ok) ∧ (st.code = 5 ↔ st = .nak) := by
  cases st <;> decide

/-- The report as the request's registers show it (R267). -/
theorem Report.registers {s u : State} {bytes : List Byte} {st : Status} (h : Report s bytes st u)
    (hlen : bytes.length < 256) :
    let t := finished s st (byteOfCount u.count) u
    t.value.toNat ≤ bytes.length ∧ (t.status = 0 ↔ t.value.toNat = bytes.length) ∧
      ∃ cleanup new, t.out.pins = cleanup ++ new ++ s.out.pins ∧
        (s.proto = .s1 → cleanup = [] ∧ originalBits new =
          (bytes.take (t.value.toNat + if t.status = 5 then 1 else 0)).flatMap bitsOf) ∧
        (s.proto ≠ .s1 → cleanup.length = if t.status = 0 then 0 else 2) ∧
        (s.proto = .pp → clockRises (cleanup ++ new) =
          (bytes.take (t.value.toNat + if t.status = 0 then 0 else 1)).map some) ∧
        (s.proto = .p2 → clockChanges (decide (s.drive &&& Line.clock ≠ 0)) new =
          (bytes.take (t.value.toNat + if t.status = 0 then 0 else 1)).map some) := by
  obtain ⟨hok, hnak⟩ := code_spec st
  obtain ⟨hcount, hcomplete, cleanup, new, hpins, hshown⟩ := h
  have hvalue : (byteOfCount u.count).toNat = u.count := byteOfCount_toNat (by omega)
  simp only [finished_value, finished_status, finished_out, hvalue, hok, hnak]
  exact ⟨hcount, hcomplete, cleanup, new, hpins, hshown.original, hshown.cleaned, hshown.parallel, hshown.parallel2⟩

section
variable {s t : State} {bytes : List Byte} (h : Inv s) (hmode : s.mode = .write)
  (hfill : s.fill.toNat = bytes.length) (hbytes : ∀ k (h : k < bytes.length), s.buffer.get? k = some bytes[k])
include h hmode hfill hbytes

theorem report_s1 (hproto : s.proto = .s1) :
    ∃ st u, handle s = .next (finished s st (byteOfCount u.count) u) ∧ Report s bytes st u := by
  have hop := requestOp_rawWrite h hmode hproto hfill hbytes
  have hrequest := h.request.2.2
  rw [hmode] at hrequest
  obtain ⟨-, hpos⟩ := hrequest
  obtain ⟨st, u, hu, hpins, ⟨rfl, hcount, l, hl, hbits⟩ | ⟨hst, k, l, hk, hcount, hl, hbits⟩⟩ :=
    handle_of_gives (by rw [hmode]; rfl) hop (rawWrite_gives (bytes := bytes) (v := view s) h.quiet.1 (by omega))
  all_goals
    have hcount : u.count = _ := hcount
    obtain ⟨new, hnew, hstill⟩ := exists_new_pins hpins hl
    rw [← hstill, originalBits_still] at hbits
    have hother : ∀ {p : Proto}, p ≠ .s1 → s.proto ≠ p := fun hp hs => hp (hs.symm.trans hproto)
    refine ⟨_, u, hu, by omega, ?_, [], new, hnew, fun _ => ⟨rfl, ?_⟩, fun hno => absurd hproto hno,
      fun hp => absurd hp (hother nofun), fun hp => absurd hp (hother nofun)⟩
  · exact ⟨fun _ => hcount, fun _ => rfl⟩
  · rw [hbits, hcount, if_neg (by decide), Nat.add_zero, List.take_length]
  · exact ⟨fun hok => absurd hok hst, fun hk' => absurd hk' (by omega)⟩
  · rw [hbits, hcount]
    rfl

theorem report_s2 (hproto : s.proto = .s2) :
    ∃ st u, handle s = .next (finished s st (byteOfCount u.count) u) ∧ Report s bytes st u := by
  have hop := requestOp_write_of h hmode hfill hbytes (by rw [hproto, writeOp_s2])
  obtain ⟨hirq, hcount⟩ := view_of_inv h
  obtain ⟨st, u, hu, hpins, ⟨rfl, l, hview, -⟩ | hno⟩ :=
    handle_of_gives (by rw [hmode]; rfl) hop (Serial2.s2Write_gives hirq hcount bytes)
  · obtain ⟨new, hnew, -⟩ := exists_new_pins (l := l) hpins (congrArg View.pins hview)
    have hcount : u.count = bytes.length := congrArg View.count hview
    have hother : ∀ {p : Proto}, p ≠ .s2 → s.proto ≠ p := fun hp hs => hp (hs.symm.trans hproto)
    exact ⟨_, u, hu, Nat.le_of_eq hcount, ⟨fun _ => hcount, fun _ => rfl⟩, [], new, hnew,
      fun hp => absurd hp (hother nofun), fun _ => rfl, fun hp => absurd hp (hother nofun),
      fun hp => absurd hp (hother nofun)⟩
  · exact hno.elim

end

/-- The bytes announced when a block gives up. -/
theorem take_done {done rest bytes : List Byte} {b : Byte} (h : done ++ b :: rest = bytes) :
    bytes.take (done.length + 1) = done ++ [b] ∧ done.length < bytes.length := by
  subst h
  rw [List.append_cons]
  refine ⟨?_, by simp⟩
  rw [← List.length_singleton (a := b), ← List.length_append, List.take_left]

/-- The entries that the cleanup of a handshake timeout adds, and those before. -/
theorem pins_of_gaveUp {s u : State} {n c : Nat} {d : LineMask} {q : PortState} {l : List Pins} {v : View}
    (hirq : v.irqOff = false) (hv : v.pins = (view s).pins)
    (hview : view u = View.failed .hsTimeout (ran n d q l { v with count := c })) (hpins : s.out.pins <:+ u.out.pins) :
    u.count = c ∧ ∃ e e' new, u.out.pins = [e', e] ++ new ++ s.out.pins ∧ new.map still = l ∧
      e.drive &&& Line.clock = 0 ∧ e'.drive &&& Line.clock = 0 := by
  obtain ⟨e, e', he, he', hp, hcount, -⟩ := failed_hsTimeout_spec (n := n) (d := d) (q := q) (l := l)
    (v := { v with count := c }) hirq
  obtain ⟨new, hnew, hstill⟩ := exists_new_pins (l := e' :: e :: l) hpins (by rw [hview, hp, ← hv])
  obtain ⟨f', f, new, rfl⟩ : ∃ f' f new', new = f' :: f :: new' := by
    match new, hstill with
    | f' :: f :: new', _ => exact ⟨f', f, new', rfl⟩
  obtain ⟨rfl, rfl, rfl⟩ : still f' = e' ∧ still f = e ∧ new.map still = l := by simpa using hstill
  exact ⟨(congrArg View.count hview).trans hcount, f, f', new, hnew, rfl, he, he'⟩

section
variable {s t : State} {bytes : List Byte} (h : Inv s) (hmode : s.mode = .write)
  (hfill : s.fill.toNat = bytes.length) (hbytes : ∀ k (h : k < bytes.length), s.buffer.get? k = some bytes[k])
include h hmode hfill hbytes

theorem report_pp (hproto : s.proto = .pp) :
    ∃ st u, handle s = .next (finished s st (byteOfCount u.count) u) ∧ Report s bytes st u := by
  have hop := requestOp_write_of h hmode hfill hbytes (by rw [hproto, writeOp_pp])
  obtain ⟨hirq, hcount⟩ := view_of_inv h
  have hother : ∀ {p : Proto}, p ≠ .pp → s.proto ≠ p := fun hp hs => hp (hs.symm.trans hproto)
  obtain ⟨st, u, hu, hpins, ⟨rfl, n, q, l, hview, -, hl, -⟩ |
      ⟨l0, hl0, rfl, done, b, rest, hall, -, n, d, q, l, c, hl, hview⟩⟩ :=
    handle_of_gives (by rw [hmode]; rfl) hop (Parallel.ppWrite_gives hcount bytes)
  · obtain ⟨new, hnew, hstill⟩ := exists_new_pins (l := l) hpins (congrArg View.pins hview)
    have hcount : u.count = bytes.length := congrArg View.count hview
    refine ⟨_, u, hu, Nat.le_of_eq hcount, ⟨fun _ => hcount, fun _ => rfl⟩, [], new, hnew,
      fun hp => absurd hp (hother nofun), fun _ => rfl, fun _ => ?_, fun hp => absurd hp (hother nofun)⟩
    rw [← Parallel.clockRises_still, List.nil_append, hstill, hcount, if_pos rfl, Nat.add_zero, List.take_length]
    exact hl.all rfl
  · obtain ⟨hcount, e, e', new, hnew, hstill, he, he'⟩ := pins_of_gaveUp hirq rfl hview hpins
    obtain ⟨htake, hlt⟩ := take_done hall
    refine ⟨_, u, hu, by omega, ⟨nofun, fun hk => by omega⟩, [e', e], new, hnew, fun hp => absurd hp (hother nofun),
      fun _ => rfl, fun _ => ?_, fun hp => absurd hp (hother nofun)⟩
    rw [hcount, if_neg nofun, htake, ← Parallel.clockRises_still, List.map_append, hstill]
    have hend := ((hl0.append hl).cons (rises_low (p := still e) he c)).cons (rises_low (p := still e') he' false)
    simp only [List.nil_append, List.append_nil] at hend
    exact hend.all rfl

theorem report_p2 (hproto : s.proto = .p2) :
    ∃ st u, handle s = .next (finished s st (byteOfCount u.count) u) ∧ Report s bytes st u := by
  have hop := requestOp_write_of h hmode hfill hbytes (by rw [hproto, writeOp_p2])
  obtain ⟨hirq, hcount⟩ := view_of_inv h
  have hother : ∀ {p : Proto}, p ≠ .p2 → s.proto ≠ p := fun hp hs => hp (hs.symm.trans hproto)
  obtain ⟨st, u, hu, hpins, ⟨rfl, n, q, l, hview, -, hl, -⟩ |
      ⟨l0, hl0, rfl, done, b, rest, hall, -, n, d, q, l, c, hl, hview⟩⟩ :=
    handle_of_gives (by rw [hmode]; rfl) hop (Parallel2.p2Write_gives rfl hcount bytes)
  · obtain ⟨new, hnew, hstill⟩ := exists_new_pins (l := l) hpins (congrArg View.pins hview)
    have hcount : u.count = bytes.length := congrArg View.count hview
    refine ⟨_, u, hu, Nat.le_of_eq hcount, ⟨fun _ => hcount, fun _ => rfl⟩, [], new, hnew,
      fun hp => absurd hp (hother nofun), fun _ => rfl, fun hp => absurd hp (hother nofun), fun _ => ?_⟩
    rw [← Parallel2.clockChanges_still, hstill, hcount, if_pos rfl, Nat.add_zero, List.take_length]
    exact hl.all rfl
  · obtain ⟨hcount, e, e', new, hnew, hstill, -, -⟩ := pins_of_gaveUp hirq rfl hview hpins
    obtain ⟨htake, hlt⟩ := take_done hall
    refine ⟨_, u, hu, by omega, ⟨nofun, fun hk => by omega⟩, [e', e], new, hnew, fun hp => absurd hp (hother nofun),
      fun _ => rfl, fun hp => absurd hp (hother nofun), fun _ => ?_⟩
    rw [hcount, if_neg nofun, htake, ← Parallel2.clockChanges_still, hstill]
    exact (hl0.append hl).all rfl

/-- Every write leaves its report. -/
theorem exists_report : ∃ st u, handle s = .next (finished s st (byteOfCount u.count) u) ∧ Report s bytes st u := by
  cases hproto : s.proto with
  | s1 => exact report_s1 h hmode hfill hbytes hproto
  | s2 => exact report_s2 h hmode hfill hbytes hproto
  | pp => exact report_pp h hmode hfill hbytes hproto
  | p2 => exact report_p2 h hmode hfill hbytes hproto

end

end Sys2Proof.Proofs.WriteCount
end

section
/-! PROOF. What a READ request reports (44_async_handler.md R266; D8, D46), whatever the peer does: the bytes taken and
stored. -/

namespace Sys2Proof.Proofs.ReadCount

open Sys2Proof Sys2Proof.Machine Sys2Proof.Safety Sys2Proof.Proofs.Handler Sys2Proof.Proofs.Timeless
open Sys2Proof.Proofs.Deferred Sys2Proof.Proofs.Requests Sys2Proof.Proofs.Blocks Sys2Proof.Proofs.Talker
open Sys2Proof.Proofs.Ports

/-! ## A byte in ORIGINAL, whatever the talker does (R143) -/

/-- The changes of DATA in the entries with the interrupt unmasked. -/
abbrev acks : Bool → List Pins → List Bool := levels Line.data fun p => !p.irqOff

/-- A stretch of the record with the interrupt masked. -/
theorem acks_masked {l : List Pins} (h : ∀ p ∈ l, p.irqOff = true) (a : Bool) : Reads acks a l a [] := by
  induction l with
  | nil => exact .nil
  | cons p l ih =>
    exact (ih fun p hp => h p (List.mem_cons_of_mem _ hp)).cons (levels_skip (by simp [h p List.mem_cons_self]) a)

/-- An entry with the interrupt unmasked. -/
theorem acks_entry {p : Pins} {b : Bool} (hirq : p.irqOff = false) (h : decide (p.drive &&& Line.data ≠ 0) = b)
    (a : Bool) :
    Reads acks a [p] b (if a = b then [] else [b]) := by
  have hkeep : (!p.irqOff) = true := by rw [hirq]; rfl
  split
  · next hab =>
    subst hab
    exact levels_same hkeep h
  · next hab =>
    obtain rfl : b = !a := by cases a <;> cases b <;> first | rfl | exact absurd rfl hab
    exact levels_other hkeep h

/-- No byte has been acknowledged in this stretch of the record. -/
def Unacknowledged (l : List Pins) : Prop := ∀ a, ∃ c x, Reads acks a l c x ∧ x.count true = 0

/-- One byte has been acknowledged in this stretch of the record. -/
def Acknowledged (l : List Pins) : Prop := ∀ a, ∃ x, Reads acks a l true x ∧ x.count true = 1

/-- A wait whose outcome is looked at. -/
theorem waitFor_gives (v : View) (m x : LineMask) (t : Config → Nat) (E : Status → View → Prop) :
    Gives view (waitFor m x t) v (fun _ w => ∃ k, w = v.skip k) E := fun s hs => by
  obtain ⟨k, hk⟩ := view_wait s m x (t s.cfg)
  exact .inl ⟨_, _, rfl, pins_suffix_wait m x (t s.cfg) s, k, by rw [← hs, ← hk]⟩

/-- While the block listens: DATA released, the interrupt masked. -/
structure Hearing (v w : View) : Prop where
  drive : w.drive = v.drive &&& ~~~Line.data
  irqOff : w.irqOff = true
  count : w.count = v.count
  buffer : w.buffer = v.buffer
  cfg : w.cfg = v.cfg
  pins : ∃ l, w.pins = l ++ v.pins ∧ ∀ p ∈ l, p.irqOff = true

/-- What a byte leaves that has been taken. -/
structure Took (v w : View) : Prop where
  irqOff : w.irqOff = false
  count : w.count = v.count
  buffer : w.buffer = v.buffer
  cfg : w.cfg = v.cfg
  pins : ∃ l, w.pins = l ++ v.pins ∧ Acknowledged l

/-- What a failure leaves while the block listens. -/
structure Deaf (v : View) (st : Status) (w : View) : Prop where
  status : st ≠ .ok
  count : w.count = v.count
  buffer : w.buffer = v.buffer
  pins : ∃ l, w.pins = l ++ v.pins ∧ Unacknowledged l

section
variable {v w : View}

theorem Hearing.start (v : View) : Hearing v (listening v) := by
  refine ⟨rfl, rfl, rfl, rfl, rfl, [_, _], rfl, fun p hp => ?_⟩
  obtain rfl | rfl : p = _ ∨ p = _ := by simpa using hp
  all_goals rfl

theorem Hearing.skip (h : Hearing v w) (k : Nat) : Hearing v (w.skip k) :=
  ⟨h.drive, h.irqOff, h.count, h.buffer, h.cfg, h.pins⟩

/-- The EOI pulse leaves DATA released. -/
theorem Hearing.pulse (h : Hearing v w) {d : LineMask} (hd : d = v.drive &&& ~~~Line.data) (d' : LineMask) :
    Hearing v ((({ w with eoi := true } : View).draw d').draw d) := by
  obtain ⟨hdrive, hirq, hcount, hbuffer, hcfg, l, hl, hmasked⟩ := h
  refine ⟨hd, hirq, hcount, hbuffer, hcfg, ⟨0, d, w.portShown, w.irqOff⟩ :: ⟨0, d', w.portShown, w.irqOff⟩ :: l, ?_,
    fun p hp => ?_⟩
  · show _ :: _ :: w.pins = _
    rw [hl]
    rfl
  · obtain rfl | rfl | hp : p = _ ∨ p = _ ∨ p ∈ l := by simpa using hp
    · exact hirq
    · exact hirq
    · exact hmasked p hp

/-- The failure of a masked section: the interrupt is unmasked, then the lines are released. -/
theorem failed_masked (h : w.irqOff = true) :
    (w.failed .readBitTimeout).count = w.count ∧ (w.failed .readBitTimeout).buffer = w.buffer ∧
      (w.failed .readBitTimeout).pins =
        ⟨0, w.drive &&& ~~~(Line.clock ||| Line.data ||| Line.atn), w.portShown, false⟩ ::
          ⟨0, w.drive, w.portShown, false⟩ :: w.pins := by
  obtain ⟨d, o, oe, eoi, bus, irq⟩ := w
  cases h
  exact ⟨rfl, rfl, rfl⟩

theorem data_of_released (d : LineMask) : decide (d &&& ~~~Line.data &&& Line.data ≠ 0) = false ∧
    decide (d &&& ~~~Line.data &&& ~~~(Line.clock ||| Line.data ||| Line.atn) &&& Line.data ≠ 0) = false ∧
      decide ((d &&& ~~~Line.data ||| Line.data) &&& Line.data ≠ 0) = true := by
  revert d
  decide

theorem Hearing.fails (h : Hearing v w) : Deaf v .readBitTimeout (w.failed .readBitTimeout) := by
  obtain ⟨hdrive, hirq, hcount, hbuffer, -, l, hl, hmasked⟩ := h
  obtain ⟨hcount', hbuffer', hpins⟩ := failed_masked hirq
  obtain ⟨hlow, hlow', -⟩ := data_of_released v.drive
  refine ⟨nofun, hcount'.trans hcount, hbuffer'.trans hbuffer,
    ⟨0, w.drive &&& ~~~(Line.clock ||| Line.data ||| Line.atn), w.portShown, false⟩ ::
      ⟨0, w.drive, w.portShown, false⟩ :: l, hpins.trans (by rw [hl]; rfl), fun a => ?_⟩
  have hreads := ((acks_masked hmasked a).cons (acks_entry (b := false) (p := ⟨0, w.drive, w.portShown, false⟩) rfl
    (by rw [hdrive]; exact hlow) a)).cons (acks_entry (b := false)
      (p := ⟨0, w.drive &&& ~~~(Line.clock ||| Line.data ||| Line.atn), w.portShown, false⟩) rfl
      (by rw [hdrive]; exact hlow') false)
  refine ⟨_, _, hreads, ?_⟩
  cases a <;> rfl

/-- The acknowledgement of the byte. -/
theorem Hearing.acknowledge (h : Hearing v w) : Took v ((w.mask false).draw (w.drive ||| Line.data)) := by
  obtain ⟨hdrive, hirq, hcount, hbuffer, hcfg, l, hl, hmasked⟩ := h
  obtain ⟨hlow, -, hhigh⟩ := data_of_released v.drive
  refine ⟨rfl, hcount, hbuffer, hcfg, ⟨0, w.drive ||| Line.data, w.portShown, false⟩ ::
    ⟨0, w.drive, w.portShown, false⟩ :: l, ?_, fun a => ?_⟩
  · show _ :: _ :: w.pins = _
    rw [hl]
    rfl
  · have hreads := ((acks_masked hmasked a).cons (acks_entry (b := false) (p := ⟨0, w.drive, w.portShown, false⟩) rfl
      (by rw [hdrive]; exact hlow) a)).cons
        (acks_entry (b := true) (p := ⟨0, w.drive ||| Line.data, w.portShown, false⟩) rfl
          (by rw [hdrive]; exact hhigh) false)
    refine ⟨_, hreads, ?_⟩
    cases a <;> rfl

/-- The bits of a byte. -/
theorem readBits_gives (n : Nat) :
    ∀ {w : View} (b : Byte), Hearing v w → Gives view (readBits n b) w (fun _ => Hearing v) (Deaf v) := by
  induction n with
  | zero => exact fun b h => (Does.pure b).gives h
  | succ n ih =>
    intro w b h
    have hwait : ∀ x {w}, Hearing v w →
        Gives view (waitOr Line.clock x (·.tAck) .readBitTimeout) w (fun _ => Hearing v) (Deaf v) := fun x w h =>
      Gives.waitOr _ _ _ _ _ (fun k => h.skip k) fun k => (h.skip k).fails
    exact (hwait 0 h).bind fun _ w h => (Does.getLine w _).bind_gives ((hwait _ (h.skip 1)).bind fun _ w h => ih _ h)

theorem acknowledgeEoi_gives (h : Hearing v w) : Gives view acknowledgeEoi w (fun _ => Hearing v) (Deaf v) := by
  refine (Does.setEoi w).bind_gives ((Does.assertLines _ _).bind_gives ((Does.pause _ _).bind_gives
    ((Does.releaseLines _ _).bind_gives (Gives.waitOr _ _ _ _ _ ?_ ?_))))
  all_goals
    obtain ⟨-, -, hback, -⟩ := readByte_drive v.drive
    have hpulse := h.pulse (d := (w.drive ||| Line.data) &&& ~~~Line.data) (by rw [h.drive]; exact hback)
      (w.drive ||| Line.data)
  · exact fun k => hpulse.skip k
  · exact fun k => (hpulse.skip k).fails

/-- A byte, whatever the talker does. -/
theorem readByte_gives (v : View) : Gives view readByte v (fun _ => Took v) (Deaf v) := by
  refine (Does.irqMask v).bind_gives ((Does.releaseLines _ _).bind_gives
    ((waitFor_gives (listening v) _ _ _ _).bind fun clocked w hw => ?_))
  obtain ⟨k, rfl⟩ := hw
  have hstart := (Hearing.start v).skip k
  refine Gives.bind (Q := fun _ => Hearing v) ?_ fun _ w h => (readBits_gives 8 0 h).bind fun b w h =>
    (Does.irqUnmask w).bind_gives ((Does.assertLines _ _).bind_gives ((Does.pure b).gives h.acknowledge))
  cases clocked
  · exact acknowledgeEoi_gives hstart
  · exact (Does.doIf_false _).gives hstart

end

/-! ## An ORIGINAL read, whatever the talker does (R180) -/

/-- These bytes have been stored, each acknowledged. -/
structure Stored (v : View) (bytes : List Byte) (w : View) : Prop where
  count : w.count = bytes.length
  buffer : w.buffer = v.buffer.setMany 0 bytes
  pins : ∃ l c x, w.pins = l ++ v.pins ∧ Reads acks false l c x ∧ x.count true = bytes.length

/-- What a turn of the loop starts from. -/
structure Turn (v : View) (bytes : List Byte) (w : View) : Prop where
  stored : Stored v bytes w
  irqOff : w.irqOff = false
  cfg : w.cfg = v.cfg

section
variable {v w w' : View} {bytes : List Byte}

theorem Turn.start (hirq : v.irqOff = false) (hcount : v.count = 0) : Turn v [] v :=
  ⟨⟨hcount, rfl, [], false, [], rfl, .nil, rfl⟩, hirq, rfl⟩

theorem Turn.skip (h : Turn v bytes w) (k : Nat) : Turn v bytes (w.skip k) :=
  ⟨⟨h.stored.count, h.stored.buffer, h.stored.pins⟩, h.irqOff, h.cfg⟩

theorem Turn.stalls (h : Turn v bytes w) : Stored v bytes (w.failed .readStall) := by
  obtain ⟨⟨hcount, hbuffer, hpins⟩, hirq, -⟩ := h
  obtain ⟨d, o, oe, eoi, bus, irq⟩ := w
  cases hirq
  exact ⟨hcount, hbuffer, hpins⟩

theorem Turn.deaf {st : Status} (h : Turn v bytes w) (hdeaf : Deaf w st w') : st ≠ .ok ∧ Stored v bytes w' := by
  obtain ⟨⟨hcount, hbuffer, l, c, x, hl, hx, hn⟩, -, -⟩ := h
  obtain ⟨hst, hcount', hbuffer', l', hl', hno⟩ := hdeaf
  obtain ⟨c', x', hx', hn'⟩ := hno c
  exact ⟨hst, hcount'.trans hcount, hbuffer'.trans hbuffer, l' ++ l, c', x ++ x', by rw [hl', hl, List.append_assoc],
    hx.append hx', by rw [List.count_append, hn, hn', Nat.add_zero]⟩

/-- A byte is taken and stored. -/
theorem Turn.store (h : Turn v bytes w) (htook : Took w w') (b : Byte) (hroom : bytes.length < v.cfg.bufSize) :
    ∃ w'', Does view (storeByte b) w' () w'' ∧ Turn v (bytes ++ [b]) w'' := by
  obtain ⟨⟨hcount, hbuffer, l, c, x, hl, hx, hn⟩, -, hcfg⟩ := h
  obtain ⟨hirq, hcount', hbuffer', hcfg', l', hl', hyes⟩ := htook
  obtain ⟨x', hx', hn'⟩ := hyes c
  have hw : w' = taken bytes { w' with buffer := v.buffer } := by
    show w' = { w' with buffer := v.buffer.setMany 0 bytes, count := bytes.length }
    rw [← hcount, ← hbuffer, ← hcount', ← hbuffer']
  have hstore := Does.storeByte (v := { w' with buffer := v.buffer }) (bytes := bytes) b (by
    show bytes.length < w'.cfg.bufSize
    rwa [hcfg', hcfg])
  rw [← hw] at hstore
  refine ⟨_, hstore, ⟨rfl, rfl, l' ++ l, true, x ++ x', ?_, hx.append hx', ?_⟩, hirq, hcfg'.trans hcfg⟩
  · show w'.pins = _
    rw [hl', hl, List.append_assoc]
  · rw [List.count_append, hn, hn', List.length_append]
    rfl

/-- The loop. -/
theorem readLoop_gives {cap : Nat} (hroom : cap ≤ v.cfg.bufSize) (n : Nat) :
    ∀ {bytes : List Byte} {w : View}, Turn v bytes w → bytes.length + n = cap →
      Gives view (readLoop n) w
        (fun _ w => ∃ bytes, Stored v bytes w ∧ bytes.length ≤ cap ∧ (bytes.length = cap ∨ w.eoi = true))
        (fun st w => st ≠ .ok ∧ ∃ bytes, Stored v bytes w ∧ bytes.length < cap) := by
  induction n with
  | zero => exact fun {bytes w} h hn => (Does.pure ()).gives ⟨bytes, h.stored, Nat.le_of_eq hn, .inl hn⟩
  | succ n ih =>
    intro bytes w h hn
    refine Gives.bind (Q := fun _ => Turn v bytes) (Gives.waitOr _ _ _ _ _ (fun k => h.skip k) fun k =>
      ⟨nofun, bytes, (h.skip k).stalls, by omega⟩) fun _ w h => ?_
    refine Gives.bind (Gives.mono (readByte_gives w) (fun _ _ h => h) fun st w' hdeaf => ?_) fun b w' htook => ?_
    · obtain ⟨hst, hstored⟩ := h.deaf hdeaf
      exact ⟨hst, bytes, hstored, by omega⟩
    · obtain ⟨w'', hstore, hturn⟩ := h.store htook b (by omega)
      have hlength : (bytes ++ [b]).length = bytes.length + 1 := by rw [List.length_append, List.length_singleton]
      refine hstore.bind_gives ((Does.pause _ _).bind_gives (Gives.get_bind fun s hs => ?_))
      have heoi : s.eoi = w''.eoi := congrArg View.eoi hs
      split
      · next h => exact (Does.pure ()).gives ⟨_, hturn.stored, by omega, .inr (heoi.symm.trans h)⟩
      · exact ih hturn (by omega)

theorem rawRead_gives {cap : Nat} (hroom : cap ≤ v.cfg.bufSize) (hirq : v.irqOff = false) (hcount : v.count = 0) :
    Gives view (rawRead cap) v
      (fun _ w => ∃ bytes, Stored v bytes w ∧ bytes.length ≤ cap ∧ (bytes.length = cap ∨ w.eoi = true))
      (fun st w => st ≠ .ok ∧ ∃ bytes, Stored v bytes w ∧ bytes.length < cap) := by
  have hstart := Turn.start hirq hcount
  refine Gives.get_bind fun s hs => ?_
  have heoi : s.eoi = v.eoi := congrArg View.eoi hs
  split
  · next h => exact (Does.pure ()).gives ⟨[], hstart.stored, Nat.zero_le _, .inr (heoi.symm.trans h)⟩
  · exact readLoop_gives hroom cap hstart (Nat.zero_add _)

end

/-! ## The report -/

/-- What a read leaves for its report. -/
structure Report (s : State) (st : Status) (u : State) : Prop where
  stored : ∃ bytes : List Byte, u.count = bytes.length ∧ u.buffer = s.buffer.setMany 0 bytes
  bound : u.count ≤ s.fill.toNat
  failed : st ≠ .ok → u.count < s.fill.toNat
  complete : st = .ok → u.count = s.fill.toNat ∨ s.proto = .s1 ∧ u.eoi = true
  shown : ∃ cleanup new, u.out.pins = cleanup ++ new ++ s.out.pins ∧
    (s.proto = .s1 → cleanup = [] ∧
      (lineChanges Line.data false (new.filter fun p => !p.irqOff)).count true = u.count) ∧
    (s.proto ≠ .s1 → cleanup.length = if st = .ok then 0 else 2) ∧
    (s.proto = .pp → (lineChanges Line.data false new).count false = u.count) ∧
    (s.proto = .p2 → (lineChanges Line.data (decide (s.drive &&& Line.data ≠ 0)) new).length = u.count)

/-- The report as the request's registers show it (R266). -/
theorem Report.registers {s u : State} {st : Status} (h : Report s st u) (hmode : s.mode = .read) :
    let t := finished s st (byteOfCount u.count) u
    t.value = t.fill ∧ t.fill.toNat ≤ s.fill.toNat ∧ (∀ a, a < t.fill.toNat → (t.buffer.get? a).isSome = true) ∧
      (∀ a, t.fill.toNat ≤ a → t.buffer.get? a = s.buffer.get? a) ∧
      (t.status ≠ 0 → t.fill.toNat < s.fill.toNat) ∧
      (t.status = 0 → t.fill = s.fill ∨ s.proto = .s1 ∧ t.eoi = true) ∧
      ∃ cleanup new, t.out.pins = cleanup ++ new ++ s.out.pins ∧
        (s.proto = .s1 → cleanup = [] ∧
          (lineChanges Line.data false (new.filter fun p => !p.irqOff)).count true = t.fill.toNat) ∧
        (s.proto ≠ .s1 → cleanup.length = if t.status = 0 then 0 else 2) ∧
        (s.proto = .pp → (lineChanges Line.data false new).count false = t.fill.toNat) ∧
        (s.proto = .p2 →
          (lineChanges Line.data (decide (s.drive &&& Line.data ≠ 0)) new).length = t.fill.toNat) := by
  obtain ⟨hok, -⟩ := WriteCount.code_spec st
  obtain ⟨⟨bytes, hcount, hbuffer⟩, hbound, hfailed, hcomplete, hshown⟩ := h
  have hvalue : (byteOfCount u.count).toNat = u.count := byteOfCount_toNat (by have := s.fill.isLt; omega)
  simp only [finished_value, finished_fill, hmode, if_true, finished_status, finished_out, finished_buffer,
    finished_eoi, hvalue, hok, ne_eq]
  refine ⟨trivial, hbound, fun a ha => ?_, fun a ha => ?_, hfailed, fun hst => ?_, hshown⟩
  · rw [hbuffer, get?_taken (by omega)]
    rfl
  · rw [hbuffer, Memory.get?_setMany_outside bytes s.buffer (.inr (by omega))]
  · exact (hcomplete hst).imp (fun h => byteOfCount_fill h.symm) id

/-- The changes of DATA in the record, read off its entries without their times. -/
theorem lineChanges_of_reads {keep : Pins → Bool} (hkeep : ∀ p, keep (still p) = keep p) {new l : List Pins}
    {a c : Bool} {x : List Bool} (hstill : new.map still = l) (hx : Reads (levels Line.data keep) a l c x) :
    lineChanges Line.data a (new.filter keep) = x := by
  rw [lineChanges_filter, ← levels_still Line.data hkeep, List.map_reverse, hstill]
  exact hx.all rfl

/-- The same for all entries. -/
theorem lineChanges_of_reads_all {new l : List Pins} {a c : Bool} {x : List Bool} (hstill : new.map still = l)
    (hx : Reads (levels Line.data fun _ => true) a l c x) : lineChanges Line.data a new = x := by
  have h := lineChanges_of_reads (fun _ => rfl) hstill hx
  rwa [List.filter_true] at h

section
variable {s : State} (h : Inv s) (hmode : s.mode = .read)
include h hmode

theorem report_s1 (hproto : s.proto = .s1) :
    ∃ st u, handle s = .next (finished s st (byteOfCount u.count) u) ∧ Report s st u := by
  have hop := requestOp_read h hmode (by rw [hproto, readOp_s1])
  obtain ⟨hirq, hcount⟩ := view_of_inv h
  have hother : ∀ {p : Proto}, p ≠ .s1 → s.proto ≠ p := fun hp hs => hp (hs.symm.trans hproto)
  obtain ⟨st, u, hu, hpins, ⟨rfl, bytes, ⟨hcount, hbuffer, l, c, x, hl, hx, hn⟩, hle, hend⟩ |
      ⟨hst, bytes, ⟨hcount, hbuffer, l, c, x, hl, hx, hn⟩, hlt⟩⟩ :=
    handle_of_gives (by rw [hmode]; rfl) hop (rawRead_gives (v := view s) h.request.2.1 hirq hcount)
  all_goals
    have hcount : u.count = bytes.length := hcount
    obtain ⟨new, hnew, hstill⟩ := exists_new_pins hpins hl
    refine ⟨_, u, hu, ⟨bytes, hcount, hbuffer⟩, by omega, ?_, ?_, [], new, hnew, fun _ => ⟨rfl, ?_⟩,
      fun hno => absurd hproto hno, fun hp => absurd hp (hother nofun), fun hp => absurd hp (hother nofun)⟩
  · exact fun hno => absurd rfl hno
  · exact fun _ => hend.imp hcount.trans fun heoi => ⟨hproto, heoi⟩
  · rw [lineChanges_of_reads (fun _ => rfl) hstill hx, hn, hcount]
  · exact fun _ => by omega
  · exact fun hok => absurd hok hst
  · rw [lineChanges_of_reads (fun _ => rfl) hstill hx, hn, hcount]

theorem report_s2 (hproto : s.proto = .s2) :
    ∃ st u, handle s = .next (finished s st (byteOfCount u.count) u) ∧ Report s st u := by
  have hop := requestOp_read h hmode (by rw [hproto, readOp_s2])
  obtain ⟨hirq, hcount⟩ := view_of_inv h
  have hother : ∀ {p : Proto}, p ≠ .s2 → s.proto ≠ p := fun hp hs => hp (hs.symm.trans hproto)
  obtain ⟨st, u, hu, hpins, ⟨rfl, l, hview⟩ | hno⟩ :=
    handle_of_gives (by rw [hmode]; rfl) hop (Serial2.s2Read_gives (v := view s) hirq hcount h.request.2.1)
  · obtain ⟨new, hnew, -⟩ := exists_new_pins (l := l) hpins (congrArg View.pins hview)
    have hcount : u.count = ((List.range s.fill.toNat).map fun a => Serial2.pairByte (view s) (4 * a)).length :=
      congrArg View.count hview
    have hfill : u.count = s.fill.toNat := by rw [hcount, List.length_map, List.length_range]
    exact ⟨_, u, hu, ⟨_, hcount, congrArg View.buffer hview⟩, Nat.le_of_eq hfill, fun hno => absurd rfl hno,
      fun _ => .inl hfill, [], new, hnew, fun hp => absurd hp (hother nofun), fun _ => rfl,
      fun hp => absurd hp (hother nofun), fun hp => absurd hp (hother nofun)⟩
  · exact hno.elim

omit hmode in
/-- What is left of a block that broke off. -/
theorem broke_outcome {f : Bool → List Pins → List Bool} {size : List Bool → Nat} {offers : Nat → Prop} {a b : Bool}
    {l0 : List Pins} {st : Status} {u : State} (hl0 : Reads f a l0 b []) (hpins : s.out.pins <:+ u.out.pins)
    (hbroke : Broke f size offers s.fill.toNat b l0 (view s) st (view u)) :
    st = .hsTimeout ∧ u.count < s.fill.toNat ∧ (∃ bytes : List Byte, u.count = bytes.length ∧
      u.buffer = s.buffer.setMany 0 bytes) ∧ ∃ e e' new c x, u.out.pins = [e', e] ++ new ++ s.out.pins ∧
        Reads f a (new.map still) c x ∧ size x = u.count := by
  obtain ⟨rfl, -, bytes, n, d, q, l, c, x, hlt, hl, hsize, hview⟩ := hbroke
  obtain ⟨hcount, e, e', new, hnew, hstill, -, -⟩ := WriteCount.pins_of_gaveUp (v := taken bytes (view s))
    (c := bytes.length) h.quiet.1 rfl hview hpins
  obtain ⟨-, -, -, -, -, -, hbuffer⟩ := failed_hsTimeout_spec (n := n) (d := d) (q := q) (l := l ++ l0)
    (v := taken bytes (view s)) h.quiet.1
  refine ⟨rfl, by omega, ⟨bytes, hcount, (congrArg View.buffer hview).trans hbuffer⟩, e, e', new, c, x, hnew, ?_,
    by rw [hsize, hcount]⟩
  rw [hstill]
  exact hl0.append hl

theorem report_pp (hproto : s.proto = .pp) :
    ∃ st u, handle s = .next (finished s st (byteOfCount u.count) u) ∧ Report s st u := by
  have hop := requestOp_read h hmode (by rw [hproto, readOp_pp])
  obtain ⟨hirq, hcount⟩ := view_of_inv h
  have hother : ∀ {p : Proto}, p ≠ .pp → s.proto ≠ p := fun hp hs => hp (hs.symm.trans hproto)
  obtain ⟨st, u, hu, hpins, ⟨rfl, bytes, n, q, l, x, hlen, hview, -, -, hl, hx, -⟩ | ⟨l0, hl0, hbroke⟩⟩ :=
    handle_of_gives (by rw [hmode]; rfl) hop (Parallel.ppRead_gives (v := view s) hcount h.request.2.1)
  · obtain ⟨new, hnew, hstill⟩ := exists_new_pins (l := l) hpins (congrArg View.pins hview)
    have hcount : u.count = bytes.length := congrArg View.count hview
    refine ⟨_, u, hu, ⟨bytes, hcount, congrArg View.buffer hview⟩, by omega, fun hno => absurd rfl hno,
      fun _ => .inl (hcount.trans hlen), [], new, hnew, fun hp => absurd hp (hother nofun), fun _ => rfl, fun _ => ?_,
      fun hp => absurd hp (hother nofun)⟩
    rw [lineChanges_of_reads_all hstill hl, hx, hcount, hlen]
  · obtain ⟨rfl, hlt, hstored, e, e', new, c, x, hnew, hx, hsize⟩ := broke_outcome h hl0 hpins hbroke
    refine ⟨_, u, hu, hstored, Nat.le_of_lt hlt, fun _ => hlt, nofun, [e', e], new, hnew,
      fun hp => absurd hp (hother nofun), fun _ => rfl, fun _ => ?_, fun hp => absurd hp (hother nofun)⟩
    rw [lineChanges_of_reads_all rfl hx, hsize]

theorem report_p2 (hproto : s.proto = .p2) :
    ∃ st u, handle s = .next (finished s st (byteOfCount u.count) u) ∧ Report s st u := by
  have hop := requestOp_read h hmode (by rw [hproto, readOp_p2])
  obtain ⟨hirq, hcount⟩ := view_of_inv h
  have hother : ∀ {p : Proto}, p ≠ .p2 → s.proto ≠ p := fun hp hs => hp (hs.symm.trans hproto)
  obtain ⟨st, u, hu, hpins, ⟨rfl, bytes, n, q, l, x, hlen, hview, -, -, hl, hx, -⟩ | ⟨l0, hl0, hbroke⟩⟩ :=
    handle_of_gives (by rw [hmode]; rfl) hop (Parallel2.p2Read_gives (v := view s) rfl hcount h.request.2.1)
  · obtain ⟨new, hnew, hstill⟩ := exists_new_pins (l := l) hpins (congrArg View.pins hview)
    have hcount : u.count = bytes.length := congrArg View.count hview
    refine ⟨_, u, hu, ⟨bytes, hcount, congrArg View.buffer hview⟩, by omega, fun hno => absurd rfl hno,
      fun _ => .inl (hcount.trans hlen), [], new, hnew, fun hp => absurd hp (hother nofun), fun _ => rfl,
      fun hp => absurd hp (hother nofun), fun _ => ?_⟩
    exact (congrArg List.length (lineChanges_of_reads_all hstill hl)).trans (by rw [hx, hcount, hlen])
  · obtain ⟨rfl, hlt, hstored, e, e', new, c, x, hnew, hx, hsize⟩ := broke_outcome h hl0 hpins hbroke
    refine ⟨_, u, hu, hstored, Nat.le_of_lt hlt, fun _ => hlt, nofun, [e', e], new, hnew,
      fun hp => absurd hp (hother nofun), fun _ => rfl, fun hp => absurd hp (hother nofun), fun _ => ?_⟩
    exact (congrArg List.length (lineChanges_of_reads_all rfl hx)).trans hsize

/-- Every read leaves its report. -/
theorem exists_report : ∃ st u, handle s = .next (finished s st (byteOfCount u.count) u) ∧ Report s st u := by
  cases hproto : s.proto with
  | s1 => exact report_s1 h hmode hproto
  | s2 => exact report_s2 h hmode hproto
  | pp => exact report_pp h hmode hproto
  | p2 => exact report_p2 h hmode hproto

end

/-- Settles O38. -/
theorem handlerReportsCount : Obligations.HandlerReportsCount := by
  refine fun s t h ht => ⟨fun hmode => ?_, fun bytes hmode hfill hbytes => ?_⟩
  · obtain ⟨st, u, hu, hreport⟩ := exists_report h hmode
    obtain rfl : _ = t := Host.Outcome.next.inj (hu.symm.trans ht)
    exact hreport.registers hmode
  · obtain ⟨st, u, hu, hreport⟩ := WriteCount.exists_report h hmode hfill hbytes
    obtain rfl : _ = t := Host.Outcome.next.inj (hu.symm.trans ht)
    exact hreport.registers (by rw [← hfill]; exact s.fill.isLt)

end Sys2Proof.Proofs.ReadCount
end
